-- ==== Sys2Proof/Word.lean ====
section
/-! DEFINITION. The word types of the block. Every stream access is one byte wide (20_memory.md R57). The range
coder, the BCJ position and the CRC32 and SHA-256 registers are u32, and CRC64 and the SHA-256 length are u64
(00_scope.md R11, R13, 10_state.md R22, R44, R47). A probability is an 11-bit value (R38). -/

namespace Sys2Proof

/-- A stream or dictionary byte, `u8` of R13. -/
abbrev Byte := BitVec 8

/-- `u32` of R13. -/
abbrev Word32 := BitVec 32

/-- `u64` of R13. -/
abbrev Word64 := BitVec 64

/-- A cell of the probability memory `P`: an 11-bit probability (R38, 00_scope.md R11). -/
abbrev Prob := BitVec 11

end Sys2Proof
end

