-- ==== Sys2Proof/Config.lean ====
section
/-! DEFINITION. What is fixed for every instance of the block, and the free values: the register contents that the
spec leaves unspecified after an operation (10_state.md R50, 93_implementation_defined.md I4, I5). -/

namespace Sys2Proof.Config

/-- The probability memory is "a file of 14134 cells" (10_state.md R38). -/
def probCells : Nat := 14134

/-- "Initialize every probability to 1024 (midpoint)" (R38, 70_reset_and_hazards.md R148). -/
def probInit : Prob := 1024

/-- The cap that a written value of 0 selects: 64 MiB (10_state.md R33). -/
def defaultCap : Word32 := 0x04000000

/-- What a byte of the dictionary that nothing has written reads as. DESIGN CHOICE, log entry 2. -/
def dictFill : Byte := 0

/-- FREE VALUE, log entry 3: what the `k`-th register left unspecified holds after the `n`-th such event. -/
opaque freeWord : Nat → Nat → Nat

/-- FREE VALUE, log entry 3: what the `k`-th byte buffer left unspecified holds after the `n`-th such event. -/
opaque freeBytes : Nat → Nat → List Byte

/-- FREE VALUE, log entry 3: the cells of `P` after the `n`-th such event. -/
opaque freeProbs : Nat → List (Nat × Prob)

end Sys2Proof.Config
end

