-- ==== Sys2Proof/Syntax.lean ====
section
/-! DEFINITION. What the block executes: one constructor of `Instr` per row of opcode_table.json.
The table's rows are of four sorts (30_encoding.md): encoded units of the LZMA2 stream and of the configuration
(R67, R71, R72, R77), range-coded packets and their length and distance forms (R73, R74, R75), BCJ branch patterns
(R76), and operations without a bit pattern: the internal operations that the sequencer runs and the seven host
operations (60_exceptions.md R133). -/

namespace Sys2Proof

/-- The four operations of HEADER, one per header byte of a chunk (41_lzma2_chunks.md R95). -/
inductive HeaderByte
  | uncompressed1
  | uncompressed2
  | compressed1
  | compressed2
  deriving DecidableEq, Repr

/-- The six BCJ architectures (00_scope.md R3, R12). -/
inductive Arch
  | x86
  | powerpc
  | ia64
  | arm
  | armthumb
  | sparc
  deriving DecidableEq, Repr

/-- The two length coders (42_lzma_symbols.md R107). -/
inductive LenCoder
  | matchLen
  | repLen
  deriving DecidableEq, Repr

/-- One constructor per row of opcode_table.json, in the table's order. -/
inductive Instr
  -- LZMA2 control bytes (R67, R68)
  | endMark
  | uncDr
  | unc
  | reservedCtrl (c : Byte)
  | lz0 (u : BitVec 5)
  | lz1 (u : BitVec 5)
  | lz2 (u : BitVec 5)
  | lz3 (u : BitVec 5)
  -- property bytes (R71, R72)
  | props (v : Byte)
  | dictProp (b : Byte)
  -- LZMA packets (R73)
  | lit
  | mlit
  | matchNew
  | shortRep
  | longRep0
  | longRep1
  | longRep2
  | longRep3
  -- lengths (R74) and distances (R75)
  | lenLow (t : BitVec 3)
  | lenMid (t : BitVec 3)
  | lenHigh (t : BitVec 8)
  | distSlot0To3 (slot : BitVec 6)
  | distSlot4To13 (slot : BitVec 6) (t : BitVec 5)
  | distSlot14To63 (slot : BitVec 6) (x : BitVec 26) (a : BitVec 4)
  -- BCJ branch patterns (R76)
  | bcjX86CallJmp (jmp : Bool) (operand : Word32)
  | bcjPpcBl (a : BitVec 24)
  | bcjIa64BranchSlot (slot : Fin 3) (norm : BitVec 41)
  | bcjArmBl (a : BitVec 24)
  | bcjThumbBl (a : BitVec 22)
  | bcjSparcCallPos (d : BitVec 22)
  | bcjSparcCallNeg (d : BitVec 22)
  -- check types (R77)
  | checkNone
  | checkCrc32
  | checkCrc64
  | checkSha256
  | checkUnsupported (b : Byte)
  -- internal operations
  | dictCheck
  | control
  | header (h : HeaderByte)
  | properties
  | prepare
  | run
  | chunkEnd
  | copy
  | rcInit
  | rcNorm
  | rcBit (i : Nat)
  | rcTree (base n : Nat)
  | rcTreeRev (base n : Nat)
  | rcDirect (n : Nat)
  | rcFinished
  | bcjFlush
  | chkUpdate (b : Byte)
  | chkFinalize
  | dictReset
  | lzmaStateReset
  | rcReset
  -- host operations (R133)
  | hostReset (cap : Word32)
  | hostConfig (dictProp : Byte) (bcjArch : Option Byte) (checkType : Byte)
  | hostFeed (bytes : List Byte)
  | hostEndInput
  | hostSpace (n : Nat)
  | hostRun
  | hostCompare (tag : List Byte)
  deriving DecidableEq, Repr

/-- The seven operations of the host, which are the only way it acts on the block (R133). -/
inductive HostOp
  | reset (cap : Word32)
  | config (dictProp : Byte) (bcjArch : Option Byte) (checkType : Byte)
  | feed (bytes : List Byte)
  | endInput
  | space (n : Nat)
  | run
  | compare (tag : List Byte)
  deriving DecidableEq, Repr

/-- The row of the opcode table that a host operation is. -/
def HostOp.toInstr : HostOp → Instr
  | .reset cap => .hostReset cap
  | .config dp arch ct => .hostConfig dp arch ct
  | .feed bs => .hostFeed bs
  | .endInput => .hostEndInput
  | .space n => .hostSpace n
  | .run => .hostRun
  | .compare tag => .hostCompare tag

end Sys2Proof
end

