-- ==== Sys2Proof/WellFormed.lean ====
section
/-! DEFINITION. Which terms of `Instr` are instructions: the operand ranges that the spec gives and that the types of
`Syntax` do not already say. -/

namespace Sys2Proof

/-- `nb`, the count of extra bits of a distance slot from 4 on: `slot/2 - 1` (30_encoding.md R75). -/
def Instr.slotExtraBits (slot : BitVec 6) : Nat := slot.toNat / 2 - 1

/-- The fixed bits of an IA-64 branch slot: `norm[40:37] == 5` and `norm[11:9] == 0` (R76). -/
def Instr.isIa64Branch (norm : BitVec 41) : Bool :=
  norm.extractLsb' 37 4 == 5 && norm.extractLsb' 9 3 == 0

/-- The check tags are 0, 4, 8 or 32 bytes long (R77). -/
def Instr.isTagLength (n : Nat) : Bool := n == 0 || n == 4 || n == 8 || n == 32

/-- The operand checks. Every rule that gives a range is named at its arm. -/
def Instr.wellFormed : Instr → Bool
  -- R67: reserved control bytes are 0x03..0x7F
  | .reservedCtrl c => 0x03 ≤ c.toNat && c.toNat ≤ 0x7F
  -- R75: the three slot ranges and the widths of their extra bits
  | .distSlot0To3 slot => slot.toNat < 4
  | .distSlot4To13 slot t => 4 ≤ slot.toNat && slot.toNat ≤ 13 && t.toNat < 2 ^ slotExtraBits slot
  | .distSlot14To63 slot x _ => 14 ≤ slot.toNat && x.toNat < 2 ^ (slotExtraBits slot - 4)
  -- R76, IA-64 row
  | .bcjIa64BranchSlot _ norm => isIa64Branch norm
  -- R124: every value that is none of the four engines
  | .checkUnsupported b => !(b == 0x00 || b == 0x01 || b == 0x04 || b == 0x0A)
  -- R38: `P` has 14134 cells
  | .rcBit i => i < Config.probCells
  -- R86: n in 1..8, cells base+1 .. base+2^n-1
  | .rcTree base n => 1 ≤ n && n ≤ 8 && base + 2 ^ n ≤ Config.probCells
  -- R87: n in 1..5
  | .rcTreeRev base n => 1 ≤ n && n ≤ 5 && base + 2 ^ n ≤ Config.probCells
  -- R88: n in 2..26
  | .rcDirect n => 2 ≤ n && n ≤ 26
  -- R36, R132: the expected tag has 0, 4, 8 or 32 bytes
  | .hostCompare tag => isTagLength tag.length
  | .endMark | .uncDr | .unc | .lz0 _ | .lz1 _ | .lz2 _ | .lz3 _ | .props _ | .dictProp _ => true
  | .lit | .mlit | .matchNew | .shortRep | .longRep0 | .longRep1 | .longRep2 | .longRep3 => true
  | .lenLow _ | .lenMid _ | .lenHigh _ => true
  | .bcjX86CallJmp _ _ | .bcjPpcBl _ | .bcjArmBl _ | .bcjThumbBl _ | .bcjSparcCallPos _ | .bcjSparcCallNeg _ => true
  | .checkNone | .checkCrc32 | .checkCrc64 | .checkSha256 => true
  | .dictCheck | .control | .header _ | .properties | .prepare | .run | .chunkEnd | .copy => true
  | .rcInit | .rcNorm | .rcFinished | .bcjFlush | .chkUpdate _ | .chkFinalize => true
  | .dictReset | .lzmaStateReset | .rcReset => true
  | .hostReset _ | .hostConfig _ _ _ | .hostFeed _ | .hostEndInput | .hostSpace _ | .hostRun => true

end Sys2Proof
end

