-- ==== Sys2Proof/Decode.lean ====
section
/-! DEFINITION. The encodings of 30_encoding.md: byte orders, decoder, encoder.
The block has no single instruction stream. What a byte or a bit means depends on where the block reads it, so a
decoder takes the FORMAT it is reading: a control byte of the LZMA2 stream, a property byte, a check type, the
decision bits of a packet, a length, a distance, or a BCJ unit at the front of the filter's window. -/

namespace Sys2Proof

/-! ## Byte order (20_memory.md R54, 00_scope.md R14) -/

def le32 (b0 b1 b2 b3 : Byte) : Word32 := b3 ++ b2 ++ b1 ++ b0

def be32 (b0 b1 b2 b3 : Byte) : Word32 := b0 ++ b1 ++ b2 ++ b3

def le24 (b0 b1 b2 : Byte) : BitVec 24 := b2 ++ b1 ++ b0

def le48 (b0 b1 b2 b3 b4 b5 : Byte) : BitVec 48 := b5 ++ b4 ++ b3 ++ b2 ++ b1 ++ b0

/-- Byte `k` of a word, byte 0 the least significant. -/
def byteAt {w : Nat} (x : BitVec w) (k : Nat) : Byte := x.extractLsb' (8 * k) 8

/-- The `n` low bytes of a word, least significant first. -/
def putLe {w : Nat} (x : BitVec w) : Nat → List Byte
  | 0 => []
  | n + 1 => putLe x n ++ [byteAt x n]

/-- The `n` low bytes of a word, most significant first. -/
def putBe {w : Nat} (x : BitVec w) : Nat → List Byte
  | 0 => []
  | n + 1 => byteAt x n :: putBe x n

/-! ## Bit strings of the range-coded formats, first decoded bit leftmost (R73) -/

/-- The value of a bit string read most significant bit first (40_range_coder.md R86, R88). -/
def bitsMsb : List Bool → Nat
  | [] => 0
  | b :: r => b.toNat * 2 ^ r.length + bitsMsb r

/-- The value of a bit string read least significant bit first (R87). -/
def bitsLsb : List Bool → Nat
  | [] => 0
  | b :: r => b.toNat + 2 * bitsLsb r

/-- The `n` low bits of a value, most significant first. -/
def putMsb (v : Nat) : Nat → List Bool
  | 0 => []
  | n + 1 => v.testBit n :: putMsb v n

/-- The `n` low bits of a value, least significant first. -/
def putLsb (v : Nat) : Nat → List Bool
  | 0 => []
  | n + 1 => v.testBit 0 :: putLsb (v / 2) n

/-! ## The formats -/

/-- Why a decoder turns an input away. -/
inductive DecodeError
  /-- the input ends inside the unit -/
  | truncated
  /-- the window does not hold a branch pattern of this architecture (R76) -/
  | notABranch
  /-- the bundle's template does not select this slot (43_bcj.md R120) -/
  | slotNotSelected
  /-- a byte format was given bits, or a bit format bytes -/
  | wrongCode
  deriving DecidableEq, Repr

/-- Where the block reads the unit. -/
inductive Format
  | control
  | props
  | dictProp
  | checkType
  /-- the decision bits of a packet, in a state that is, or is not, a literal state (R73) -/
  | packet (litState : Bool)
  | length
  | distance
  /-- the front of the window of a filter (R76) -/
  | bcj (arch : Arch)
  /-- one slot of the bundle at the front of the IA-64 filter's window -/
  | ia64Slot (slot : Fin 3)
  deriving DecidableEq, Repr

/-- The words of a unit: bytes, or the bits that the range coder decodes. -/
inductive Code
  | bytes (l : List Byte)
  | bits (l : List Bool)
  deriving DecidableEq, Repr

/-! ## Control bytes (R67, R68) -/

/-- The chunk kind of a control byte, which "alone fixes the chunk's header length and format" (R67). -/
def decodeControl (c : Byte) : Instr :=
  if c = 0x00 then .endMark
  else if c = 0x01 then .uncDr
  else if c = 0x02 then .unc
  else if c.toNat < 0x80 then .reservedCtrl c
  else
    let u := c.extractLsb' 0 5
    match c.extractLsb' 5 2 with
    | 0#2 => .lz0 u
    | 1#2 => .lz1 u
    | 2#2 => .lz2 u
    | _ => .lz3 u

/-- An LZMA control byte: bit 7 is 1, `c[6:5]` is `r`, `c[4:0]` is `u` (R68). -/
def lzmaControl (r : BitVec 2) (u : BitVec 5) : Byte := 1#1 ++ r ++ u

/-! ## Check types (R77, 44_checks.md R124) -/

def decodeCheckType (b : Byte) : Instr :=
  if b = 0x00 then .checkNone
  else if b = 0x01 then .checkCrc32
  else if b = 0x04 then .checkCrc64
  else if b = 0x0A then .checkSha256
  else .checkUnsupported b

/-! ## Packets, lengths, distances (R73, R74, R75) -/

/-- The prefix code of R73. A single `0` is LIT in a literal state and MLIT in the others. -/
def decodePacket (litState : Bool) : List Bool → Except DecodeError (Instr × List Bool)
  | false :: r => .ok (if litState then .lit else .mlit, r)
  | true :: false :: r => .ok (.matchNew, r)
  | true :: true :: false :: false :: r => .ok (.shortRep, r)
  | true :: true :: false :: true :: r => .ok (.longRep0, r)
  | true :: true :: true :: false :: r => .ok (.longRep1, r)
  | true :: true :: true :: true :: false :: r => .ok (.longRep2, r)
  | true :: true :: true :: true :: true :: r => .ok (.longRep3, r)
  | _ => .error .truncated

/-- The length forms of R74. -/
def decodeLength : List Bool → Except DecodeError (Instr × List Bool)
  | false :: r =>
    if r.length < 3 then .error .truncated else .ok (.lenLow (.ofNat 3 (bitsMsb (r.take 3))), r.drop 3)
  | true :: false :: r =>
    if r.length < 3 then .error .truncated else .ok (.lenMid (.ofNat 3 (bitsMsb (r.take 3))), r.drop 3)
  | true :: true :: r =>
    if r.length < 8 then .error .truncated else .ok (.lenHigh (.ofNat 8 (bitsMsb (r.take 8))), r.drop 8)
  | _ => .error .truncated

/-- The distance forms of R75: a 6-bit slot, then its extra bits. -/
def decodeDistance (bits : List Bool) : Except DecodeError (Instr × List Bool) :=
  if bits.length < 6 then .error .truncated
  else
    let slot : BitVec 6 := .ofNat 6 (bitsMsb (bits.take 6))
    let r := bits.drop 6
    let nb := Instr.slotExtraBits slot
    if slot.toNat < 4 then .ok (.distSlot0To3 slot, r)
    else if r.length < nb then .error .truncated
    else if slot.toNat < 14 then .ok (.distSlot4To13 slot (.ofNat 5 (bitsLsb (r.take nb))), r.drop nb)
    else
      let d := r.drop (nb - 4)
      .ok (.distSlot14To63 slot (.ofNat 26 (bitsMsb (r.take (nb - 4)))) (.ofNat 4 (bitsLsb (d.take 4))), d.drop 4)

/-! ## BCJ units (R76) -/

def isX86Branch (b0 : Byte) : Bool := b0 &&& 0xFE == 0xE8

def isPpcBl (w : Word32) : Bool := w &&& 0xFC000003 == 0x48000001

def isThumbBl (b1 b3 : Byte) : Bool := b1 &&& 0xF8 == 0xF0 && b3 &&& 0xF8 == 0xF8

def isSparcCall (w : Word32) : Bool := w >>> 22 == 0x100 || w >>> 22 == 0x1FF

/-- The 22-bit field of a Thumb BL pair: `B1[2:0] B0 B3[2:0] B2` (R76). -/
def thumbField (b0 b1 b2 b3 : Byte) : BitVec 22 := b1.extractLsb' 0 3 ++ b0 ++ b3.extractLsb' 0 3 ++ b2

/-- The Thumb BL pair that holds a field. -/
def thumbPair (a : BitVec 22) : List Byte :=
  [a.extractLsb' 11 8, 0b11110#5 ++ a.extractLsb' 19 3, a.extractLsb' 0 8, 0b11111#5 ++ a.extractLsb' 8 3]

/-- The slots that a bundle's template selects, bit k for slot k: `TABLE` of R120. -/
def ia64Table (template : Nat) : Nat :=
  [0, 0, 0, 0, 0, 0, 0, 0, 0, 0, 0, 0, 0, 0, 0, 0, 4, 4, 6, 6, 0, 0, 7, 7, 4, 4, 0, 0, 4, 4, 0, 0].getD template 0

/-- Whether the template of a bundle selects a slot: `(m >> slot) & 1` (R120). -/
def ia64Selects (bundle : List Byte) (slot : Nat) : Bool :=
  (ia64Table ((bundle.getD 0 0) &&& 0x1F).toNat).testBit slot

/-- `byte_pos` of a slot: `(5 + 41 * slot) >> 3` (R120). -/
def ia64BytePos (slot : Nat) : Nat := (5 + 41 * slot) / 8

/-- `bit_res` of a slot: `(5 + 41 * slot) & 7` (R120). -/
def ia64BitRes (slot : Nat) : Nat := (5 + 41 * slot) % 8

/-- `instr` of R120: the 48 bits at a slot's `byte_pos`. -/
def ia64Instr (bundle : List Byte) (slot : Nat) : BitVec 48 :=
  let k := ia64BytePos slot
  le48 (bundle.getD k 0) (bundle.getD (k + 1) 0) (bundle.getD (k + 2) 0) (bundle.getD (k + 3) 0)
    (bundle.getD (k + 4) 0) (bundle.getD (k + 5) 0)

/-- A bundle with the 48 bits at a slot's `byte_pos` replaced. -/
def ia64PutInstr (bundle : List Byte) (slot : Nat) (instr : BitVec 48) : List Byte :=
  let k := ia64BytePos slot
  bundle.take k ++ putLe instr 6 ++ bundle.drop (k + 6)

/-- A bundle with a slot's 41 bits replaced. -/
def ia64PutSlot (bundle : List Byte) (slot : Nat) (norm : BitVec 41) : List Byte :=
  let instr := ia64Instr bundle slot
  let mask : BitVec 48 := (BitVec.setWidth 48 (BitVec.allOnes 41)) <<< ia64BitRes slot
  ia64PutInstr bundle slot ((instr &&& ~~~mask) ||| (norm.setWidth 48 <<< ia64BitRes slot))

/-- The unit at the front of a filter's window. The IA-64 unit is a slot of a bundle (`decodeIa64Slot`). -/
def decodeBcj (arch : Arch) (window : List Byte) : Except DecodeError (Instr × List Byte) :=
  match arch, window with
  | .x86, b0 :: b1 :: b2 :: b3 :: b4 :: r =>
    if isX86Branch b0 then .ok (.bcjX86CallJmp (b0 == 0xE9) (le32 b1 b2 b3 b4), r) else .error .notABranch
  | .powerpc, b0 :: b1 :: b2 :: b3 :: r =>
    let w := be32 b0 b1 b2 b3
    if isPpcBl w then .ok (.bcjPpcBl (w.extractLsb' 2 24), r) else .error .notABranch
  | .arm, b0 :: b1 :: b2 :: b3 :: r =>
    if b3 = 0xEB then .ok (.bcjArmBl (le24 b0 b1 b2), r) else .error .notABranch
  | .armthumb, b0 :: b1 :: b2 :: b3 :: r =>
    if isThumbBl b1 b3 then .ok (.bcjThumbBl (thumbField b0 b1 b2 b3), r) else .error .notABranch
  | .sparc, b0 :: b1 :: b2 :: b3 :: r =>
    let w := be32 b0 b1 b2 b3
    if w >>> 22 = 0x100 then .ok (.bcjSparcCallPos (w.extractLsb' 0 22), r)
    else if w >>> 22 = 0x1FF then .ok (.bcjSparcCallNeg (w.extractLsb' 0 22), r)
    else .error .notABranch
  | _, _ => .error .truncated

/-- The unit in one slot of the bundle at the front of the IA-64 filter's window. -/
def decodeIa64Slot (slot : Fin 3) (window : List Byte) : Except DecodeError (Instr × List Byte) :=
  if window.length < 16 then .error .truncated
  else if !ia64Selects window slot then .error .slotNotSelected
  else
    let norm : BitVec 41 := (ia64Instr window slot).extractLsb' (ia64BitRes slot) 41
    if Instr.isIa64Branch norm then .ok (.bcjIa64BranchSlot slot norm, window.drop 16) else .error .notABranch

/-! ## The decoder, total on every format and every input -/

/-- A decoded byte unit with the bytes after it, as a code. -/
def restBytes : Except DecodeError (Instr × List Byte) → Except DecodeError (Instr × Code)
  | .ok (i, r) => .ok (i, .bytes r)
  | .error e => .error e

/-- A decoded bit unit with the bits after it, as a code. -/
def restBits : Except DecodeError (Instr × List Bool) → Except DecodeError (Instr × Code)
  | .ok (i, r) => .ok (i, .bits r)
  | .error e => .error e

def decode (f : Format) (c : Code) : Except DecodeError (Instr × Code) :=
  match f, c with
  | .control, .bytes (b :: r) => .ok (decodeControl b, .bytes r)
  | .props, .bytes (b :: r) => .ok (.props b, .bytes r)
  | .dictProp, .bytes (b :: r) => .ok (.dictProp b, .bytes r)
  | .checkType, .bytes (b :: r) => .ok (decodeCheckType b, .bytes r)
  | .bcj arch, .bytes l => restBytes (decodeBcj arch l)
  | .ia64Slot slot, .bytes l => restBytes (decodeIa64Slot slot l)
  | .packet litState, .bits l => restBits (decodePacket litState l)
  | .length, .bits l => restBits (decodeLength l)
  | .distance, .bits l => restBits (decodeDistance l)
  | .control, .bytes [] | .props, .bytes [] | .dictProp, .bytes [] | .checkType, .bytes [] => .error .truncated
  | _, _ => .error .wrongCode

/-! ## The encoder -/

/-- The bytes of a BCJ unit. An IA-64 slot is written into an otherwise empty bundle of template 0x16, which selects
all three slots (R120). -/
def bcjBytes : Instr → List Byte
  | .bcjX86CallJmp jmp operand => (if jmp then 0xE9 else 0xE8) :: putLe operand 4
  | .bcjPpcBl a => putBe (0b010010#6 ++ a ++ 0b01#2) 4
  | .bcjArmBl a => putLe a 3 ++ [0xEB]
  | .bcjThumbBl a => thumbPair a
  | .bcjSparcCallPos d => putBe (0x100#10 ++ d) 4
  | .bcjSparcCallNeg d => putBe (0x1FF#10 ++ d) 4
  | .bcjIa64BranchSlot slot norm => ia64PutSlot (0x16 :: List.replicate 15 0) slot norm
  | _ => []

/-- The format and the words of an instruction. The internal and the host operations have no encoding
(opcode_table.json: "encoding": "none"). -/
def encode : Instr → Option (Format × Code)
  | .endMark => some (.control, .bytes [0x00])
  | .uncDr => some (.control, .bytes [0x01])
  | .unc => some (.control, .bytes [0x02])
  | .reservedCtrl c => some (.control, .bytes [c])
  | .lz0 u => some (.control, .bytes [lzmaControl 0 u])
  | .lz1 u => some (.control, .bytes [lzmaControl 1 u])
  | .lz2 u => some (.control, .bytes [lzmaControl 2 u])
  | .lz3 u => some (.control, .bytes [lzmaControl 3 u])
  | .props v => some (.props, .bytes [v])
  | .dictProp b => some (.dictProp, .bytes [b])
  | .lit => some (.packet true, .bits [false])
  | .mlit => some (.packet false, .bits [false])
  | .matchNew => some (.packet true, .bits [true, false])
  | .shortRep => some (.packet true, .bits [true, true, false, false])
  | .longRep0 => some (.packet true, .bits [true, true, false, true])
  | .longRep1 => some (.packet true, .bits [true, true, true, false])
  | .longRep2 => some (.packet true, .bits [true, true, true, true, false])
  | .longRep3 => some (.packet true, .bits [true, true, true, true, true])
  | .lenLow t => some (.length, .bits (false :: putMsb t.toNat 3))
  | .lenMid t => some (.length, .bits (true :: false :: putMsb t.toNat 3))
  | .lenHigh t => some (.length, .bits (true :: true :: putMsb t.toNat 8))
  | .distSlot0To3 slot => some (.distance, .bits (putMsb slot.toNat 6))
  | .distSlot4To13 slot t =>
    some (.distance, .bits (putMsb slot.toNat 6 ++ putLsb t.toNat (Instr.slotExtraBits slot)))
  | .distSlot14To63 slot x a =>
    some (.distance, .bits (putMsb slot.toNat 6 ++ putMsb x.toNat (Instr.slotExtraBits slot - 4) ++ putLsb a.toNat 4))
  | .bcjX86CallJmp jmp operand => some (.bcj .x86, .bytes (bcjBytes (.bcjX86CallJmp jmp operand)))
  | .bcjPpcBl a => some (.bcj .powerpc, .bytes (bcjBytes (.bcjPpcBl a)))
  | .bcjIa64BranchSlot slot norm => some (.ia64Slot slot, .bytes (bcjBytes (.bcjIa64BranchSlot slot norm)))
  | .bcjArmBl a => some (.bcj .arm, .bytes (bcjBytes (.bcjArmBl a)))
  | .bcjThumbBl a => some (.bcj .armthumb, .bytes (bcjBytes (.bcjThumbBl a)))
  | .bcjSparcCallPos d => some (.bcj .sparc, .bytes (bcjBytes (.bcjSparcCallPos d)))
  | .bcjSparcCallNeg d => some (.bcj .sparc, .bytes (bcjBytes (.bcjSparcCallNeg d)))
  | .checkNone => some (.checkType, .bytes [0x00])
  | .checkCrc32 => some (.checkType, .bytes [0x01])
  | .checkCrc64 => some (.checkType, .bytes [0x04])
  | .checkSha256 => some (.checkType, .bytes [0x0A])
  | .checkUnsupported b => some (.checkType, .bytes [b])
  | .dictCheck | .control | .header _ | .properties | .prepare | .run | .chunkEnd | .copy => none
  | .rcInit | .rcNorm | .rcBit _ | .rcTree _ _ | .rcTreeRev _ _ | .rcDirect _ | .rcFinished => none
  | .bcjFlush | .chkUpdate _ | .chkFinalize | .dictReset | .lzmaStateReset | .rcReset => none
  | .hostReset _ | .hostConfig _ _ _ | .hostFeed _ | .hostEndInput | .hostSpace _ | .hostRun | .hostCompare _ => none

/-! ## Whole chunk headers (R67, R69, R70) -/

/-- A chunk as its header bytes give it. The sizes are the exact counts of R69. -/
inductive ChunkHeader
  | endMark
  | uncompressed (dictReset : Bool) (size : Nat)
  | lzma (r : BitVec 2) (uncSize compSize : Nat) (props : Option Byte)
  deriving DecidableEq, Repr

/-- The size ranges of R69, and a properties byte exactly when `c >= 0xC0` (R68). -/
def ChunkHeader.wellFormed : ChunkHeader → Bool
  | .endMark => true
  | .uncompressed _ size => 1 ≤ size && size ≤ 2 ^ 16
  | .lzma r uncSize compSize props =>
    1 ≤ uncSize && uncSize ≤ 2 ^ 21 && 1 ≤ compSize && compSize ≤ 2 ^ 16 && (props.isSome == (2 ≤ r.toNat : Bool))

/-- Two size bytes, most significant first. -/
def sizeBytes (n : Nat) : List Byte := [.ofNat 8 (n / 256), .ofNat 8 n]

def ChunkHeader.encode : ChunkHeader → List Byte
  | .endMark => [0x00]
  | .uncompressed reset size => (if reset then 0x01 else 0x02) :: sizeBytes (size - 1)
  | .lzma r uncSize compSize props =>
    lzmaControl r (.ofNat 5 ((uncSize - 1) / 65536)) :: (sizeBytes (uncSize - 1) ++ sizeBytes (compSize - 1)) ++
      props.toList

/-- The chunk whose header bytes open an input, with the bytes after the header. -/
def ChunkHeader.decode : List Byte → Option (ChunkHeader × List Byte)
  | [] => none
  | c :: rest =>
    if c = 0x00 then some (.endMark, rest)
    else if c.toNat < 0x03 then
      match rest with
      | s1 :: s0 :: r => some (.uncompressed (c == 0x01) (s1.toNat * 256 + s0.toNat + 1), r)
      | _ => none
    else if c.toNat < 0x80 then none
    else
      match rest with
      | u1 :: u0 :: c1 :: c0 :: r =>
        let uncSize := (c.extractLsb' 0 5).toNat * 65536 + u1.toNat * 256 + u0.toNat + 1
        let compSize := c1.toNat * 256 + c0.toNat + 1
        if c.toNat < 0xC0 then some (.lzma (c.extractLsb' 5 2) uncSize compSize none, r)
        else
          match r with
          | v :: r => some (.lzma (c.extractLsb' 5 2) uncSize compSize (some v), r)
          | [] => none
      | _ => none

/-! ## The opcode table's own numbering -/

/-- The bytes of a table word as the hardware stores them, for each table row's format: the row's architecture and
the bytes. The 32-bit rows are BCJ words. PowerPC and SPARC words are big-endian, ARM and Thumb words little-endian
(R54). The five patterns exclude each other, so at most one order gives an instruction. -/
def tableWordBytes (nbits w : Nat) : List (Arch × List Byte) :=
  if nbits = 32 then
    let v : Word32 := .ofNat 32 w
    [(.powerpc, putBe v 4), (.arm, putLe v 4), (.armthumb, putLe v 4), (.sparc, putBe v 4)]
  else if nbits = 40 then [(.x86, putLe (BitVec.ofNat 40 w) 5)]
  else if nbits = 48 then [(.ia64, ia64PutSlot (0x16 :: List.replicate 15 0) 0 (.ofNat 41 w))]
  else []

/-- The first unit of a list of windows that decodes. -/
def firstUnit : List (Arch × List Byte) → Option (Arch × List Byte × Instr)
  | [] => none
  | (arch, l) :: r =>
    match (if arch = .ia64 then decodeIa64Slot 0 l else decodeBcj arch l) with
    | .ok (i, _) => some (arch, l, i)
    | .error _ => firstUnit r

/-- The instruction that the decoder reads from a word numbered as opcode_table.json numbers it. A word of 8 bits is
read as what the block fetches from its input stream, a control byte (log entry 4). -/
def decodeTableWord (nbits w : Nat) : Option Instr :=
  if nbits = 8 then some (decodeControl (.ofNat 8 w))
  else (firstUnit (tableWordBytes nbits w)).map fun u => u.2.2

end Sys2Proof
end

