-- ==== Sys2Proof/Machine/State.lean ====
section
/-! DEFINITION. The state of the block: every register of 10_state.md, the two streams, the dictionary, the hidden
state of R49, and the host's side of the interface. Plain data throughout. -/

namespace Sys2Proof.Machine

/-! ## Status, sequencer and configuration values -/

/-- The error kinds of 60_exceptions.md R136. `format` is never raised by this block. -/
inductive ErrKind
  | data
  | memlimit
  | options
  | unsupportedCheck
  | buf
  | format
  deriving DecidableEq, Repr

/-- `status` (10_state.md R31). -/
inductive Status
  | idle
  | running
  | streamEnd
  | error (kind : ErrKind)
  deriving DecidableEq, Repr

/-- `seq` (R28). -/
inductive Seq
  | control
  | uncompressed1
  | uncompressed2
  | compressed1
  | compressed2
  | properties
  | lzmaPrepare
  | lzmaRun
  | copy
  deriving DecidableEq, Repr

/-- `next_seq` (R28). -/
inductive NextSeq
  | properties
  | lzmaPrepare
  | copy
  deriving DecidableEq, Repr

/-- `engine`, the check engine that CHK_SELECT picked (44_checks.md R124). -/
inductive CheckEngine
  | none
  | crc32
  | crc64
  | sha256
  deriving DecidableEq, Repr

/-- What HOST_RUN says beside `status` when it waits (R133). -/
inductive Wait
  | input
  | output
  deriving DecidableEq, Repr

/-- What HOST_RUN returns: "`status` and, if it waits, `wait_input` or `wait_output`" (R133). -/
structure RunReturn where
  status : Status
  wait : Option Wait
  deriving DecidableEq, Repr

/-- What an operation that returns a value returned last (R85 to R89, R131). The model's own register. -/
inductive RetVal
  | nothing
  | num (n : Nat)
  | flag (b : Bool)
  | bytes (l : List Byte)
  deriving DecidableEq, Repr

/-! ## The resumption point of a waiting operation (R17, R49, R140) -/

/-- The statement an operation waits in: `InByte()`, or `Deliver(b)` for one byte. -/
inductive Prim
  | inByte
  | deliver (b : Byte)
  deriving DecidableEq, Repr

/-- One caller of a waiting statement: where it goes on when the callee returns, with the local values it holds. -/
inductive Frame
  /-- RcByte: count the byte (R82) -/
  | rcByte
  /-- RC_NORM: shift the byte into `code` (R84) -/
  | rcNorm
  /-- RC_BIT: return the decided bit (R85) -/
  | rcBit (bit : Nat)
  /-- RC_INIT: test the first byte (R83) -/
  | rcInitFirst
  /-- RC_INIT: `left` further bytes to read, `c` the value so far (R83) -/
  | rcInitNext (left : Nat) (c : Word32)
  /-- RC_TREE: `left` further bits, `sym` so far (R86) -/
  | rcTree (base n left sym : Nat)
  /-- RC_TREE_REV: `left` further bits, the bit awaited is bit `k` of `v` (R87) -/
  | rcTreeRev (base left k sym v : Nat)
  /-- RC_DIRECT: `left` further bits, `v` so far (R88) -/
  | rcDirect (left v : Nat)
  /-- keep the returned value in `ret` -/
  | ret
  /-- LZ_PACKET: the six decision bits (R103) -/
  | isMatch
  | isRep
  | isRep0
  | isRep0Long
  | isRep1
  | isRep2
  /-- LZ_LIT: put the decoded byte (R105) -/
  | litByte
  /-- LZ_LIT, LZ_MLIT: the byte is put (R105, R106) -/
  | litPut
  /-- LZ_MLIT: one bit of the walk (R106) -/
  | mlit (c left : Nat) (mbyte matchBit offset sym : Word32)
  /-- LZ_LEN: `choice`, `choice2`, and the three trees (R107) -/
  | lenChoice (coder : LenCoder)
  | lenChoice2 (coder : LenCoder)
  | lenLow
  | lenMid
  | lenHigh
  /-- LZ_DIST: slot, special bits, direct bits, align bits (R108) -/
  | distSlot
  | distSpecial (slot : Nat)
  | distDirect (slot : Nat)
  | distAlign (slot x : Nat)
  /-- LZ_MATCH: the length is decoded (R109) -/
  | matchLen
  /-- the length and the distance of a copy packet are decoded (R109, R112) -/
  | copyMatch
  /-- DictRepeat: one byte is put; at most `fuel` further bytes (R61) -/
  | repeatPut (dist : Word32) (fuel : Nat)
  /-- CONTROL, HEADER, PROPERTIES: the byte is read (R92, R95, R96) -/
  | control
  | header (h : HeaderByte)
  | properties
  /-- PREPARE: RC_INIT is done (R97) -/
  | prepare
  /-- RUN: one packet is done; at most `fuel` further passes (R98) -/
  | run (fuel : Nat)
  /-- DictUncompressed: the byte is read, the byte is put; at most `fuel` further bytes (R62) -/
  | copyRead (fuel : Nat)
  | copyPut (fuel : Nat)
  /-- COPY: DictUncompressed is done (R100) -/
  | copyDone
  /-- OutByte: `left` further bytes of the `n` final ones to deliver, the next at offset `k` of `carry` (R115) -/
  | outByte (left k n : Nat)
  /-- BCJ_FLUSH: the bytes still to deliver (R116) -/
  | flush (rest : List Byte)
  /-- L2_END: BCJ_FLUSH is done (R94) -/
  | endMark
  deriving DecidableEq, Repr

/-- A waiting operation: the statement it waits in and its callers, innermost first. -/
structure Suspension where
  prim : Prim
  frames : List Frame
  deriving DecidableEq, Repr

/-! ## Register groups -/

/-- Configuration registers (R32 to R36). `bcjArch` is `none` for the value none and otherwise the ID byte written. -/
structure ConfigRegs where
  dictCap : Word32
  dictProp : Byte
  bcjArch : Option Byte
  checkType : Byte
  expectedTag : List Byte
  deriving DecidableEq, Repr

/-- The LZMA2 sequencer: `seq`, `next_seq` (R28), the chunk counters (R29), the framing flags (R30). -/
structure Sequencer where
  seq : Seq
  nextSeq : NextSeq
  uncLeft : Nat
  compLeft : Nat
  needDictReset : Bool
  needProps : Bool
  deriving DecidableEq, Repr

/-- The range-coder registers (R22). -/
structure RangeCoder where
  range : Word32
  code : Word32
  deriving DecidableEq, Repr

/-- The LZMA registers: `state` (R23), the reps (R24), `len` (R25), the properties (R26). -/
structure LzmaRegs where
  state : Fin 12
  rep0 : Word32
  rep1 : Word32
  rep2 : Word32
  rep3 : Word32
  len : Nat
  lc : Nat
  lp : Nat
  pb : Nat
  deriving DecidableEq, Repr

/-- A byte memory: address and byte, addresses rising, no entry with the byte of an unlisted address. -/
abbrev Memory := List Host.Cell

/-- The probability memory `P` (R38): index and probability, indices rising, no entry with the value 1024. -/
abbrev Probs := List (Nat × Prob)

/-- The dictionary: `DICT_SIZE` (R10, R90), `D` (R40), `pos` (R41), `valid` (R42). -/
structure Dict where
  size : Nat
  mem : Memory
  pos : Nat
  valid : Nat
  deriving DecidableEq, Repr

/-- The BCJ registers: `bcj_pos` (R44), `carry` (R45), `x86_prev_mask` (R46). -/
structure Bcj where
  pos : Word32
  carry : List Byte
  x86PrevMask : Word32
  deriving DecidableEq, Repr

/-- `sha_h[0..7]` (R47). -/
structure ShaRegs where
  h0 : Word32
  h1 : Word32
  h2 : Word32
  h3 : Word32
  h4 : Word32
  h5 : Word32
  h6 : Word32
  h7 : Word32
  deriving DecidableEq, Repr

/-- The check registers (R47) and what CHK_SELECT sets (R124). -/
structure Check where
  engine : CheckEngine
  tagLen : Nat
  crc32 : Word32
  crc64 : Word64
  shaH : ShaRegs
  shaBuf : List Byte
  shaLen : Word64
  deriving DecidableEq, Repr

/-- The streams: the unread input bytes (20_memory.md R52), `input_ended` (R31), the delivered bytes, oldest first, and
the output space left (R53). -/
structure Streams where
  input : List Byte
  inputEnded : Bool
  output : List Byte
  space : Nat
  deriving DecidableEq, Repr

/-- The host's side: the operations it is going to issue, whether a HOST_RUN is in progress, and what the last HOST_RUN
returned (R133, R135). -/
structure HostSide where
  queue : List HostOp
  inRun : Bool
  runReturn : Option RunReturn
  deriving DecidableEq, Repr

/-- The state of one instance of the block. -/
structure State where
  cfg : ConfigRegs
  status : Status
  checkOk : Bool
  sq : Sequencer
  rc : RangeCoder
  lz : LzmaRegs
  probs : Probs
  dict : Dict
  bcj : Bcj
  chk : Check
  io : Streams
  susp : Option Suspension
  ret : RetVal
  host : HostSide
  freeCount : Nat
  deriving DecidableEq, Repr

/-! ## Why a step can stop -/

/-- Faults. Both are raised only from states or terms that no run reaches, and both are safe: the model stops where the
spec names no cell and no filter. -/
inductive Fault
  /-- RC_BIT names a cell beyond the 14134 of `P` (R38). Raised by RC_BIT. Safe. -/
  | noSuchCell (i : Nat)
  /-- OutByte runs with a `BCJ_ARCH` that is none of the seven values (R34), which HOST_CONFIG turns away with `options`.
  Raised by OutByte. Safe. -/
  | noSuchFilter (id : Byte)
  deriving DecidableEq, Repr

/-- Refusals. -/
inductive Refusal
  /-- The instruction has no meaning in the model yet. Raised by `exec`'s arm only. Safe. -/
  | notModelled (mnemonic : String)
  deriving DecidableEq, Repr

/-! ## Reset -/

/-- `H0` of R130 as the registers hold it. -/
def ShaRegs.ofList (l : List Word32) : ShaRegs :=
  ⟨l.getD 0 0, l.getD 1 0, l.getD 2 0, l.getD 3 0, l.getD 4 0, l.getD 5 0, l.getD 6 0, l.getD 7 0⟩

/-- The block right after its power-on reset, HOST_RESET(0): start state S0 (70_reset_and_hazards.md R145,
95_test_vectors.md). Registers that R145 leaves unspecified hold the values of log entry 1. -/
def State.reset : State where
  cfg := { dictCap := Config.defaultCap, dictProp := 0, bcjArch := none, checkType := 0, expectedTag := [] }
  status := .idle
  checkOk := false
  sq := { seq := .control, nextSeq := .properties, uncLeft := 0, compLeft := 0, needDictReset := true, needProps := true }
  rc := { range := 0xFFFFFFFF, code := 0 }
  lz := { state := 0, rep0 := 0, rep1 := 0, rep2 := 0, rep3 := 0, len := 0, lc := 0, lp := 0, pb := 0 }
  probs := []
  dict := { size := 4096, mem := [], pos := 0, valid := 0 }
  bcj := { pos := 0, carry := [], x86PrevMask := 0 }
  chk := { engine := .none, tagLen := 0, crc32 := 0, crc64 := 0, shaH := .ofList shaH0, shaBuf := [], shaLen := 0 }
  io := { input := [], inputEnded := false, output := [], space := 0 }
  susp := none
  ret := .nothing
  host := { queue := [], inRun := false, runReturn := none }
  freeCount := 0

end Sys2Proof.Machine
end

