-- ==== Sys2Proof/Machine/BcjFilters.lean ====
section
/-! DEFINITION. The BCJ filters as functions of the window `buf`, the position `bcj_pos` and, for x86, the mask
(43_bcj.md R113, R114, R118 to R123). Each gives back the window with its targets rewritten and `n`, the count of
leading bytes that are now final. -/

namespace Sys2Proof.Machine

/-- What a filter gives back: the window, `n`, and `x86_prev_mask`, which only the x86 filter changes. -/
structure FilterOut where
  buf : List Byte
  n : Nat
  mask : Word32
  deriving DecidableEq, Repr

/-! ## The filters over units of a fixed size (R119, R120, R121, R123) -/

/-- Convert `count` consecutive units of `size` bytes, the first at stream position `pos`. -/
def mapUnits (size : Nat) (conv : Word32 → List Byte → List Byte) : Nat → Word32 → List Byte → List Byte
  | 0, _, buf => buf
  | count + 1, pos, buf =>
    conv pos (buf.take size) ++ mapUnits size conv count (pos + .ofNat 32 size) (buf.drop size)

/-- A filter that handles whole units only: `n <- size & ~(unit - 1)`. -/
def unitFilter (size : Nat) (conv : Word32 → List Byte → List Byte) (pos mask : Word32) (buf : List Byte) : FilterOut :=
  { buf := mapUnits size conv (buf.length / size) pos buf, n := buf.length / size * size, mask := mask }

/-- The word of a `bl` at position `pos` with its target made relative (R119). -/
def ppcTarget (pos w : Word32) : Word32 := (((w &&& 0x03FFFFFC) - pos) &&& 0x03FFFFFC) ||| 0x48000001

/-- One word of FILTER[powerpc] (R119). -/
def ppcUnit (pos : Word32) : List Byte → List Byte
  | [b0, b1, b2, b3] =>
    let w := be32 b0 b1 b2 b3
    if isPpcBl w then putBe (ppcTarget pos w) 4 else [b0, b1, b2, b3]
  | l => l

/-- The field of a BL at position `pos` made relative (R121). -/
def armTarget (pos : Word32) (a : BitVec 24) : BitVec 24 :=
  (((a.setWidth 32 <<< 2) - (pos + 8)) >>> 2).setWidth 24

/-- One word of FILTER[arm] (R121). -/
def armUnit (pos : Word32) : List Byte → List Byte
  | [b0, b1, b2, b3] => if b3 = 0xEB then putLe (armTarget pos (le24 b0 b1 b2)) 3 ++ [b3] else [b0, b1, b2, b3]
  | l => l

/-- The word of a CALL at position `pos` with its displacement made relative and rebuilt (R123). -/
def sparcTarget (pos w : Word32) : Word32 :=
  let d := ((w <<< 2) - pos) >>> 2
  (0x40000000 - (d &&& 0x400000)) ||| 0x40000000 ||| (d &&& 0x3FFFFF)

/-- One word of FILTER[sparc] (R123). -/
def sparcUnit (pos : Word32) : List Byte → List Byte
  | [b0, b1, b2, b3] =>
    let w := be32 b0 b1 b2 b3
    if isSparcCall w then putBe (sparcTarget pos w) 4 else [b0, b1, b2, b3]
  | l => l

/-- The slot word of an IA-64 branch in the bundle at position `pos`, its target made relative (R120). -/
def ia64Target (pos : Word32) (norm : BitVec 48) : BitVec 48 :=
  let addr : Word32 := (norm.extractLsb' 13 20).setWidth 32 ||| ((norm.extractLsb' 36 1).setWidth 32 <<< 20)
  let rel : BitVec 48 := (((addr <<< 4) - pos) >>> 4).setWidth 48
  (norm &&& ~~~(0x8FFFFF#48 <<< 13)) ||| ((rel &&& 0xFFFFF) <<< 13) ||| ((rel &&& 0x100000) <<< 16)

/-- One slot of a bundle: converted if it holds a branch (R120). -/
def ia64Slot (pos : Word32) (bundle : List Byte) (slot : Nat) : List Byte :=
  let instr := ia64Instr bundle slot
  let res := ia64BitRes slot
  let norm := instr >>> res
  if Instr.isIa64Branch (norm.setWidth 41) then
    let low : BitVec 48 := (1#48 <<< res) - 1
    ia64PutInstr bundle slot ((instr &&& low) ||| (ia64Target pos norm <<< res))
  else bundle

/-- One bundle of FILTER[ia64]: the slots its template selects, in order (R120). -/
def ia64Unit (pos : Word32) (bundle : List Byte) : List Byte :=
  [0, 1, 2].foldl (fun b slot => if ia64Selects bundle slot then ia64Slot pos b slot else b) bundle

/-! ## FILTER[armthumb] (R122) -/

/-- The field of a BL pair at position `pos` made relative (R122). -/
def thumbTarget (pos : Word32) (a : BitVec 22) : BitVec 22 :=
  (((a.setWidth 32 <<< 1) - (pos + 4)) >>> 1).setWidth 22

/-- FILTER[armthumb]: the scan steps by 4 past a pair and by 2 otherwise (R122). The second component is `n`. -/
def thumbScan (pos : Word32) : List Byte → List Byte × Nat
  | b0 :: b1 :: b2 :: b3 :: r =>
    if isThumbBl b1 b3 then
      let (l, n) := thumbScan (pos + 4) r
      (thumbPair (thumbTarget pos (thumbField b0 b1 b2 b3)) ++ l, n + 4)
    else
      let (l, n) := thumbScan (pos + 2) (b2 :: b3 :: r)
      (b0 :: b1 :: l, n + 2)
  | l => (l, 0)

/-! ## FILTER[x86] (R118) -/

/-- The locals of FILTER_x86 while it scans. -/
structure X86Scan where
  i : Nat
  prevPos : Int
  mask : Word32
  buf : List Byte
  deriving DecidableEq, Repr

/-- `TEST(x)` (R118). -/
def x86Test (b : Byte) : Bool := b == 0x00 || b == 0xFF

/-- `ALLOWED[mask]` (R118). -/
def x86Allowed (mask : Nat) : Bool := [true, true, true, false, true, false, false, false].getD mask false

/-- `BITNUM[mask]` (R118). -/
def x86BitNum (mask : Nat) : Nat := [0, 1, 2, 2, 3, 3, 3, 3].getD mask 0

/-- The inner `loop` of R118: `ip` is `bcj_pos + i + 5`. It makes at most `fuel + 1` passes. The tests before it leave
at most two (log entry 8), and the fuel is 3. -/
def x86Dest (ip : Word32) (mask : Nat) : Nat → Word32 → Word32
  | 0, src => src - ip
  | fuel + 1, src =>
    let dest := src - ip
    if mask = 0 then dest
    else
      let j := x86BitNum mask * 8
      if x86Test ((dest >>> (24 - j)).setWidth 8) then x86Dest ip mask fuel (dest ^^^ ((1#32 <<< (32 - j)) - 1))
      else dest

/-- `dest & 0x01FFFFFF`, sign-extended from bit 24 (R118). -/
def x86SignExtend (dest : Word32) : Word32 := (dest.setWidth 25).signExtend 32

/-- `buf[i .. i+3] <- le32(v)`. -/
def putLe32At (buf : List Byte) (i : Nat) (v : Word32) : List Byte :=
  buf.take i ++ putLe v 4 ++ buf.drop (i + 4)

/-- One pass of the `while` of R118 at `i`. -/
def x86Step (pos : Word32) (st : X86Scan) : X86Scan :=
  if !isX86Branch (st.buf.getD st.i 0) then { st with i := st.i + 1 }
  else
    let gap : Int := st.i - st.prevPos
    let mask : Word32 := if gap > 3 then 0 else (st.mask <<< (gap - 1).toNat) &&& 7
    let m := mask.toNat
    if gap ≤ 3 ∧ mask ≠ 0 ∧ (!x86Allowed m || x86Test (st.buf.getD (st.i + 4 - x86BitNum m) 0)) then
      { st with i := st.i + 1, prevPos := st.i, mask := (mask <<< 1) ||| 1 }
    else if x86Test (st.buf.getD (st.i + 4) 0) then
      let src := le32 (st.buf.getD (st.i + 1) 0) (st.buf.getD (st.i + 2) 0) (st.buf.getD (st.i + 3) 0)
        (st.buf.getD (st.i + 4) 0)
      let dest := x86SignExtend (x86Dest (pos + .ofNat 32 st.i + 5) m 3 src)
      { i := st.i + 5, prevPos := st.i, mask := mask, buf := putLe32At st.buf (st.i + 1) dest }
    else { st with i := st.i + 1, prevPos := st.i, mask := (mask <<< 1) ||| 1 }

/-- The `while i < lim` of R118. Every pass moves `i` on, so `lim` passes are enough. -/
def x86Loop (pos : Word32) (lim : Nat) : Nat → X86Scan → X86Scan
  | 0, st => st
  | fuel + 1, st => if st.i < lim then x86Loop pos lim fuel (x86Step pos st) else st

/-- FILTER[x86] (R118). Of `x86_prev_mask` "only bits 0..5 can be nonzero" (10_state.md R46, log entry 15). -/
def filterX86 (pos mask : Word32) (buf : List Byte) : FilterOut :=
  if buf.length ≤ 4 then { buf := buf, n := 0, mask := mask }
  else
    let lim := buf.length - 4
    let st := x86Loop pos lim lim { i := 0, prevPos := -1, mask := mask, buf := buf }
    let gap : Int := st.i - st.prevPos
    { buf := st.buf, n := st.i, mask := if gap > 3 then 0 else (st.mask <<< (gap - 1).toNat) &&& 0x3F }

/-! ## FILTER[BCJ_ARCH] (R115) -/

def filter (arch : Arch) (pos mask : Word32) (buf : List Byte) : FilterOut :=
  match arch with
  | .x86 => filterX86 pos mask buf
  | .powerpc => unitFilter 4 ppcUnit pos mask buf
  | .ia64 => unitFilter 16 ia64Unit pos mask buf
  | .arm => unitFilter 4 armUnit pos mask buf
  | .armthumb => let out := thumbScan pos buf; { buf := out.1, n := out.2, mask := mask }
  | .sparc => unitFilter 4 sparcUnit pos mask buf

/-- The architecture of a filter ID (10_state.md R34). -/
def archOfId (id : Byte) : Option Arch :=
  if id = 0x04 then some .x86
  else if id = 0x05 then some .powerpc
  else if id = 0x06 then some .ia64
  else if id = 0x07 then some .arm
  else if id = 0x08 then some .armthumb
  else if id = 0x09 then some .sparc
  else none

/-- The filter ID of an architecture (R34). -/
def archId : Arch → Byte
  | .x86 => 0x04
  | .powerpc => 0x05
  | .ia64 => 0x06
  | .arm => 0x07
  | .armthumb => 0x08
  | .sparc => 0x09

end Sys2Proof.Machine
end

