-- ==== Sys2Proof/Machine/Checks.lean ====
section
/-! DEFINITION. The check engines as functions of the check registers (44_checks.md R125 to R131). -/

namespace Sys2Proof.Machine

/-! ## CRC (R127, R128, R129) -/

/-- One of the eight rounds of a table entry: `r <- (r >> 1) XOR (POLY if r & 1 else 0)` (R129). -/
def crcRound {w : Nat} (poly r : BitVec w) : BitVec w := (r >>> 1) ^^^ (if r.getLsbD 0 then poly else 0)

/-- `n` rounds. -/
def crcRounds {w : Nat} (poly : BitVec w) : Nat → BitVec w → BitVec w
  | 0, r => r
  | n + 1, r => crcRounds poly n (crcRound poly r)

/-- `T32[n]` (R129). The table is read-only and the same for every instance (10_state.md R48), so it is no state. -/
def t32 (n : Byte) : Word32 := crcRounds crc32Poly 8 (n.setWidth 32)

/-- `T64[n]` (R129). -/
def t64 (n : Byte) : Word64 := crcRounds crc64Poly 8 (n.setWidth 64)

/-- CRC32_STEP (R127). -/
def crc32Step (c : Word32) (b : Byte) : Word32 :=
  let x := c ^^^ 0xFFFFFFFF
  (t32 ((x ^^^ b.setWidth 32).setWidth 8) ^^^ (x >>> 8)) ^^^ 0xFFFFFFFF

/-- CRC64_STEP (R128). -/
def crc64Step (c : Word64) (b : Byte) : Word64 :=
  let x := c ^^^ 0xFFFFFFFFFFFFFFFF
  (t64 ((x ^^^ b.setWidth 64).setWidth 8) ^^^ (x >>> 8)) ^^^ 0xFFFFFFFFFFFFFFFF

/-! ## SHA-256 (R130) -/

/-- The 32-bit rotate right of R130. -/
def rotr (x : Word32) (n : Nat) : Word32 := (x >>> n) ||| (x <<< (32 - n))

/-- The 16 big-endian words of a message block. -/
def shaWords : List Byte → List Word32
  | b0 :: b1 :: b2 :: b3 :: r => be32 b0 b1 b2 b3 :: shaWords r
  | _ => []

/-- `n` further words of the schedule `W`. The list holds the words so far, the newest first, so `W[t-k]` is at `k - 1`. -/
def shaSchedule : Nat → List Word32 → List Word32
  | 0, w => w
  | n + 1, w =>
    let w15 := w.getD 14 0
    let w2 := w.getD 1 0
    let s0 := rotr w15 7 ^^^ rotr w15 18 ^^^ (w15 >>> 3)
    let s1 := rotr w2 17 ^^^ rotr w2 19 ^^^ (w2 >>> 10)
    shaSchedule n ((w.getD 15 0 + s0 + w.getD 6 0 + s1) :: w)

/-- One round: `a..h` in the fields `h0..h7` (R130). -/
def shaRound (x : ShaRegs) (k w : Word32) : ShaRegs :=
  let t1 := x.h7 + (rotr x.h4 6 ^^^ rotr x.h4 11 ^^^ rotr x.h4 25) + ((x.h4 &&& x.h5) ^^^ (~~~x.h4 &&& x.h6)) + k + w
  let t2 := (rotr x.h0 2 ^^^ rotr x.h0 13 ^^^ rotr x.h0 22) + ((x.h0 &&& x.h1) ^^^ (x.h0 &&& x.h2) ^^^ (x.h1 &&& x.h2))
  ⟨t1 + t2, x.h0, x.h1, x.h2, x.h3 + t1, x.h4, x.h5, x.h6⟩

/-- The rounds over `K` and `W` together. -/
def shaRounds : List Word32 → List Word32 → ShaRegs → ShaRegs
  | k :: ks, w :: ws, x => shaRounds ks ws (shaRound x k w)
  | _, _, x => x

/-- COMPRESS (R130). -/
def shaCompress (x : ShaRegs) (block : List Byte) : ShaRegs :=
  let y := shaRounds shaK (shaSchedule 48 (shaWords block).reverse).reverse x
  ⟨x.h0 + y.h0, x.h1 + y.h1, x.h2 + y.h2, x.h3 + y.h3, x.h4 + y.h4, x.h5 + y.h5, x.h6 + y.h6, x.h7 + y.h7⟩

/-- COMPRESS each of `n` 64-byte blocks. -/
def shaBlocks : Nat → List Byte → ShaRegs → ShaRegs
  | 0, _, x => x
  | n + 1, m, x => shaBlocks n (m.drop 64) (shaCompress x (m.take 64))

/-- The padded tail of the message: `sha_buf ++ [0x80] ++ zeros until length ≡ 56 mod 64 ++ be64(sha_len * 8)`. -/
def shaPadded (c : Check) : List Byte :=
  let m := c.shaBuf ++ [0x80]
  m ++ List.replicate ((56 + 64 - m.length % 64) % 64) 0 ++ putBe (c.shaLen * 8) 8

/-- SHA256_FINAL, "on a copy; the registers are not changed" (R130). -/
def shaFinal (c : Check) : List Byte :=
  let m := shaPadded c
  let x := shaBlocks (m.length / 64) m c.shaH
  putBe x.h0 4 ++ putBe x.h1 4 ++ putBe x.h2 4 ++ putBe x.h3 4 ++ putBe x.h4 4 ++ putBe x.h5 4 ++ putBe x.h6 4 ++
    putBe x.h7 4

/-- SHA256_BYTE (R130). -/
def shaByte (c : Check) (b : Byte) : Check :=
  let buf := c.shaBuf ++ [b]
  if buf.length = 64 then { c with shaH := shaCompress c.shaH buf, shaBuf := [], shaLen := c.shaLen + 1 }
  else { c with shaBuf := buf, shaLen := c.shaLen + 1 }

/-! ## The engine interface -/

/-- CHK_UPDATE (R126): one delivered byte goes to the live engine. -/
def Check.update (c : Check) (b : Byte) : Check :=
  match c.engine with
  | .none => c
  | .crc32 => { c with crc32 := crc32Step c.crc32 b }
  | .crc64 => { c with crc64 := crc64Step c.crc64 b }
  | .sha256 => shaByte c b

/-- CHK_FINALIZE (R131): the tag of the bytes seen so far. -/
def Check.finalize (c : Check) : List Byte :=
  match c.engine with
  | .none => []
  | .crc32 => putLe c.crc32 4
  | .crc64 => putLe c.crc64 8
  | .sha256 => shaFinal c

/-- CHK_RESET (R125). -/
def Check.restart (c : Check) : Check :=
  { c with crc32 := 0, crc64 := 0, shaH := .ofList shaH0, shaBuf := [], shaLen := 0 }

end Sys2Proof.Machine
end

