-- ==== Sys2Proof/Machine/Ops.lean ====
section
/-! DEFINITION. The operations that every instruction shares: the sparse memories, how an operation ends and waits,
raising an error, the two streams, and the dictionary primitives (20_memory.md, 60_exceptions.md R137, R140). -/

namespace Sys2Proof.Machine

/-! ## Sparse memories

A memory is a list of index and value, indices rising, no entry with the value of an unlisted index. -/

/-- The value at an index; `fill` at an unlisted one. -/
def Sparse.read {α : Type} (fill : α) : List (Nat × α) → Nat → α
  | [], _ => fill
  | (k, v) :: r, a => if a = k then v else if a < k then fill else Sparse.read fill r a

/-- Write a value. Writing `fill` removes the entry. -/
def Sparse.write {α : Type} [DecidableEq α] (fill : α) : List (Nat × α) → Nat → α → List (Nat × α)
  | [], a, v => if v = fill then [] else [(a, v)]
  | (k, w) :: r, a, v =>
    if a < k then (if v = fill then (k, w) :: r else (a, v) :: (k, w) :: r)
    else if a = k then (if v = fill then r else (a, v) :: r)
    else (k, w) :: Sparse.write fill r a v

/-- The canonical form. -/
def Sparse.wf {α : Type} [DecidableEq α] (fill : α) : List (Nat × α) → Bool
  | [] => true
  | [(_, v)] => v ≠ fill
  | (k, v) :: (k', v') :: r => v ≠ fill && k < k' && Sparse.wf fill ((k', v') :: r)

/-- Every listed index is below `n`. -/
def Sparse.below {α : Type} (n : Nat) (m : List (Nat × α)) : Bool := m.all fun c => c.1 < n

/-- The canonical form of any list of cells below `n`: the cells are written one after the other. -/
def Sparse.ofCells {α : Type} [DecidableEq α] (fill : α) (n : Nat) (l : List (Nat × α)) : List (Nat × α) :=
  l.foldl (fun m c => if c.1 < n then Sparse.write fill m c.1 c.2 else m) []

/-- The byte of `D` at an index. -/
def Memory.read (m : Memory) (a : Nat) : Byte := Sparse.read Config.dictFill m a

/-- `D[a] <- b`. -/
def Memory.write (m : Memory) (a : Nat) (b : Byte) : Memory := Sparse.write Config.dictFill m a b

/-- The canonical form of a byte memory. -/
def Memory.wf (m : Memory) : Bool := Sparse.wf Config.dictFill m

/-- `P[i]`. -/
def Probs.read (m : Probs) (i : Nat) : Prob := Sparse.read Config.probInit m i

/-- `P[i] <- p`. -/
def Probs.write (m : Probs) (i : Nat) (p : Prob) : Probs := Sparse.write Config.probInit m i p

/-- The canonical form of the probability memory. -/
def Probs.wf (m : Probs) : Bool := Sparse.wf Config.probInit m

/-! ## How an operation ends (00_scope.md R16, R17) -/

/-- The end of an operation: it returns a value, it waits in a statement with callers to resume, it raised an error, or
it stops on something the spec does not give. -/
inductive Res
  | done (v : Nat) (s : State)
  | hold (p : Prim) (k : List Frame) (s : State)
  | fail (s : State)
  | stop (f : Fault)
  deriving DecidableEq, Repr

/-- Call an operation and go on with `f` when it returns. If it waits, the caller's place `fr` is kept with it, so that
it resumes "at the statement where it waited" (R17). -/
def Res.bind (r : Res) (fr : Frame) (f : Nat → State → Res) : Res :=
  match r with
  | .done v s => f v s
  | .hold p k s => .hold p (k ++ [fr]) s
  | .fail s => .fail s
  | .stop x => .stop x

/-- Go on after an operation that has no statement to wait in. -/
def Res.andThen (r : Res) (f : State → Res) : Res :=
  match r with
  | .done _ s => f s
  | .hold p k s => .hold p k s
  | .fail s => .fail s
  | .stop x => .stop x

/-- The state in which an operation has put itself to wait. -/
def State.suspend (s : State) (p : Prim) (k : List Frame) : State := { s with susp := some { prim := p, frames := k } }

/-- The outcome of an operation as a step of the machine. A wait is a next state with the resumption point kept (R140),
and an error is a next state with the error in `status` (R137). -/
def finish : Res → Host.Outcome State Fault Refusal
  | .done _ s => .next s
  | .hold p k s => .next (s.suspend p k)
  | .fail s => .next s
  | .stop f => .fault f

/-! ## Taking an error (60_exceptions.md R137, R138)

"Raising an error is this block's trap entry": the operation ends, `status` takes the kind, nothing else is saved, control
goes to no vector, and earlier writes stay. There is no return from it: only HOST_RESET leaves the state (R138). -/

/-- The state after a raise. -/
def State.raised (s : State) (k : ErrKind) : State := { s with status := .error k, susp := none }

/-- `raise <kind>Error`. -/
def raise (k : ErrKind) (s : State) : Res := .fail (s.raised k)

/-! ## The streams (R52, R53, R140) -/

/-- `InByte()`: the next unread byte. Without one it waits, or raises `buf` after HOST_END_INPUT (R140). -/
def inByte (s : State) : Res :=
  match s.io.input with
  | b :: r => .done b.toNat { s with io := { s.io with input := r } }
  | [] => if s.io.inputEnded then raise .buf s else .hold .inByte [] s

/-- One byte made final: on the output stream, and in the check engine (R115, R126). -/
def State.deliver (s : State) (b : Byte) : State :=
  { s with io := { s.io with output := s.io.output ++ [b], space := s.io.space - 1 }, chk := s.chk.update b }

/-- `Deliver(b)` (43_bcj.md R115). Without output space it waits, and never raises an error (R140). -/
def deliver (b : Byte) (s : State) : Res :=
  if s.io.space = 0 then .hold (.deliver b) [] s else .done 0 (s.deliver b)

/-- Run a statement that can wait. -/
def runPrim : Prim → State → Res
  | .inByte, s => inByte s
  | .deliver b, s => deliver b s

/-! ## Stage 2 (R115) -/

/-- `bcj_pos` and `carry` once the `n` final bytes are delivered. -/
def State.outDone (s : State) (n : Nat) : State :=
  { s with bcj := { s.bcj with pos := s.bcj.pos + .ofNat 32 n, carry := s.bcj.carry.drop n } }

/-- The `for` of OutByte: deliver `left` further bytes of `carry` from offset `k`. -/
def outBytes : Nat → Nat → Nat → State → Res
  | 0, _, n, s => .done 0 (s.outDone n)
  | left + 1, k, n, s =>
    (deliver (s.bcj.carry.getD k 0) s).bind (.outByte left (k + 1) n) fun _ s => outBytes left (k + 1) n s

/-- The state once a byte has arrived in stage 2 and the filter has rewritten its window, with the filter's `n`. -/
def State.filtered (s : State) (arch : Arch) (b : Byte) : State × Nat :=
  let out := filter arch s.bcj.pos s.bcj.x86PrevMask (s.bcj.carry ++ [b])
  ({ s with bcj := { s.bcj with carry := out.buf, x86PrevMask := out.mask } }, out.n)

/-- `OutByte(b)` (R115): stage 1 hands a byte to stage 2. -/
def outByte (b : Byte) (s : State) : Res :=
  match s.cfg.bcjArch with
  | none => deliver b s
  | some id =>
    match archOfId id with
    | none => .stop (.noSuchFilter id)
    | some arch =>
      let f := s.filtered arch b
      outBytes f.2 0 f.2 f.1

/-! ## The dictionary primitives (R59, R60, R61) -/

/-- The index that `DictGet(dist)` reads: `(pos - dist - 1) mod DICT_SIZE`, "exact arithmetic, then mod" (R59). -/
def Dict.index (d : Dict) (dist : Word32) : Nat := (((d.pos : Int) - dist.toNat - 1) % d.size).toNat

/-- `DictGet(dist)` (R59). -/
def Dict.get (d : Dict) (dist : Word32) : Byte := if d.valid = 0 then 0 else d.mem.read (d.index dist)

/-- The dictionary after one byte is written (R60). -/
def Dict.put (d : Dict) (b : Byte) : Dict :=
  { d with mem := d.mem.write d.pos b, pos := (d.pos + 1) % d.size, valid := min (d.valid + 1) d.size }

/-- DICT_RESET (70_reset_and_hazards.md R147): "`D`'s contents are kept but unreachable". -/
def Dict.restart (d : Dict) : Dict := { d with pos := 0, valid := 0 }

/-- `DICT_SIZE <- size`. `D` has exactly `DICT_SIZE` bytes (R40), so no cell beyond them is kept (log entry 7). -/
def Dict.resize (d : Dict) (size : Nat) : Dict := { d with size := size, mem := d.mem.filter fun c => c.1 < size }

/-- `DictPut(b)` (R60). -/
def dictPut (b : Byte) (s : State) : Res := outByte b { s with dict := s.dict.put b }

/-- One byte of a match copy is done: `len <- len - 1`, `unc_left <- unc_left - 1` (R61). -/
def State.countCopy (s : State) : State :=
  { s with lz := { s.lz with len := s.lz.len - 1 }, sq := { s.sq with uncLeft := s.sq.uncLeft - 1 } }

/-- The `while` of DictRepeat (R61): at most `fuel` bytes. Callers give `len`, which every pass lowers. -/
def repeatLoop (dist : Word32) : Nat → State → Res
  | 0, s => .done 0 s
  | fuel + 1, s =>
    if s.lz.len > 0 ∧ s.sq.uncLeft > 0 then
      (dictPut (s.dict.get dist) s).bind (.repeatPut dist fuel) fun _ s => repeatLoop dist fuel s.countCopy
    else .done 0 s

/-- `DictRepeat(dist)` (R61): the distance is tested before any byte is written. -/
def dictRepeat (dist : Word32) (s : State) : Res :=
  if s.dict.valid ≤ dist.toNat then raise .data s else repeatLoop dist s.lz.len s

end Sys2Proof.Machine
end

