-- ==== Sys2Proof/Machine/BcjUnits.lean ====
section
/-! DEFINITION. The BCJ units as instructions (30_encoding.md R76): the unit stands at the front of `carry`, at stream
position `bcj_pos`, and its target is rewritten in place. `ret` takes the count of bytes that are then final, the
filter's `n` (43_bcj.md R115). Delivering them is OutByte's. -/

namespace Sys2Proof.Machine

/-- Run a filter on the window that is one unit, and put what it gives at the front of `carry`. -/
def bcjUnit (arch : Arch) (unit : List Byte) (s : State) : State :=
  let out := filter arch s.bcj.pos s.bcj.x86PrevMask unit
  { s with
    bcj := { s.bcj with carry := out.buf ++ s.bcj.carry.drop unit.length, x86PrevMask := out.mask }
    ret := .num out.n }

/-- The CALL or JMP at the front of `carry` (R118): converted if the mask test passes and the operand's top byte is 0x00
or 0xFF, and noted in `x86_prev_mask` otherwise. -/
def execBcjX86CallJmp (jmp : Bool) (operand : Word32) (s : State) : Host.Outcome State Fault Refusal :=
  .next (bcjUnit .x86 (bcjBytes (.bcjX86CallJmp jmp operand)) s)

/-- The `bl` at the front of `carry` (R119). -/
def execBcjPpcBl (a : BitVec 24) (s : State) : Host.Outcome State Fault Refusal :=
  .next (bcjUnit .powerpc (bcjBytes (.bcjPpcBl a)) s)

/-- The branch in one slot of the bundle at the front of `carry` (R120). The bundle's other bits stay, and the whole
bundle is final. -/
def execBcjIa64BranchSlot (slot : Fin 3) (norm : BitVec 41) (s : State) : Host.Outcome State Fault Refusal :=
  let bundle := ia64Slot s.bcj.pos (ia64PutSlot (s.bcj.carry.take 16) slot norm) slot
  .next { s with bcj := { s.bcj with carry := bundle ++ s.bcj.carry.drop 16 }, ret := .num 16 }

/-- The BL at the front of `carry` (R121). -/
def execBcjArmBl (a : BitVec 24) (s : State) : Host.Outcome State Fault Refusal :=
  .next (bcjUnit .arm (bcjBytes (.bcjArmBl a)) s)

/-- The BL pair at the front of `carry` (R122). -/
def execBcjThumbBl (a : BitVec 22) (s : State) : Host.Outcome State Fault Refusal :=
  .next (bcjUnit .armthumb (bcjBytes (.bcjThumbBl a)) s)

/-- The CALL with displacement bits 29..22 clear at the front of `carry` (R123). -/
def execBcjSparcCallPos (d : BitVec 22) (s : State) : Host.Outcome State Fault Refusal :=
  .next (bcjUnit .sparc (bcjBytes (.bcjSparcCallPos d)) s)

/-- The CALL with displacement bits 29..22 set at the front of `carry` (R123). -/
def execBcjSparcCallNeg (d : BitVec 22) (s : State) : Host.Outcome State Fault Refusal :=
  .next (bcjUnit .sparc (bcjBytes (.bcjSparcCallNeg d)) s)

end Sys2Proof.Machine
end

