-- ==== Sys2Proof/Machine/Flags.lean ====
section
/-! DEFINITION. The flags and condition codes: `state` and its transitions (10_state.md R23, 42_lzma_symbols.md R101), the
framing flags of a control byte (41_lzma2_chunks.md R92), and the conditions under which a host operation is legal
(60_exceptions.md R133). -/

namespace Sys2Proof.Machine

/-- `is_lit_state(state)` is `state < 7` (R23). -/
def isLitState (s : Fin 12) : Bool := s.val < 7

/-- LIT_NEXT: `state` after LIT or MLIT (R101). -/
def litNext (s : Fin 12) : Fin 12 := [0, 0, 0, 0, 1, 2, 3, 4, 5, 6, 4, 5].getD s.val 0

/-- MATCH_NEXT: `state` after MATCH (R101). -/
def matchNext (s : Fin 12) : Fin 12 := [7, 7, 7, 7, 7, 7, 7, 10, 10, 10, 10, 10].getD s.val 0

/-- LONGREP_NEXT: `state` after LONGREP0..3 (R101). -/
def longRepNext (s : Fin 12) : Fin 12 := [8, 8, 8, 8, 8, 8, 8, 11, 11, 11, 11, 11].getD s.val 0

/-- SHORTREP_NEXT: `state` after SHORTREP (R101). -/
def shortRepNext (s : Fin 12) : Fin 12 := [9, 9, 9, 9, 9, 9, 9, 11, 11, 11, 11, 11].getD s.val 0

/-- A control byte that resets the dictionary: 0x01 and 0xE0..0xFF (R92). -/
def resetsDict (c : Byte) : Bool := 0xE0 ≤ c.toNat || c == 0x01

/-- The framing flags after the first test of CONTROL: a dictionary reset sets `need_props` and clears
`need_dict_reset` (R92). -/
def Sequencer.dictResetFlags (q : Sequencer) : Sequencer := { q with needProps := true, needDictReset := false }

/-- HOST_CONFIG is legal in `idle` and `stream_end` (R133). -/
def configLegal (st : Status) : Bool := st == .idle || st == .streamEnd

/-- HOST_COMPARE is legal in `stream_end` (R133). -/
def compareLegal (st : Status) : Bool := st == .streamEnd

end Sys2Proof.Machine
end

