-- ==== Sys2Proof/Machine/Operands.lean ====
section
/-! DEFINITION. The operand forms: which cell of `P` a decision uses, the position and literal contexts, and the values
of length, distance and property fields (10_state.md R38, 30_encoding.md R69 to R75, 42_lzma_symbols.md R104, R108). -/

namespace Sys2Proof.Machine

/-! ## The layout of `P`, in the order of the table of R38 -/

def isMatchBase : Nat := 0
def isRepBase : Nat := 192
def isRep0Base : Nat := 204
def isRep1Base : Nat := 216
def isRep2Base : Nat := 228
def isRep0LongBase : Nat := 240
def distSlotBase : Nat := 432
def distSpecialBase : Nat := 688
def distAlignBase : Nat := 802
def matchLenBase : Nat := 818
def repLenBase : Nat := 1332
def literalBase : Nat := 1846

/-- `is_match[s][ps]`. -/
def isMatchCell (s ps : Nat) : Nat := isMatchBase + s * 16 + ps

/-- `is_rep[s]`. -/
def isRepCell (s : Nat) : Nat := isRepBase + s

/-- `is_rep0[s]`. -/
def isRep0Cell (s : Nat) : Nat := isRep0Base + s

/-- `is_rep1[s]`. -/
def isRep1Cell (s : Nat) : Nat := isRep1Base + s

/-- `is_rep2[s]`. -/
def isRep2Cell (s : Nat) : Nat := isRep2Base + s

/-- `is_rep0_long[s][ps]`. -/
def isRep0LongCell (s ps : Nat) : Nat := isRep0LongBase + s * 16 + ps

/-- The first cell of a length coder. -/
def lenBase : LenCoder → Nat
  | .matchLen => matchLenBase
  | .repLen => repLenBase

/-- `L.choice`. -/
def choiceCell (l : LenCoder) : Nat := lenBase l

/-- `L.choice2`. -/
def choice2Cell (l : LenCoder) : Nat := lenBase l + 1

/-- The tree `L.low[ps]`. -/
def lowTree (l : LenCoder) (ps : Nat) : Nat := lenBase l + 2 + ps * 8

/-- The tree `L.mid[ps]`. -/
def midTree (l : LenCoder) (ps : Nat) : Nat := lenBase l + 130 + ps * 8

/-- The tree `L.high`. -/
def highTree (l : LenCoder) : Nat := lenBase l + 258

/-- The tree `dist_slot[ds]`. -/
def distSlotTree (ds : Nat) : Nat := distSlotBase + ds * 64

/-- The coder `literal[c]`. -/
def literalTree (c : Nat) : Nat := literalBase + c * 0x300

/-! ## Contexts -/

/-- `lp_mask` (R26). -/
def LzmaRegs.lpMask (z : LzmaRegs) : Nat := 2 ^ z.lp - 1

/-- `pb_mask` (R26). -/
def LzmaRegs.pbMask (z : LzmaRegs) : Nat := 2 ^ z.pb - 1

/-- `ps = pos & pb_mask` (42_lzma_symbols.md). -/
def State.ps (s : State) : Nat := s.dict.pos &&& s.lz.pbMask

/-- `s = state` as an index. -/
def State.st (s : State) : Nat := s.lz.state.val

/-- `lit_ctx` (R104). -/
def State.litCtx (s : State) : Nat :=
  ((s.dict.pos &&& s.lz.lpMask) <<< s.lz.lc) + ((s.dict.get 0).toNat >>> (8 - s.lz.lc))

/-! ## Fields -/

/-- `dist_state = min(len - 2, 3)` (R75). -/
def State.distState (s : State) : Nat := min (s.lz.len - 2) 3

/-- `nb = slot/2 - 1` (R75). -/
def slotBits (slot : Nat) : Nat := slot / 2 - 1

/-- The base of a slot, `(2 | (slot & 1)) << nb` (R75). -/
def slotBase (slot : Nat) : Nat := (2 ||| (slot &&& 1)) <<< slotBits slot

/-- The tree of a slot 4..13: `dist_special + (dist - slot - 1)` (R108). -/
def distSpecialTree (slot : Nat) : Nat := distSpecialBase + slotBase slot - slot - 1

/-- The lengths of R74. -/
def lowLength (t : BitVec 3) : Nat := 2 + t.toNat
def midLength (t : BitVec 3) : Nat := 10 + t.toNat
def highLength (t : BitVec 8) : Nat := 18 + t.toNat

/-- `DICT_SIZE` of a dictionary property, exact (R72). -/
def dictSizeOf (b : Byte) : Nat := (2 ||| (b.toNat &&& 1)) <<< (b.toNat / 2 + 11)

/-- `pb`, `lp` and `lc` of a properties byte (R71). -/
def propsPb (v : Byte) : Nat := v.toNat / 45
def propsLp (v : Byte) : Nat := v.toNat % 45 / 9
def propsLc (v : Byte) : Nat := v.toNat % 9

/-- A legal properties byte: `v <= 224 and lc + lp <= 4` (R71). -/
def propsLegal (v : Byte) : Bool := v.toNat ≤ 224 && propsLc v + propsLp v ≤ 4

end Sys2Proof.Machine
end

