-- ==== Sys2Proof/Machine/RangeCoder.lean ====
section
/-! DEFINITION. The range coder (40_range_coder.md R82 to R89) and its idle form (70_reset_and_hazards.md R149). -/

namespace Sys2Proof.Machine

/-! ## The byte source (R82) -/

/-- `comp_left <- comp_left - 1`. -/
def State.countByte (s : State) : State := { s with sq := { s.sq with compLeft := s.sq.compLeft - 1 } }

/-- `RcByte()` (R82). The error of a chunk that is used up "comes before any wait". -/
def rcByte (s : State) : Res :=
  if s.sq.compLeft = 0 then raise .data s else (inByte s).bind .rcByte fun v s => .done v s.countByte

/-! ## Normalization (R84) -/

/-- `code <- (code << 8) | v`. -/
def State.shiftIn (s : State) (v : Nat) : State :=
  { s with rc := { s.rc with code := (s.rc.code <<< 8) ||| .ofNat 32 v } }

/-- RC_NORM (R84). `range` is shifted before the byte is read, so a wait leaves it shifted (R17). -/
def rcNorm (s : State) : Res :=
  if s.rc.range < 0x01000000 then
    (rcByte { s with rc := { s.rc with range := s.rc.range <<< 8 } }).bind .rcNorm fun v s => .done 0 (s.shiftIn v)
  else .done 0 s

/-! ## One bit (R85) -/

/-- `bound = (range >> 11) * p` (R85). -/
def rcBound (r : RangeCoder) (p : Prob) : Word32 := (r.range >>> 11) * p.setWidth 32

/-- `p + ((2048 - p) >> 5)`: the cell after a 0 (R85). It never passes 2047 (log entry 9). -/
def probAfter0 (p : Prob) : Prob := .ofNat 11 (p.toNat + (2048 - p.toNat) / 32)

/-- `p - (p >> 5)`: the cell after a 1 (R85). -/
def probAfter1 (p : Prob) : Prob := p - (p >>> 5)

/-- RC_BIT up to its normalization: the bit, and the state with `range`, `code` and `P[i]` updated (R85). -/
def State.decideBit (s : State) (i : Nat) : Nat × State :=
  let p := s.probs.read i
  let bound := rcBound s.rc p
  if s.rc.code < bound then
    (0, { s with rc := { s.rc with range := bound }, probs := s.probs.write i (probAfter0 p) })
  else
    (1, { s with rc := { range := s.rc.range - bound, code := s.rc.code - bound },
                 probs := s.probs.write i (probAfter1 p) })

/-- RC_BIT on `P[i]` (R85). -/
def rcBit (i : Nat) (s : State) : Res :=
  if i < Config.probCells then
    let d := s.decideBit i
    (rcNorm d.2).bind (.rcBit d.1) fun _ s => .done d.1 s
  else .stop (.noSuchCell i)

/-! ## Trees (R86, R87) -/

/-- `left` further bits of RC_TREE, `sym` so far. -/
def rcTreeFrom (base n : Nat) : Nat → Nat → State → Res
  | 0, sym, s => .done (sym - 2 ^ n) s
  | left + 1, sym, s =>
    (rcBit (base + sym) s).bind (.rcTree base n left sym) fun b s => rcTreeFrom base n left (2 * sym + b) s

/-- RC_TREE (R86). -/
def rcTree (base n : Nat) (s : State) : Res := rcTreeFrom base n n 1 s

/-- `left` further bits of RC_TREE_REV; the next one is bit `k` of `v`. -/
def rcTreeRevFrom (base : Nat) : Nat → Nat → Nat → Nat → State → Res
  | 0, _, _, v, s => .done v s
  | left + 1, k, sym, v, s =>
    (rcBit (base + sym) s).bind (.rcTreeRev base left k sym v) fun b s =>
      rcTreeRevFrom base left (k + 1) (2 * sym + b) (v ||| (b <<< k)) s

/-- RC_TREE_REV (R87). -/
def rcTreeRev (base n : Nat) (s : State) : Res := rcTreeRevFrom base n 0 1 0 s

/-! ## Direct bits (R88) -/

/-- One direct bit up to its normalization (R88). -/
def State.decideDirect (s : State) : Nat × State :=
  let half := s.rc.range >>> 1
  if half ≤ s.rc.code then (1, { s with rc := { range := half, code := s.rc.code - half } })
  else (0, { s with rc := { s.rc with range := half } })

/-- `left` further bits of RC_DIRECT, `v` so far. -/
def rcDirectFrom : Nat → Nat → State → Res
  | 0, v, s => .done v s
  | left + 1, v, s =>
    let d := s.decideDirect
    (rcNorm d.2).bind (.rcDirect left (2 * v + d.1)) fun _ s => rcDirectFrom left (2 * v + d.1) s

/-- RC_DIRECT (R88). -/
def rcDirect (n : Nat) (s : State) : Res := rcDirectFrom n 0 s

/-! ## Start, end, idle form (R83, R89, R149) -/

/-- RC_INIT: `left` further bytes to read, `c` the value so far (R83). -/
def rcInitFrom : Nat → Word32 → State → Res
  | 0, c, s => .done 0 { s with rc := { range := 0xFFFFFFFF, code := c } }
  | left + 1, c, s =>
    (rcByte s).bind (.rcInitNext left c) fun v s => rcInitFrom left ((c <<< 8) ||| .ofNat 32 v) s

/-- RC_INIT once its first byte is read (R83). -/
def rcInitFirst (v : Nat) (s : State) : Res := if v ≠ 0 then raise .data s else rcInitFrom 4 0 s

/-- RC_INIT (R83). -/
def rcInit (s : State) : Res := (rcByte s).bind .rcInitFirst rcInitFirst

/-- RC_FINISHED (R89). -/
def RangeCoder.finished (r : RangeCoder) : Bool := r.code == 0

/-- RC_RESET (R149). -/
def RangeCoder.idle : RangeCoder := { range := 0xFFFFFFFF, code := 0 }

/-! ## The instructions -/

/-- Keep the value that an operation returns in `ret`. -/
def keep (v : Nat) (s : State) : Res := .done v { s with ret := .num v }

/-- RC_INIT (R83). -/
def execRcInit (s : State) : Host.Outcome State Fault Refusal := finish (rcInit s)

/-- RC_NORM (R84). -/
def execRcNorm (s : State) : Host.Outcome State Fault Refusal := finish (rcNorm s)

/-- RC_BIT (R85): "Returns `bit`". -/
def execRcBit (i : Nat) (s : State) : Host.Outcome State Fault Refusal := finish ((rcBit i s).bind .ret keep)

/-- RC_TREE (R86). -/
def execRcTree (base n : Nat) (s : State) : Host.Outcome State Fault Refusal := finish ((rcTree base n s).bind .ret keep)

/-- RC_TREE_REV (R87). -/
def execRcTreeRev (base n : Nat) (s : State) : Host.Outcome State Fault Refusal :=
  finish ((rcTreeRev base n s).bind .ret keep)

/-- RC_DIRECT (R88). -/
def execRcDirect (n : Nat) (s : State) : Host.Outcome State Fault Refusal := finish ((rcDirect n s).bind .ret keep)

/-- RC_FINISHED (R89): `code == 0`; "`range` is not tested". -/
def execRcFinished (s : State) : Host.Outcome State Fault Refusal := .next { s with ret := .flag s.rc.finished }

/-- RC_RESET (R149). -/
def execRcReset (s : State) : Host.Outcome State Fault Refusal := .next { s with rc := .idle }

end Sys2Proof.Machine
end

