-- ==== Sys2Proof/Machine/Resets.lean ====
section
/-! DEFINITION. The reset events (70_reset_and_hazards.md R145 to R148; RC_RESET is in `RangeCoder`). -/

namespace Sys2Proof.Machine

/-! ## Free values of the registers that a reset leaves unspecified (R50, log entry 3) -/

/-- The `k`-th free register of the event the state is about to take. -/
def State.free (s : State) (k : Nat) : Nat := Config.freeWord s.freeCount k

/-- The `k`-th free register as a bit. -/
def State.freeBit (s : State) (k : Nat) : Bool := s.free k % 2 == 1

/-- The `k`-th free register as a word. -/
def State.freeBits (s : State) (k w : Nat) : BitVec w := .ofNat w (s.free k)

/-- The `k`-th free register as a value of `seq`. -/
def State.freeSeq (s : State) (k : Nat) : Seq :=
  [.control, .uncompressed1, .uncompressed2, .compressed1, .compressed2, .properties, .lzmaPrepare, .lzmaRun,
    .copy].getD (s.free k % 9) .control

/-- The `k`-th free register as a value of `next_seq`. -/
def State.freeNextSeq (s : State) (k : Nat) : NextSeq :=
  [.properties, .lzmaPrepare, .copy].getD (s.free k % 3) .copy

/-- The `k`-th free register as a value of `engine`. -/
def State.freeEngine (s : State) (k : Nat) : CheckEngine :=
  [.none, .crc32, .crc64, .sha256].getD (s.free k % 4) .none

/-! ## The events -/

/-- LZMA_STATE_RESET (R148). Every cell of `P` is 1024, so none is listed. `lc`, `lp`, `pb` are not changed. -/
def State.lzmaStateReset (s : State) : State :=
  { s with lz := { s.lz with state := 0, rep0 := 0, rep1 := 0, rep2 := 0, rep3 := 0, len := 0 }, probs := [],
           rc := .idle }

/-- RST_BLOCK (R146). `next_seq` is unspecified after it (R50). -/
def State.rstBlock (s : State) : State :=
  { s with
    status := .running
    checkOk := false
    sq := { seq := .control, nextSeq := s.freeNextSeq 0, uncLeft := 0, compLeft := 0, needDictReset := true,
            needProps := true }
    lz := { s.lz with len := 0 }
    dict := s.dict.restart
    bcj := { pos := 0, carry := [], x86PrevMask := 0 }
    chk := s.chk.restart
    io := { s.io with inputEnded := false }
    susp := none
    freeCount := s.freeCount + 1 }

/-- RST_HOST (R145). Every register that it does not name is unspecified and takes a free value within the register's
range. Delivered bytes are the host's (R53) and stay, and `D` holds no written byte (log entries 2, 3, 6). -/
def State.rstHost (s : State) (cap : Word32) : State :=
  let size := s.free 0 % 2 ^ 32 + 1
  { cfg :=
      { dictCap := if cap = 0 then Config.defaultCap else cap
        dictProp := s.freeBits 1 8
        bcjArch := if s.freeBit 2 then some (s.freeBits 3 8) else none
        checkType := s.freeBits 4 8
        expectedTag := (Config.freeBytes s.freeCount 0).take 32 }
    status := .idle
    checkOk := false
    sq :=
      { seq := s.freeSeq 5, nextSeq := s.freeNextSeq 6, uncLeft := s.free 7 % (2 ^ 21 + 1),
        compLeft := s.free 8 % (2 ^ 16 + 1), needDictReset := s.freeBit 9, needProps := s.freeBit 10 }
    rc := { range := s.freeBits 11 32, code := s.freeBits 12 32 }
    lz :=
      { state := .ofNat 12 (s.free 13), rep0 := s.freeBits 14 32, rep1 := s.freeBits 15 32, rep2 := s.freeBits 16 32,
        rep3 := s.freeBits 17 32, len := s.free 18 % 274, lc := s.free 19 % 9, lp := s.free 20 % 5, pb := s.free 21 % 5 }
    probs := Sparse.ofCells Config.probInit Config.probCells (Config.freeProbs s.freeCount)
    dict := { size := size, mem := [], pos := s.free 22 % size, valid := s.free 23 % (size + 1) }
    bcj := { pos := 0, carry := [], x86PrevMask := 0 }
    chk :=
      { engine := s.freeEngine 24, tagLen := s.free 25 % 33, crc32 := s.freeBits 26 32, crc64 := s.freeBits 27 64,
        shaH := ⟨s.freeBits 28 32, s.freeBits 29 32, s.freeBits 30 32, s.freeBits 31 32, s.freeBits 32 32,
          s.freeBits 33 32, s.freeBits 34 32, s.freeBits 35 32⟩,
        shaBuf := (Config.freeBytes s.freeCount 1).take 63, shaLen := s.freeBits 36 64 }
    io := { s.io with input := [], inputEnded := false, space := 0 }
    susp := none
    ret := s.ret
    host := s.host
    freeCount := s.freeCount + 1 }

/-! ## The instructions -/

/-- DICT_RESET (R147). -/
def execDictReset (s : State) : Host.Outcome State Fault Refusal := .next { s with dict := s.dict.restart }

/-- LZMA_STATE_RESET (R148). -/
def execLzmaStateReset (s : State) : Host.Outcome State Fault Refusal := .next s.lzmaStateReset

end Sys2Proof.Machine
end

