-- ==== Sys2Proof/Machine/HostOps.lean ====
section
/-! DEFINITION. Configuration, checks and the seven host operations (41_lzma2_chunks.md R90, 44_checks.md R124, R126,
R131, R132, 60_exceptions.md R133 to R135, R138, R140). -/

namespace Sys2Proof.Machine

/-! ## Configuration (R90, R124) -/

/-- DICT_CHECK (R90). -/
def dictCheck (s : State) : Res :=
  if 40 < s.cfg.dictProp.toNat then raise .options s
  else
    let size := dictSizeOf s.cfg.dictProp
    if s.cfg.dictCap.toNat < size then raise .memlimit s else .done 0 { s with dict := s.dict.resize size }

/-- A check type that picks an engine (R124). -/
def State.selectEngine (s : State) (e : CheckEngine) (tagLen : Nat) : State :=
  { s with chk := { s.chk with engine := e, tagLen := tagLen } }

/-- CHK_SELECT (R124). -/
def chkSelect (s : State) : Res :=
  let ct := s.cfg.checkType
  if ct = 0x00 then .done 0 (s.selectEngine .none 0)
  else if ct = 0x01 then .done 0 (s.selectEngine .crc32 4)
  else if ct = 0x04 then .done 0 (s.selectEngine .crc64 8)
  else if ct = 0x0A then .done 0 (s.selectEngine .sha256 32)
  else if ct.toNat < 0x0A then raise .unsupportedCheck s
  else raise .options s

/-- `CHECK_TYPE` written. -/
def State.setCheckType (s : State) (b : Byte) : State := { s with cfg := { s.cfg with checkType := b } }

/-- The filter test of HOST_CONFIG (R134). -/
def archSupported (id : Option Byte) : Bool :=
  match id with
  | none => true
  | some b => (archOfId b).isSome

/-- HOST_CONFIG's checks, in the order check type, filter, dictionary property, cap (R134, R139). -/
def configChecks (s : State) : Res :=
  (chkSelect s).andThen fun s => if archSupported s.cfg.bcjArch then dictCheck s else raise .options s

/-- HOST_CONFIG where it is legal (R134). -/
def hostConfig (dictProp : Byte) (arch : Option Byte) (checkType : Byte) (s : State) : Res :=
  configChecks
    (State.rstBlock { s with cfg := { s.cfg with dictProp := dictProp, bcjArch := arch, checkType := checkType } })

/-! ## Comparing the check (R132) -/

/-- CHK_COMPARE where it is legal (R132). `EXPECTED_TAG` has `tag_len` bytes (10_state.md R36, log entry 5). -/
def chkCompare (tag : List Byte) (s : State) : Res :=
  let s := { s with cfg := { s.cfg with expectedTag := tag.take s.chk.tagLen } }
  if s.chk.finalize ≠ s.cfg.expectedTag then raise .data s else .done 0 { s with checkOk := true }

/-! ## The instructions: configuration bytes and check operations -/

/-- DICT_PROP: the dictionary property byte, written and checked (R90). -/
def execDictProp (b : Byte) (s : State) : Host.Outcome State Fault Refusal :=
  finish (dictCheck { s with cfg := { s.cfg with dictProp := b } })

/-- CHECK_NONE: `CHECK_TYPE` 0x00 (R124). -/
def execCheckNone (s : State) : Host.Outcome State Fault Refusal := finish (chkSelect (s.setCheckType 0x00))

/-- CHECK_CRC32: `CHECK_TYPE` 0x01 (R124). -/
def execCheckCrc32 (s : State) : Host.Outcome State Fault Refusal := finish (chkSelect (s.setCheckType 0x01))

/-- CHECK_CRC64: `CHECK_TYPE` 0x04 (R124). -/
def execCheckCrc64 (s : State) : Host.Outcome State Fault Refusal := finish (chkSelect (s.setCheckType 0x04))

/-- CHECK_SHA256: `CHECK_TYPE` 0x0A (R124). -/
def execCheckSha256 (s : State) : Host.Outcome State Fault Refusal := finish (chkSelect (s.setCheckType 0x0A))

/-- CHECK_UNSUPPORTED: any other value, `unsupported_check` up to 0x09 and `options` above 0x0A (R124). -/
def execCheckUnsupported (b : Byte) (s : State) : Host.Outcome State Fault Refusal :=
  finish (chkSelect (s.setCheckType b))

/-- DICT_CHECK (R90). -/
def execDictCheck (s : State) : Host.Outcome State Fault Refusal := finish (dictCheck s)

/-- CHK_UPDATE (R126). -/
def execChkUpdate (b : Byte) (s : State) : Host.Outcome State Fault Refusal := .next { s with chk := s.chk.update b }

/-- CHK_FINALIZE (R131): "Returns `tag`". -/
def execChkFinalize (s : State) : Host.Outcome State Fault Refusal := .next { s with ret := .bytes s.chk.finalize }

/-! ## The instructions: host operations (R133)

"An operation issued in a `status` where it is not legal has no effect." -/

/-- HOST_RESET (R145). A HOST_RUN is never in progress when the host issues an operation. -/
def execHostReset (cap : Word32) (s : State) : Host.Outcome State Fault Refusal := .next (s.rstHost cap)

/-- HOST_CONFIG (R134). -/
def execHostConfig (dictProp : Byte) (arch : Option Byte) (checkType : Byte) (s : State) :
    Host.Outcome State Fault Refusal :=
  if configLegal s.status then finish (hostConfig dictProp arch checkType s) else .next s

/-- HOST_FEED (R133, R52). -/
def execHostFeed (bytes : List Byte) (s : State) : Host.Outcome State Fault Refusal :=
  .next { s with io := { s.io with input := s.io.input ++ bytes } }

/-- HOST_END_INPUT (R133, R140). -/
def execHostEndInput (s : State) : Host.Outcome State Fault Refusal :=
  .next { s with io := { s.io with inputEnded := true } }

/-- HOST_SPACE (R133, R53). -/
def execHostSpace (n : Nat) (s : State) : Host.Outcome State Fault Refusal :=
  .next { s with io := { s.io with space := s.io.space + n } }

/-- HOST_RUN (R135). In `running` the engine starts: each following step of the machine is one of the engine's operations,
until the run returns (`Machine/Engine.lean`). In every other status it "returns at once and changes nothing". -/
def execHostRun (s : State) : Host.Outcome State Fault Refusal :=
  if s.status = .running then .next { s with host := { s.host with inRun := true, runReturn := none } }
  else .next { s with host := { s.host with runReturn := some { status := s.status, wait := none } } }

/-- HOST_COMPARE (R132). -/
def execHostCompare (tag : List Byte) (s : State) : Host.Outcome State Fault Refusal :=
  if compareLegal s.status then finish (chkCompare tag s) else .next s

end Sys2Proof.Machine
end

