-- ==== Sys2Proof/Machine/Packets.lean ====
section
/-! DEFINITION. LZMA packets, lengths and distances (42_lzma_symbols.md R103 to R112).
`s` and `ps`, which each packet reads "once at the start", are read from `state` and `pos` where they are used: neither
changes before the packet's last use of it. -/

namespace Sys2Proof.Machine

/-! ## Literals (R105, R106) -/

/-- The end of a literal: `unc_left <- unc_left - 1`, `state <- LIT_NEXT[state]`. -/
def State.literalDone (s : State) : State :=
  { s with sq := { s.sq with uncLeft := s.sq.uncLeft - 1 }, lz := { s.lz with state := litNext s.lz.state } }

/-- A decoded literal: `DictPut(b)`, then the end of the packet. -/
def litByte (v : Nat) (s : State) : Res := (dictPut (.ofNat 8 v) s).bind .litPut fun _ s => .done 0 s.literalDone

/-- LZ_LIT (R105). -/
def lzLit (s : State) : Res := (rcTree (literalTree s.litCtx) 8 s).bind .litByte litByte

/-- The `while` of LZ_MLIT: `left` further bits (R106). -/
def mlitFrom (c : Nat) : Nat → Word32 → Word32 → Word32 → State → Res
  | 0, _, _, sym, s => litByte (sym.toNat - 0x100) s
  | left + 1, mbyte, offset, sym, s =>
    let matchBit := mbyte &&& offset
    (rcBit (literalTree c + (offset + matchBit + sym).toNat) s).bind
      (.mlit c left (mbyte <<< 1) matchBit offset sym) fun b s =>
        if b = 1 then mlitFrom c left (mbyte <<< 1) matchBit ((sym <<< 1) + 1) s
        else mlitFrom c left (mbyte <<< 1) (offset &&& ~~~matchBit) (sym <<< 1) s

/-- LZ_MLIT (R106). -/
def lzMlit (s : State) : Res := mlitFrom s.litCtx 8 ((s.dict.get s.lz.rep0).setWidth 32 <<< 1) 0x100 1 s

/-! ## Lengths (R107) -/

/-- `len` set to a decoded length. -/
def State.setLen (s : State) (n : Nat) : State := { s with lz := { s.lz with len := n } }

/-- The effect of the three length forms: `len` (R74, R107). -/
def lenLow (t : BitVec 3) (s : State) : State := s.setLen (lowLength t)
def lenMid (t : BitVec 3) (s : State) : State := s.setLen (midLength t)
def lenHigh (t : BitVec 8) (s : State) : State := s.setLen (highLength t)

/-- LZ_LEN after `choice2` (R107). -/
def lenChoice2 (l : LenCoder) (b : Nat) (s : State) : Res :=
  if b = 0 then (rcTree (midTree l s.ps) 3 s).bind .lenMid fun t s => .done 0 (lenMid (.ofNat 3 t) s)
  else (rcTree (highTree l) 8 s).bind .lenHigh fun t s => .done 0 (lenHigh (.ofNat 8 t) s)

/-- LZ_LEN after `choice` (R107). -/
def lenChoice (l : LenCoder) (b : Nat) (s : State) : Res :=
  if b = 0 then (rcTree (lowTree l s.ps) 3 s).bind .lenLow fun t s => .done 0 (lenLow (.ofNat 3 t) s)
  else (rcBit (choice2Cell l) s).bind (.lenChoice2 l) (lenChoice2 l)

/-- `len <- LZ_LEN(L, ps)` (R107). -/
def lzLen (l : LenCoder) (s : State) : Res := (rcBit (choiceCell l) s).bind (.lenChoice l) (lenChoice l)

/-! ## Distances (R108) -/

/-- `rep0` set to a decoded distance. -/
def State.setRep0 (s : State) (d : Word32) : State := { s with lz := { s.lz with rep0 := d } }

/-- The effect of the three distance forms: `rep0` (R75, R108). "All arithmetic is exact u32." -/
def distSlot0To3 (slot : Nat) (s : State) : State := s.setRep0 (.ofNat 32 slot)
def distSlot4To13 (slot t : Nat) (s : State) : State := s.setRep0 (.ofNat 32 (slotBase slot + t))
def distSlot14To63 (slot x a : Nat) (s : State) : State := s.setRep0 (.ofNat 32 (slotBase slot + x <<< 4 + a))

/-- LZ_DIST after the direct bits (R108). -/
def distDirect (slot x : Nat) (s : State) : Res :=
  (rcTreeRev distAlignBase 4 s).bind (.distAlign slot x) fun a s => .done 0 (distSlot14To63 slot x a s)

/-- LZ_DIST after the slot (R108). -/
def distSlot (slot : Nat) (s : State) : Res :=
  if slot < 4 then .done 0 (distSlot0To3 slot s)
  else if slot < 14 then
    (rcTreeRev (distSpecialTree slot) (slotBits slot) s).bind (.distSpecial slot) fun t s =>
      .done 0 (distSlot4To13 slot t s)
  else (rcDirect (slotBits slot - 4) s).bind (.distDirect slot) (distDirect slot)

/-- `rep0 <- LZ_DIST(len)` (R108). -/
def lzDist (s : State) : Res := (rcTree (distSlotTree s.distState) 6 s).bind .distSlot distSlot

/-! ## Copy packets (R109 to R112) -/

/-- The copy at the end of a copy packet: `DictRepeat(rep0)`. -/
def copyMatch (s : State) : Res := dictRepeat s.lz.rep0 s

/-- `state` and the reps at the start of LZ_MATCH (R109). -/
def State.matchStart (s : State) : State :=
  { s with lz := { s.lz with
      state := matchNext s.lz.state, rep3 := s.lz.rep2, rep2 := s.lz.rep1, rep1 := s.lz.rep0 } }

/-- LZ_MATCH after its length (R109). -/
def matchDist (s : State) : Res := (lzDist s).bind .copyMatch fun _ s => copyMatch s

/-- LZ_MATCH (R109). -/
def lzMatch (s : State) : Res := (lzLen .matchLen s.matchStart).bind .matchLen fun _ s => matchDist s

/-- `state` and `len` of LZ_SHORTREP (R111). -/
def State.shortRepStart (s : State) : State :=
  { s with lz := { s.lz with state := shortRepNext s.lz.state, len := 1 } }

/-- LZ_SHORTREP (R111). -/
def lzShortRep (s : State) : Res := copyMatch s.shortRepStart

/-- The reps after LONGREPn has moved the n-th distance to the front (R112). -/
def LzmaRegs.rotate (z : LzmaRegs) : Nat → LzmaRegs
  | 0 => z
  | 1 => { z with rep0 := z.rep1, rep1 := z.rep0 }
  | 2 => { z with rep0 := z.rep2, rep1 := z.rep0, rep2 := z.rep1 }
  | _ => { z with rep0 := z.rep3, rep1 := z.rep0, rep2 := z.rep1, rep3 := z.rep2 }

/-- `state` and the reps at the start of LZ_LONGREP (R112). -/
def State.longRepStart (s : State) (n : Nat) : State :=
  { s with lz := { s.lz.rotate n with state := longRepNext s.lz.state } }

/-- LZ_LONGREP (R112). -/
def lzLongRep (n : Nat) (s : State) : Res := (lzLen .repLen (s.longRepStart n)).bind .copyMatch fun _ s => copyMatch s

/-! ## Packet dispatch (R103) -/

/-- After `is_rep2`. -/
def afterIsRep2 (b : Nat) (s : State) : Res := if b = 0 then lzLongRep 2 s else lzLongRep 3 s

/-- After `is_rep1`. -/
def afterIsRep1 (b : Nat) (s : State) : Res :=
  if b = 0 then lzLongRep 1 s else (rcBit (isRep2Cell s.st) s).bind .isRep2 afterIsRep2

/-- After `is_rep0_long`. -/
def afterIsRep0Long (b : Nat) (s : State) : Res := if b = 0 then lzShortRep s else lzLongRep 0 s

/-- After `is_rep0`. -/
def afterIsRep0 (b : Nat) (s : State) : Res :=
  if b = 0 then (rcBit (isRep0LongCell s.st s.ps) s).bind .isRep0Long afterIsRep0Long
  else (rcBit (isRep1Cell s.st) s).bind .isRep1 afterIsRep1

/-- After `is_rep`. -/
def afterIsRep (b : Nat) (s : State) : Res :=
  if b = 0 then lzMatch s else (rcBit (isRep0Cell s.st) s).bind .isRep0 afterIsRep0

/-- After `is_match`. -/
def afterIsMatch (b : Nat) (s : State) : Res :=
  if b = 0 then (if isLitState s.lz.state then lzLit s else lzMlit s)
  else (rcBit (isRepCell s.st) s).bind .isRep afterIsRep

/-- LZ_PACKET (R103). -/
def lzPacket (s : State) : Res := (rcBit (isMatchCell s.st s.ps) s).bind .isMatch afterIsMatch

/-! ## The instructions: what a packet does once its decision bits are decoded -/

/-- LIT (R105). -/
def execLit (s : State) : Host.Outcome State Fault Refusal := finish (lzLit s)

/-- MLIT (R106). -/
def execMlit (s : State) : Host.Outcome State Fault Refusal := finish (lzMlit s)

/-- MATCH (R109). -/
def execMatchNew (s : State) : Host.Outcome State Fault Refusal := finish (lzMatch s)

/-- SHORTREP (R111). -/
def execShortRep (s : State) : Host.Outcome State Fault Refusal := finish (lzShortRep s)

/-- LONGREP0 (R112). -/
def execLongRep0 (s : State) : Host.Outcome State Fault Refusal := finish (lzLongRep 0 s)

/-- LONGREP1 (R112). -/
def execLongRep1 (s : State) : Host.Outcome State Fault Refusal := finish (lzLongRep 1 s)

/-- LONGREP2 (R112). -/
def execLongRep2 (s : State) : Host.Outcome State Fault Refusal := finish (lzLongRep 2 s)

/-- LONGREP3 (R112). -/
def execLongRep3 (s : State) : Host.Outcome State Fault Refusal := finish (lzLongRep 3 s)

/-- LEN_LOW: length `2 + t` (R74, R107). -/
def execLenLow (t : BitVec 3) (s : State) : Host.Outcome State Fault Refusal := .next (lenLow t s)

/-- LEN_MID: length `10 + t` (R74, R107). -/
def execLenMid (t : BitVec 3) (s : State) : Host.Outcome State Fault Refusal := .next (lenMid t s)

/-- LEN_HIGH: length `18 + t` (R74, R107). -/
def execLenHigh (t : BitVec 8) (s : State) : Host.Outcome State Fault Refusal := .next (lenHigh t s)

/-- DIST_SLOT_0_3: `dist = slot` (R75, R108). -/
def execDistSlot0To3 (slot : BitVec 6) (s : State) : Host.Outcome State Fault Refusal :=
  .next (distSlot0To3 slot.toNat s)

/-- DIST_SLOT_4_13: `dist = base + t` (R75, R108). -/
def execDistSlot4To13 (slot : BitVec 6) (t : BitVec 5) (s : State) : Host.Outcome State Fault Refusal :=
  .next (distSlot4To13 slot.toNat t.toNat s)

/-- DIST_SLOT_14_63: `dist = base + (x << 4) + a` (R75, R108). -/
def execDistSlot14To63 (slot : BitVec 6) (x : BitVec 26) (a : BitVec 4) (s : State) :
    Host.Outcome State Fault Refusal :=
  .next (distSlot14To63 slot.toNat x.toNat a.toNat s)

end Sys2Proof.Machine
end

