-- ==== Sys2Proof/Machine/Chunks.lean ====
section
/-! DEFINITION. The LZMA2 chunk sequencer (41_lzma2_chunks.md R91 to R100) and the flush of stage 2 (43_bcj.md R116). -/

namespace Sys2Proof.Machine

/-! ## The end marker (R94, R116) -/

/-- BCJ_FLUSH (R116): deliver the held bytes unchanged, in order, and empty `carry`. `bcj_pos` does not advance. -/
def flushBytes : List Byte → State → Res
  | [], s => .done 0 { s with bcj := { s.bcj with carry := [] } }
  | b :: r, s =>
    (deliver b s).bind (.flush r) fun _ s => flushBytes r { s with bcj := { s.bcj with carry := r } }

/-- BCJ_FLUSH (R116). -/
def bcjFlush (s : State) : Res := flushBytes s.bcj.carry s

/-- L2_END (R94). -/
def l2End (s : State) : Res := (bcjFlush s).bind .endMark fun _ s => .done 0 { s with status := .streamEnd }

/-! ## CONTROL (R92) -/

/-- CONTROL for an LZMA chunk, after the dictionary test (R92). -/
def lzmaControlByte (c : Byte) (s : State) : Res :=
  let s := { s with sq := { s.sq with uncLeft := (c &&& 0x1F).toNat <<< 16, seq := .uncompressed1 } }
  if 0xC0 ≤ c.toNat then .done 0 { s with sq := { s.sq with needProps := false, nextSeq := .properties } }
  else if s.sq.needProps then raise .data s
  else
    let s := { s with sq := { s.sq with nextSeq := .lzmaPrepare } }
    .done 0 (if 0xA0 ≤ c.toNat then s.lzmaStateReset else s)

/-- CONTROL after the dictionary test (R92). -/
def chunkControlByte (c : Byte) (s : State) : Res :=
  if 0x80 ≤ c.toNat then lzmaControlByte c s
  else if 0x02 < c.toNat then raise .data s
  else .done 0 { s with sq := { s.sq with seq := .compressed1, nextSeq := .copy } }

/-- CONTROL once its byte is read (R92), test by test in the order of the pseudocode (60_exceptions.md R139). -/
def controlByte (c : Byte) (s : State) : Res :=
  if c = 0x00 then l2End s
  else if resetsDict c then
    chunkControlByte c { s with sq := s.sq.dictResetFlags, dict := s.dict.restart }
  else if s.sq.needDictReset then raise .data s
  else chunkControlByte c s

/-- CONTROL (R92). -/
def control (s : State) : Res := (inByte s).bind .control fun c s => controlByte (.ofNat 8 c) s

/-! ## HEADER (R95) -/

/-- `seq` after COMPRESSED_2 (R95). -/
def NextSeq.toSeq : NextSeq → Seq
  | .properties => .properties
  | .lzmaPrepare => .lzmaPrepare
  | .copy => .copy

/-- The sequencer after a header byte `x` (R95). -/
def Sequencer.headerByte (q : Sequencer) (x : Nat) : HeaderByte → Sequencer
  | .uncompressed1 => { q with uncLeft := q.uncLeft + x <<< 8, seq := .uncompressed2 }
  | .uncompressed2 => { q with uncLeft := q.uncLeft + x + 1, seq := .compressed1 }
  | .compressed1 => { q with compLeft := x <<< 8, seq := .compressed2 }
  | .compressed2 => { q with compLeft := q.compLeft + x + 1, seq := q.nextSeq.toSeq }

/-- HEADER (R95). -/
def header (h : HeaderByte) (s : State) : Res :=
  (inByte s).bind (.header h) fun x s => .done 0 { s with sq := s.sq.headerByte x h }

/-! ## PROPERTIES (R96) -/

/-- `pb`, `lp` and `lc` of a legal properties byte. -/
def State.setProps (s : State) (v : Byte) : State :=
  { s with lz := { s.lz with pb := propsPb v, lp := propsLp v, lc := propsLc v } }

/-- PROPERTIES once its byte is read (R96). The fields are assigned before the test of `lc + lp`, and an error keeps
them (R137). -/
def propsByte (v : Byte) (s : State) : Res :=
  if 224 < v.toNat then raise .data s
  else
    let s := s.setProps v
    if 4 < s.lz.lc + s.lz.lp then raise .data s
    else
      let s := s.lzmaStateReset
      .done 0 { s with sq := { s.sq with seq := .lzmaPrepare } }

/-- PROPERTIES (R96). -/
def properties (s : State) : Res := (inByte s).bind .properties fun v s => propsByte (.ofNat 8 v) s

/-! ## PREPARE, RUN, CHUNK_END, COPY (R97 to R100) -/

/-- PREPARE (R97). -/
def prepare (s : State) : Res :=
  if s.sq.compLeft < 5 then raise .data s
  else (rcInit s).bind .prepare fun _ s => .done 0 { s with sq := { s.sq with seq := .lzmaRun } }

/-- L2_CHUNK_END (R99). -/
def chunkEnd (s : State) : Res :=
  if s.sq.compLeft ≠ 0 ∨ s.lz.len ≠ 0 ∨ !s.rc.finished then raise .data s
  else .done 0 { s with rc := .idle, sq := { s.sq with seq := .control } }

/-- The `while` of RUN (R98): at most `fuel` packets, then the chunk end. A packet lowers `unc_left`, so `unc_left + 1` is
enough. -/
def runLoop : Nat → State → Res
  | 0, s => .done 0 s
  | fuel + 1, s =>
    if s.sq.uncLeft > 0 then (lzPacket s).bind (.run fuel) fun _ s => runLoop fuel s else chunkEnd s

/-- RUN (R98). -/
def run (s : State) : Res := runLoop (s.sq.uncLeft + 1) s

/-- `comp_left <- comp_left - 1` after a byte of an uncompressed chunk is put, and the rest of the `while` (R62): at most
`fuel` bytes. Callers give `comp_left`. -/
def copyLoop : Nat → State → Res
  | 0, s => .done 0 s
  | fuel + 1, s =>
    if s.sq.compLeft > 0 then
      (inByte s).bind (.copyRead fuel) fun b s =>
        (dictPut (.ofNat 8 b) s).bind (.copyPut fuel) fun _ s => copyLoop fuel s.countByte
    else .done 0 s

/-- `DictUncompressed()` (R62). -/
def dictUncompressed (s : State) : Res := copyLoop s.sq.compLeft s

/-- COPY (R100). -/
def copy (s : State) : Res :=
  (dictUncompressed s).bind .copyDone fun _ s => .done 0 { s with sq := { s.sq with seq := .control } }

/-! ## The instructions -/

/-- END: control byte 0x00 (R94). -/
def execEndMark (s : State) : Host.Outcome State Fault Refusal := finish (controlByte 0x00 s)

/-- UNC_DR: control byte 0x01 (R92, R100). -/
def execUncDr (s : State) : Host.Outcome State Fault Refusal := finish (controlByte 0x01 s)

/-- UNC: control byte 0x02 (R92, R100). -/
def execUnc (s : State) : Host.Outcome State Fault Refusal := finish (controlByte 0x02 s)

/-- A reserved control byte, 0x03..0x7F: `data` (R92, R78). -/
def execReservedCtrl (c : Byte) (s : State) : Host.Outcome State Fault Refusal := finish (controlByte c s)

/-- LZ0: control bytes 0x80..0x9F (R92). -/
def execLz0 (u : BitVec 5) (s : State) : Host.Outcome State Fault Refusal := finish (controlByte (lzmaControl 0 u) s)

/-- LZ1: control bytes 0xA0..0xBF (R92). -/
def execLz1 (u : BitVec 5) (s : State) : Host.Outcome State Fault Refusal := finish (controlByte (lzmaControl 1 u) s)

/-- LZ2: control bytes 0xC0..0xDF (R92). -/
def execLz2 (u : BitVec 5) (s : State) : Host.Outcome State Fault Refusal := finish (controlByte (lzmaControl 2 u) s)

/-- LZ3: control bytes 0xE0..0xFF (R92). -/
def execLz3 (u : BitVec 5) (s : State) : Host.Outcome State Fault Refusal := finish (controlByte (lzmaControl 3 u) s)

/-- PROPS: a properties byte (R96). -/
def execProps (v : Byte) (s : State) : Host.Outcome State Fault Refusal := finish (propsByte v s)

/-- CONTROL (R92). -/
def execControl (s : State) : Host.Outcome State Fault Refusal := finish (control s)

/-- HEADER (R95). -/
def execHeader (h : HeaderByte) (s : State) : Host.Outcome State Fault Refusal := finish (header h s)

/-- PROPERTIES (R96). -/
def execProperties (s : State) : Host.Outcome State Fault Refusal := finish (properties s)

/-- PREPARE (R97). -/
def execPrepare (s : State) : Host.Outcome State Fault Refusal := finish (prepare s)

/-- RUN (R98). -/
def execRun (s : State) : Host.Outcome State Fault Refusal := finish (run s)

/-- CHUNK_END (R99). -/
def execChunkEnd (s : State) : Host.Outcome State Fault Refusal := finish (chunkEnd s)

/-- COPY (R100). -/
def execCopy (s : State) : Host.Outcome State Fault Refusal := finish (copy s)

/-- BCJ_FLUSH (R116). -/
def execBcjFlush (s : State) : Host.Outcome State Fault Refusal := finish (bcjFlush s)

end Sys2Proof.Machine
end

