-- ==== Sys2Proof/Machine/Resume.lean ====
section
/-! DEFINITION. Resuming a waiting operation (00_scope.md R17, 10_state.md R49, 60_exceptions.md R140): "The operation
continues from this same point". Each arm of `resumeFrame` is the continuation that the operation gave with that frame. -/

namespace Sys2Proof.Machine

/-- A caller goes on with the value its callee returned. -/
def resumeFrame : Frame → Nat → State → Res
  | .rcByte, v, s => .done v s.countByte
  | .rcNorm, v, s => .done 0 (s.shiftIn v)
  | .rcBit bit, _, s => .done bit s
  | .rcInitFirst, v, s => rcInitFirst v s
  | .rcInitNext left c, v, s => rcInitFrom left ((c <<< 8) ||| .ofNat 32 v) s
  | .rcTree base n left sym, b, s => rcTreeFrom base n left (2 * sym + b) s
  | .rcTreeRev base left k sym v, b, s => rcTreeRevFrom base left (k + 1) (2 * sym + b) (v ||| (b <<< k)) s
  | .rcDirect left v, _, s => rcDirectFrom left v s
  | .ret, v, s => keep v s
  | .isMatch, b, s => afterIsMatch b s
  | .isRep, b, s => afterIsRep b s
  | .isRep0, b, s => afterIsRep0 b s
  | .isRep0Long, b, s => afterIsRep0Long b s
  | .isRep1, b, s => afterIsRep1 b s
  | .isRep2, b, s => afterIsRep2 b s
  | .litByte, v, s => litByte v s
  | .litPut, _, s => .done 0 s.literalDone
  | .mlit c left mbyte matchBit offset sym, b, s =>
    if b = 1 then mlitFrom c left mbyte matchBit ((sym <<< 1) + 1) s
    else mlitFrom c left mbyte (offset &&& ~~~matchBit) (sym <<< 1) s
  | .lenChoice l, b, s => lenChoice l b s
  | .lenChoice2 l, b, s => lenChoice2 l b s
  | .lenLow, t, s => .done 0 (lenLow (.ofNat 3 t) s)
  | .lenMid, t, s => .done 0 (lenMid (.ofNat 3 t) s)
  | .lenHigh, t, s => .done 0 (lenHigh (.ofNat 8 t) s)
  | .distSlot, slot, s => distSlot slot s
  | .distSpecial slot, t, s => .done 0 (distSlot4To13 slot t s)
  | .distDirect slot, x, s => distDirect slot x s
  | .distAlign slot x, a, s => .done 0 (distSlot14To63 slot x a s)
  | .matchLen, _, s => matchDist s
  | .copyMatch, _, s => copyMatch s
  | .repeatPut dist fuel, _, s => repeatLoop dist fuel s.countCopy
  | .control, c, s => controlByte (.ofNat 8 c) s
  | .header h, x, s => .done 0 { s with sq := s.sq.headerByte x h }
  | .properties, v, s => propsByte (.ofNat 8 v) s
  | .prepare, _, s => .done 0 { s with sq := { s.sq with seq := .lzmaRun } }
  | .run fuel, _, s => runLoop fuel s
  | .copyRead fuel, b, s => (dictPut (.ofNat 8 b) s).bind (.copyPut fuel) fun _ s => copyLoop fuel s.countByte
  | .copyPut fuel, _, s => copyLoop fuel s.countByte
  | .copyDone, _, s => .done 0 { s with sq := { s.sq with seq := .control } }
  | .outByte left k n, _, s => outBytes left k n s
  | .flush rest, _, s => flushBytes rest { s with bcj := { s.bcj with carry := rest } }
  | .endMark, _, s => .done 0 { s with status := .streamEnd }

/-- The callers of a statement, innermost first, go on one after the other. -/
def resumeFrames : List Frame → Res → Res
  | [], r => r
  | fr :: k, r => resumeFrames k (r.bind fr (resumeFrame fr))

/-- Resume a waiting operation in the statement where it waits. -/
def resume (w : Suspension) (s : State) : Res := resumeFrames w.frames (runPrim w.prim s)

end Sys2Proof.Machine
end

