-- ==== Sys2Proof/Machine/Dispatch.lean ====
section
/-! DEFINITION. The dispatch: one arm per constructor of `Instr`. -/

namespace Sys2Proof.Machine

def exec (i : Instr) (s : State) : Host.Outcome State Fault Refusal :=
  match i with
  | .endMark => Sys2Proof.Machine.execEndMark s
  | .uncDr => Sys2Proof.Machine.execUncDr s
  | .unc => Sys2Proof.Machine.execUnc s
  | .reservedCtrl c => Sys2Proof.Machine.execReservedCtrl c s
  | .lz0 u => Sys2Proof.Machine.execLz0 u s
  | .lz1 u => Sys2Proof.Machine.execLz1 u s
  | .lz2 u => Sys2Proof.Machine.execLz2 u s
  | .lz3 u => Sys2Proof.Machine.execLz3 u s
  | .props v => Sys2Proof.Machine.execProps v s
  | .dictProp b => Sys2Proof.Machine.execDictProp b s
  | .lit => Sys2Proof.Machine.execLit s
  | .mlit => Sys2Proof.Machine.execMlit s
  | .matchNew => Sys2Proof.Machine.execMatchNew s
  | .shortRep => Sys2Proof.Machine.execShortRep s
  | .longRep0 => Sys2Proof.Machine.execLongRep0 s
  | .longRep1 => Sys2Proof.Machine.execLongRep1 s
  | .longRep2 => Sys2Proof.Machine.execLongRep2 s
  | .longRep3 => Sys2Proof.Machine.execLongRep3 s
  | .lenLow t => Sys2Proof.Machine.execLenLow t s
  | .lenMid t => Sys2Proof.Machine.execLenMid t s
  | .lenHigh t => Sys2Proof.Machine.execLenHigh t s
  | .distSlot0To3 slot => Sys2Proof.Machine.execDistSlot0To3 slot s
  | .distSlot4To13 slot t => Sys2Proof.Machine.execDistSlot4To13 slot t s
  | .distSlot14To63 slot x a => Sys2Proof.Machine.execDistSlot14To63 slot x a s
  | .bcjX86CallJmp jmp operand => Sys2Proof.Machine.execBcjX86CallJmp jmp operand s
  | .bcjPpcBl a => Sys2Proof.Machine.execBcjPpcBl a s
  | .bcjIa64BranchSlot slot norm => Sys2Proof.Machine.execBcjIa64BranchSlot slot norm s
  | .bcjArmBl a => Sys2Proof.Machine.execBcjArmBl a s
  | .bcjThumbBl a => Sys2Proof.Machine.execBcjThumbBl a s
  | .bcjSparcCallPos d => Sys2Proof.Machine.execBcjSparcCallPos d s
  | .bcjSparcCallNeg d => Sys2Proof.Machine.execBcjSparcCallNeg d s
  | .checkNone => Sys2Proof.Machine.execCheckNone s
  | .checkCrc32 => Sys2Proof.Machine.execCheckCrc32 s
  | .checkCrc64 => Sys2Proof.Machine.execCheckCrc64 s
  | .checkSha256 => Sys2Proof.Machine.execCheckSha256 s
  | .checkUnsupported b => Sys2Proof.Machine.execCheckUnsupported b s
  | .dictCheck => Sys2Proof.Machine.execDictCheck s
  | .control => Sys2Proof.Machine.execControl s
  | .header h => Sys2Proof.Machine.execHeader h s
  | .properties => Sys2Proof.Machine.execProperties s
  | .prepare => Sys2Proof.Machine.execPrepare s
  | .run => Sys2Proof.Machine.execRun s
  | .chunkEnd => Sys2Proof.Machine.execChunkEnd s
  | .copy => Sys2Proof.Machine.execCopy s
  | .rcInit => Sys2Proof.Machine.execRcInit s
  | .rcNorm => Sys2Proof.Machine.execRcNorm s
  | .rcBit n => Sys2Proof.Machine.execRcBit n s
  | .rcTree base n => Sys2Proof.Machine.execRcTree base n s
  | .rcTreeRev base n => Sys2Proof.Machine.execRcTreeRev base n s
  | .rcDirect n => Sys2Proof.Machine.execRcDirect n s
  | .rcFinished => Sys2Proof.Machine.execRcFinished s
  | .bcjFlush => Sys2Proof.Machine.execBcjFlush s
  | .chkUpdate b => Sys2Proof.Machine.execChkUpdate b s
  | .chkFinalize => Sys2Proof.Machine.execChkFinalize s
  | .dictReset => Sys2Proof.Machine.execDictReset s
  | .lzmaStateReset => Sys2Proof.Machine.execLzmaStateReset s
  | .rcReset => Sys2Proof.Machine.execRcReset s
  | .hostReset cap => Sys2Proof.Machine.execHostReset cap s
  | .hostConfig dp arch ct => Sys2Proof.Machine.execHostConfig dp arch ct s
  | .hostFeed bytes => Sys2Proof.Machine.execHostFeed bytes s
  | .hostEndInput => Sys2Proof.Machine.execHostEndInput s
  | .hostSpace n => Sys2Proof.Machine.execHostSpace n s
  | .hostRun => Sys2Proof.Machine.execHostRun s
  | .hostCompare tag => Sys2Proof.Machine.execHostCompare tag s

end Sys2Proof.Machine
end

