-- ==== Sys2Proof/Machine/Engine.lean ====
section
/-! DEFINITION. How the block runs: the sequencer's choice of operation (41_lzma2_chunks.md R91), a HOST_RUN in progress
and its return (60_exceptions.md R135), the host's turn (R133), and a table word placed where the block fetches. -/

namespace Sys2Proof.Machine

/-- The operation that `seq` names (R91). -/
def seqInstr : Seq → Instr
  | .control => .control
  | .uncompressed1 => .header .uncompressed1
  | .uncompressed2 => .header .uncompressed2
  | .compressed1 => .header .compressed1
  | .compressed2 => .header .compressed2
  | .properties => .properties
  | .lzmaPrepare => .prepare
  | .lzmaRun => .run
  | .copy => .copy

/-- What a suspended operation waits for, as HOST_RUN returns it (R133). -/
def waitOf (w : Suspension) : Wait :=
  match w.prim with
  | .inByte => .input
  | .deliver _ => .output

/-- The return of HOST_RUN (R135): when `status` has become terminal, or when an operation waits. -/
def settle (s : State) : State :=
  if s.status = .running then
    match s.susp with
    | some w =>
      { s with host := { s.host with inRun := false, runReturn := some { status := s.status, wait := some (waitOf w) } } }
    | none => s
  else { s with host := { s.host with inRun := false, runReturn := some { status := s.status, wait := none } } }

/-- One engine operation: the waiting one goes on, or the one that `seq` names is performed (R135, R140). -/
def engineOp (s : State) : Host.Outcome State Fault Refusal :=
  match s.susp with
  | some w => finish (resume w { s with susp := none })
  | none => exec (seqInstr s.sq.seq) s

/-- The outcome of an engine operation as the step reports it, with the return of HOST_RUN worked out. -/
def settled : Host.Outcome State Fault Refusal → Host.Outcome State Fault Refusal
  | .next t => .next (settle t)
  | .fault f => .fault f
  | .refused r => .refused r

/-- A step inside a HOST_RUN. -/
def engineStep (s : State) : Host.Outcome State Fault Refusal :=
  if s.status = .running then settled (engineOp s) else .next (settle s)

/-- The host's turn: its next operation, or no change while it issues none (R133, R141). -/
def hostStep (s : State) : Host.Outcome State Fault Refusal :=
  match s.host.queue with
  | [] => .next s
  | op :: rest => exec op.toInstr { s with host := { s.host with queue := rest } }

/-- One step: the engine's while a HOST_RUN is in progress, the host's otherwise. -/
def blockStep (s : State) : Host.Outcome State Fault Refusal := if s.host.inRun then engineStep s else hostStep s

/-! ## A table word where the block fetches (log entry 4) -/

/-- A HOST_RUN in progress at an operation boundary, with bytes at the front of the input. -/
def State.fetching (s : State) (seq : Seq) (bytes : List Byte) : State :=
  { s with
    status := .running
    sq := { s.sq with seq := seq }
    io := { s.io with input := bytes ++ s.io.input }
    susp := none
    host := { s.host with inRun := true, runReturn := none } }

/-- A control byte is the next input byte in `seq` = control, with five zero bytes after it, the longest header. -/
def State.withControlByte (s : State) (c : Byte) : State := s.fetching .control (c :: List.replicate 5 0)

/-- A BCJ unit arrives as the payload of an uncompressed chunk at the start of a block that has the unit's filter, with
output space for it. -/
def State.withBcjUnit (s : State) (arch : Arch) (bytes : List Byte) : State :=
  let t := s.fetching .copy bytes
  { t with
    cfg := { t.cfg with bcjArch := some (archId arch) }
    sq := { t.sq with compLeft := bytes.length }
    bcj := { pos := 0, carry := [], x86PrevMask := 0 }
    io := { t.io with space := t.io.space + bytes.length } }

/-- A table word where the next step fetches. -/
def State.withTableWord (s : State) (nbits w : Nat) : State :=
  match firstUnit (tableWordBytes nbits w) with
  | some (arch, bytes, _) => s.withBcjUnit arch bytes
  | none => s.withControlByte (.ofNat 8 w)

end Sys2Proof.Machine
end

