-- ==== Sys2Proof/Machine/Step.lean ====
section
/-! DEFINITION. The step, and a table word placed where it fetches. -/

namespace Sys2Proof.Machine

/-- One step of the block and its host. -/
def step (s : State) : Host.Outcome State Fault Refusal := blockStep s

/-- `s` with a table word where `step` fetches its next instruction (log entry 4). -/
def State.withFetchWord (s : State) (nbits w : Nat) : State := s.withTableWord nbits w

end Sys2Proof.Machine
end

