-- ==== Sys2Proof/Safety.lean ====
section
/-! DEFINITION. The terms in which claims about the block are made: the invariant of a run, what it is for a string of bits
to be decoded, and the effect of a produced byte when no wait comes between. -/

namespace Sys2Proof.Machine

/-! ## The invariant -/

/-- The header byte that a sequencer state reads (R91). -/
def seqOfHeader : HeaderByte → Seq
  | .uncompressed1 => .uncompressed1
  | .uncompressed2 => .uncompressed2
  | .compressed1 => .compressed1
  | .compressed2 => .compressed2

/-- The ranges and the canonical forms that every step keeps (R25, R26, R29, R38, R40 to R42, R46, R47), and how `status`, the
resumption point and a HOST_RUN in progress go together (R133, R135, R137). -/
structure State.Inv (s : State) : Prop where
  memWf : s.dict.mem.wf = true
  memBelow : Sparse.below s.dict.size s.dict.mem = true
  posBelow : s.dict.pos < s.dict.size
  validLe : s.dict.valid ≤ s.dict.size
  probsWf : s.probs.wf = true
  probsBelow : Sparse.below Config.probCells s.probs = true
  lenLe : s.lz.len ≤ 273
  lcLe : s.lz.lc ≤ 8
  lpLe : s.lz.lp ≤ 4
  pbLe : s.lz.pb ≤ 4
  uncLe : s.sq.uncLeft ≤ 2 ^ 21
  compLe : s.sq.compLeft ≤ 2 ^ 16
  unc1 : s.status = .running → s.sq.seq = .uncompressed1 → s.sq.uncLeft ≤ 0x1F0000
  unc2 : s.status = .running → s.sq.seq = .uncompressed2 → s.sq.uncLeft ≤ 0x1FFF00
  comp2 : s.status = .running → s.sq.seq = .compressed2 → s.sq.compLeft ≤ 0xFF00
  headerAlone : ∀ w h, s.susp = some w → .header h ∈ w.frames → w.frames = [.header h] ∧ s.sq.seq = seqOfHeader h
  outermost : ∀ w fr, s.susp = some w → fr ∈ w.frames.dropLast → fr ≠ .control ∧ fr ≠ .endMark
  shaBufShort : s.chk.shaBuf.length < 64
  maskShort : s.bcj.x86PrevMask.toNat < 64
  tagShort : s.chk.tagLen ≤ 32 ∧ s.cfg.expectedTag.length ≤ 32
  filterKnown : s.status = .running → archSupported s.cfg.bcjArch = true
  suspRuns : s.susp.isSome = true → s.status = .running
  runRuns : s.host.inRun = true → s.status = .running ∧ s.host.runReturn = none

/-! ## The invariant of the coder

What the spec promises of a run beyond ranges: `range` between symbols (R22, R80), the cells of `P` (R81), a distance that a
matched literal can read (R102), the bytes that stage 2 holds (R45, R117), and the statements in which an operation can
wait (R17, R49). -/

/-- `seq` reads a size byte (R91). -/
def Seq.readsSize : Seq → Prop
  | .uncompressed1 | .uncompressed2 | .compressed1 | .compressed2 => True
  | .control | .properties | .lzmaPrepare | .lzmaRun | .copy => False

/-- The LZMA state has been reset in this block and no properties byte is on its way: an LZMA chunk can go on from here
without one (R92, R93). -/
def State.coderReady (s : State) : Prop :=
  s.status = .running ∧ s.sq.needProps = false ∧ s.sq.seq ≠ .properties ∧
    (s.sq.seq.readsSize → s.sq.nextSeq ≠ .properties)

/-- The most bytes that stage 2 holds after a byte (R116, R117). -/
def carryBound (id : Option Byte) : Nat :=
  match id.bind archOfId with
  | none => 0
  | some .x86 => 4
  | some .ia64 => 15
  | some .powerpc | some .arm | some .armthumb | some .sparc => 3

/-- A wait in a tree of `n` bits (R86): `left` further bits, and every cell of the tree is a cell of `P`. -/
def treeWait (n base left sym : Nat) : Prop := left < n ∧ sym < 2 ^ (n - left) ∧ base + 2 ^ n ≤ Config.probCells

/-- A wait in a reverse tree (R87): bit `k` is awaited, `left` further bits. -/
def treeRevWait (base left k sym : Nat) : Prop := sym < 2 ^ (k + 1) ∧ base + 2 ^ (k + 1 + left) ≤ Config.probCells

/-- The callers of LZ_LEN inside RUN (R109, R112). -/
inductive LenCallers : List Frame → Prop
  | newMatch (fuel : Nat) : LenCallers [.matchLen, .run fuel]
  | longRep (fuel : Nat) : LenCallers [.copyMatch, .run fuel]

/-- The callers of one bit inside RUN: decision bits (R103), literals (R105, R106), lengths (R107), distances (R108). -/
inductive BitCallers : List Frame → Prop
  | isMatch (fuel : Nat) : BitCallers [.isMatch, .run fuel]
  | isRep (fuel : Nat) : BitCallers [.isRep, .run fuel]
  | isRep0 (fuel : Nat) : BitCallers [.isRep0, .run fuel]
  | isRep0Long (fuel : Nat) : BitCallers [.isRep0Long, .run fuel]
  | isRep1 (fuel : Nat) : BitCallers [.isRep1, .run fuel]
  | isRep2 (fuel : Nat) : BitCallers [.isRep2, .run fuel]
  | lit {base left sym fuel : Nat} (h : treeWait 8 base left sym) : BitCallers [.rcTree base 8 left sym, .litByte, .run fuel]
  | mlit {c left fuel : Nat} {mbyte matchBit offset sym : Word32} (hc : c < 16) (hl : left < 8)
      (ho : offset = 0 ∨ offset = 0x100) (hm : matchBit = 0 ∨ matchBit = offset) (hs : sym.toNat < 2 ^ (8 - left)) :
      BitCallers [.mlit c left mbyte matchBit offset sym, .run fuel]
  | choice (l : LenCoder) {k : List Frame} (h : LenCallers k) : BitCallers (.lenChoice l :: k)
  | choice2 (l : LenCoder) {k : List Frame} (h : LenCallers k) : BitCallers (.lenChoice2 l :: k)
  | low {base left sym : Nat} {k : List Frame} (h : treeWait 3 base left sym) (hk : LenCallers k) :
      BitCallers (.rcTree base 3 left sym :: .lenLow :: k)
  | mid {base left sym : Nat} {k : List Frame} (h : treeWait 3 base left sym) (hk : LenCallers k) :
      BitCallers (.rcTree base 3 left sym :: .lenMid :: k)
  | high {base left sym : Nat} {k : List Frame} (h : treeWait 8 base left sym) (hk : LenCallers k) :
      BitCallers (.rcTree base 8 left sym :: .lenHigh :: k)
  | slot {base left sym fuel : Nat} (h : treeWait 6 base left sym) :
      BitCallers [.rcTree base 6 left sym, .distSlot, .copyMatch, .run fuel]
  | special {base left k sym v slot fuel : Nat} (h : treeRevWait base left k sym) :
      BitCallers [.rcTreeRev base left k sym v, .distSpecial slot, .copyMatch, .run fuel]
  | align {base left k sym v slot x fuel : Nat} (h : treeRevWait base left k sym) :
      BitCallers [.rcTreeRev base left k sym v, .distAlign slot x, .copyMatch, .run fuel]

/-- The callers of a normalization inside RUN (R84, R85, R88). -/
inductive NormCallers : List Frame → Prop
  | bit {b : Nat} {k : List Frame} (hb : b < 2) (h : BitCallers k) : NormCallers (.rcBit b :: k)
  | direct (left v slot fuel : Nat) : NormCallers [.rcDirect left v, .distDirect slot, .copyMatch, .run fuel]

/-- The callers of a produced byte (R60): a literal, a match copy, an uncompressed chunk. -/
inductive PutCallers : Seq → List Frame → Prop
  | literal (fuel : Nat) : PutCallers .lzmaRun [.litPut, .run fuel]
  | repeated (dist : Word32) (left fuel : Nat) : PutCallers .lzmaRun [.repeatPut dist left, .run fuel]
  | copied (fuel : Nat) : PutCallers .copy [.copyPut fuel, .copyDone]

/-- The statements in which an operation of the engine waits, with its callers, under the `seq` that named it. -/
inductive Waits (s : State) : Suspension → Prop
  | control (h : s.sq.seq = .control) : Waits s ⟨.inByte, [.control]⟩
  | header (b : HeaderByte) (h : s.sq.seq = seqOfHeader b) : Waits s ⟨.inByte, [.header b]⟩
  | properties (h : s.sq.seq = .properties) : Waits s ⟨.inByte, [.properties]⟩
  | initFirst (h : s.sq.seq = .lzmaPrepare) : Waits s ⟨.inByte, [.rcByte, .rcInitFirst, .prepare]⟩
  | initNext (left : Nat) (c : Word32) (h : s.sq.seq = .lzmaPrepare) :
      Waits s ⟨.inByte, [.rcByte, .rcInitNext left c, .prepare]⟩
  | norm {k : List Frame} (h : s.sq.seq = .lzmaRun) (hk : NormCallers k) : Waits s ⟨.inByte, .rcByte :: .rcNorm :: k⟩
  | copyRead (fuel : Nat) (h : s.sq.seq = .copy) : Waits s ⟨.inByte, [.copyRead fuel, .copyDone]⟩
  | put {k : List Frame} (b : Byte) (hk : PutCallers s.sq.seq k) : Waits s ⟨.deliver b, k⟩
  | outByte {k : List Frame} (b : Byte) (left i n : Nat) (hk : PutCallers s.sq.seq k)
      (hn : s.bcj.carry.length ≤ n + carryBound s.cfg.bcjArch) : Waits s ⟨.deliver b, .outByte left i n :: k⟩
  | flush (b : Byte) (rest : List Byte) (h : s.sq.seq = .control) (hr : rest.length ≤ carryBound s.cfg.bcjArch) :
      Waits s ⟨.deliver b, [.flush rest, .endMark]⟩

/-- A packet waits whose copy, if it has one, has not been tested yet. -/
def State.beforeCopy (s : State) : Prop :=
  ∃ w fuel, s.susp = some w ∧ Frame.run fuel ∈ w.frames ∧ ∀ d n, Frame.repeatPut d n ∉ w.frames

/-- Stage 2 waits in the delivery of a window's final bytes. -/
def State.delivering (s : State) : Prop := ∃ w left i n, s.susp = some w ∧ Frame.outByte left i n ∈ w.frames

/-- The invariant of the coder. -/
structure State.CoderInv (s : State) : Prop where
  propsRead : s.status = .running →
    (s.sq.seq = .properties ∨ s.sq.seq = .lzmaPrepare ∨ s.sq.seq = .lzmaRun ∨
      (s.sq.seq.readsSize ∧ s.sq.nextSeq ≠ .copy)) → s.sq.needProps = false
  context : s.coderReady → s.lz.lc + s.lz.lp ≤ 4
  cells : s.coderReady → ∀ i, 31 ≤ (s.probs.read i).toNat ∧ (s.probs.read i).toNat ≤ 2017
  rangeHigh : s.coderReady → 0x01000000 ≤ s.rc.range
  reachable : s.coderReady → ¬ s.beforeCopy → 7 ≤ s.lz.state.val → s.lz.rep0.toNat < s.dict.valid
  carryShort : ¬ s.delivering → s.bcj.carry.length ≤ carryBound s.cfg.bcjArch
  waits : ∀ w, s.susp = some w → Waits s w

/-! ## The uses of `P` -/

/-- A cell of `P` by its array and its indices (R38). -/
inductive CellUse
  | isMatch (st : Fin 12) (ps : Fin 16)
  | isRep (st : Fin 12)
  | isRep0 (st : Fin 12)
  | isRep1 (st : Fin 12)
  | isRep2 (st : Fin 12)
  | isRep0Long (st : Fin 12) (ps : Fin 16)
  | distSlot (ds : Fin 4) (k : Fin 64)
  | distSpecial (k : Fin 114)
  | distAlign (k : Fin 16)
  | choice (l : LenCoder)
  | choice2 (l : LenCoder)
  | low (l : LenCoder) (ps : Fin 16) (k : Fin 8)
  | mid (l : LenCoder) (ps : Fin 16) (k : Fin 8)
  | high (l : LenCoder) (k : Fin 256)
  | literal (c : Fin 16) (k : Fin 768)
  deriving DecidableEq, Repr

/-- The number of that cell, by the functions with which the packets find it. -/
def CellUse.cell : CellUse → Nat
  | .isMatch st ps => isMatchCell st ps
  | .isRep st => isRepCell st
  | .isRep0 st => isRep0Cell st
  | .isRep1 st => isRep1Cell st
  | .isRep2 st => isRep2Cell st
  | .isRep0Long st ps => isRep0LongCell st ps
  | .distSlot ds k => distSlotTree ds + k
  | .distSpecial k => distSpecialBase + k
  | .distAlign k => distAlignBase + k
  | .choice l => choiceCell l
  | .choice2 l => choice2Cell l
  | .low l ps k => lowTree l ps + k
  | .mid l ps k => midTree l ps + k
  | .high l k => highTree l + k
  | .literal c k => literalTree c + k

/-! ## Decoding a string of bits -/

/-- Where a bit comes from: a cell of `P` (R85), or the range alone (R88). -/
inductive BitSource
  | cell (i : Nat)
  | direct
  deriving DecidableEq, Repr

/-- One bit, with its normalization. -/
def decodeOne : BitSource → State → Res
  | .cell i, s => rcBit i s
  | .direct, s => rcDirect 1 s

/-- From `s` the block decodes these bits from these sources one after the other, without a wait or an error, and is then
in `u`. -/
def Decodes : List (BitSource × Bool) → State → State → Prop
  | [], s, u => s = u
  | (c, b) :: r, s, u => ∃ v, decodeOne c s = .done b.toNat v ∧ Decodes r v u

/-- The cells of a bit tree, forward or reverse: `base + sym`, then `sym <- 2 * sym + bit` (R86, R87). -/
def treePath (base : Nat) : Nat → List Bool → List (BitSource × Bool)
  | _, [] => []
  | sym, b :: r => (.cell (base + sym), b) :: treePath base (2 * sym + b.toNat) r

/-- Direct bits (R88). -/
def directPath (bits : List Bool) : List (BitSource × Bool) := bits.map fun b => (.direct, b)

/-- The cells of a matched literal, as the corner cases of R106 give them: while the bits agree with the match byte,
`0x100 + (match bit << 8) + sym`, and after the first bit that differs the plain tree cells. -/
def mlitPath (base : Nat) (m : Byte) : Nat → Bool → List Bool → List (BitSource × Bool)
  | _, _, [] => []
  | sym, agree, b :: r =>
    let mb := m.getLsbD r.length
    (.cell (base + if agree then 0x100 + mb.toNat * 0x100 + sym else sym), b) ::
      mlitPath base m (2 * sym + b.toNat) (agree && mb == b) r

/-- The cells of a length (R74). -/
def lenPath (l : LenCoder) (ps : Nat) : List Bool → List (BitSource × Bool)
  | [] => []
  | false :: r => (.cell (choiceCell l), false) :: treePath (lowTree l ps) 1 r
  | [true] => [(.cell (choiceCell l), true)]
  | true :: false :: r =>
    (.cell (choiceCell l), true) :: (.cell (choice2Cell l), false) :: treePath (midTree l ps) 1 r
  | true :: true :: r =>
    (.cell (choiceCell l), true) :: (.cell (choice2Cell l), true) :: treePath (highTree l) 1 r

/-- The sources of a distance's bits (R75). -/
def distPath (ds : Nat) (bits : List Bool) : List (BitSource × Bool) :=
  let slot := bitsMsb (bits.take 6)
  let r := bits.drop 6
  treePath (distSlotTree ds) 1 (bits.take 6) ++
    if slot < 4 then []
    else if slot < 14 then treePath (distSpecialTree slot) 1 r
    else directPath (r.take (slotBits slot - 4)) ++ treePath distAlignBase 1 (r.drop (slotBits slot - 4))

/-- The cell of the next decision bit of a packet, from the bits so far (R73). -/
def packetCell (st ps : Nat) : List Bool → Nat
  | [] => isMatchCell st ps
  | [_] => isRepCell st
  | [_, _] => isRep0Cell st
  | [_, _, false] => isRep0LongCell st ps
  | [_, _, true] => isRep1Cell st
  | _ => isRep2Cell st

/-- The cells of a packet's decision bits, `sofar` decided already. -/
def packetPath (st ps : Nat) : List Bool → List Bool → List (BitSource × Bool)
  | _, [] => []
  | sofar, b :: r => (.cell (packetCell st ps sofar), b) :: packetPath st ps (sofar ++ [b]) r

/-! ## Produced bytes without a wait -/

/-- A byte through stage 2 (R115): filtered, the final bytes delivered in order, the others held. -/
def State.emit (s : State) (b : Byte) : State :=
  match s.cfg.bcjArch.bind archOfId with
  | none => s.deliver b
  | some arch =>
    let f := s.filtered arch b
    ((f.1.bcj.carry.take f.2).foldl State.deliver f.1).outDone f.2

/-- A produced byte: into the dictionary, then through stage 2 (R60). -/
def State.produce (s : State) (b : Byte) : State := State.emit { s with dict := s.dict.put b } b

/-- `n` bytes of a match copy, oldest first (R61). -/
def copied (dist : Word32) : Nat → State → State
  | 0, s => s
  | n + 1, s => copied dist n (s.produce (s.dict.get dist)).countCopy

/-- `n` bytes of an uncompressed chunk (R62). -/
def chunkCopied : Nat → State → State
  | 0, s => s
  | n + 1, s =>
    match s.io.input with
    | b :: r => chunkCopied n (State.produce { s with io := { s.io with input := r } } b).countByte
    | [] => s

/-- `n` bytes of a match copy in the dictionary alone (R61). -/
def Dict.copied (dist : Word32) : Nat → Dict → Dict
  | 0, d => d
  | n + 1, d => Dict.copied dist n (d.put (d.get dist))

/-- The completed packets of a chunk, up to the state in which its bytes are produced (R98). -/
inductive PacketsTo : State → State → Prop
  | here {s : State} (h : s.sq.uncLeft = 0) : PacketsTo s s
  | packet {s v u : State} {x : Nat} (h : 0 < s.sq.uncLeft) (hp : lzPacket s = .done x v) (hr : PacketsTo v u) :
      PacketsTo s u

/-- The completed packets of a chunk, up to any state on the way (R98). -/
inductive PacketsReach : State → State → Prop
  | here (s : State) : PacketsReach s s
  | packet {s v u : State} {x : Nat} (h : 0 < s.sq.uncLeft) (hp : lzPacket s = .done x v) (hr : PacketsReach v u) :
      PacketsReach s u

/-! ## One slot of an IA-64 bundle -/

/-- The bundle in `carry` with one slot rewritten as the slot's instruction does, or as it was where the slot holds none
(R120). -/
def SlotRewritten (slot : Fin 3) (s t : State) : Prop :=
  (∀ i r, decodeIa64Slot slot s.bcj.carry = .ok (i, r) → exec i s = .next t) ∧
  ((∀ i r, decodeIa64Slot slot s.bcj.carry ≠ .ok (i, r)) → t = s)

/-! ## The host between two runs -/

/-- More input (R52). -/
def State.feed (s : State) (bs : List Byte) : State := { s with io := { s.io with input := s.io.input ++ bs } }

/-- More output space (R53). -/
def State.grant (s : State) (n : Nat) : State := { s with io := { s.io with space := s.io.space + n } }

/-- The next HOST_RUN (R135). -/
def State.rerun (s : State) : State := { s with host := { s.host with inRun := true, runReturn := none } }

/-- `n` steps of the block and its host. -/
def runSteps : Nat → State → Host.Outcome State Fault Refusal
  | 0, s => .next s
  | n + 1, s =>
    match step s with
    | .next t => runSteps n t
    | .fault f => .fault f
    | .refused r => .refused r

/-- The reset state with the operations that the host is going to issue. -/
def State.resetWith (ops : List HostOp) : State :=
  { State.reset with host := { State.reset.host with queue := ops } }

/-- An operation waits for an input byte. -/
def State.waitsForInput (s : State) : Prop := ∃ w, s.susp = some w ∧ w.prim = .inByte

/-- An operation waits for output space. -/
def State.waitsForOutput (s : State) : Prop := ∃ w b, s.susp = some w ∧ w.prim = .deliver b

/-- A HOST_RUN is in progress and the engine is running. -/
def State.engineRuns (s : State) : Prop := s.host.inRun = true ∧ s.host.runReturn = none ∧ s.status = .running

end Sys2Proof.Machine
end

