-- ==== Sys2Proof/Certificates/Slice0/Obligations.lean ====
section
/-! DEFINITION. The statements for the provers. Explicit next states are their own frame: every register, stream and byte
of the dictionary that a statement does not name is unchanged. -/

open Sys2Proof Sys2Proof.Machine

/-! ## Encodings -/

/-- Words written out from 30_encoding.md, one or more per family, decode to the instruction they stand for (R67, R68,
R73 to R77). -/
def Obligations.SpecWordsDecodeToTheirInstructions : Prop :=
  decode .control (.bytes [0x00, 0xAA]) = .ok (.endMark, .bytes [0xAA]) ∧
  decode .control (.bytes [0x01]) = .ok (.uncDr, .bytes []) ∧
  decode .control (.bytes [0x7F]) = .ok (.reservedCtrl 0x7F, .bytes []) ∧
  decode .control (.bytes [0b10111111]) = .ok (.lz1 31, .bytes []) ∧
  decode .control (.bytes [0b11100000]) = .ok (.lz3 0, .bytes []) ∧
  decode (.packet true) (.bits [true, true, true, true, false]) = .ok (.longRep2, .bits []) ∧
  decode .length (.bits [true, false, true, false, true]) = .ok (.lenMid 5, .bits []) ∧
  decode .distance (.bits [false, false, true, true, true, false, true, false, true, true, false, false]) =
    .ok (.distSlot14To63 14 2 3, .bits []) ∧
  decode (.bcj .x86) (.bytes [0xE8, 0x05, 0x01, 0x00, 0x00]) = .ok (.bcjX86CallJmp false 0x105, .bytes []) ∧
  decode (.bcj .powerpc) (.bytes [0x48, 0x00, 0x01, 0x09]) = .ok (.bcjPpcBl 0x42, .bytes []) ∧
  decode (.bcj .arm) (.bytes [0x42, 0x00, 0x00, 0xEB]) = .ok (.bcjArmBl 0x42, .bytes []) ∧
  decode (.bcj .armthumb) (.bytes [0x00, 0xF0, 0x82, 0xF8]) = .ok (.bcjThumbBl 0x82, .bytes []) ∧
  decode (.bcj .sparc) (.bytes [0x40, 0x00, 0x00, 0x42]) = .ok (.bcjSparcCallPos 0x42, .bytes []) ∧
  decode .checkType (.bytes [0x0A]) = .ok (.checkSha256, .bytes [])

/-- Decoding the words of any well-formed instruction in its format gives it back, with nothing left over. -/
def Obligations.DecodeOfEncodeIsTheInstruction : Prop :=
  ∀ (i : Instr) (f : Format), i.wellFormed = true →
    (∀ l, encode i = some (f, .bytes l) → decode f (.bytes l) = .ok (i, .bytes [])) ∧
    (∀ l, encode i = some (f, .bits l) → decode f (.bits l) = .ok (i, .bits []))

/-- A control byte has one meaning, and a BCJ word unit that decodes has no other word: the encoding of what they decode to
is the byte, or the bytes, they were read from (R67, R68, R76). -/
def Obligations.EncodeOfDecodeIsTheWords : Prop :=
  (∀ c : Byte, (decodeControl c).wellFormed = true ∧ encode (decodeControl c) = some (.control, .bytes [c])) ∧
  (∀ (arch : Arch) (l r : List Byte) (i : Instr), decodeBcj arch l = .ok (i, r) →
    l = bcjBytes i ++ r ∧ i.wellFormed = true)

/-- A chunk header's bytes give the header back: control byte, sizes minus one big-endian, properties (R67, R69, R70). -/
def Obligations.ChunkHeaderRoundTrip : Prop :=
  ∀ (h : ChunkHeader) (rest : List Byte), h.wellFormed = true → ChunkHeader.decode (h.encode ++ rest) = some (h, rest)

/-! ## The step -/

/-- At an operation boundary of a HOST_RUN the step is the operation that `seq` names, row by row of R91's table (R135), and
a waiting operation goes on in the statement where it waits (R140).
One engine operation a step is the model's choice (log entry 10). -/
def Obligations.StepIsTheSequencersOperation : Prop :=
  ∀ s : State, s.engineRuns →
    (s.susp = none → ∀ row ∈ [(Seq.control, Instr.control), (.uncompressed1, .header .uncompressed1),
        (.uncompressed2, .header .uncompressed2), (.compressed1, .header .compressed1),
        (.compressed2, .header .compressed2), (.properties, .properties), (.lzmaPrepare, .prepare), (.lzmaRun, .run),
        (.copy, .copy)],
      s.sq.seq = row.1 → step s = settled (exec row.2 s)) ∧
    (∀ w, s.susp = some w → step s = settled (finish (resume w { s with susp := none })))

/-- When the next input byte is a control byte, the step takes it and runs the instruction it decodes to (R92); likewise
for a properties byte (R96).
A step is one engine operation by log entry 10. -/
def Obligations.StepRunsTheDecodedByte : Prop :=
  ∀ (s : State) (c : Byte) (r : List Byte), s.engineRuns → s.susp = none → s.io.input = c :: r →
    (s.sq.seq = .control → step s = settled (exec (decodeControl c) { s with io := { s.io with input := r } })) ∧
    (s.sq.seq = .properties → step s = settled (exec (.props c) { s with io := { s.io with input := r } }))

/-- When the bits that the range coder decodes at `state` and `ps` are a packet's decision bits, LZ_PACKET runs that
packet (R103, R73).
A packet's row starts after its decision bits by log entry 23. -/
def Obligations.PacketRunsTheDecodedBits : Prop :=
  ∀ (s u : State) (bits : List Bool) (i : Instr), decodePacket (isLitState s.lz.state) bits = .ok (i, []) →
    Decodes (packetPath s.st s.ps [] bits) s u → finish (lzPacket s) = exec i u

/-- Stage 2 rewrites its window as the unit at its front says (R115, R76).
The first two clauses are for x86, PowerPC, ARM, Thumb and SPARC, on every window that those filters see, of at most 5 bytes
(R117): a window that opens with a unit is rewritten as the unit's instruction does, and any other stays as received
(R118, R119, R121, R122, R123).
The others are for IA-64 (R120): a window of less than 16 bytes stays as received; one of 16 is final, and rewritten slot by
slot, by the instruction of each slot that holds one; and a slot is looked at for the templates that R120's TABLE gives.
A unit stands at the front of `carry` by log entry 23, and `ret` is the model's (log entry 13). -/
def Obligations.FilterRunsTheDecodedUnit : Prop :=
  ∀ (s : State) (arch : Arch) (b : Byte),
    let arrived : State := { s with bcj := { s.bcj with carry := s.bcj.carry ++ [b] } }
    (∀ i r, s.bcj.carry.length ≤ 4 → decodeBcj arch (s.bcj.carry ++ [b]) = .ok (i, r) →
      exec i arrived = .next { (s.filtered arch b).1 with ret := .num (s.filtered arch b).2 }) ∧
    (s.bcj.carry.length ≤ 4 → (∀ i r, decodeBcj arch (s.bcj.carry ++ [b]) ≠ .ok (i, r)) →
      (s.filtered arch b).1.bcj.carry = s.bcj.carry ++ [b]) ∧
    (s.bcj.carry.length < 15 → s.filtered .ia64 b = (arrived, 0)) ∧
    (s.bcj.carry.length = 15 → ∃ t1 t2 t3, SlotRewritten 0 arrived t1 ∧ SlotRewritten 1 t1 t2 ∧
      SlotRewritten 2 t2 t3 ∧ s.filtered .ia64 b = ({ t3 with ret := s.ret }, 16)) ∧
    (∀ (window : List Byte) (slot : Fin 3), 16 ≤ window.length →
      (decodeIa64Slot slot window = .error .slotNotSelected ↔
        (window.getD 0 0).toNat % 32 ∉ [[0x16, 0x17], [0x12, 0x13, 0x16, 0x17],
          [0x10, 0x11, 0x12, 0x13, 0x16, 0x17, 0x18, 0x19, 0x1C, 0x1D]].getD slot []))

/-- Outside a HOST_RUN the step is the host's next operation, and nothing changes while the host issues none
(R133, R141).
The host's queue is the model's (log entry 10). -/
def Obligations.HostOperationsRunInOrder : Prop :=
  ∀ (s : State), s.host.inRun = false →
    (∀ op rest, s.host.queue = op :: rest → step s = exec op.toInstr { s with host := { s.host with queue := rest } }) ∧
    (s.host.queue = [] → step s = .next s)

/-- An engine step ends the HOST_RUN exactly when `status` is terminal or an operation waits, and the return says which
(R135).
The return stands in the model's own field (log entries 10, 13). -/
def Obligations.RunReturnsOnWaitOrTerminalStatus : Prop :=
  ∀ s t : State, s.engineRuns → step s = .next t →
    (t.host.inRun = false ↔ (t.status ≠ .running ∨ t.susp.isSome = true)) ∧
    (t.status ≠ .running → t.host.runReturn = some { status := t.status, wait := none }) ∧
    (∀ w, t.status = .running → t.susp = some w →
      t.host.runReturn = some { status := .running, wait := some (waitOf w) })

/-! ## Invariants and whole-machine rules -/

/-- The reset state meets the invariant, and the invariant of the coder.
Registers that R145 leaves unspecified hold the values of log entry 1. -/
def Obligations.ResetMeetsTheInvariant : Prop := State.reset.Inv ∧ State.reset.CoderInv

/-- Every step keeps the invariant.
HOST_RESET's free values stay in the registers' ranges by log entry 3. -/
def Obligations.EveryStepKeepsTheInvariant : Prop := ∀ s t : State, s.Inv → step s = .next t → t.Inv

/-- From a state of the invariant no step finds `BCJ_ARCH` without a filter, and none is refused. If the invariant of the
coder holds too, the step answers a next state, and keeps it: `range` at 2^24 or more between symbols and in every wait
(R22, R80), every cell of `P` in 31..2017 once the LZMA state is reset (R81), `lc + lp <= 4` (R71), `rep0 < valid` whenever
`state >= 7` outside a packet whose copy is still to be tested (R102), the bound on `carry` (R45, R117), and every wait in a
statement of the operation that `seq` names, with no cell beyond the 14134 of `P` still to come (R38, R49).
HOST_RESET's free values stay in the registers' ranges by log entry 3. -/
def Obligations.NoStepIsRefusedOrWithoutFilter : Prop :=
  ∀ s : State, s.Inv → (∀ id, step s ≠ .fault (.noSuchFilter id)) ∧ (∀ r, step s ≠ .refused r) ∧
    (s.CoderInv → ∃ t, step s = .next t ∧ t.CoderInv)

/-- Whatever the host issues after reset, and whatever bytes it feeds, the block never stops: every step of every run answers
a next state, so no RC_BIT names a cell that `P` does not have.
The start is State.reset (log entries 1, 2), and the host's queue is the model's (log entry 10). -/
def Obligations.NoRunStops : Prop := ∀ (ops : List HostOp) (n : Nat), ∃ t, runSteps n (State.resetWith ops) = .next t

/-- An engine step reads the input in order from its front and appends to the output without passing the space given; the
check engine sees exactly the delivered bytes, in order; the configuration, the dictionary size, the end-of-input mark,
`check_ok` and the host's queue stay (R52, R53, R66, R37, R154). -/
def Obligations.EngineMovesOnlyItsStreams : Prop :=
  ∀ s t : State, s.engineRuns → step s = .next t →
    (∃ used, s.io.input = used ++ t.io.input) ∧
    (∃ bs, t.io.output = s.io.output ++ bs ∧ bs.length + t.io.space = s.io.space ∧
      t.chk = bs.foldl Check.update s.chk) ∧
    t.cfg = s.cfg ∧ t.dict.size = s.dict.size ∧ t.io.inputEnded = s.io.inputEnded ∧ t.checkOk = s.checkOk ∧
      t.chk.engine = s.chk.engine ∧ t.chk.tagLen = s.chk.tagLen ∧ t.host.queue = s.host.queue

/-- A wait for input does not change what is decoded: fed before or after the wait, the bytes give the same step
(R140, R17).
The premise State.Inv, which every step keeps, rules out resumption points that no operation leaves.
A step is one engine operation by log entry 10. -/
def Obligations.InputWaitIsTransparent : Prop :=
  ∀ (s t : State) (bs : List Byte), s.Inv → s.engineRuns → s.io.inputEnded = false → step s = .next t →
    (¬ t.waitsForInput → step (s.feed bs) = .next (t.feed bs)) ∧
    (t.waitsForInput → step (s.feed bs) = step (t.feed bs).rerun)

/-- A wait for output space does not change what is delivered: granted before or after the wait, the space gives the same
step (R140, R17).
The premise State.Inv, which every step keeps, rules out resumption points that no operation leaves.
A step is one engine operation by log entry 10. -/
def Obligations.OutputWaitIsTransparent : Prop :=
  ∀ (s t : State) (n : Nat), s.Inv → s.engineRuns → step s = .next t →
    (¬ t.waitsForOutput → step (s.grant n) = .next (t.grant n)) ∧
    (t.waitsForOutput → step (s.grant n) = step (t.grant n).rerun)

/-- An error is sticky (R138): HOST_CONFIG and HOST_COMPARE have no effect, HOST_RUN returns the same kind and changes nothing
else (the return stands in `runReturn`, log entry 13), no operation but HOST_RESET changes the status or any state of the decoder, and HOST_RESET gives `idle`. -/
def Obligations.ErrorIsSticky : Prop :=
  ∀ (s : State) (k : ErrKind), s.status = .error k →
    (∀ dp arch ct, exec (.hostConfig dp arch ct) s = .next s) ∧ (∀ tag, exec (.hostCompare tag) s = .next s) ∧
    exec .hostRun s = .next { s with host := { s.host with runReturn := some { status := .error k, wait := none } } } ∧
    (∀ op : HostOp, (∀ cap, op ≠ .reset cap) →
      ∃ t, exec op.toInstr s = .next t ∧ t = { s with io := t.io, host := t.host } ∧ t.io.output = s.io.output ∧
        t.host.inRun = s.host.inRun) ∧
    (∀ cap, ∃ t, exec (.hostReset cap) s = .next t ∧ t.status = .idle)

/-- A copy packet that ends without a wait and without an error leaves `state >= 7` and `rep0 < valid` (R101, R102,
R110). -/
def Obligations.CopyPacketLeavesAReachableDistance : Prop :=
  ∀ (s t : State) (i : Instr),
    (i = .matchNew ∨ i = .shortRep ∨ i = .longRep0 ∨ i = .longRep1 ∨ i = .longRep2 ∨ i = .longRep3) →
    s.status = .running → s.susp = none → s.dict.valid ≤ s.dict.size → exec i s = .next t → t.status = .running →
    t.susp = none → 7 ≤ t.lz.state.val ∧ t.lz.rep0.toNat < t.dict.valid

/-- A rule over all of a chunk: RUN is its packets one after the other, and then CHUNK_END (R98). With the rest of the chunk's
bytes at hand and space for what it produces, RUN does not wait: it answers a next state, which is the one CHUNK_END gives
after the packets, or the `data` of the first packet that fails. -/
def Obligations.RunIsPacketsThenChunkEnd : Prop :=
  (∀ s u : State, PacketsTo s u → ∃ t, exec .run s = .next t ∧ exec .chunkEnd u = .next t) ∧
  (∀ s : State, s.sq.compLeft ≤ s.io.input.length → s.bcj.carry.length + s.sq.uncLeft ≤ s.io.space →
    archSupported s.cfg.bcjArch = true → s.lz.lc + s.lz.lp ≤ 4 → s.lz.pb ≤ 4 →
    ∃ t, exec .run s = .next t ∧
      ((∃ u, PacketsTo s u ∧ exec .chunkEnd u = .next t) ∨
       (∃ v, PacketsReach s v ∧ 0 < v.sq.uncLeft ∧ lzPacket v = .fail t ∧ t.status = .error .data)))

/-- The filters give the same bytes one at a time as on any larger piece: the bytes delivered, and then those still held,
are the filtered whole (R115). -/
def Obligations.FilterPerByteIsFilterOfTheWhole : Prop :=
  ∀ (arch : Arch) (s : State) (bs : List Byte), s.cfg.bcjArch = some (archId arch) → s.bcj.carry = [] →
    s.io.output = [] →
    (bs.foldl State.emit s).io.output ++ (bs.foldl State.emit s).bcj.carry =
      (filter arch s.bcj.pos s.bcj.x86PrevMask bs).buf

/-! ## Range coder -/

/-- RC_BIT (R85): the bit, `range`, `code` and `P[i]`, and then RC_NORM: nothing from 2^24 on, else one byte, `data` when the
chunk has none left, and a wait, or `buf`, when the input has none. `P[i]` is updated before all of these.
The returned bit stands in `ret` (log entry 13). -/
def Obligations.RcBitDecodesAgainstItsBound : Prop :=
  ∀ (s : State) (i : Nat), i < 14134 →
    let p := s.probs.read i
    let bound : Word32 := (s.rc.range >>> 11) * p.setWidth 32
    let bit := if s.rc.code < bound then 0 else 1
    let rc : RangeCoder := if s.rc.code < bound then ⟨bound, s.rc.code⟩ else ⟨s.rc.range - bound, s.rc.code - bound⟩
    let q : Prob := if s.rc.code < bound then .ofNat 11 (p.toNat + (2048 - p.toNat) / 32) else p - (p >>> 5)
    let shifted : State := { s with rc := ⟨rc.range <<< 8, rc.code⟩, probs := s.probs.write i q }
    (0x01000000 ≤ rc.range →
      exec (.rcBit i) s = .next { s with rc := rc, probs := s.probs.write i q, ret := .num bit }) ∧
    (∀ b r, rc.range < 0x01000000 → 0 < s.sq.compLeft → s.io.input = b :: r →
      exec (.rcBit i) s = .next
        { shifted with rc := ⟨rc.range <<< 8, (rc.code <<< 8) ||| b.setWidth 32⟩,
                       sq := { s.sq with compLeft := s.sq.compLeft - 1 }, io := { s.io with input := r },
                       ret := .num bit }) ∧
    (rc.range < 0x01000000 → s.sq.compLeft = 0 → exec (.rcBit i) s = .next (shifted.raised .data)) ∧
    (rc.range < 0x01000000 → 0 < s.sq.compLeft → s.io.input = [] →
      exec (.rcBit i) s = .next (if s.io.inputEnded then shifted.raised .buf
        else shifted.suspend .inByte [.rcByte, .rcNorm, .rcBit bit, .ret]))

/-- RC_NORM, with RcByte (R82, R84): nothing from 2^24 on; below it one byte, counted in `comp_left`. A chunk that is used up
raises `data` before any wait. -/
def Obligations.RcNormShiftsOneByteIn : Prop :=
  ∀ s : State,
    let shifted : State := { s with rc := { s.rc with range := s.rc.range <<< 8 } }
    (0x01000000 ≤ s.rc.range → exec .rcNorm s = .next s) ∧
    (∀ b r, s.rc.range < 0x01000000 → 0 < s.sq.compLeft → s.io.input = b :: r →
      exec .rcNorm s = .next
        { s with rc := ⟨s.rc.range <<< 8, (s.rc.code <<< 8) ||| b.setWidth 32⟩,
                 sq := { s.sq with compLeft := s.sq.compLeft - 1 }, io := { s.io with input := r } }) ∧
    (s.rc.range < 0x01000000 → s.sq.compLeft = 0 → exec .rcNorm s = .next (shifted.raised .data)) ∧
    (s.rc.range < 0x01000000 → 0 < s.sq.compLeft → s.io.input = [] →
      exec .rcNorm s = .next (if s.io.inputEnded then shifted.raised .buf
        else shifted.suspend .inByte [.rcByte, .rcNorm]))

/-- R81, of the cells of any state: the LZMA state reset leaves every cell at 1024; while bits are decoded one after the
other, every cell stays in 31..2017 and `range` at 2^24 or more; a 0 maps `p` to `p + ((2048 - p) >> 5)` and a 1 to
`p - (p >> 5)`, both within 31..2017; and the bound of such a cell is neither 0 nor `range`, so one shift by 8 brings `range`
back to 2^24. -/
def Obligations.ProbabilitiesStayInRange : Prop :=
  (∀ (s : State) i, s.lzmaStateReset.probs.read i = 1024) ∧
  (∀ (path : List (BitSource × Bool)) (s u : State), s.probs.wf = true → 0x01000000 ≤ s.rc.range →
    (∀ i, 31 ≤ (s.probs.read i).toNat ∧ (s.probs.read i).toNat ≤ 2017) → Decodes path s u →
    0x01000000 ≤ u.rc.range ∧ ∀ i, 31 ≤ (u.probs.read i).toNat ∧ (u.probs.read i).toNat ≤ 2017) ∧
  ∀ (p : Prob) (r : RangeCoder), 31 ≤ p.toNat → p.toNat ≤ 2017 → 0x01000000 ≤ r.range →
    (probAfter0 p).toNat = p.toNat + (2048 - p.toNat) / 32 ∧ (probAfter1 p).toNat = p.toNat - p.toNat / 32 ∧
    31 ≤ (probAfter0 p).toNat ∧ (probAfter0 p).toNat ≤ 2017 ∧ 31 ≤ (probAfter1 p).toNat ∧
    (probAfter1 p).toNat ≤ 2017 ∧ 0 < (rcBound r p).toNat ∧ (rcBound r p).toNat < r.range.toNat ∧
    2 ^ 24 ≤ (rcBound r p).toNat * 2 ^ 8 ∧ 2 ^ 24 ≤ (r.range - rcBound r p).toNat * 2 ^ 8

/-- RC_INIT (R83): five bytes, the first 0x00, the others `code` big-endian; otherwise `data`. PREPARE (R97): at least 5
compressed bytes, and then RC_INIT. -/
def Obligations.RcInitAndPrepareReadFiveBytes : Prop :=
  ∀ s : State,
    (∀ b0 b1 b2 b3 b4 r, s.io.input = b0 :: b1 :: b2 :: b3 :: b4 :: r → 5 ≤ s.sq.compLeft →
      let ok : State := { s with rc := ⟨0xFFFFFFFF, be32 b1 b2 b3 b4⟩, sq := { s.sq with compLeft := s.sq.compLeft - 5 },
                                 io := { s.io with input := r } }
      let bad : State := State.raised { s with sq := { s.sq with compLeft := s.sq.compLeft - 1 },
                                               io := { s.io with input := b1 :: b2 :: b3 :: b4 :: r } } .data
      exec .rcInit s = .next (if b0 = 0 then ok else bad) ∧
      exec .prepare s = .next (if b0 = 0 then { ok with sq := { ok.sq with seq := .lzmaRun } } else bad)) ∧
    (s.sq.compLeft < 5 → exec .prepare s = .next (s.raised .data))

/-- RC_TREE and RC_TREE_REV (R86, R87): with a byte at hand for every bit they decode `n` bits on the cells of the tree, and
return them most significant first, or with the first decoded bit as bit 0.
The returned value stands in `ret` (log entry 13). -/
def Obligations.RcTreesReturnTheirBits : Prop :=
  ∀ (s : State) (base n : Nat), n ≤ s.sq.compLeft → n ≤ s.io.input.length →
    ((Instr.rcTree base n).wellFormed = true →
      ∃ bits u, bits.length = n ∧ Decodes (treePath base 1 bits) s u ∧
        exec (.rcTree base n) s = .next { u with ret := .num (bitsMsb bits) }) ∧
    ((Instr.rcTreeRev base n).wellFormed = true →
      ∃ bits u, bits.length = n ∧ Decodes (treePath base 1 bits) s u ∧
        exec (.rcTreeRev base n) s = .next { u with ret := .num (bitsLsb bits) })

/-- RC_DIRECT (R88): `n` bits most significant first, no cell of `P` written; each bit halves `range`, is 1 exactly when the
half is at most `code`, and is then subtracted.
The returned value stands in `ret` (log entry 13). -/
def Obligations.RcDirectReturnsItsBitsForward : Prop :=
  (∀ (s : State) (n : Nat), (Instr.rcDirect n).wellFormed = true → n ≤ s.sq.compLeft → n ≤ s.io.input.length →
    ∃ bits u, bits.length = n ∧ Decodes (directPath bits) s u ∧ u.probs = s.probs ∧
      exec (.rcDirect n) s = .next { u with ret := .num (bitsMsb bits) }) ∧
  (∀ (s : State) (b : Bool) (u : State), Decodes [(.direct, b)] s u →
    ∃ v : State, (b = true ↔ s.rc.range >>> 1 ≤ s.rc.code) ∧
      v = { s with rc := ⟨s.rc.range >>> 1, if b then s.rc.code - s.rc.range >>> 1 else s.rc.code⟩ } ∧
      exec .rcNorm v = .next u)

/-- What decoding bits leaves unchanged: everything but `range`, `code`, the cells on the path, the unread input and
`comp_left`, which lose the same count of bytes, at most one a bit (R82, R85, R88). And which cells those are: different
places of the arrays of R38 are different cells, all below 14134, and the slots 4 to 13 use the ten ranges of `dist_special`
that R108 lists. That the cells have these numbers is by log entry 17. -/
def Obligations.DecodingBitsFrame : Prop :=
  (∀ (path : List (BitSource × Bool)) (s u : State), Decodes path s u →
    ∃ used, s.io.input = used ++ u.io.input ∧ used.length ≤ path.length ∧
      s.sq.compLeft = u.sq.compLeft + used.length ∧
      (s.probs.wf = true → ∀ i, (∀ b, (BitSource.cell i, b) ∉ path) → u.probs.read i = s.probs.read i) ∧
      u = { s with rc := u.rc, probs := u.probs, io := { s.io with input := u.io.input },
                   sq := { s.sq with compLeft := u.sq.compLeft } }) ∧
  (∀ x : CellUse, x.cell < 14134) ∧ (∀ x y : CellUse, x.cell = y.cell → x = y) ∧
  (∀ row ∈ [(4, 0, 0), (5, 1, 1), (6, 2, 4), (7, 5, 7), (8, 8, 14), (9, 15, 21), (10, 22, 36), (11, 37, 51), (12, 52, 82),
      (13, 83, 113)],
    distSpecialTree row.1 + 1 = distSpecialBase + row.2.1 ∧
    distSpecialTree row.1 + 2 ^ slotBits row.1 = distSpecialBase + row.2.2 + 1)

/-! ## Packets -/

/-- LIT (R104, R105): eight bits on the tree of the literal context, the byte produced, `unc_left` and `state` moved.
The first clause is R101's row for LIT and MLIT. -/
def Obligations.LitProducesItsTreeByte : Prop :=
  (∀ k : Fin 12, (litNext k).val = if k.val < 4 then 0 else if k.val < 10 then k.val - 3 else k.val - 6) ∧
  ∀ s : State, s.lz.lc + s.lz.lp ≤ 4 → 8 ≤ s.sq.compLeft → 8 ≤ s.io.input.length →
    s.bcj.carry.length < s.io.space → archSupported s.cfg.bcjArch = true →
    ∃ bits u, bits.length = 8 ∧
      Decodes (treePath (literalTree (((s.dict.pos % 2 ^ s.lz.lp) * 2 ^ s.lz.lc) +
        (s.dict.get 0).toNat / 2 ^ (8 - s.lz.lc))) 1 bits) s u ∧
      exec .lit s = .next
        (let t := u.produce (.ofNat 8 (bitsMsb bits))
         { t with sq := { t.sq with uncLeft := t.sq.uncLeft - 1 }, lz := { t.lz with state := litNext t.lz.state } })

/-- MLIT (R106): the eight bits come from the cells that its corner cases name, steered by the byte at `rep0`.
The first clause is R101's row for LIT and MLIT. -/
def Obligations.MlitFollowsTheMatchByte : Prop :=
  (∀ k : Fin 12, (litNext k).val = if k.val < 4 then 0 else if k.val < 10 then k.val - 3 else k.val - 6) ∧
  ∀ s : State, s.lz.lc + s.lz.lp ≤ 4 → 8 ≤ s.sq.compLeft → 8 ≤ s.io.input.length →
    s.bcj.carry.length < s.io.space → archSupported s.cfg.bcjArch = true →
    ∃ bits u, bits.length = 8 ∧ Decodes (mlitPath (literalTree s.litCtx) (s.dict.get s.lz.rep0) 1 true bits) s u ∧
      exec .mlit s = .next
        (let t := u.produce (.ofNat 8 (bitsMsb bits))
         { t with sq := { t.sq with uncLeft := t.sq.uncLeft - 1 }, lz := { t.lz with state := litNext t.lz.state } })

/-- A decoded length, or distance, is the form its bits are (R74, R75, R107, R108).
What a form's row is on its own: log entry 23. -/
def Obligations.LengthAndDistanceAreTheFormsOfTheirBits : Prop :=
  ∀ (s u : State) (bits : List Bool) (i : Instr),
    (∀ l, decodeLength bits = .ok (i, []) → Decodes (lenPath l s.ps bits) s u →
      ∃ t, lzLen l s = .done 0 t ∧ exec i u = .next t) ∧
    (decodeDistance bits = .ok (i, []) → Decodes (distPath s.distState bits) s u →
      ∃ t, lzDist s = .done 0 t ∧ exec i u = .next t)

/-- The three length forms set `len` to 2 + t, 10 + t and 18 + t (R74), and the three distance forms set `rep0` (R75): to the
slot; to the base of the slot plus t; to the base plus 16 x plus a, which never passes 2^32 - 1. The base of slots 2k and
2k + 1 is 2 and 3, shifted by k - 1.
That a form's row sets its register is by log entry 23. -/
def Obligations.LengthAndDistanceFormsSetTheirRegister : Prop :=
  ∀ (s : State),
    (∀ t, exec (.lenLow t) s = .next { s with lz := { s.lz with len := 2 + t.toNat } }) ∧
    (∀ t, exec (.lenMid t) s = .next { s with lz := { s.lz with len := 10 + t.toNat } }) ∧
    (∀ t, exec (.lenHigh t) s = .next { s with lz := { s.lz with len := 18 + t.toNat } }) ∧
    (∀ slot : BitVec 6,
      let base := (2 + slot.toNat % 2) * 2 ^ (slot.toNat / 2 - 1)
      (∃ d : Word32, exec (.distSlot0To3 slot) s = .next { s with lz := { s.lz with rep0 := d } } ∧
        d.toNat = slot.toNat) ∧
      (∀ t, (Instr.distSlot4To13 slot t).wellFormed = true →
        ∃ d : Word32, exec (.distSlot4To13 slot t) s = .next { s with lz := { s.lz with rep0 := d } } ∧
          d.toNat = base + t.toNat) ∧
      (∀ x a, (Instr.distSlot14To63 slot x a).wellFormed = true →
        ∃ d : Word32, exec (.distSlot14To63 slot x a) s = .next { s with lz := { s.lz with rep0 := d } } ∧
          d.toNat = base + 16 * x.toNat + a.toNat))

/-- MATCH (R109, R110): state and reps, a length on `match_len`, a distance, and then the copy, or `data` with no byte
written where the distance is at or beyond `valid`.
The first clause is R101's row for MATCH. -/
def Obligations.MatchDecodesLengthAndDistanceThenCopies : Prop :=
  (∀ k : Fin 12, (matchNext k).val = if k.val < 7 then 7 else 10) ∧
  ∀ s : State, s.lz.pb ≤ 4 → 46 ≤ s.sq.compLeft → 46 ≤ s.io.input.length →
    s.bcj.carry.length + 273 ≤ s.io.space → archSupported s.cfg.bcjArch = true →
    ∃ lb li u1 u2 db di u3 u4,
      decodeLength lb = .ok (li, []) ∧
      Decodes (lenPath .matchLen s.ps lb)
        { s with lz := { s.lz with state := matchNext s.lz.state, rep3 := s.lz.rep2, rep2 := s.lz.rep1,
                                   rep1 := s.lz.rep0 } } u1 ∧
      exec li u1 = .next u2 ∧ decodeDistance db = .ok (di, []) ∧ Decodes (distPath (min (u2.lz.len - 2) 3) db) u2 u3 ∧
      exec di u3 = .next u4 ∧
      exec .matchNew s = .next
        (if u4.lz.rep0.toNat < u4.dict.valid then copied u4.lz.rep0 (min u4.lz.len u4.sq.uncLeft) u4
         else u4.raised .data)

/-- SHORTREP (R111, R110): one byte from `rep0`, or `data`. The reps do not change.
The first clause is R101's row for SHORTREP. -/
def Obligations.ShortRepCopiesOneByte : Prop :=
  (∀ k : Fin 12, (shortRepNext k).val = if k.val < 7 then 9 else 11) ∧
  ∀ s : State, s.bcj.carry.length < s.io.space → archSupported s.cfg.bcjArch = true → 0 < s.sq.uncLeft →
    exec .shortRep s = .next
      (let t : State := { s with lz := { s.lz with state := shortRepNext s.lz.state, len := 1 } }
       if s.lz.rep0.toNat < s.dict.valid then copied s.lz.rep0 1 t else t.raised .data)

/-- LONGREPn (R112, R110): the n-th distance moves to the front, the others keep their order, a length on `rep_len`, and
then the copy, or `data`.
The first clause is R101's row for LONGREP0 to LONGREP3. -/
def Obligations.LongRepRotatesThenCopies : Prop :=
  (∀ k : Fin 12, (longRepNext k).val = if k.val < 7 then 8 else 11) ∧
  ∀ (s : State) (n : Fin 4), s.lz.pb ≤ 4 → 10 ≤ s.sq.compLeft → 10 ≤ s.io.input.length →
    s.bcj.carry.length + 273 ≤ s.io.space → archSupported s.cfg.bcjArch = true →
    let i : Instr := [Instr.longRep0, .longRep1, .longRep2, .longRep3].getD n .longRep0
    let reps : List Word32 := [s.lz.rep0, s.lz.rep1, s.lz.rep2, s.lz.rep3]
    let moved : List Word32 := reps.getD n 0 :: reps.eraseIdx n
    let z : LzmaRegs :=
      { s.lz with state := longRepNext s.lz.state, rep0 := moved.getD 0 0, rep1 := moved.getD 1 0,
                  rep2 := moved.getD 2 0, rep3 := moved.getD 3 0 }
    ∃ lb li u1 u2, decodeLength lb = .ok (li, []) ∧ Decodes (lenPath .repLen s.ps lb) { s with lz := z } u1 ∧
      exec li u1 = .next u2 ∧
      exec i s = .next
        (if u2.lz.rep0.toNat < u2.dict.valid then copied u2.lz.rep0 (min u2.lz.len u2.sq.uncLeft) u2
         else u2.raised .data)

/-! ## Dictionary and stage 2 -/

/-- One byte put in the dictionary (R60, R41, R42): at `pos` and nowhere else, `pos` on by one modulo `DICT_SIZE`, `valid`
saturated; and every distance that stays in the window reads what it read (R59). -/
def Obligations.DictPutMovesTheWindow : Prop :=
  ∀ (d : Dict) (b : Byte), d.mem.wf = true → d.pos < d.size → d.size ≤ 2 ^ 32 →
    (d.put b).mem.wf = true ∧ (d.put b).mem.read d.pos = b ∧
    (∀ a, a ≠ d.pos → (d.put b).mem.read a = d.mem.read a) ∧
    (d.put b).pos = (d.pos + 1) % d.size ∧ (d.put b).valid = min (d.valid + 1) d.size ∧ (d.put b).get 0 = b ∧
    (∀ k : Word32, k.toNat + 1 < d.size → k.toNat < d.valid → (d.put b).get (k + 1) = d.get k)

/-- A match copy repeats the last `dist + 1` bytes (R151, R61). -/
def Obligations.OverlappingCopyRepeats : Prop :=
  ∀ (d : Dict) (dist : Word32) (n : Nat) (k : Word32), d.mem.wf = true → d.pos < d.size → d.valid ≤ d.size →
    dist.toNat < d.valid → k.toNat < n → k.toNat < d.size →
    (Dict.copied dist n d).get k = d.get (dist - .ofNat 32 ((n - 1 - k.toNat) % (dist.toNat + 1)))

/-- A copy moves the dictionary as if stage 2 were not there, and takes its count from `len` and `unc_left`
(R61, R65). -/
def Obligations.CopyFillsTheDictionaryWithUnfilteredBytes : Prop :=
  ∀ (s : State) (dist : Word32) (n : Nat), n ≤ s.lz.len → n ≤ s.sq.uncLeft →
    let t := copied dist n s
    t.dict = Dict.copied dist n s.dict ∧ t.lz = { s.lz with len := s.lz.len - n } ∧
      t.sq = { s.sq with uncLeft := s.sq.uncLeft - n } ∧ t.rc = s.rc ∧ t.probs = s.probs ∧ t.cfg = s.cfg ∧
      t.io.input = s.io.input ∧ t.status = s.status

/-- Stage 2 holds back at most 4 bytes for x86, 15 for IA-64 and 3 for the others, and one more while it filters, so at most
16 (R117). -/
def Obligations.HeldBytesStayWithinTheBound : Prop :=
  ∀ (s : State) (arch : Arch) (b : Byte), s.cfg.bcjArch = some (archId arch) →
    let bound := match arch with | .x86 => 4 | .ia64 => 15 | _ => 3
    s.bcj.carry.length ≤ bound → (s.emit b).bcj.carry.length ≤ bound ∧
      (s.filtered arch b).1.bcj.carry.length ≤ bound + 1 ∧ bound + 1 ≤ 16

/-! ## Chunks -/

/-- END and BCJ_FLUSH (R94, R116): the held bytes are delivered unchanged, in order; `carry` is empty and `bcj_pos` stays;
END sets `stream_end`. -/
def Obligations.EndFlushesThenEndsTheStream : Prop :=
  ∀ s : State, s.bcj.carry.length ≤ s.io.space →
    let t : State := { s with
      bcj := { s.bcj with carry := [] }
      chk := s.bcj.carry.foldl Check.update s.chk
      io := { s.io with output := s.io.output ++ s.bcj.carry, space := s.io.space - s.bcj.carry.length } }
    exec .bcjFlush s = .next t ∧ exec .endMark s = .next { t with status := .streamEnd }

/-- The control bytes 0x01 to 0x7F (R67, R92, R78): 0x01 resets the dictionary and sets the flags; 0x02 needs a dictionary
reset before it; both go on to their size bytes and then to COPY. Every other one raises `data` and changes nothing else,
whatever the flags. -/
def Obligations.UncompressedAndReservedControlBytes : Prop :=
  ∀ s : State,
    exec .uncDr s = .next
      { s with sq := { s.sq with seq := .compressed1, nextSeq := .copy, needProps := true, needDictReset := false },
               dict := { s.dict with pos := 0, valid := 0 } } ∧
    exec .unc s = .next
      (if s.sq.needDictReset then s.raised .data
       else { s with sq := { s.sq with seq := .compressed1, nextSeq := .copy } }) ∧
    (∀ c, (Instr.reservedCtrl c).wellFormed = true →
      exec (.reservedCtrl c) s = .next { s with status := .error .data, susp := none })

/-- The LZMA control bytes (R68, R92, R93): what each resets, the flags each needs, and the high bits of the size. A byte
that lacks required properties has written `unc_left` and `seq` before it raises `data` (R137).
Log entry 28 lists the writes that stay. -/
def Obligations.LzmaControlBytes : Prop :=
  ∀ (s : State) (u : BitVec 5),
    let q : Sequencer := { s.sq with uncLeft := u.toNat * 65536, seq := .uncompressed1 }
    let kept : State := { s with sq := { q with nextSeq := .lzmaPrepare } }
    let cleared : State := { kept with
      lz := { s.lz with state := 0, rep0 := 0, rep1 := 0, rep2 := 0, rep3 := 0, len := 0 }
      probs := [], rc := ⟨0xFFFFFFFF, 0⟩ }
    exec (.lz3 u) s = .next
      { s with sq := { q with nextSeq := .properties, needProps := false, needDictReset := false },
               dict := { s.dict with pos := 0, valid := 0 } } ∧
    exec (.lz2 u) s = .next
      (if s.sq.needDictReset then s.raised .data
       else { s with sq := { q with nextSeq := .properties, needProps := false } }) ∧
    exec (.lz1 u) s = .next
      (if s.sq.needDictReset then s.raised .data
       else if s.sq.needProps then State.raised { s with sq := q } .data else cleared) ∧
    exec (.lz0 u) s = .next
      (if s.sq.needDictReset then s.raised .data
       else if s.sq.needProps then State.raised { s with sq := q } .data else kept)

/-- CONTROL, HEADER and PROPERTIES take one input byte (R92, R95, R96): the first and the last run what it decodes to, and
HEADER adds it to the size it belongs to, high byte first. -/
def Obligations.ByteOperationsTakeOneByte : Prop :=
  ∀ (s : State) (x : Byte) (r : List Byte), s.io.input = x :: r → s.bcj.carry.length ≤ s.io.space →
    let t : State := { s with io := { s.io with input := r } }
    (∃ u, exec .control s = .next u ∧ exec (decodeControl x) t = .next u) ∧
    (∃ u, exec .properties s = .next u ∧ exec (.props x) t = .next u) ∧
    exec (.header .uncompressed1) s = .next
      { t with sq := { s.sq with uncLeft := s.sq.uncLeft + 256 * x.toNat, seq := .uncompressed2 } } ∧
    exec (.header .uncompressed2) s = .next
      { t with sq := { s.sq with uncLeft := s.sq.uncLeft + x.toNat + 1, seq := .compressed1 } } ∧
    exec (.header .compressed1) s = .next
      { t with sq := { s.sq with compLeft := 256 * x.toNat, seq := .compressed2 } } ∧
    exec (.header .compressed2) s = .next
      { t with sq := { s.sq with compLeft := s.sq.compLeft + x.toNat + 1,
                                 seq := match s.sq.nextSeq with
                                   | .properties => .properties | .lzmaPrepare => .lzmaPrepare | .copy => .copy } }

/-- CONTROL, HEADER and PROPERTIES, which begin with `InByte`, change nothing when no byte is available and wait there, or
raise `buf` once the input has ended (R140, R92, R95, R96). -/
def Obligations.MissingInputWaitsOrRaisesBuf : Prop :=
  ∀ (s : State) (i : Instr) (fr : Frame), s.io.input = [] →
    ((i = .control ∧ fr = .control) ∨ (i = .properties ∧ fr = .properties) ∨
      ∃ h, i = .header h ∧ fr = .header h) →
    exec i s = .next
      (if s.io.inputEnded then { s with status := .error .buf, susp := none }
       else { s with susp := some { prim := .inByte, frames := [fr] } })

/-- The properties byte (R71, R96): legal up to 224 with lc + lp at most 4; it sets lc, lp, pb and resets the LZMA state.
Otherwise `data`. -/
def Obligations.PropertiesByteSetsLcLpPb : Prop :=
  ∀ (s : State) (v : Byte),
    (v.toNat ≤ 224 → v.toNat % 9 + v.toNat % 45 / 9 ≤ 4 →
      exec (.props v) s = .next
        { s with lz := { state := 0, rep0 := 0, rep1 := 0, rep2 := 0, rep3 := 0, len := 0, lc := v.toNat % 9,
                         lp := v.toNat % 45 / 9, pb := v.toNat / 45 },
                 probs := [], rc := ⟨0xFFFFFFFF, 0⟩, sq := { s.sq with seq := .lzmaPrepare } }) ∧
    (¬ (v.toNat ≤ 224 ∧ v.toNat % 9 + v.toNat % 45 / 9 ≤ 4) →
      ∃ t, exec (.props v) s = .next t ∧ t = { s with lz := t.lz, status := .error .data, susp := none })

/-- CHUNK_END (R99), and RUN at the end of a chunk (R98): clean exactly when `comp_left`, `len` and `code` are 0.
RC_FINISHED tests `code` alone (R89).
Its answer stands in `ret` (log entry 13). -/
def Obligations.ChunkEndNeedsACleanEnd : Prop :=
  ∀ s : State,
    let t : State :=
      if s.sq.compLeft = 0 ∧ s.lz.len = 0 ∧ s.rc.code = 0 then
        { s with rc := ⟨0xFFFFFFFF, 0⟩, sq := { s.sq with seq := .control } }
      else { s with status := .error .data, susp := none }
    exec .chunkEnd s = .next t ∧ (s.sq.uncLeft = 0 → exec .run s = .next t) ∧
    (∃ f, exec .rcFinished s = .next { s with ret := .flag f } ∧ (f = true ↔ s.rc.code.toNat = 0))

/-- COPY (R62, R100): with the bytes and the space at hand, all of the chunk's bytes in order into the dictionary and
through stage 2; the LZMA registers and `P` stay. -/
def Obligations.CopyCopiesTheChunk : Prop :=
  ∀ s : State, s.sq.compLeft ≤ s.io.input.length → s.bcj.carry.length + s.sq.compLeft ≤ s.io.space →
    archSupported s.cfg.bcjArch = true →
    let t := chunkCopied s.sq.compLeft s
    exec .copy s = .next { t with sq := { t.sq with seq := .control } } ∧ t.lz = s.lz ∧ t.probs = s.probs ∧
      t.sq = { s.sq with compLeft := 0 } ∧ t.io.input = s.io.input.drop s.sq.compLeft

/-! ## BCJ units -/

/-- PowerPC, ARM, Thumb and SPARC units (R113, R119, R121, R122, R123): the new field plus the position is the old field, in
the unit's own bytes and width, and nothing but the field changes. A SPARC word is rebuilt as a CALL with bits 29..22
equal to the sign of the new displacement.
The unit stands at the front of `carry`, and `n` in `ret` (log entries 13, 23). -/
def Obligations.WordBranchesBecomeRelative : Prop :=
  ∀ s : State,
    (∀ a, s.bcj.pos.toNat % 4 = 0 → ∃ a', exec (.bcjPpcBl a) s = .next
        { s with bcj := { s.bcj with carry := bcjBytes (.bcjPpcBl a') ++ s.bcj.carry.drop 4 }, ret := .num 4 } ∧
      (4 * a'.toNat + s.bcj.pos.toNat) % 2 ^ 26 = 4 * a.toNat) ∧
    (∀ a, s.bcj.pos.toNat % 4 = 0 → ∃ a', exec (.bcjArmBl a) s = .next
        { s with bcj := { s.bcj with carry := bcjBytes (.bcjArmBl a') ++ s.bcj.carry.drop 4 }, ret := .num 4 } ∧
      (4 * a'.toNat + s.bcj.pos.toNat + 8) % 2 ^ 26 = 4 * a.toNat) ∧
    (∀ a, s.bcj.pos.toNat % 2 = 0 → ∃ a', exec (.bcjThumbBl a) s = .next
        { s with bcj := { s.bcj with carry := bcjBytes (.bcjThumbBl a') ++ s.bcj.carry.drop 4 }, ret := .num 4 } ∧
      (2 * a'.toNat + s.bcj.pos.toNat + 4) % 2 ^ 23 = 2 * a.toNat) ∧
    (∀ (d : BitVec 22) (neg : Bool), s.bcj.pos.toNat % 4 = 0 →
      let call : Bool → BitVec 22 → Instr := fun n d => if n then .bcjSparcCallNeg d else .bcjSparcCallPos d
      ∃ neg' d', exec (call neg d) s = .next
          { s with bcj := { s.bcj with carry := bcjBytes (call neg' d') ++ s.bcj.carry.drop 4 }, ret := .num 4 } ∧
        (4 * (neg'.toNat * 2 ^ 22 + d'.toNat) + s.bcj.pos.toNat) % 2 ^ 25 = 4 * (neg.toNat * 2 ^ 22 + d.toNat))

/-- x86 units (R118): whatever the mask, the opcode stays and at most the operand and the mask change.
The low three bits of the stored mask count at a unit at the front of the window. The unit is converted exactly when they
are 0, or allowed (1, 2, 4) with the operand byte that they point at neither 00 nor FF, and its top byte is 00 or FF; the
mask is then 0. Otherwise its bytes stay and the mask notes it. The new operand is the old one less its position, taken
once more on the complemented low bits where the byte pointed at came out 00 or FF, and sign-extended from bit 24.
The unit stands at the front of `carry`, and `n` in `ret` (log entries 13, 23). -/
def Obligations.X86CallsBecomeRelative : Prop :=
  ∀ (s : State) (jmp : Bool) (op : Word32),
    let plain : Nat → Bool := fun b => b == 0 || b == 255
    let m := s.bcj.x86PrevMask.toNat % 8
    let low := if m = 1 then 16 else if m = 2 then 8 else 0
    let byteAtLow : Word32 → Nat := fun x => x.toNat / 2 ^ low % 256
    let top := op.toNat / 2 ^ 24
    let converts : Prop := (m = 0 ∨ ((m = 1 ∨ m = 2 ∨ m = 4) ∧ plain (byteAtLow op) = false)) ∧ plain top = true
    let ip := s.bcj.pos + 5
    (converts → ∃ op' : Word32, exec (.bcjX86CallJmp jmp op) s = .next
        { s with bcj := { s.bcj with carry := bcjBytes (.bcjX86CallJmp jmp op') ++ s.bcj.carry.drop 5,
                                     x86PrevMask := 0 }, ret := .num 5 } ∧
      plain (op'.toNat / 2 ^ 24) = true ∧
      (m = 0 ∨ plain (byteAtLow (op - ip)) = false → (op'.toNat + s.bcj.pos.toNat + 5) % 2 ^ 25 = op.toNat % 2 ^ 25) ∧
      (m ≠ 0 → plain (byteAtLow (op - ip)) = true →
        op'.toNat % 2 ^ 25 = (((op - ip) ^^^ .ofNat 32 (2 ^ (low + 8) - 1)) - ip).toNat % 2 ^ 25)) ∧
    (¬ converts → exec (.bcjX86CallJmp jmp op) s = .next
        { s with bcj := { s.bcj with carry := bcjBytes (.bcjX86CallJmp jmp op) ++ s.bcj.carry.drop 5,
                                     x86PrevMask := .ofNat 32 (2 * m + 1) }, ret := .num 1 })

/-- IA-64 slots (R120): the 21-bit target becomes relative, and no other bit of the slot, the bundle or the carry changes.
The slot is of the bundle at the front of `carry` (log entries 13, 23, 27). -/
def Obligations.Ia64BranchesBecomeRelative : Prop :=
  ∀ (s : State) (slot : Fin 3) (norm : BitVec 41), Instr.isIa64Branch norm = true → s.bcj.pos.toNat % 16 = 0 →
    16 ≤ s.bcj.carry.length →
    let imm : BitVec 41 → Nat := fun x => (x.extractLsb' 13 20).toNat + 2 ^ 20 * (x.extractLsb' 36 1).toNat
    let window : BitVec 41 → List Byte := fun x =>
      ia64PutSlot (s.bcj.carry.take 16) slot x ++ s.bcj.carry.drop 16
    ∃ norm', exec (.bcjIa64BranchSlot slot norm) s = .next
        { s with bcj := { s.bcj with carry := window norm' }, ret := .num 16 } ∧
      (16 * imm norm' + s.bcj.pos.toNat) % 2 ^ 25 = 16 * imm norm ∧
      (∀ k, ¬ (13 ≤ k ∧ k ≤ 32) → k ≠ 36 → norm'.getLsbD k = norm.getLsbD k)

/-! ## Configuration and checks -/

/-- DICT_CHECK and DICT_PROP (R90, R72): `options` above 40, `memlimit` above the cap, and otherwise `DICT_SIZE`, with every
byte below it kept.
Which bytes of `D` stay is by log entry 7. -/
def Obligations.DictCheckSizesTheDictionary : Prop :=
  ∀ (s : State) (b : Byte),
    let size := (2 + b.toNat % 2) * 2 ^ (b.toNat / 2 + 11)
    let w : State := { s with cfg := { s.cfg with dictProp := b } }
    exec (.dictProp b) s = exec .dictCheck w ∧
    (40 < b.toNat → exec .dictCheck w = .next (w.raised .options)) ∧
    (b.toNat ≤ 40 → s.cfg.dictCap.toNat < size → exec .dictCheck w = .next (w.raised .memlimit)) ∧
    (b.toNat ≤ 40 → size ≤ s.cfg.dictCap.toNat → ∃ mem, exec .dictCheck w = .next
        { w with dict := { s.dict with size := size, mem := mem } } ∧
      (s.dict.mem.wf = true → ∀ a, a < size → Memory.read mem a = s.dict.mem.read a))

/-- The check types (R77, R124): the four engines with their tag lengths, `unsupported_check` for the other values below
0x0A, `options` above. -/
def Obligations.CheckTypesSelectTheEngine : Prop :=
  ∀ s : State,
    let sel : Byte → CheckEngine → Nat → State := fun b e n =>
      { s with cfg := { s.cfg with checkType := b }, chk := { s.chk with engine := e, tagLen := n } }
    exec .checkNone s = .next (sel 0x00 .none 0) ∧ exec .checkCrc32 s = .next (sel 0x01 .crc32 4) ∧
    exec .checkCrc64 s = .next (sel 0x04 .crc64 8) ∧ exec .checkSha256 s = .next (sel 0x0A .sha256 32) ∧
    (∀ b, (Instr.checkUnsupported b).wellFormed = true → exec (.checkUnsupported b) s = .next
      { s with cfg := { s.cfg with checkType := b },
               status := .error (if b.toNat < 0x0A then .unsupportedCheck else .options), susp := none })

/-- CHK_UPDATE (R126, R127, R128, R129): only the live engine's registers change, and a table step equals the eight rounds of
the reflected polynomial, bit by bit. -/
def Obligations.CheckUpdateIsTheBitwiseCrc : Prop :=
  ∀ (s : State) (b : Byte),
    (s.chk.engine = .none → exec (.chkUpdate b) s = .next s) ∧
    (s.chk.engine = .crc32 → exec (.chkUpdate b) s = .next
      { s with chk := { s.chk with
          crc32 := ~~~ crcRounds (0xEDB88320 : Word32) 8 (~~~ s.chk.crc32 ^^^ b.setWidth 32) } }) ∧
    (s.chk.engine = .crc64 → exec (.chkUpdate b) s = .next
      { s with chk := { s.chk with
          crc64 := ~~~ crcRounds (0xC96C5795D7870F42 : Word64) 8 (~~~ s.chk.crc64 ^^^ b.setWidth 64) } }) ∧
    (s.chk.engine = .sha256 → s.chk.shaBuf.length ≠ 63 → exec (.chkUpdate b) s = .next
      { s with chk := { s.chk with shaBuf := s.chk.shaBuf ++ [b], shaLen := s.chk.shaLen + 1 } }) ∧
    (s.chk.engine = .sha256 → s.chk.shaBuf.length = 63 → exec (.chkUpdate b) s = .next
      { s with chk := { s.chk with shaH := shaCompress s.chk.shaH (s.chk.shaBuf ++ [b]), shaBuf := [],
                                   shaLen := s.chk.shaLen + 1 } })

/-- CHK_FINALIZE (R131, R77): it changes no check register and returns a tag of 0, 4, 8 or 32 bytes; the CRC tags are
little-endian, and the SHA-256 tags of "" and "abc" are R130's examples.
The tag stands in `ret` (log entry 13). -/
def Obligations.FinalizeReturnsTheTag : Prop :=
  ∀ s : State, ∃ tag, exec .chkFinalize s = .next { s with ret := .bytes tag } ∧
    tag.length = (match s.chk.engine with | .none => 0 | .crc32 => 4 | .crc64 => 8 | .sha256 => 32) ∧
    (s.chk.engine = .crc32 → ∃ b0 b1 b2 b3, tag = [b0, b1, b2, b3] ∧ s.chk.crc32 = le32 b0 b1 b2 b3) ∧
    (s.chk.engine = .crc64 → s.chk.crc64.toNat = tag.foldr (fun b n => b.toNat + 256 * n) 0) ∧
    (s.chk.engine = .sha256 → s.chk.shaH = .ofList shaH0 → s.chk.shaBuf = [] → s.chk.shaLen = 0 →
      tag = putBe (0xe3b0c44298fc1c149afbf4c8996fb92427ae41e4649b934ca495991b7852b855#256) 32) ∧
    (s.chk.engine = .sha256 → s.chk.shaH = .ofList shaH0 → s.chk.shaBuf = [0x61, 0x62, 0x63] → s.chk.shaLen = 3 →
      tag = putBe (0xba7816bf8f01cfea414140de5dae2223b00361a396177a9cb410ff61f20015ad#256) 32)

/-! ## Resets and host operations -/

/-- DICT_RESET, LZMA_STATE_RESET and RC_RESET (R147, R148, R149): the dictionary is unreachable but kept; `state`, the reps
and `len` are 0, every cell of `P` is 1024 and the range coder idle; `lc`, `lp`, `pb` stay. -/
def Obligations.StateResetsLeaveTheirValues : Prop :=
  ∀ s : State,
    exec .dictReset s = .next { s with dict := { s.dict with pos := 0, valid := 0 } } ∧
    (∃ p, exec .lzmaStateReset s = .next
      { s with lz := { s.lz with state := 0, rep0 := 0, rep1 := 0, rep2 := 0, rep3 := 0, len := 0 }, probs := p,
               rc := ⟨0xFFFFFFFF, 0⟩ } ∧ ∀ i, Probs.read p i = 1024) ∧
    exec .rcReset s = .next { s with rc := ⟨0xFFFFFFFF, 0⟩ }

/-- HOST_RESET (R145): the cap with its default, `idle`, empty input and stage 2, no output space, in every status. -/
def Obligations.HostResetLeavesIdle : Prop :=
  ∀ (s : State) (cap : Word32), ∃ t, exec (.hostReset cap) s = .next t ∧
    t.cfg.dictCap = (if cap = 0 then 0x04000000 else cap) ∧ t.status = .idle ∧ t.checkOk = false ∧
    t.io.input = [] ∧ t.io.inputEnded = false ∧ t.io.space = 0 ∧
    t.bcj = { pos := 0, carry := [], x86PrevMask := 0 }

/-- HOST_CONFIG that passes its checks starts a block (R134, R146): the configuration, `running`, the sequencer and the
flags, an empty dictionary of the declared size, stage 2 and the check restarted. Unread input, space, output, `P`, the
reps, the properties and the range coder stay, and so does every byte of `D` below the size.
The filter IDs it accepts, beside none, are R34's six, and OutByte then runs the filter of the ID's architecture (R115).
`next_seq` is free (log entry 3), `D` is cut to its size (log entry 7), the properties stay by R146 (log entry 11), and no
operation waits (log entry 12). -/
def Obligations.HostConfigStartsABlock : Prop :=
  let filters : List (Byte × Arch) :=
    [(0x04, .x86), (0x05, .powerpc), (0x06, .ia64), (0x07, .arm), (0x08, .armthumb), (0x09, .sparc)]
  (∀ row ∈ filters, archId row.2 = row.1 ∧ ∀ (t : State) (b : Byte), t.cfg.bcjArch = some row.1 →
    outByte b t = outBytes (t.filtered row.2 b).2 0 (t.filtered row.2 b).2 (t.filtered row.2 b).1) ∧
  ∀ (s : State) (dp ct : Byte) (arch : Option Byte) (e : CheckEngine) (n : Nat),
    let size := (2 + dp.toNat % 2) * 2 ^ (dp.toNat / 2 + 11)
    let mem : Memory := s.dict.mem.filter fun c => c.1 < size
    (s.status = .idle ∨ s.status = .streamEnd) →
    ((ct = 0x00 ∧ e = .none ∧ n = 0) ∨ (ct = 0x01 ∧ e = .crc32 ∧ n = 4) ∨ (ct = 0x04 ∧ e = .crc64 ∧ n = 8) ∨
      (ct = 0x0A ∧ e = .sha256 ∧ n = 32)) →
    (arch = none ∨ ∃ row ∈ filters, arch = some row.1) → dp.toNat ≤ 40 → size ≤ s.cfg.dictCap.toNat →
    (∃ ns, exec (.hostConfig dp arch ct) s = .next
      { s with
        cfg := { s.cfg with dictProp := dp, bcjArch := arch, checkType := ct }
        status := .running
        checkOk := false
        sq := { seq := .control, nextSeq := ns, uncLeft := 0, compLeft := 0, needDictReset := true, needProps := true }
        lz := { s.lz with len := 0 }
        dict := { size := size, mem := mem, pos := 0, valid := 0 }
        bcj := { pos := 0, carry := [], x86PrevMask := 0 }
        chk := { engine := e, tagLen := n, crc32 := 0, crc64 := 0, shaH := .ofList shaH0, shaBuf := [], shaLen := 0 }
        io := { s.io with inputEnded := false }
        susp := none
        freeCount := s.freeCount + 1 }) ∧
    (s.dict.mem.wf = true → ∀ a, a < size → mem.read a = s.dict.mem.read a)

/-- HOST_CONFIG's errors come in the order check type, filter, dictionary property, cap, before any input is read or byte
delivered (R134, R139); where HOST_CONFIG is not legal it has no effect (R133). The filters are none and R34's six IDs. -/
def Obligations.HostConfigErrorsInOrder : Prop :=
  ∀ (s : State) (dp ct : Byte) (arch : Option Byte),
    let known := ct = 0x00 ∨ ct = 0x01 ∨ ct = 0x04 ∨ ct = 0x0A
    let filterOk := arch = none ∨ ∃ id ∈ [(0x04 : Byte), 0x05, 0x06, 0x07, 0x08, 0x09], arch = some id
    let size := (2 + dp.toNat % 2) * 2 ^ (dp.toNat / 2 + 11)
    ((s.status = .idle ∨ s.status = .streamEnd) →
      ∃ t, exec (.hostConfig dp arch ct) s = .next t ∧ t.io = { s.io with inputEnded := false } ∧
        (¬ known → ct.toNat < 0x0A → t.status = .error .unsupportedCheck) ∧
        (¬ known → 0x0A ≤ ct.toNat → t.status = .error .options) ∧
        (known → ¬ filterOk → t.status = .error .options) ∧
        (known → filterOk → 40 < dp.toNat → t.status = .error .options) ∧
        (known → filterOk → dp.toNat ≤ 40 → s.cfg.dictCap.toNat < size → t.status = .error .memlimit)) ∧
    (s.status ≠ .idle → s.status ≠ .streamEnd → exec (.hostConfig dp arch ct) s = .next s)

/-- HOST_FEED, HOST_END_INPUT and HOST_SPACE, in every status (R133, R52, R53, R140). HOST_RUN (R135): in `running` the engine
starts; in every other status it returns that status at once and changes nothing else.
The returned status stands in `runReturn` (log entries 10, 13). -/
def Obligations.FeedEndInputSpaceAndRun : Prop :=
  ∀ (s : State) (bs : List Byte) (n : Nat),
    exec (.hostFeed bs) s = .next { s with io := { s.io with input := s.io.input ++ bs } } ∧
    exec .hostEndInput s = .next { s with io := { s.io with inputEnded := true } } ∧
    exec (.hostSpace n) s = .next { s with io := { s.io with space := s.io.space + n } } ∧
    (s.status = .running → exec .hostRun s = .next { s with host := { s.host with inRun := true, runReturn := none } }) ∧
    (s.status ≠ .running → exec .hostRun s = .next
      { s with host := { s.host with runReturn := some { status := s.status, wait := none } } })

/-- HOST_COMPARE (R132, R133): legal only in `stream_end`; the tag that CHK_FINALIZE gives sets `check_ok`, any other raises
`data`; with no check it always passes. A tag is looked at up to `tag_len` bytes (log entry 5). -/
def Obligations.CompareSetsCheckOkOrRaisesData : Prop :=
  ∀ (s : State) (tag : List Byte),
    let w : State := { s with cfg := { s.cfg with expectedTag := tag.take s.chk.tagLen } }
    (s.status ≠ .streamEnd → exec (.hostCompare tag) s = .next s) ∧
    (s.status = .streamEnd → tag.take s.chk.tagLen = s.chk.finalize →
      exec (.hostCompare tag) s = .next { w with checkOk := true }) ∧
    (s.status = .streamEnd → tag.take s.chk.tagLen ≠ s.chk.finalize →
      exec (.hostCompare tag) s = .next { w with status := .error .data, susp := none }) ∧
    (s.status = .streamEnd → s.chk.engine = .none → s.chk.tagLen = 0 →
      ∃ t, exec (.hostCompare tag) s = .next t ∧ t.checkOk = true)
end

