-- ==== Sys2Proof/Laws/State.lean ====
section
/-! SUPPORT. What each named update of the state does to each field. All true by `rfl`. -/

namespace Sys2Proof.Machine.State

variable (s : State)

@[simp] theorem suspend_cfg (p : Prim) (k : List Frame) : (s.suspend p k).cfg = s.cfg := rfl
@[simp] theorem suspend_status (p : Prim) (k : List Frame) : (s.suspend p k).status = s.status := rfl
@[simp] theorem suspend_checkOk (p : Prim) (k : List Frame) : (s.suspend p k).checkOk = s.checkOk := rfl
@[simp] theorem suspend_sq (p : Prim) (k : List Frame) : (s.suspend p k).sq = s.sq := rfl
@[simp] theorem suspend_rc (p : Prim) (k : List Frame) : (s.suspend p k).rc = s.rc := rfl
@[simp] theorem suspend_lz (p : Prim) (k : List Frame) : (s.suspend p k).lz = s.lz := rfl
@[simp] theorem suspend_probs (p : Prim) (k : List Frame) : (s.suspend p k).probs = s.probs := rfl
@[simp] theorem suspend_dict (p : Prim) (k : List Frame) : (s.suspend p k).dict = s.dict := rfl
@[simp] theorem suspend_bcj (p : Prim) (k : List Frame) : (s.suspend p k).bcj = s.bcj := rfl
@[simp] theorem suspend_chk (p : Prim) (k : List Frame) : (s.suspend p k).chk = s.chk := rfl
@[simp] theorem suspend_io (p : Prim) (k : List Frame) : (s.suspend p k).io = s.io := rfl
@[simp] theorem suspend_susp (p : Prim) (k : List Frame) :
    (s.suspend p k).susp = some { prim := p, frames := k } := rfl
@[simp] theorem suspend_ret (p : Prim) (k : List Frame) : (s.suspend p k).ret = s.ret := rfl
@[simp] theorem suspend_host (p : Prim) (k : List Frame) : (s.suspend p k).host = s.host := rfl
@[simp] theorem suspend_freeCount (p : Prim) (k : List Frame) : (s.suspend p k).freeCount = s.freeCount := rfl

@[simp] theorem raised_cfg (k : ErrKind) : (s.raised k).cfg = s.cfg := rfl
@[simp] theorem raised_status (k : ErrKind) : (s.raised k).status = .error k := rfl
@[simp] theorem raised_checkOk (k : ErrKind) : (s.raised k).checkOk = s.checkOk := rfl
@[simp] theorem raised_sq (k : ErrKind) : (s.raised k).sq = s.sq := rfl
@[simp] theorem raised_rc (k : ErrKind) : (s.raised k).rc = s.rc := rfl
@[simp] theorem raised_lz (k : ErrKind) : (s.raised k).lz = s.lz := rfl
@[simp] theorem raised_probs (k : ErrKind) : (s.raised k).probs = s.probs := rfl
@[simp] theorem raised_dict (k : ErrKind) : (s.raised k).dict = s.dict := rfl
@[simp] theorem raised_bcj (k : ErrKind) : (s.raised k).bcj = s.bcj := rfl
@[simp] theorem raised_chk (k : ErrKind) : (s.raised k).chk = s.chk := rfl
@[simp] theorem raised_io (k : ErrKind) : (s.raised k).io = s.io := rfl
@[simp] theorem raised_susp (k : ErrKind) : (s.raised k).susp = none := rfl
@[simp] theorem raised_ret (k : ErrKind) : (s.raised k).ret = s.ret := rfl
@[simp] theorem raised_host (k : ErrKind) : (s.raised k).host = s.host := rfl
@[simp] theorem raised_freeCount (k : ErrKind) : (s.raised k).freeCount = s.freeCount := rfl

@[simp] theorem deliver_cfg (b : Byte) : (s.deliver b).cfg = s.cfg := rfl
@[simp] theorem deliver_status (b : Byte) : (s.deliver b).status = s.status := rfl
@[simp] theorem deliver_checkOk (b : Byte) : (s.deliver b).checkOk = s.checkOk := rfl
@[simp] theorem deliver_sq (b : Byte) : (s.deliver b).sq = s.sq := rfl
@[simp] theorem deliver_rc (b : Byte) : (s.deliver b).rc = s.rc := rfl
@[simp] theorem deliver_lz (b : Byte) : (s.deliver b).lz = s.lz := rfl
@[simp] theorem deliver_probs (b : Byte) : (s.deliver b).probs = s.probs := rfl
@[simp] theorem deliver_dict (b : Byte) : (s.deliver b).dict = s.dict := rfl
@[simp] theorem deliver_bcj (b : Byte) : (s.deliver b).bcj = s.bcj := rfl
@[simp] theorem deliver_chk (b : Byte) : (s.deliver b).chk = s.chk.update b := rfl
@[simp] theorem deliver_io (b : Byte) :
    (s.deliver b).io = { s.io with output := s.io.output ++ [b], space := s.io.space - 1 } := rfl
@[simp] theorem deliver_susp (b : Byte) : (s.deliver b).susp = s.susp := rfl
@[simp] theorem deliver_ret (b : Byte) : (s.deliver b).ret = s.ret := rfl
@[simp] theorem deliver_host (b : Byte) : (s.deliver b).host = s.host := rfl
@[simp] theorem deliver_freeCount (b : Byte) : (s.deliver b).freeCount = s.freeCount := rfl

@[simp] theorem outDone_cfg (n : Nat) : (s.outDone n).cfg = s.cfg := rfl
@[simp] theorem outDone_status (n : Nat) : (s.outDone n).status = s.status := rfl
@[simp] theorem outDone_checkOk (n : Nat) : (s.outDone n).checkOk = s.checkOk := rfl
@[simp] theorem outDone_sq (n : Nat) : (s.outDone n).sq = s.sq := rfl
@[simp] theorem outDone_rc (n : Nat) : (s.outDone n).rc = s.rc := rfl
@[simp] theorem outDone_lz (n : Nat) : (s.outDone n).lz = s.lz := rfl
@[simp] theorem outDone_probs (n : Nat) : (s.outDone n).probs = s.probs := rfl
@[simp] theorem outDone_dict (n : Nat) : (s.outDone n).dict = s.dict := rfl
@[simp] theorem outDone_bcj (n : Nat) :
    (s.outDone n).bcj = { s.bcj with pos := s.bcj.pos + .ofNat 32 n, carry := s.bcj.carry.drop n } := rfl
@[simp] theorem outDone_chk (n : Nat) : (s.outDone n).chk = s.chk := rfl
@[simp] theorem outDone_io (n : Nat) : (s.outDone n).io = s.io := rfl
@[simp] theorem outDone_susp (n : Nat) : (s.outDone n).susp = s.susp := rfl
@[simp] theorem outDone_ret (n : Nat) : (s.outDone n).ret = s.ret := rfl
@[simp] theorem outDone_host (n : Nat) : (s.outDone n).host = s.host := rfl
@[simp] theorem outDone_freeCount (n : Nat) : (s.outDone n).freeCount = s.freeCount := rfl

@[simp] theorem countByte_cfg : (s.countByte).cfg = s.cfg := rfl
@[simp] theorem countByte_status : (s.countByte).status = s.status := rfl
@[simp] theorem countByte_checkOk : (s.countByte).checkOk = s.checkOk := rfl
@[simp] theorem countByte_sq : (s.countByte).sq = { s.sq with compLeft := s.sq.compLeft - 1 } := rfl
@[simp] theorem countByte_rc : (s.countByte).rc = s.rc := rfl
@[simp] theorem countByte_lz : (s.countByte).lz = s.lz := rfl
@[simp] theorem countByte_probs : (s.countByte).probs = s.probs := rfl
@[simp] theorem countByte_dict : (s.countByte).dict = s.dict := rfl
@[simp] theorem countByte_bcj : (s.countByte).bcj = s.bcj := rfl
@[simp] theorem countByte_chk : (s.countByte).chk = s.chk := rfl
@[simp] theorem countByte_io : (s.countByte).io = s.io := rfl
@[simp] theorem countByte_susp : (s.countByte).susp = s.susp := rfl
@[simp] theorem countByte_ret : (s.countByte).ret = s.ret := rfl
@[simp] theorem countByte_host : (s.countByte).host = s.host := rfl
@[simp] theorem countByte_freeCount : (s.countByte).freeCount = s.freeCount := rfl

@[simp] theorem shiftIn_cfg (v : Nat) : (s.shiftIn v).cfg = s.cfg := rfl
@[simp] theorem shiftIn_status (v : Nat) : (s.shiftIn v).status = s.status := rfl
@[simp] theorem shiftIn_checkOk (v : Nat) : (s.shiftIn v).checkOk = s.checkOk := rfl
@[simp] theorem shiftIn_sq (v : Nat) : (s.shiftIn v).sq = s.sq := rfl
@[simp] theorem shiftIn_rc (v : Nat) :
    (s.shiftIn v).rc = { s.rc with code := (s.rc.code <<< 8) ||| .ofNat 32 v } := rfl
@[simp] theorem shiftIn_lz (v : Nat) : (s.shiftIn v).lz = s.lz := rfl
@[simp] theorem shiftIn_probs (v : Nat) : (s.shiftIn v).probs = s.probs := rfl
@[simp] theorem shiftIn_dict (v : Nat) : (s.shiftIn v).dict = s.dict := rfl
@[simp] theorem shiftIn_bcj (v : Nat) : (s.shiftIn v).bcj = s.bcj := rfl
@[simp] theorem shiftIn_chk (v : Nat) : (s.shiftIn v).chk = s.chk := rfl
@[simp] theorem shiftIn_io (v : Nat) : (s.shiftIn v).io = s.io := rfl
@[simp] theorem shiftIn_susp (v : Nat) : (s.shiftIn v).susp = s.susp := rfl
@[simp] theorem shiftIn_ret (v : Nat) : (s.shiftIn v).ret = s.ret := rfl
@[simp] theorem shiftIn_host (v : Nat) : (s.shiftIn v).host = s.host := rfl
@[simp] theorem shiftIn_freeCount (v : Nat) : (s.shiftIn v).freeCount = s.freeCount := rfl

@[simp] theorem countCopy_cfg : (s.countCopy).cfg = s.cfg := rfl
@[simp] theorem countCopy_status : (s.countCopy).status = s.status := rfl
@[simp] theorem countCopy_checkOk : (s.countCopy).checkOk = s.checkOk := rfl
@[simp] theorem countCopy_sq : (s.countCopy).sq = { s.sq with uncLeft := s.sq.uncLeft - 1 } := rfl
@[simp] theorem countCopy_rc : (s.countCopy).rc = s.rc := rfl
@[simp] theorem countCopy_lz : (s.countCopy).lz = { s.lz with len := s.lz.len - 1 } := rfl
@[simp] theorem countCopy_probs : (s.countCopy).probs = s.probs := rfl
@[simp] theorem countCopy_dict : (s.countCopy).dict = s.dict := rfl
@[simp] theorem countCopy_bcj : (s.countCopy).bcj = s.bcj := rfl
@[simp] theorem countCopy_chk : (s.countCopy).chk = s.chk := rfl
@[simp] theorem countCopy_io : (s.countCopy).io = s.io := rfl
@[simp] theorem countCopy_susp : (s.countCopy).susp = s.susp := rfl
@[simp] theorem countCopy_ret : (s.countCopy).ret = s.ret := rfl
@[simp] theorem countCopy_host : (s.countCopy).host = s.host := rfl
@[simp] theorem countCopy_freeCount : (s.countCopy).freeCount = s.freeCount := rfl

@[simp] theorem literalDone_cfg : (s.literalDone).cfg = s.cfg := rfl
@[simp] theorem literalDone_status : (s.literalDone).status = s.status := rfl
@[simp] theorem literalDone_checkOk : (s.literalDone).checkOk = s.checkOk := rfl
@[simp] theorem literalDone_sq : (s.literalDone).sq = { s.sq with uncLeft := s.sq.uncLeft - 1 } := rfl
@[simp] theorem literalDone_rc : (s.literalDone).rc = s.rc := rfl
@[simp] theorem literalDone_lz : (s.literalDone).lz = { s.lz with state := litNext s.lz.state } := rfl
@[simp] theorem literalDone_probs : (s.literalDone).probs = s.probs := rfl
@[simp] theorem literalDone_dict : (s.literalDone).dict = s.dict := rfl
@[simp] theorem literalDone_bcj : (s.literalDone).bcj = s.bcj := rfl
@[simp] theorem literalDone_chk : (s.literalDone).chk = s.chk := rfl
@[simp] theorem literalDone_io : (s.literalDone).io = s.io := rfl
@[simp] theorem literalDone_susp : (s.literalDone).susp = s.susp := rfl
@[simp] theorem literalDone_ret : (s.literalDone).ret = s.ret := rfl
@[simp] theorem literalDone_host : (s.literalDone).host = s.host := rfl
@[simp] theorem literalDone_freeCount : (s.literalDone).freeCount = s.freeCount := rfl

@[simp] theorem setLen_cfg (n : Nat) : (s.setLen n).cfg = s.cfg := rfl
@[simp] theorem setLen_status (n : Nat) : (s.setLen n).status = s.status := rfl
@[simp] theorem setLen_checkOk (n : Nat) : (s.setLen n).checkOk = s.checkOk := rfl
@[simp] theorem setLen_sq (n : Nat) : (s.setLen n).sq = s.sq := rfl
@[simp] theorem setLen_rc (n : Nat) : (s.setLen n).rc = s.rc := rfl
@[simp] theorem setLen_lz (n : Nat) : (s.setLen n).lz = { s.lz with len := n } := rfl
@[simp] theorem setLen_probs (n : Nat) : (s.setLen n).probs = s.probs := rfl
@[simp] theorem setLen_dict (n : Nat) : (s.setLen n).dict = s.dict := rfl
@[simp] theorem setLen_bcj (n : Nat) : (s.setLen n).bcj = s.bcj := rfl
@[simp] theorem setLen_chk (n : Nat) : (s.setLen n).chk = s.chk := rfl
@[simp] theorem setLen_io (n : Nat) : (s.setLen n).io = s.io := rfl
@[simp] theorem setLen_susp (n : Nat) : (s.setLen n).susp = s.susp := rfl
@[simp] theorem setLen_ret (n : Nat) : (s.setLen n).ret = s.ret := rfl
@[simp] theorem setLen_host (n : Nat) : (s.setLen n).host = s.host := rfl
@[simp] theorem setLen_freeCount (n : Nat) : (s.setLen n).freeCount = s.freeCount := rfl

@[simp] theorem setRep0_cfg (d : Word32) : (s.setRep0 d).cfg = s.cfg := rfl
@[simp] theorem setRep0_status (d : Word32) : (s.setRep0 d).status = s.status := rfl
@[simp] theorem setRep0_checkOk (d : Word32) : (s.setRep0 d).checkOk = s.checkOk := rfl
@[simp] theorem setRep0_sq (d : Word32) : (s.setRep0 d).sq = s.sq := rfl
@[simp] theorem setRep0_rc (d : Word32) : (s.setRep0 d).rc = s.rc := rfl
@[simp] theorem setRep0_lz (d : Word32) : (s.setRep0 d).lz = { s.lz with rep0 := d } := rfl
@[simp] theorem setRep0_probs (d : Word32) : (s.setRep0 d).probs = s.probs := rfl
@[simp] theorem setRep0_dict (d : Word32) : (s.setRep0 d).dict = s.dict := rfl
@[simp] theorem setRep0_bcj (d : Word32) : (s.setRep0 d).bcj = s.bcj := rfl
@[simp] theorem setRep0_chk (d : Word32) : (s.setRep0 d).chk = s.chk := rfl
@[simp] theorem setRep0_io (d : Word32) : (s.setRep0 d).io = s.io := rfl
@[simp] theorem setRep0_susp (d : Word32) : (s.setRep0 d).susp = s.susp := rfl
@[simp] theorem setRep0_ret (d : Word32) : (s.setRep0 d).ret = s.ret := rfl
@[simp] theorem setRep0_host (d : Word32) : (s.setRep0 d).host = s.host := rfl
@[simp] theorem setRep0_freeCount (d : Word32) : (s.setRep0 d).freeCount = s.freeCount := rfl

@[simp] theorem matchStart_cfg : (s.matchStart).cfg = s.cfg := rfl
@[simp] theorem matchStart_status : (s.matchStart).status = s.status := rfl
@[simp] theorem matchStart_checkOk : (s.matchStart).checkOk = s.checkOk := rfl
@[simp] theorem matchStart_sq : (s.matchStart).sq = s.sq := rfl
@[simp] theorem matchStart_rc : (s.matchStart).rc = s.rc := rfl
@[simp] theorem matchStart_lz :
    (s.matchStart).lz =
      { s.lz with state := matchNext s.lz.state, rep3 := s.lz.rep2, rep2 := s.lz.rep1, rep1 := s.lz.rep0 } := rfl
@[simp] theorem matchStart_probs : (s.matchStart).probs = s.probs := rfl
@[simp] theorem matchStart_dict : (s.matchStart).dict = s.dict := rfl
@[simp] theorem matchStart_bcj : (s.matchStart).bcj = s.bcj := rfl
@[simp] theorem matchStart_chk : (s.matchStart).chk = s.chk := rfl
@[simp] theorem matchStart_io : (s.matchStart).io = s.io := rfl
@[simp] theorem matchStart_susp : (s.matchStart).susp = s.susp := rfl
@[simp] theorem matchStart_ret : (s.matchStart).ret = s.ret := rfl
@[simp] theorem matchStart_host : (s.matchStart).host = s.host := rfl
@[simp] theorem matchStart_freeCount : (s.matchStart).freeCount = s.freeCount := rfl

@[simp] theorem shortRepStart_cfg : (s.shortRepStart).cfg = s.cfg := rfl
@[simp] theorem shortRepStart_status : (s.shortRepStart).status = s.status := rfl
@[simp] theorem shortRepStart_checkOk : (s.shortRepStart).checkOk = s.checkOk := rfl
@[simp] theorem shortRepStart_sq : (s.shortRepStart).sq = s.sq := rfl
@[simp] theorem shortRepStart_rc : (s.shortRepStart).rc = s.rc := rfl
@[simp] theorem shortRepStart_lz :
    (s.shortRepStart).lz = { s.lz with state := shortRepNext s.lz.state, len := 1 } := rfl
@[simp] theorem shortRepStart_probs : (s.shortRepStart).probs = s.probs := rfl
@[simp] theorem shortRepStart_dict : (s.shortRepStart).dict = s.dict := rfl
@[simp] theorem shortRepStart_bcj : (s.shortRepStart).bcj = s.bcj := rfl
@[simp] theorem shortRepStart_chk : (s.shortRepStart).chk = s.chk := rfl
@[simp] theorem shortRepStart_io : (s.shortRepStart).io = s.io := rfl
@[simp] theorem shortRepStart_susp : (s.shortRepStart).susp = s.susp := rfl
@[simp] theorem shortRepStart_ret : (s.shortRepStart).ret = s.ret := rfl
@[simp] theorem shortRepStart_host : (s.shortRepStart).host = s.host := rfl
@[simp] theorem shortRepStart_freeCount : (s.shortRepStart).freeCount = s.freeCount := rfl

@[simp] theorem longRepStart_cfg (n : Nat) : (s.longRepStart n).cfg = s.cfg := rfl
@[simp] theorem longRepStart_status (n : Nat) : (s.longRepStart n).status = s.status := rfl
@[simp] theorem longRepStart_checkOk (n : Nat) : (s.longRepStart n).checkOk = s.checkOk := rfl
@[simp] theorem longRepStart_sq (n : Nat) : (s.longRepStart n).sq = s.sq := rfl
@[simp] theorem longRepStart_rc (n : Nat) : (s.longRepStart n).rc = s.rc := rfl
@[simp] theorem longRepStart_lz (n : Nat) :
    (s.longRepStart n).lz = { s.lz.rotate n with state := longRepNext s.lz.state } := rfl
@[simp] theorem longRepStart_probs (n : Nat) : (s.longRepStart n).probs = s.probs := rfl
@[simp] theorem longRepStart_dict (n : Nat) : (s.longRepStart n).dict = s.dict := rfl
@[simp] theorem longRepStart_bcj (n : Nat) : (s.longRepStart n).bcj = s.bcj := rfl
@[simp] theorem longRepStart_chk (n : Nat) : (s.longRepStart n).chk = s.chk := rfl
@[simp] theorem longRepStart_io (n : Nat) : (s.longRepStart n).io = s.io := rfl
@[simp] theorem longRepStart_susp (n : Nat) : (s.longRepStart n).susp = s.susp := rfl
@[simp] theorem longRepStart_ret (n : Nat) : (s.longRepStart n).ret = s.ret := rfl
@[simp] theorem longRepStart_host (n : Nat) : (s.longRepStart n).host = s.host := rfl
@[simp] theorem longRepStart_freeCount (n : Nat) : (s.longRepStart n).freeCount = s.freeCount := rfl

@[simp] theorem lzmaStateReset_cfg : (s.lzmaStateReset).cfg = s.cfg := rfl
@[simp] theorem lzmaStateReset_status : (s.lzmaStateReset).status = s.status := rfl
@[simp] theorem lzmaStateReset_checkOk : (s.lzmaStateReset).checkOk = s.checkOk := rfl
@[simp] theorem lzmaStateReset_sq : (s.lzmaStateReset).sq = s.sq := rfl
@[simp] theorem lzmaStateReset_rc : (s.lzmaStateReset).rc = .idle := rfl
@[simp] theorem lzmaStateReset_lz :
    (s.lzmaStateReset).lz = { s.lz with state := 0, rep0 := 0, rep1 := 0, rep2 := 0, rep3 := 0, len := 0 } := rfl
@[simp] theorem lzmaStateReset_probs : (s.lzmaStateReset).probs = [] := rfl
@[simp] theorem lzmaStateReset_dict : (s.lzmaStateReset).dict = s.dict := rfl
@[simp] theorem lzmaStateReset_bcj : (s.lzmaStateReset).bcj = s.bcj := rfl
@[simp] theorem lzmaStateReset_chk : (s.lzmaStateReset).chk = s.chk := rfl
@[simp] theorem lzmaStateReset_io : (s.lzmaStateReset).io = s.io := rfl
@[simp] theorem lzmaStateReset_susp : (s.lzmaStateReset).susp = s.susp := rfl
@[simp] theorem lzmaStateReset_ret : (s.lzmaStateReset).ret = s.ret := rfl
@[simp] theorem lzmaStateReset_host : (s.lzmaStateReset).host = s.host := rfl
@[simp] theorem lzmaStateReset_freeCount : (s.lzmaStateReset).freeCount = s.freeCount := rfl

@[simp] theorem setProps_cfg (v : Byte) : (s.setProps v).cfg = s.cfg := rfl
@[simp] theorem setProps_status (v : Byte) : (s.setProps v).status = s.status := rfl
@[simp] theorem setProps_checkOk (v : Byte) : (s.setProps v).checkOk = s.checkOk := rfl
@[simp] theorem setProps_sq (v : Byte) : (s.setProps v).sq = s.sq := rfl
@[simp] theorem setProps_rc (v : Byte) : (s.setProps v).rc = s.rc := rfl
@[simp] theorem setProps_lz (v : Byte) :
    (s.setProps v).lz = { s.lz with pb := propsPb v, lp := propsLp v, lc := propsLc v } := rfl
@[simp] theorem setProps_probs (v : Byte) : (s.setProps v).probs = s.probs := rfl
@[simp] theorem setProps_dict (v : Byte) : (s.setProps v).dict = s.dict := rfl
@[simp] theorem setProps_bcj (v : Byte) : (s.setProps v).bcj = s.bcj := rfl
@[simp] theorem setProps_chk (v : Byte) : (s.setProps v).chk = s.chk := rfl
@[simp] theorem setProps_io (v : Byte) : (s.setProps v).io = s.io := rfl
@[simp] theorem setProps_susp (v : Byte) : (s.setProps v).susp = s.susp := rfl
@[simp] theorem setProps_ret (v : Byte) : (s.setProps v).ret = s.ret := rfl
@[simp] theorem setProps_host (v : Byte) : (s.setProps v).host = s.host := rfl
@[simp] theorem setProps_freeCount (v : Byte) : (s.setProps v).freeCount = s.freeCount := rfl

@[simp] theorem selectEngine_cfg (e : CheckEngine) (n : Nat) : (s.selectEngine e n).cfg = s.cfg := rfl
@[simp] theorem selectEngine_status (e : CheckEngine) (n : Nat) : (s.selectEngine e n).status = s.status := rfl
@[simp] theorem selectEngine_checkOk (e : CheckEngine) (n : Nat) : (s.selectEngine e n).checkOk = s.checkOk := rfl
@[simp] theorem selectEngine_sq (e : CheckEngine) (n : Nat) : (s.selectEngine e n).sq = s.sq := rfl
@[simp] theorem selectEngine_rc (e : CheckEngine) (n : Nat) : (s.selectEngine e n).rc = s.rc := rfl
@[simp] theorem selectEngine_lz (e : CheckEngine) (n : Nat) : (s.selectEngine e n).lz = s.lz := rfl
@[simp] theorem selectEngine_probs (e : CheckEngine) (n : Nat) : (s.selectEngine e n).probs = s.probs := rfl
@[simp] theorem selectEngine_dict (e : CheckEngine) (n : Nat) : (s.selectEngine e n).dict = s.dict := rfl
@[simp] theorem selectEngine_bcj (e : CheckEngine) (n : Nat) : (s.selectEngine e n).bcj = s.bcj := rfl
@[simp] theorem selectEngine_chk (e : CheckEngine) (n : Nat) :
    (s.selectEngine e n).chk = { s.chk with engine := e, tagLen := n } := rfl
@[simp] theorem selectEngine_io (e : CheckEngine) (n : Nat) : (s.selectEngine e n).io = s.io := rfl
@[simp] theorem selectEngine_susp (e : CheckEngine) (n : Nat) : (s.selectEngine e n).susp = s.susp := rfl
@[simp] theorem selectEngine_ret (e : CheckEngine) (n : Nat) : (s.selectEngine e n).ret = s.ret := rfl
@[simp] theorem selectEngine_host (e : CheckEngine) (n : Nat) : (s.selectEngine e n).host = s.host := rfl
@[simp] theorem selectEngine_freeCount (e : CheckEngine) (n : Nat) :
    (s.selectEngine e n).freeCount = s.freeCount := rfl

@[simp] theorem setCheckType_cfg (b : Byte) : (s.setCheckType b).cfg = { s.cfg with checkType := b } := rfl
@[simp] theorem setCheckType_status (b : Byte) : (s.setCheckType b).status = s.status := rfl
@[simp] theorem setCheckType_checkOk (b : Byte) : (s.setCheckType b).checkOk = s.checkOk := rfl
@[simp] theorem setCheckType_sq (b : Byte) : (s.setCheckType b).sq = s.sq := rfl
@[simp] theorem setCheckType_rc (b : Byte) : (s.setCheckType b).rc = s.rc := rfl
@[simp] theorem setCheckType_lz (b : Byte) : (s.setCheckType b).lz = s.lz := rfl
@[simp] theorem setCheckType_probs (b : Byte) : (s.setCheckType b).probs = s.probs := rfl
@[simp] theorem setCheckType_dict (b : Byte) : (s.setCheckType b).dict = s.dict := rfl
@[simp] theorem setCheckType_bcj (b : Byte) : (s.setCheckType b).bcj = s.bcj := rfl
@[simp] theorem setCheckType_chk (b : Byte) : (s.setCheckType b).chk = s.chk := rfl
@[simp] theorem setCheckType_io (b : Byte) : (s.setCheckType b).io = s.io := rfl
@[simp] theorem setCheckType_susp (b : Byte) : (s.setCheckType b).susp = s.susp := rfl
@[simp] theorem setCheckType_ret (b : Byte) : (s.setCheckType b).ret = s.ret := rfl
@[simp] theorem setCheckType_host (b : Byte) : (s.setCheckType b).host = s.host := rfl
@[simp] theorem setCheckType_freeCount (b : Byte) : (s.setCheckType b).freeCount = s.freeCount := rfl

@[simp] theorem feed_cfg (l : List Byte) : (s.feed l).cfg = s.cfg := rfl
@[simp] theorem feed_status (l : List Byte) : (s.feed l).status = s.status := rfl
@[simp] theorem feed_checkOk (l : List Byte) : (s.feed l).checkOk = s.checkOk := rfl
@[simp] theorem feed_sq (l : List Byte) : (s.feed l).sq = s.sq := rfl
@[simp] theorem feed_rc (l : List Byte) : (s.feed l).rc = s.rc := rfl
@[simp] theorem feed_lz (l : List Byte) : (s.feed l).lz = s.lz := rfl
@[simp] theorem feed_probs (l : List Byte) : (s.feed l).probs = s.probs := rfl
@[simp] theorem feed_dict (l : List Byte) : (s.feed l).dict = s.dict := rfl
@[simp] theorem feed_bcj (l : List Byte) : (s.feed l).bcj = s.bcj := rfl
@[simp] theorem feed_chk (l : List Byte) : (s.feed l).chk = s.chk := rfl
@[simp] theorem feed_io (l : List Byte) : (s.feed l).io = { s.io with input := s.io.input ++ l } := rfl
@[simp] theorem feed_susp (l : List Byte) : (s.feed l).susp = s.susp := rfl
@[simp] theorem feed_ret (l : List Byte) : (s.feed l).ret = s.ret := rfl
@[simp] theorem feed_host (l : List Byte) : (s.feed l).host = s.host := rfl
@[simp] theorem feed_freeCount (l : List Byte) : (s.feed l).freeCount = s.freeCount := rfl

@[simp] theorem grant_cfg (n : Nat) : (s.grant n).cfg = s.cfg := rfl
@[simp] theorem grant_status (n : Nat) : (s.grant n).status = s.status := rfl
@[simp] theorem grant_checkOk (n : Nat) : (s.grant n).checkOk = s.checkOk := rfl
@[simp] theorem grant_sq (n : Nat) : (s.grant n).sq = s.sq := rfl
@[simp] theorem grant_rc (n : Nat) : (s.grant n).rc = s.rc := rfl
@[simp] theorem grant_lz (n : Nat) : (s.grant n).lz = s.lz := rfl
@[simp] theorem grant_probs (n : Nat) : (s.grant n).probs = s.probs := rfl
@[simp] theorem grant_dict (n : Nat) : (s.grant n).dict = s.dict := rfl
@[simp] theorem grant_bcj (n : Nat) : (s.grant n).bcj = s.bcj := rfl
@[simp] theorem grant_chk (n : Nat) : (s.grant n).chk = s.chk := rfl
@[simp] theorem grant_io (n : Nat) : (s.grant n).io = { s.io with space := s.io.space + n } := rfl
@[simp] theorem grant_susp (n : Nat) : (s.grant n).susp = s.susp := rfl
@[simp] theorem grant_ret (n : Nat) : (s.grant n).ret = s.ret := rfl
@[simp] theorem grant_host (n : Nat) : (s.grant n).host = s.host := rfl
@[simp] theorem grant_freeCount (n : Nat) : (s.grant n).freeCount = s.freeCount := rfl

@[simp] theorem rerun_cfg : (s.rerun).cfg = s.cfg := rfl
@[simp] theorem rerun_status : (s.rerun).status = s.status := rfl
@[simp] theorem rerun_checkOk : (s.rerun).checkOk = s.checkOk := rfl
@[simp] theorem rerun_sq : (s.rerun).sq = s.sq := rfl
@[simp] theorem rerun_rc : (s.rerun).rc = s.rc := rfl
@[simp] theorem rerun_lz : (s.rerun).lz = s.lz := rfl
@[simp] theorem rerun_probs : (s.rerun).probs = s.probs := rfl
@[simp] theorem rerun_dict : (s.rerun).dict = s.dict := rfl
@[simp] theorem rerun_bcj : (s.rerun).bcj = s.bcj := rfl
@[simp] theorem rerun_chk : (s.rerun).chk = s.chk := rfl
@[simp] theorem rerun_io : (s.rerun).io = s.io := rfl
@[simp] theorem rerun_susp : (s.rerun).susp = s.susp := rfl
@[simp] theorem rerun_ret : (s.rerun).ret = s.ret := rfl
@[simp] theorem rerun_host : (s.rerun).host = { s.host with inRun := true, runReturn := none } := rfl
@[simp] theorem rerun_freeCount : (s.rerun).freeCount = s.freeCount := rfl

end Sys2Proof.Machine.State

namespace Sys2Proof.Machine.Dict

variable (d : Dict)

@[simp] theorem put_size (b : Byte) : (d.put b).size = d.size := rfl
@[simp] theorem put_mem (b : Byte) : (d.put b).mem = d.mem.write d.pos b := rfl
@[simp] theorem put_pos (b : Byte) : (d.put b).pos = (d.pos + 1) % d.size := rfl
@[simp] theorem put_valid (b : Byte) : (d.put b).valid = min (d.valid + 1) d.size := rfl
@[simp] theorem restart_size : d.restart.size = d.size := rfl
@[simp] theorem restart_mem : d.restart.mem = d.mem := rfl
@[simp] theorem restart_pos : d.restart.pos = 0 := rfl
@[simp] theorem restart_valid : d.restart.valid = 0 := rfl
@[simp] theorem resize_size (n : Nat) : (d.resize n).size = n := rfl
@[simp] theorem resize_mem (n : Nat) : (d.resize n).mem = d.mem.filter fun c => c.1 < n := rfl
@[simp] theorem resize_pos (n : Nat) : (d.resize n).pos = d.pos := rfl
@[simp] theorem resize_valid (n : Nat) : (d.resize n).valid = d.valid := rfl

end Sys2Proof.Machine.Dict
end

