-- ==== Sys2Proof/Laws/Memory.lean ====
section
/-! SUPPORT. The sparse memories: every operation keeps the canonical form, a read after a write to the same index gives the
written value, and a write leaves every other index alone. -/

namespace Sys2Proof.Machine

namespace Sparse

variable {α : Type} [DecidableEq α] {fill : α}

/-- The canonical form, cell by cell. -/
theorem wf_cons {k : Nat} {v : α} {r : List (Nat × α)} :
    wf fill ((k, v) :: r) = true ↔ v ≠ fill ∧ (∀ c ∈ r, k < c.1) ∧ wf fill r = true := by
  induction r generalizing k v with
  | nil => simp [wf]
  | cons c r ih =>
    obtain ⟨k', v'⟩ := c
    have h : wf fill ((k, v) :: (k', v') :: r) = (v ≠ fill && k < k' && wf fill ((k', v') :: r)) := rfl
    rw [h]
    simp only [Bool.and_eq_true, decide_eq_true_eq, List.mem_cons, forall_eq_or_imp]
    constructor
    · rintro ⟨⟨hv, hk⟩, hr⟩
      exact ⟨hv, ⟨hk, fun c hc => Nat.lt_trans hk ((ih.mp hr).2.1 c hc)⟩, hr⟩
    · rintro ⟨hv, ⟨hk, -⟩, hr⟩
      exact ⟨⟨hv, hk⟩, hr⟩

theorem wf_nil : wf fill ([] : List (Nat × α)) = true := rfl

omit [DecidableEq α] in
/-- Below the first listed index nothing is listed. -/
theorem read_of_lt {m : List (Nat × α)} {a : Nat} (h : ∀ c ∈ m, a < c.1) : read fill m a = fill := by
  cases m with
  | nil => rfl
  | cons c r =>
    have := h c (by simp)
    simp only [read]
    rw [if_neg (by omega), if_pos this]

/-- The indices of a written memory. -/
theorem mem_write {m : List (Nat × α)} {a : Nat} {v : α} {c : Nat × α} (h : c ∈ write fill m a v) : c ∈ m ∨ c.1 = a := by
  induction m with
  | nil =>
    simp only [write] at h
    split at h <;> simp_all
  | cons d r ih =>
    obtain ⟨k, w⟩ := d
    simp only [write] at h
    split at h
    · split at h
      · exact .inl h
      · rcases List.mem_cons.mp h with rfl | h
        · exact .inr rfl
        · exact .inl h
    · split at h
      · split at h
        · exact .inl (List.mem_cons_of_mem _ h)
        · rcases List.mem_cons.mp h with rfl | h
          · exact .inr rfl
          · exact .inl (List.mem_cons_of_mem _ h)
      · rcases List.mem_cons.mp h with rfl | h
        · exact .inl (by simp)
        · exact (ih h).imp (List.mem_cons_of_mem _) id

/-- A write keeps the canonical form. -/
theorem write_wf {m : List (Nat × α)} (h : wf fill m = true) (a : Nat) (v : α) : wf fill (write fill m a v) = true := by
  induction m with
  | nil =>
    simp only [write]
    split
    · exact wf_nil
    · exact wf_cons.mpr ⟨by assumption, by simp, wf_nil⟩
  | cons d r ih =>
    obtain ⟨k, w⟩ := d
    obtain ⟨hw, hk, hr⟩ := wf_cons.mp h
    simp only [write]
    split
    · split
      · exact h
      · refine wf_cons.mpr ⟨by assumption, fun c hc => ?_, h⟩
        rcases List.mem_cons.mp hc with rfl | hc
        · assumption
        · exact Nat.lt_trans (by assumption) (hk c hc)
    · split
      · split
        · exact hr
        · next ha hv => exact wf_cons.mpr ⟨hv, fun c hc => ha ▸ hk c hc, hr⟩
      · refine wf_cons.mpr ⟨hw, fun c hc => ?_, ih hr⟩
        rcases mem_write hc with hc | hc
        · exact hk c hc
        · omega

/-- A read after a write to the same index gives the written value. -/
theorem read_write_same {m : List (Nat × α)} (h : wf fill m = true) (a : Nat) (v : α) :
    read fill (write fill m a v) a = v := by
  induction m with
  | nil => by_cases hv : v = fill <;> simp [write, read, hv]
  | cons d r ih =>
    obtain ⟨k, w⟩ := d
    obtain ⟨-, hk, hr⟩ := wf_cons.mp h
    simp only [write]
    split
    · next hlt =>
      split
      · next hv => simp only [read]; rw [if_neg (by omega), if_pos hlt, hv]
      · simp [read]
    · split
      · next hlt ha =>
        subst ha
        split
        · next hv => rw [read_of_lt hk, hv]
        · simp [read]
      · next hlt ha => simp only [read]; rw [if_neg ha, if_neg hlt, ih hr]

/-- A write leaves every other index alone. -/
theorem read_write_other {m : List (Nat × α)} (h : wf fill m = true) {a b : Nat} (v : α) (hab : b ≠ a) :
    read fill (write fill m a v) b = read fill m b := by
  induction m with
  | nil =>
    by_cases hv : v = fill
    · simp [write, hv]
    · simp [write, hv, read, hab]
  | cons d r ih =>
    obtain ⟨k, w⟩ := d
    obtain ⟨-, hk, hr⟩ := wf_cons.mp h
    simp only [write]
    split
    · next hlt =>
      split
      · rfl
      · simp only [read, if_neg hab]
        split
        · rw [if_neg (by omega), if_pos (by omega)]
        · rfl
    · split
      · next hlt ha =>
        subst ha
        split
        · simp only [read, if_neg hab]
          split
          · exact read_of_lt fun c hc => Nat.lt_trans (by assumption) (hk c hc)
          · rfl
        · simp only [read, if_neg hab]
      · simp only [read]
        split
        · rfl
        · split
          · rfl
          · exact ih hr

/-- Equal reads make equal memories: the form is canonical. -/
theorem ext {m n : List (Nat × α)} (hm : wf fill m = true) (hn : wf fill n = true)
    (h : ∀ a, read fill m a = read fill n a) : m = n := by
  induction m generalizing n with
  | nil =>
    cases n with
    | nil => rfl
    | cons d r =>
      obtain ⟨hw, -, -⟩ := wf_cons.mp hn
      exact absurd (by simpa [read] using h d.1) hw.symm
  | cons c r ih =>
    obtain ⟨k, v⟩ := c
    obtain ⟨hv, hk, hr⟩ := wf_cons.mp hm
    cases n with
    | nil => exact absurd (by simpa [read] using h k) hv
    | cons d q =>
      obtain ⟨k', v'⟩ := d
      obtain ⟨hv', hk', hq⟩ := wf_cons.mp hn
      have hkk : k = k' := by
        rcases Nat.lt_trichotomy k k' with hl | he | hg
        · have := h k
          simp only [read, if_true, if_neg (Nat.ne_of_lt hl), if_pos hl] at this
          exact absurd this hv
        · exact he
        · have := h k'
          simp only [read, if_true, if_neg (Nat.ne_of_lt hg), if_pos hg] at this
          exact absurd this.symm hv'
      subst hkk
      have hvv : v = v' := by simpa [read] using h k
      subst hvv
      rw [ih hr hq fun a => ?_]
      by_cases ha : k < a
      · have := h a
        simp only [read] at this
        rwa [if_neg (by omega), if_neg (by omega), if_neg (by omega), if_neg (by omega)] at this
      · rw [read_of_lt fun c hc => by have := hk c hc; omega, read_of_lt fun c hc => by have := hk' c hc; omega]

/-! ## Bounds -/

omit [DecidableEq α] in
theorem below_iff {m : List (Nat × α)} {n : Nat} : below n m = true ↔ ∀ c ∈ m, c.1 < n := by
  simp [below]

theorem write_below {m : List (Nat × α)} {n a : Nat} (v : α) (h : below n m = true) (ha : a < n) :
    below n (write fill m a v) = true := by
  rw [below_iff] at h ⊢
  intro c hc
  rcases mem_write hc with hc | hc
  · exact h c hc
  · omega

theorem ofCells_wf_below (n : Nat) (l m : List (Nat × α)) (hm : wf fill m = true) (hb : below n m = true) :
    wf fill (l.foldl (fun m c => if c.1 < n then write fill m c.1 c.2 else m) m) = true ∧
      below n (l.foldl (fun m c => if c.1 < n then write fill m c.1 c.2 else m) m) = true := by
  induction l generalizing m with
  | nil => exact ⟨hm, hb⟩
  | cons c r ih =>
    simp only [List.foldl_cons]
    split
    · exact ih _ (write_wf hm _ _) (write_below _ hb (by assumption))
    · exact ih _ hm hb

theorem ofCells_wf (n : Nat) (l : List (Nat × α)) : wf fill (ofCells fill n l) = true :=
  (ofCells_wf_below n l [] wf_nil rfl).1

theorem ofCells_below (n : Nat) (l : List (Nat × α)) : below n (ofCells fill n l) = true :=
  (ofCells_wf_below (fill := fill) n l [] wf_nil rfl).2

/-! ## Dropping the cells from an index on -/

theorem filter_wf {m : List (Nat × α)} (h : wf fill m = true) (n : Nat) :
    wf fill (m.filter fun c => c.1 < n) = true := by
  induction m with
  | nil => rfl
  | cons d r ih =>
    obtain ⟨k, v⟩ := d
    obtain ⟨hv, hk, hr⟩ := wf_cons.mp h
    rw [List.filter_cons]
    split
    · exact wf_cons.mpr ⟨hv, fun c hc => hk c (List.mem_of_mem_filter hc), ih hr⟩
    · exact ih hr

omit [DecidableEq α] in
theorem filter_below (m : List (Nat × α)) (n : Nat) : below n (m.filter fun c => c.1 < n) = true := by
  rw [below_iff]
  intro c hc
  simpa using (List.mem_filter.mp hc).2

theorem read_filter {m : List (Nat × α)} (h : wf fill m = true) {n a : Nat} (ha : a < n) :
    read fill (m.filter fun c => c.1 < n) a = read fill m a := by
  induction m with
  | nil => rfl
  | cons d r ih =>
    obtain ⟨k, v⟩ := d
    obtain ⟨-, hk, hr⟩ := wf_cons.mp h
    rw [List.filter_cons]
    split
    · simp only [read]
      rw [ih hr]
    · next hkn =>
      have hkn : n ≤ k := by simpa using hkn
      rw [read_of_lt (fun c hc => ?_)]
      · simp only [read]
        rw [if_neg (by omega), if_pos (by omega)]
      · have := hk c (List.mem_of_mem_filter hc)
        omega

end Sparse

/-! ## The dictionary's memory -/

theorem Memory.write_wf {m : Memory} (h : m.wf = true) (a : Nat) (b : Byte) : (m.write a b).wf = true :=
  Sparse.write_wf h a b

theorem Memory.read_write_same {m : Memory} (h : m.wf = true) (a : Nat) (b : Byte) : (m.write a b).read a = b :=
  Sparse.read_write_same h a b

theorem Memory.read_write_other {m : Memory} (h : m.wf = true) {a c : Nat} (b : Byte) (hc : c ≠ a) :
    (m.write a b).read c = m.read c := Sparse.read_write_other h b hc

theorem Dict.resize_wf {d : Dict} (h : d.mem.wf = true) (n : Nat) : (d.resize n).mem.wf = true := Sparse.filter_wf h n

theorem Dict.put_wf {d : Dict} (h : d.mem.wf = true) (b : Byte) : (d.put b).mem.wf = true := Memory.write_wf h _ _

/-! ## The probability memory -/

theorem Probs.write_wf {m : Probs} (h : m.wf = true) (i : Nat) (p : Prob) : (m.write i p).wf = true :=
  Sparse.write_wf h i p

theorem Probs.read_write_same {m : Probs} (h : m.wf = true) (i : Nat) (p : Prob) : (m.write i p).read i = p :=
  Sparse.read_write_same h i p

theorem Probs.read_write_other {m : Probs} (h : m.wf = true) {i j : Nat} (p : Prob) (hj : j ≠ i) :
    (m.write i p).read j = m.read j := Sparse.read_write_other h p hj

/-! ## The reset state's memories list nothing -/

theorem reset_mem_wf : State.reset.dict.mem.wf = true := rfl

theorem reset_probs_wf : State.reset.probs.wf = true := rfl

end Sys2Proof.Machine
end

