-- ==== Sys2Proof/Laws/Results.lean ====
section
/-! SUPPORT. How operations end and how they are put together: `bind`, `finish`, and the resumption of a waiting
operation. -/

namespace Sys2Proof.Machine

/-! ## `bind` -/

namespace Res

variable {fr : Frame} {f : Nat → State → Res}

@[simp] theorem bind_done (v : Nat) (s : State) : (Res.done v s).bind fr f = f v s := rfl
@[simp] theorem bind_hold (p : Prim) (k : List Frame) (s : State) : (Res.hold p k s).bind fr f = .hold p (k ++ [fr]) s := rfl
@[simp] theorem bind_fail (s : State) : (Res.fail s).bind fr f = .fail s := rfl
@[simp] theorem bind_stop (x : Fault) : (Res.stop x).bind fr f = .stop x := rfl

@[simp] theorem andThen_done (g : State → Res) (v : Nat) (s : State) : (Res.done v s).andThen g = g s := rfl
@[simp] theorem andThen_fail (g : State → Res) (s : State) : (Res.fail s).andThen g = .fail s := rfl

/-- A call returns only if the callee returned and the rest returned. -/
theorem bind_eq_done {r : Res} {v : Nat} {t : State} :
    r.bind fr f = .done v t ↔ ∃ w u, r = .done w u ∧ f w u = .done v t := by
  cases r <;> simp

/-- A call waits where the callee waits, or where the rest waits. -/
theorem bind_eq_hold {r : Res} {p : Prim} {k : List Frame} {t : State} :
    r.bind fr f = .hold p k t ↔
      (∃ k', r = .hold p k' t ∧ k = k' ++ [fr]) ∨ ∃ w u, r = .done w u ∧ f w u = .hold p k t := by
  cases r <;> simp [eq_comm, and_comm, and_assoc]

/-- Every state in which an operation can end has the property. -/
def All (P : State → Prop) : Res → Prop
  | .done _ s | .hold _ _ s | .fail s => P s
  | .stop _ => True

@[simp] theorem all_done {P : State → Prop} (v : Nat) (s : State) : (Res.done v s).All P ↔ P s := Iff.rfl
@[simp] theorem all_hold {P : State → Prop} (p : Prim) (k : List Frame) (s : State) : (Res.hold p k s).All P ↔ P s := Iff.rfl
@[simp] theorem all_fail {P : State → Prop} (s : State) : (Res.fail s).All P ↔ P s := Iff.rfl
@[simp] theorem all_stop {P : State → Prop} (x : Fault) : (Res.stop x).All P ↔ True := Iff.rfl

theorem All.bind {P : State → Prop} {r : Res} (h : r.All P) (hf : ∀ v s, P s → (f v s).All P) : (r.bind fr f).All P := by
  cases r <;> simp_all

theorem All.mono {P Q : State → Prop} {r : Res} (h : r.All P) (hpq : ∀ s, P s → Q s) : r.All Q := by
  cases r <;> simp_all

end Res

/-! ## `finish` -/

@[simp] theorem finish_done (v : Nat) (s : State) : finish (.done v s) = .next s := rfl
@[simp] theorem finish_hold (p : Prim) (k : List Frame) (s : State) : finish (.hold p k s) = .next (s.suspend p k) := rfl
@[simp] theorem finish_fail (s : State) : finish (.fail s) = .next s := rfl
@[simp] theorem finish_stop (x : Fault) : finish (.stop x) = .fault x := rfl

/-- Everything a finished operation can answer with a next state. -/
theorem finish_eq_next {r : Res} {t : State} :
    finish r = .next t ↔
      (∃ v, r = .done v t) ∨ r = .fail t ∨ ∃ p k u, r = .hold p k u ∧ t = u.suspend p k := by
  cases r <;> simp [eq_comm]

/-- No operation is refused. -/
theorem finish_ne_refused {r : Res} {x : Refusal} : finish r ≠ .refused x := by cases r <;> simp

/-- Where an operation ends with a next state that is not a wait, it returned or raised an error. -/
theorem finish_next_all {P : State → Prop} {r : Res} {t : State} (h : r.All P)
    (hs : ∀ s p k, P s → P (s.suspend p k)) (ht : finish r = .next t) : P t := by
  cases r <;> simp_all
  exact ht ▸ hs _ _ _ h

/-! ## Raising an error -/

/-- A raise ends the operation with `status` alone changed, and nothing left to resume. -/
theorem raise_eq (k : ErrKind) (s : State) : raise k s = .fail { s with status := .error k, susp := none } := rfl

/-! ## Resumption -/

/-- Frames resume innermost first. -/
theorem resumeFrames_append (k l : List Frame) (r : Res) : resumeFrames (k ++ l) r = resumeFrames l (resumeFrames k r) := by
  induction k generalizing r with
  | nil => rfl
  | cons fr k ih => exact ih _

theorem resumeFrames_fail (k : List Frame) (s : State) : resumeFrames k (.fail s) = .fail s := by
  induction k with
  | nil => rfl
  | cons fr k ih => exact ih

theorem resumeFrames_stop (k : List Frame) (x : Fault) : resumeFrames k (.stop x) = .stop x := by
  induction k with
  | nil => rfl
  | cons fr k ih => exact ih

/-- A statement that still waits keeps all its callers. -/
theorem resumeFrames_hold (k l : List Frame) (p : Prim) (s : State) :
    resumeFrames k (.hold p l s) = .hold p (l ++ k) s := by
  induction k generalizing l with
  | nil => simp [resumeFrames]
  | cons fr k ih => simp [resumeFrames, ih]

/-! ## The streams -/

/-- Everything `InByte()` can do. -/
theorem inByte_cases (s : State) :
    (∃ b r, s.io.input = b :: r ∧ inByte s = .done b.toNat { s with io := { s.io with input := r } }) ∨
    (s.io.input = [] ∧ s.io.inputEnded = true ∧ inByte s = .fail (s.raised .buf)) ∨
    (s.io.input = [] ∧ s.io.inputEnded = false ∧ inByte s = .hold .inByte [] s) := by
  unfold inByte
  cases h : s.io.input with
  | cons b r => exact .inl ⟨b, r, rfl, rfl⟩
  | nil =>
    cases he : s.io.inputEnded
    · exact .inr (.inr ⟨rfl, rfl, by simp⟩)
    · exact .inr (.inl ⟨rfl, rfl, by simp [raise]⟩)

theorem inByte_cons {s : State} {b : Byte} {r : List Byte} (h : s.io.input = b :: r) :
    inByte s = .done b.toNat { s with io := { s.io with input := r } } := by simp [inByte, h]

/-- Everything `Deliver(b)` can do. -/
theorem deliver_cases (b : Byte) (s : State) :
    (s.io.space = 0 ∧ deliver b s = .hold (.deliver b) [] s) ∨ (0 < s.io.space ∧ deliver b s = .done 0 (s.deliver b)) := by
  unfold deliver
  by_cases h : s.io.space = 0
  · exact .inl ⟨h, if_pos h⟩
  · exact .inr ⟨Nat.pos_of_ne_zero h, if_neg h⟩

/-! ## The byte source of the range coder -/

/-- Everything RcByte can do. The error of a chunk that is used up comes before any wait. -/
theorem rcByte_cases (s : State) :
    (s.sq.compLeft = 0 ∧ rcByte s = .fail (s.raised .data)) ∨
    (0 < s.sq.compLeft ∧ ∃ b r, s.io.input = b :: r ∧
      rcByte s = .done b.toNat (State.countByte { s with io := { s.io with input := r } })) ∨
    (0 < s.sq.compLeft ∧ s.io.input = [] ∧ s.io.inputEnded = true ∧ rcByte s = .fail (s.raised .buf)) ∨
    (0 < s.sq.compLeft ∧ s.io.input = [] ∧ s.io.inputEnded = false ∧ rcByte s = .hold .inByte [.rcByte] s) := by
  unfold rcByte
  by_cases h : s.sq.compLeft = 0
  · exact .inl ⟨h, by simp [h, raise]⟩
  · rw [if_neg h]
    have hp := Nat.pos_of_ne_zero h
    rcases inByte_cases s with ⟨b, r, hi, he⟩ | ⟨hi, hn, he⟩ | ⟨hi, hn, he⟩
    · exact .inr (.inl ⟨hp, b, r, hi, by rw [he]; rfl⟩)
    · exact .inr (.inr (.inl ⟨hp, hi, hn, by rw [he]; rfl⟩))
    · exact .inr (.inr (.inr ⟨hp, hi, hn, by rw [he]; rfl⟩))

/-- RC_NORM from 2^24 on. -/
theorem rcNorm_high {s : State} (h : 0x01000000 ≤ s.rc.range) : rcNorm s = .done 0 s := by
  unfold rcNorm
  rw [if_neg (by simpa using h)]

/-- RC_NORM below 2^24 with a byte at hand. -/
theorem rcNorm_low {s : State} {b : Byte} {r : List Byte} (h : s.rc.range < 0x01000000) (hc : 0 < s.sq.compLeft)
    (hi : s.io.input = b :: r) :
    rcNorm s = .done 0
      { s with rc := { range := s.rc.range <<< 8, code := (s.rc.code <<< 8) ||| .ofNat 32 b.toNat },
               sq := { s.sq with compLeft := s.sq.compLeft - 1 }, io := { s.io with input := r } } := by
  unfold rcNorm rcByte
  rw [if_pos h, if_neg (by simpa using Nat.pos_iff_ne_zero.mp hc),
    inByte_cons (s := { s with rc := { s.rc with range := s.rc.range <<< 8 } }) hi]
  rfl

/-- With a byte at hand RC_NORM always returns, and takes at most one byte. -/
theorem rcNorm_done {s : State} (hc : 0 < s.sq.compLeft) (hi : s.io.input ≠ []) :
    ∃ u n, rcNorm s = .done 0 u ∧ n ≤ 1 ∧ u.io.input = s.io.input.drop n ∧ u.sq.compLeft = s.sq.compLeft - n ∧
      u = { s with rc := u.rc, io := { s.io with input := u.io.input }, sq := { s.sq with compLeft := u.sq.compLeft } } := by
  obtain ⟨b, r, hbr⟩ := List.exists_cons_of_ne_nil hi
  by_cases h : s.rc.range < 0x01000000
  · exact ⟨_, 1, rcNorm_low h hc hbr, by omega, by simp [hbr], rfl, rfl⟩
  · exact ⟨s, 0, rcNorm_high (by simpa using h), by omega, by simp, by simp, rfl⟩

/-- With a byte at hand RC_BIT returns the bit that its bound decides. -/
theorem rcBit_done {s : State} {i : Nat} (h : i < Config.probCells) (hc : 0 < s.sq.compLeft) (hi : s.io.input ≠ []) :
    ∃ u n, rcBit i s = .done (s.decideBit i).1 u ∧ n ≤ 1 ∧ u.io.input = s.io.input.drop n ∧
      u.sq.compLeft = s.sq.compLeft - n ∧ u.probs = (s.decideBit i).2.probs ∧
      u = { s with rc := u.rc, probs := u.probs, io := { s.io with input := u.io.input },
                   sq := { s.sq with compLeft := u.sq.compLeft } } := by
  have hd : (s.decideBit i).2 = { s with rc := (s.decideBit i).2.rc, probs := (s.decideBit i).2.probs } := by
    simp only [State.decideBit]
    split <;> rfl
  obtain ⟨u, n, hu, hn, hin, hcl, hfr⟩ := rcNorm_done (s := (s.decideBit i).2) (by rw [hd]; exact hc) (by rw [hd]; exact hi)
  refine ⟨u, n, ?_, hn, ?_, ?_, ?_, ?_⟩
  · simp [rcBit, h, hu]
  · rw [hin, hd]
  · rw [hcl, hd]
  · rw [hfr]
  · rw [hd] at hfr
    rw [hfr]

/-- The decided bit is 0 or 1. -/
theorem decideBit_le (s : State) (i : Nat) : (s.decideBit i).1 ≤ 1 := by
  simp only [State.decideBit]
  split <;> simp

end Sys2Proof.Machine
end

