-- ==== Sys2Proof/Laws/Stage2.lean ====
section
/-! SUPPORT. Stage 2 and the dictionary primitives: a filter keeps its window's length and finishes at most all of it, and
with output space at hand a produced byte, a match copy and a flush do not wait. -/

namespace Sys2Proof

@[simp] theorem putLe_length {w : Nat} (x : BitVec w) (n : Nat) : (putLe x n).length = n := by
  induction n with
  | zero => rfl
  | succ n ih => simp [putLe, ih]

@[simp] theorem putBe_length {w : Nat} (x : BitVec w) (n : Nat) : (putBe x n).length = n := by
  induction n with
  | zero => rfl
  | succ n ih => simp [putBe, ih]

end Sys2Proof

namespace Sys2Proof.Machine

/-! ## Filters -/

theorem mapUnits_length {size : Nat} {conv : Word32 → List Byte → List Byte}
    (hc : ∀ p l, l.length = size → (conv p l).length = size) (count : Nat) (pos : Word32) (buf : List Byte)
    (h : count * size ≤ buf.length) : (mapUnits size conv count pos buf).length = buf.length := by
  induction count generalizing pos buf with
  | zero => rfl
  | succ count ih =>
    have hs : size ≤ buf.length := by
      rw [Nat.succ_mul] at h
      omega
    rw [mapUnits, List.length_append, hc _ _ (by simp [hs]), ih]
    · simp
      omega
    · rw [Nat.succ_mul] at h
      simp
      omega

/-- The two facts that OutByte needs of a filter. -/
def FilterOut.fits (o : FilterOut) (buf : List Byte) : Prop := o.buf.length = buf.length ∧ o.n ≤ buf.length

theorem unitFilter_fits {size : Nat} {conv : Word32 → List Byte → List Byte}
    (hc : ∀ p l, l.length = size → (conv p l).length = size) (pos mask : Word32) (buf : List Byte) :
    (unitFilter size conv pos mask buf).fits buf :=
  ⟨mapUnits_length hc _ _ _ (Nat.div_mul_le_self _ _), Nat.div_mul_le_self _ _⟩

theorem ppcUnit_length (p : Word32) (l : List Byte) : (ppcUnit p l).length = l.length := by
  unfold ppcUnit
  split
  · dsimp only
    split <;> simp
  · rfl

theorem armUnit_length (p : Word32) (l : List Byte) : (armUnit p l).length = l.length := by
  unfold armUnit
  split
  · split <;> simp
  · rfl

theorem sparcUnit_length (p : Word32) (l : List Byte) : (sparcUnit p l).length = l.length := by
  unfold sparcUnit
  split
  · dsimp only
    split <;> simp
  · rfl

theorem ia64PutInstr_length {l : List Byte} (h : l.length = 16) {slot : Nat} (hs : slot < 3) (x : BitVec 48) :
    (ia64PutInstr l slot x).length = 16 := by
  have hk : ia64BytePos slot ≤ 10 := by unfold ia64BytePos; omega
  simp [ia64PutInstr, h]
  omega

theorem ia64Slot_length {l : List Byte} (h : l.length = 16) {slot : Nat} (hs : slot < 3) (p : Word32) :
    (ia64Slot p l slot).length = 16 := by
  unfold ia64Slot
  dsimp only
  split
  · exact ia64PutInstr_length h hs _
  · exact h

theorem ia64Unit_length (p : Word32) (l : List Byte) (h : l.length = 16) : (ia64Unit p l).length = 16 := by
  have step : ∀ b : List Byte, b.length = 16 → ∀ slot, slot < 3 → ∀ c : Bool,
      (if c = true then ia64Slot p b slot else b).length = 16 := by
    intro b hb slot hs c
    split
    · exact ia64Slot_length hb hs p
    · exact hb
  unfold ia64Unit
  simp only [List.foldl]
  exact step _ (step _ (step l h 0 (by omega) _) 1 (by omega) _) 2 (by omega) _

theorem thumbScan_fits (pos : Word32) (l : List Byte) :
    (thumbScan pos l).1.length = l.length ∧ (thumbScan pos l).2 ≤ l.length := by
  induction pos, l using thumbScan.induct with
  | case1 pos b0 b1 b2 b3 r h ih =>
    rw [thumbScan, if_pos h]
    simp only [List.length_append, List.length_cons, thumbPair, List.length_nil]
    omega
  | case2 pos b0 b1 b2 b3 r h ih =>
    rw [thumbScan, if_neg h]
    simp only [List.length_cons] at *
    omega
  | case3 pos l h =>
    rw [thumbScan]
    · simp
    · exact h

theorem putLe32At_length {l : List Byte} {i : Nat} (h : i + 4 ≤ l.length) (v : Word32) :
    (putLe32At l i v).length = l.length := by
  simp [putLe32At]
  omega

theorem x86Step_fits {pos : Word32} {st : X86Scan} (h : st.i + 4 < st.buf.length) :
    (x86Step pos st).buf.length = st.buf.length ∧ st.i < (x86Step pos st).i ∧ (x86Step pos st).i ≤ st.i + 5 := by
  unfold x86Step
  dsimp only
  split
  · simp
  · generalize (if (st.i : Int) - st.prevPos > 3 then (0 : Word32) else _) = mask
    split
    · simp
    · split
      · exact ⟨putLe32At_length (by omega) _, by simp, by simp⟩
      · simp

theorem x86Loop_fits (pos : Word32) (lim fuel : Nat) (st : X86Scan) (h : st.buf.length = lim + 4) (hi : st.i ≤ lim + 4) :
    (x86Loop pos lim fuel st).buf.length = lim + 4 ∧ (x86Loop pos lim fuel st).i ≤ lim + 4 := by
  induction fuel generalizing st with
  | zero => exact ⟨h, hi⟩
  | succ fuel ih =>
    rw [x86Loop]
    split
    · next hl =>
      obtain ⟨hb, -, hle⟩ := x86Step_fits (pos := pos) (st := st) (by omega)
      exact ih _ (by omega) (by omega)
    · exact ⟨h, hi⟩

theorem filterX86_fits (pos mask : Word32) (buf : List Byte) : (filterX86 pos mask buf).fits buf := by
  unfold filterX86
  split
  · exact ⟨rfl, Nat.zero_le _⟩
  · next h =>
    have := x86Loop_fits pos (buf.length - 4) (buf.length - 4) { i := 0, prevPos := -1, mask := mask, buf := buf }
      (by simp; omega) (by simp)
    constructor
    · exact this.1.trans (by omega)
    · exact Nat.le_trans this.2 (by omega)

/-- A filter keeps its window's length, and at most the whole window is final. -/
theorem filter_fits (arch : Arch) (pos mask : Word32) (buf : List Byte) : (filter arch pos mask buf).fits buf := by
  cases arch with
  | x86 => exact filterX86_fits pos mask buf
  | powerpc => exact unitFilter_fits (fun p l h => (ppcUnit_length p l).trans h) pos mask buf
  | ia64 => exact unitFilter_fits ia64Unit_length pos mask buf
  | arm => exact unitFilter_fits (fun p l h => (armUnit_length p l).trans h) pos mask buf
  | armthumb => exact thumbScan_fits pos buf
  | sparc => exact unitFilter_fits (fun p l h => (sparcUnit_length p l).trans h) pos mask buf

/-! ## Delivering -/

theorem deliver_space {s : State} (b : Byte) (h : 0 < s.io.space) : deliver b s = .done 0 (s.deliver b) := by
  rw [deliver, if_neg (by omega)]

/-- Delivering a list of bytes changes the output, the space and the check registers. -/
theorem foldl_deliver (l : List Byte) (s : State) :
    l.foldl State.deliver s =
      { s with io := { s.io with output := s.io.output ++ l, space := s.io.space - l.length },
               chk := l.foldl Check.update s.chk } := by
  induction l generalizing s with
  | nil => simp
  | cons b l ih =>
    rw [List.foldl_cons, ih]
    simp [State.deliver, Nat.sub_sub, Nat.add_comm]

/-- With space for them, the final bytes of a window are delivered in order. -/
theorem outBytes_space (left k n : Nat) (s : State) (hk : k + left ≤ s.bcj.carry.length) (h : left ≤ s.io.space) :
    outBytes left k n s = .done 0 ((((s.bcj.carry.drop k).take left).foldl State.deliver s).outDone n) := by
  induction left generalizing k s with
  | zero => simp [outBytes]
  | succ left ih =>
    have hlt : k < s.bcj.carry.length := by omega
    rw [outBytes, deliver_space _ (by omega), Res.bind_done, ih]
    · rw [List.drop_eq_getElem_cons hlt, List.take_succ_cons, List.foldl_cons, State.deliver_bcj]
      simp only [List.getD, List.getElem?_eq_getElem hlt, Option.getD_some]
    · simp
      omega
    · simp
      omega

theorem filtered_carry_length (s : State) (arch : Arch) (b : Byte) :
    (s.filtered arch b).1.bcj.carry.length = s.bcj.carry.length + 1 := by
  simpa [State.filtered] using (filter_fits arch s.bcj.pos s.bcj.x86PrevMask (s.bcj.carry ++ [b])).1

theorem filtered_n_le (s : State) (arch : Arch) (b : Byte) : (s.filtered arch b).2 ≤ s.bcj.carry.length + 1 := by
  simpa [State.filtered] using (filter_fits arch s.bcj.pos s.bcj.x86PrevMask (s.bcj.carry ++ [b])).2

/-- With space for the held bytes and one more, a byte goes through stage 2 without a wait. -/
theorem outByte_space {s : State} (b : Byte) (ha : archSupported s.cfg.bcjArch = true)
    (h : s.bcj.carry.length < s.io.space) : outByte b s = .done 0 (s.emit b) := by
  unfold outByte State.emit
  cases hc : s.cfg.bcjArch with
  | none => exact deliver_space b (by omega)
  | some id =>
    rw [hc] at ha
    obtain ⟨arch, hid⟩ := Option.isSome_iff_exists.mp ha
    have hn := filtered_n_le s arch b
    have hl := filtered_carry_length s arch b
    have hs : (s.filtered arch b).1.io.space = s.io.space := rfl
    simp only [hid, Option.bind_some]
    rw [outBytes_space _ 0 _ _ (by omega) (by omega)]
    rfl

/-- One byte of stage 2 uses no more space than it needs, and holds no more than it got. -/
theorem emit_room (s : State) (b : Byte) (h : s.bcj.carry.length < s.io.space) :
    (s.emit b).bcj.carry.length + s.io.space ≤ s.bcj.carry.length + 1 + (s.emit b).io.space := by
  unfold State.emit
  split
  · simp
    omega
  · next arch _ =>
    have hn := filtered_n_le s arch b
    have hl := filtered_carry_length s arch b
    have hs : (s.filtered arch b).1.io.space = s.io.space := rfl
    simp only [foldl_deliver, State.outDone]
    simp
    omega

/-- What a byte through stage 2 leaves unchanged. -/
theorem emit_frame (s : State) (b : Byte) :
    s.emit b = { s with bcj := (s.emit b).bcj, chk := (s.emit b).chk,
                        io := { s.io with output := (s.emit b).io.output, space := (s.emit b).io.space } } := by
  unfold State.emit
  split
  · rfl
  · simp only [foldl_deliver, State.outDone, State.filtered]

theorem dictPut_space {s : State} (b : Byte) (ha : archSupported s.cfg.bcjArch = true)
    (h : s.bcj.carry.length < s.io.space) : dictPut b s = .done 0 (s.produce b) :=
  outByte_space (s := { s with dict := s.dict.put b }) b ha h

/-- What a produced byte leaves unchanged. -/
theorem produce_frame (s : State) (b : Byte) :
    s.produce b = { s with dict := s.dict.put b, bcj := (s.produce b).bcj, chk := (s.produce b).chk,
                           io := { s.io with output := (s.produce b).io.output, space := (s.produce b).io.space } } :=
  emit_frame { s with dict := s.dict.put b } b

theorem produce_room (s : State) (b : Byte) (h : s.bcj.carry.length < s.io.space) :
    (s.produce b).bcj.carry.length + s.io.space ≤ s.bcj.carry.length + 1 + (s.produce b).io.space :=
  emit_room { s with dict := s.dict.put b } b h

@[simp] theorem produce_cfg (s : State) (b : Byte) : (s.produce b).cfg = s.cfg := by rw [produce_frame]
@[simp] theorem produce_lz (s : State) (b : Byte) : (s.produce b).lz = s.lz := by rw [produce_frame]
@[simp] theorem produce_sq (s : State) (b : Byte) : (s.produce b).sq = s.sq := by rw [produce_frame]
@[simp] theorem produce_rc (s : State) (b : Byte) : (s.produce b).rc = s.rc := by rw [produce_frame]
@[simp] theorem produce_probs (s : State) (b : Byte) : (s.produce b).probs = s.probs := by rw [produce_frame]
@[simp] theorem produce_dict (s : State) (b : Byte) : (s.produce b).dict = s.dict.put b := by rw [produce_frame]
@[simp] theorem produce_status (s : State) (b : Byte) : (s.produce b).status = s.status := by rw [produce_frame]
@[simp] theorem produce_susp (s : State) (b : Byte) : (s.produce b).susp = s.susp := by rw [produce_frame]
@[simp] theorem produce_input (s : State) (b : Byte) : (s.produce b).io.input = s.io.input := by rw [produce_frame]

/-- With space for it a match copy does not wait. -/
theorem repeatLoop_space (dist : Word32) (fuel : Nat) (s : State) (hf : s.lz.len = fuel)
    (ha : archSupported s.cfg.bcjArch = true) (h : s.bcj.carry.length + min fuel s.sq.uncLeft ≤ s.io.space) :
    repeatLoop dist fuel s = .done 0 (copied dist (min fuel s.sq.uncLeft) s) := by
  induction fuel generalizing s with
  | zero => simp [repeatLoop, copied]
  | succ fuel ih =>
    rw [repeatLoop]
    by_cases hu : s.sq.uncLeft = 0
    · rw [if_neg (by omega), hu]
      simp [copied]
    · rw [if_pos (by omega), dictPut_space _ ha (by omega), Res.bind_done, ih]
      · have hm : min (fuel + 1) s.sq.uncLeft = min fuel (s.sq.uncLeft - 1) + 1 := by omega
        rw [hm, copied]
        simp
      · simp [hf]
      · simpa using ha
      · have := produce_room s (s.dict.get dist) (by omega)
        simp only [State.countCopy_bcj, State.countCopy_io, State.countCopy_sq, produce_sq]
        omega

/-- Everything a copy packet's copy does, with space for it. -/
theorem dictRepeat_space (dist : Word32) (s : State) (ha : archSupported s.cfg.bcjArch = true)
    (h : s.bcj.carry.length + min s.lz.len s.sq.uncLeft ≤ s.io.space) :
    dictRepeat dist s =
      if dist.toNat < s.dict.valid then .done 0 (copied dist (min s.lz.len s.sq.uncLeft) s) else .fail (s.raised .data) := by
  unfold dictRepeat
  by_cases hv : s.dict.valid ≤ dist.toNat
  · rw [if_pos hv, if_neg (by omega)]
    rfl
  · rw [if_neg hv, if_pos (by omega), repeatLoop_space dist _ s rfl ha h]

/-- With space for them the held bytes are flushed without a wait. -/
theorem flushBytes_space (l : List Byte) (s : State) (h : l.length ≤ s.io.space) :
    flushBytes l s = .done 0
      { s with bcj := { s.bcj with carry := [] }, chk := l.foldl Check.update s.chk,
               io := { s.io with output := s.io.output ++ l, space := s.io.space - l.length } } := by
  induction l generalizing s with
  | nil => simp [flushBytes]
  | cons b l ih =>
    simp only [List.length_cons] at h
    rw [flushBytes, deliver_space b (by omega), Res.bind_done, ih]
    · simp [Nat.sub_sub, Nat.add_comm]
    · simp
      omega

end Sys2Proof.Machine
end

