-- ==== Sys2Proof/Laws/Engine.lean ====
section
/-! SUPPORT. What every operation of the engine can do, said once: it moves the streams in order and leaves the
configuration alone, and more input or more space before it gives what the same supply gives at its wait. -/

namespace Sys2Proof.Machine

/-! ## The two facts -/

/-- How an engine operation may change what it does not own. -/
structure Moves (s t : State) : Prop where
  input : ∃ used, s.io.input = used ++ t.io.input
  output : ∃ bs, t.io.output = s.io.output ++ bs ∧ bs.length + t.io.space = s.io.space ∧
    t.chk = bs.foldl Check.update s.chk
  ended : t.io.inputEnded = s.io.inputEnded
  cfg : t.cfg = s.cfg
  checkOk : t.checkOk = s.checkOk
  size : t.dict.size = s.dict.size
  host : t.host = s.host
  free : t.freeCount = s.freeCount

theorem Moves.quiet {s t : State} (hi : t.io = s.io) (hc : t.chk = s.chk) (h1 : t.cfg = s.cfg)
    (h2 : t.checkOk = s.checkOk) (h3 : t.dict.size = s.dict.size) (h4 : t.host = s.host)
    (h5 : t.freeCount = s.freeCount) : Moves s t :=
  ⟨⟨[], by simp [hi]⟩, ⟨[], by simp [hi, hc]⟩, by rw [hi], h1, h2, h3, h4, h5⟩

theorem Moves.refl (s : State) : Moves s s := .quiet rfl rfl rfl rfl rfl rfl rfl

theorem Moves.trans {s t u : State} (h : Moves s t) (k : Moves t u) : Moves s u := by
  obtain ⟨a, ha⟩ := h.input
  obtain ⟨b, hb⟩ := k.input
  obtain ⟨c, hc, hcl, hck⟩ := h.output
  obtain ⟨d, hd, hdl, hdk⟩ := k.output
  exact ⟨⟨a ++ b, by rw [ha, hb, List.append_assoc]⟩,
    ⟨c ++ d, by rw [hd, hc, List.append_assoc], by rw [List.length_append]; omega, by rw [hdk, hck, List.foldl_append]⟩,
    k.ended.trans h.ended, k.cfg.trans h.cfg, k.checkOk.trans h.checkOk, k.size.trans h.size, k.host.trans h.host,
    k.free.trans h.free⟩

/-- More input and more output space. -/
def State.supply (s : State) (bs : List Byte) (n : Nat) : State :=
  { s with io := { s.io with input := s.io.input ++ bs, space := s.io.space + n } }

/-- The end of an operation that is supplied at its wait. -/
def Res.supplied (bs : List Byte) (n : Nat) : Res → Res
  | .done v t => .done v (t.supply bs n)
  | .fail t => .fail (t.supply bs n)
  | .stop x => .stop x
  | .hold p k t => resumeFrames k (runPrim p (t.supply bs n))

/-- `a` is how an operation ends at `s`, and `b` how it ends with a supply. -/
structure EndsAt (s : State) (a : Res) (b : List Byte → Nat → Res) : Prop where
  moves : a.All (Moves s)
  supply : ∀ bs n, bs = [] ∨ s.io.inputEnded = false → b bs n = a.supplied bs n

/-- An operation of the engine. -/
def EngineOp (f : State → Res) : Prop := ∀ s, EndsAt s (f s) fun bs n => f (s.supply bs n)

namespace EndsAt

variable {s t : State} {a : Res} {b : List Byte → Nat → Res}

theorem done (v : Nat) (h : Moves s t) : EndsAt s (.done v t) fun bs n => .done v (t.supply bs n) := ⟨h, fun _ _ _ => rfl⟩

theorem fail (h : Moves s t) : EndsAt s (.fail t) fun bs n => .fail (t.supply bs n) := ⟨h, fun _ _ _ => rfl⟩

theorem stop (x : Fault) : EndsAt s (.stop x) fun _ _ => .stop x := ⟨trivial, fun _ _ _ => rfl⟩

/-- A call. -/
theorem bind {fr : Frame} {f : Nat → State → Res} (h : EndsAt s a b) (hf : ∀ v, EngineOp (f v))
    (hr : resumeFrame fr = f) : EndsAt s (a.bind fr f) fun bs n => (b bs n).bind fr f := by
  refine ⟨h.moves.bind fun v t ht => ((hf v t).moves.mono fun u hu => ht.trans hu), fun bs n hs => ?_⟩
  rw [h.supply bs n hs]
  have hm := h.moves
  cases a with
  | done v t => exact (hf v t).supply bs n (by rwa [(show Moves s t from hm).ended])
  | fail t => rfl
  | stop x => rfl
  | hold p k t =>
    simp only [Res.supplied, Res.bind_hold]
    rw [resumeFrames_append]
    simp [resumeFrames, hr]

/-- A change that touches no stream comes first. -/
theorem after (ht : Moves s t) (h : EndsAt t a b) : EndsAt s a b :=
  ⟨h.moves.mono fun _ hu => ht.trans hu, fun bs n hs => h.supply bs n (by rwa [ht.ended])⟩

theorem ite {c : Prop} [Decidable c] {a' : Res} {b' : List Byte → Nat → Res} (h : c → EndsAt s a b)
    (h' : ¬ c → EndsAt s a' b') : EndsAt s (if c then a else a') fun bs n => if c then b bs n else b' bs n := by
  by_cases hc : c
  · simpa [hc] using h hc
  · simpa [hc] using h' hc

end EndsAt

/-! ## The primitives -/

theorem engineOp_raise (k : ErrKind) : EngineOp (raise k) := fun s =>
  .fail (t := s.raised k) (.quiet rfl rfl rfl rfl rfl rfl rfl)

theorem engineOp_done (v : Nat) : EngineOp (.done v) := fun s => .done v (.refl s)

theorem engineOp_inByte : EngineOp inByte := by
  intro s
  rcases inByte_cases s with ⟨b, r, hi, he⟩ | ⟨hi, hn, he⟩ | ⟨hi, hn, he⟩
  · rw [he]
    refine ⟨⟨⟨[b], by simp [hi]⟩, ⟨[], by simp⟩, rfl, rfl, rfl, rfl, rfl, rfl⟩, fun bs n _ => ?_⟩
    rw [inByte_cons (b := b) (r := r ++ bs) (by simp [State.supply, hi])]
    rfl
  · rw [he]
    refine ⟨.quiet rfl rfl rfl rfl rfl rfl rfl, fun bs n h => ?_⟩
    have hb : bs = [] := h.resolve_right (by simp [hn])
    simp [inByte, State.supply, Res.supplied, hi, hn, hb, raise, State.raised]
  · rw [he]
    exact ⟨.refl s, fun bs n _ => rfl⟩

theorem engineOp_deliver (b : Byte) : EngineOp (deliver b) := by
  intro s
  rcases deliver_cases b s with ⟨h, he⟩ | ⟨h, he⟩
  · rw [he]
    exact ⟨.refl s, fun bs n _ => rfl⟩
  · rw [he]
    refine ⟨⟨⟨[], by simp⟩, ⟨[b], by simp; omega⟩, rfl, rfl, rfl, rfl, rfl, rfl⟩, fun bs n _ => ?_⟩
    rw [deliver_space b (by simp [State.supply]; omega)]
    simp only [Res.supplied, State.deliver, State.supply]
    rw [Nat.sub_add_comm h]

theorem engineOp_runPrim (p : Prim) : EngineOp (runPrim p) := by
  cases p
  · exact engineOp_inByte
  · exact engineOp_deliver _

/-! ## The range coder -/

theorem engineOp_rcByte : EngineOp rcByte := fun s =>
  .ite (fun _ => engineOp_raise .data s) fun _ =>
    .bind (engineOp_inByte s) (fun v t => .done (t := t.countByte) v (.quiet rfl rfl rfl rfl rfl rfl rfl)) rfl

theorem engineOp_rcNorm : EngineOp rcNorm := fun s =>
  .ite
    (fun _ => .after (t := { s with rc := { s.rc with range := s.rc.range <<< 8 } }) (.quiet rfl rfl rfl rfl rfl rfl rfl)
      (.bind (engineOp_rcByte _) (fun v t => .done (t := t.shiftIn v) 0 (.quiet rfl rfl rfl rfl rfl rfl rfl)) rfl))
    fun _ => .done 0 (.refl s)

theorem decideBit_moves (s : State) (i : Nat) : Moves s (s.decideBit i).2 := by
  simp only [State.decideBit]
  split <;> exact .quiet rfl rfl rfl rfl rfl rfl rfl

theorem decideBit_supply (s : State) (i : Nat) (bs : List Byte) (n : Nat) :
    (s.supply bs n).decideBit i = ((s.decideBit i).1, (s.decideBit i).2.supply bs n) := by
  by_cases h : s.rc.code < rcBound s.rc (s.probs.read i) <;> simp [State.decideBit, State.supply, h]

theorem engineOp_rcBit (i : Nat) : EngineOp (rcBit i) := by
  intro s
  unfold rcBit
  refine .ite (fun _ => ?_) fun _ => .stop _
  simp only [decideBit_supply]
  exact .after (decideBit_moves s i) (.bind (engineOp_rcNorm _) (fun v => engineOp_done _) rfl)

theorem engineOp_rcTreeFrom (base n left sym : Nat) : EngineOp (rcTreeFrom base n left sym) := by
  induction left generalizing sym with
  | zero => exact engineOp_done _
  | succ left ih => exact fun s => .bind (engineOp_rcBit _ s) (fun b => ih _) rfl

theorem engineOp_rcTree (base n : Nat) : EngineOp (rcTree base n) := engineOp_rcTreeFrom base n n 1

theorem engineOp_rcTreeRevFrom (base left k sym v : Nat) : EngineOp (rcTreeRevFrom base left k sym v) := by
  induction left generalizing k sym v with
  | zero => exact engineOp_done _
  | succ left ih => exact fun s => .bind (engineOp_rcBit _ s) (fun b => ih _ _ _) rfl

theorem engineOp_rcTreeRev (base n : Nat) : EngineOp (rcTreeRev base n) := engineOp_rcTreeRevFrom base n 0 1 0

theorem decideDirect_moves (s : State) : Moves s s.decideDirect.2 := by
  simp only [State.decideDirect]
  split <;> exact .quiet rfl rfl rfl rfl rfl rfl rfl

theorem decideDirect_supply (s : State) (bs : List Byte) (n : Nat) :
    (s.supply bs n).decideDirect = (s.decideDirect.1, s.decideDirect.2.supply bs n) := by
  by_cases h : s.rc.range >>> 1 ≤ s.rc.code <;> simp [State.decideDirect, State.supply, h]

theorem engineOp_rcDirectFrom (left v : Nat) : EngineOp (rcDirectFrom left v) := by
  induction left generalizing v with
  | zero => exact engineOp_done _
  | succ left ih =>
    intro s
    unfold rcDirectFrom
    simp only [decideDirect_supply]
    exact .after (decideDirect_moves s) (.bind (engineOp_rcNorm _) (fun _ => ih _) rfl)

theorem engineOp_rcDirect (n : Nat) : EngineOp (rcDirect n) := engineOp_rcDirectFrom n 0

theorem engineOp_rcInitFrom (left : Nat) (c : Word32) : EngineOp (rcInitFrom left c) := by
  induction left generalizing c with
  | zero => exact fun s => .done (t := { s with rc := _ }) 0 (.quiet rfl rfl rfl rfl rfl rfl rfl)
  | succ left ih => exact fun s => .bind (engineOp_rcByte s) (fun v => ih _) rfl

theorem engineOp_rcInitFirst (v : Nat) : EngineOp (rcInitFirst v) := fun s =>
  .ite (fun _ => engineOp_raise .data s) fun _ => engineOp_rcInitFrom 4 0 s

theorem engineOp_rcInit : EngineOp rcInit := fun s => .bind (engineOp_rcByte s) engineOp_rcInitFirst rfl

theorem engineOp_keep (v : Nat) : EngineOp (keep v) := fun s =>
  .done (t := { s with ret := .num v }) v (.quiet rfl rfl rfl rfl rfl rfl rfl)

/-! ## Stage 2 and the dictionary -/

theorem engineOp_outBytes (left k n : Nat) : EngineOp (outBytes left k n) := by
  induction left generalizing k with
  | zero => exact fun s => .done (t := s.outDone n) 0 (.quiet rfl rfl rfl rfl rfl rfl rfl)
  | succ left ih => exact fun s => .bind (engineOp_deliver _ s) (fun _ => ih _) rfl

theorem engineOp_outByte (b : Byte) : EngineOp (outByte b) := by
  intro s
  have hc : ∀ bs n, (s.supply bs n).cfg = s.cfg := fun _ _ => rfl
  unfold outByte
  simp only [hc]
  cases s.cfg.bcjArch with
  | none => exact engineOp_deliver b s
  | some id =>
    simp only
    cases archOfId id with
    | none => exact .stop _
    | some arch =>
      exact .after (t := (s.filtered arch b).1) (.quiet rfl rfl rfl rfl rfl rfl rfl) (engineOp_outBytes _ _ _ _)

theorem engineOp_dictPut (b : Byte) : EngineOp (dictPut b) := fun s =>
  .after (t := { s with dict := s.dict.put b }) (.quiet rfl rfl rfl rfl rfl rfl rfl) (engineOp_outByte b _)

theorem engineOp_repeatLoop (dist : Word32) (fuel : Nat) : EngineOp (repeatLoop dist fuel) := by
  induction fuel with
  | zero => exact engineOp_done _
  | succ fuel ih =>
    exact fun s => .ite
      (fun _ => .bind (engineOp_dictPut _ s)
        (fun _ t => .after (t := t.countCopy) (.quiet rfl rfl rfl rfl rfl rfl rfl) (ih _)) rfl)
      fun _ => .done 0 (.refl s)

theorem engineOp_dictRepeat (dist : Word32) : EngineOp (dictRepeat dist) := fun s =>
  .ite (fun _ => engineOp_raise .data s) fun _ => engineOp_repeatLoop dist s.lz.len s

/-! ## Packets -/

theorem engineOp_litByte (v : Nat) : EngineOp (litByte v) := fun s =>
  .bind (engineOp_dictPut _ s) (fun _ t => .done (t := t.literalDone) 0 (.quiet rfl rfl rfl rfl rfl rfl rfl)) rfl

theorem engineOp_lzLit : EngineOp lzLit := fun s => .bind (engineOp_rcTree _ _ s) engineOp_litByte rfl

theorem engineOp_mlitFrom (c left : Nat) (mbyte offset sym : Word32) : EngineOp (mlitFrom c left mbyte offset sym) := by
  induction left generalizing mbyte offset sym with
  | zero => exact engineOp_litByte _
  | succ left ih =>
    exact fun s => .bind (engineOp_rcBit _ s) (fun b t => .ite (fun _ => ih _ _ _ t) fun _ => ih _ _ _ t) rfl

theorem engineOp_lzMlit : EngineOp lzMlit := fun s => engineOp_mlitFrom s.litCtx 8 _ _ _ s

theorem engineOp_lenChoice2 (l : LenCoder) (b : Nat) : EngineOp (lenChoice2 l b) := fun s =>
  .ite
    (fun _ => .bind (engineOp_rcTree _ _ s)
      (fun t u => .done (t := lenMid (.ofNat 3 t) u) 0 (.quiet rfl rfl rfl rfl rfl rfl rfl)) rfl)
    fun _ => .bind (engineOp_rcTree _ _ s)
      (fun t u => .done (t := lenHigh (.ofNat 8 t) u) 0 (.quiet rfl rfl rfl rfl rfl rfl rfl)) rfl

theorem engineOp_lenChoice (l : LenCoder) (b : Nat) : EngineOp (lenChoice l b) := fun s =>
  .ite
    (fun _ => .bind (engineOp_rcTree _ _ s)
      (fun t u => .done (t := lenLow (.ofNat 3 t) u) 0 (.quiet rfl rfl rfl rfl rfl rfl rfl)) rfl)
    fun _ => .bind (engineOp_rcBit _ s) (engineOp_lenChoice2 l) rfl

theorem engineOp_lzLen (l : LenCoder) : EngineOp (lzLen l) := fun s =>
  .bind (engineOp_rcBit _ s) (engineOp_lenChoice l) rfl

theorem engineOp_distDirect (slot x : Nat) : EngineOp (distDirect slot x) := fun s =>
  .bind (engineOp_rcTreeRev _ _ s)
    (fun a u => .done (t := distSlot14To63 slot x a u) 0 (.quiet rfl rfl rfl rfl rfl rfl rfl)) rfl

theorem engineOp_distSlot (slot : Nat) : EngineOp (distSlot slot) := fun s =>
  .ite (fun _ => .done (t := distSlot0To3 slot s) 0 (.quiet rfl rfl rfl rfl rfl rfl rfl)) fun _ =>
    .ite
      (fun _ => .bind (engineOp_rcTreeRev _ _ s)
        (fun t u => .done (t := distSlot4To13 slot t u) 0 (.quiet rfl rfl rfl rfl rfl rfl rfl)) rfl)
      fun _ => .bind (engineOp_rcDirect _ s) (engineOp_distDirect slot) rfl

theorem engineOp_lzDist : EngineOp lzDist := fun s => .bind (engineOp_rcTree _ _ s) engineOp_distSlot rfl

theorem engineOp_copyMatch : EngineOp copyMatch := fun s => engineOp_dictRepeat s.lz.rep0 s

theorem engineOp_matchDist : EngineOp matchDist := fun s => .bind (engineOp_lzDist s) (fun _ => engineOp_copyMatch) rfl

theorem engineOp_lzMatch : EngineOp lzMatch := fun s =>
  .after (t := s.matchStart) (.quiet rfl rfl rfl rfl rfl rfl rfl)
    (.bind (engineOp_lzLen _ _) (fun _ => engineOp_matchDist) rfl)

theorem engineOp_lzShortRep : EngineOp lzShortRep := fun s =>
  .after (t := s.shortRepStart) (.quiet rfl rfl rfl rfl rfl rfl rfl) (engineOp_copyMatch _)

theorem engineOp_lzLongRep (n : Nat) : EngineOp (lzLongRep n) := fun s =>
  .after (t := s.longRepStart n) (.quiet rfl rfl rfl rfl rfl rfl rfl)
    (.bind (engineOp_lzLen _ _) (fun _ => engineOp_copyMatch) rfl)

theorem engineOp_afterIsRep2 (b : Nat) : EngineOp (afterIsRep2 b) := fun s =>
  .ite (fun _ => engineOp_lzLongRep 2 s) fun _ => engineOp_lzLongRep 3 s

theorem engineOp_afterIsRep1 (b : Nat) : EngineOp (afterIsRep1 b) := fun s =>
  .ite (fun _ => engineOp_lzLongRep 1 s) fun _ => .bind (engineOp_rcBit _ s) engineOp_afterIsRep2 rfl

theorem engineOp_afterIsRep0Long (b : Nat) : EngineOp (afterIsRep0Long b) := fun s =>
  .ite (fun _ => engineOp_lzShortRep s) fun _ => engineOp_lzLongRep 0 s

theorem engineOp_afterIsRep0 (b : Nat) : EngineOp (afterIsRep0 b) := fun s =>
  .ite (fun _ => .bind (engineOp_rcBit _ s) engineOp_afterIsRep0Long rfl) fun _ =>
    .bind (engineOp_rcBit _ s) engineOp_afterIsRep1 rfl

theorem engineOp_afterIsRep (b : Nat) : EngineOp (afterIsRep b) := fun s =>
  .ite (fun _ => engineOp_lzMatch s) fun _ => .bind (engineOp_rcBit _ s) engineOp_afterIsRep0 rfl

theorem engineOp_afterIsMatch (b : Nat) : EngineOp (afterIsMatch b) := fun s =>
  .ite (fun _ => .ite (fun _ => engineOp_lzLit s) fun _ => engineOp_lzMlit s) fun _ =>
    .bind (engineOp_rcBit _ s) engineOp_afterIsRep rfl

theorem engineOp_lzPacket : EngineOp lzPacket := fun s => .bind (engineOp_rcBit _ s) engineOp_afterIsMatch rfl

/-! ## Chunks -/

theorem engineOp_flushBytes (l : List Byte) : EngineOp (flushBytes l) := by
  induction l with
  | nil => exact fun s => .done (t := { s with bcj := _ }) 0 (.quiet rfl rfl rfl rfl rfl rfl rfl)
  | cons b l ih =>
    exact fun s => .bind (engineOp_deliver b s)
      (fun _ t => .after (t := { t with bcj := { t.bcj with carry := l } }) (.quiet rfl rfl rfl rfl rfl rfl rfl) (ih _)) rfl

theorem engineOp_bcjFlush : EngineOp bcjFlush := fun s => engineOp_flushBytes s.bcj.carry s

theorem engineOp_l2End : EngineOp l2End := fun s =>
  .bind (engineOp_bcjFlush s)
    (fun _ t => .done (t := { t with status := .streamEnd }) 0 (.quiet rfl rfl rfl rfl rfl rfl rfl)) rfl

theorem engineOp_lzmaControlByte (c : Byte) : EngineOp (lzmaControlByte c) := by
  intro s
  let t : State := { s with sq := { s.sq with uncLeft := (c &&& 0x1F).toNat <<< 16, seq := .uncompressed1 } }
  refine .after (t := t) (.quiet rfl rfl rfl rfl rfl rfl rfl) ?_
  refine .ite
    (fun _ => .done (t := { t with sq := { t.sq with needProps := false, nextSeq := .properties } }) 0
      (.quiet rfl rfl rfl rfl rfl rfl rfl))
    fun _ => .ite (fun _ => engineOp_raise .data t) fun _ => ?_
  refine ⟨?_, fun bs n _ => ?_⟩
  · show Moves t (if 0xA0 ≤ c.toNat then _ else _)
    split <;> exact .quiet rfl rfl rfl rfl rfl rfl rfl
  · simp only [Res.supplied]
    split <;> rfl

theorem engineOp_chunkControlByte (c : Byte) : EngineOp (chunkControlByte c) := fun s =>
  .ite (fun _ => engineOp_lzmaControlByte c s) fun _ =>
    .ite (fun _ => engineOp_raise .data s) fun _ =>
      .done (t := { s with sq := { s.sq with seq := .compressed1, nextSeq := .copy } }) 0
        (.quiet rfl rfl rfl rfl rfl rfl rfl)

theorem engineOp_controlByte (c : Byte) : EngineOp (controlByte c) := fun s =>
  .ite (fun _ => engineOp_l2End s) fun _ =>
    .ite
      (fun _ => .after (t := { s with sq := s.sq.dictResetFlags, dict := s.dict.restart })
        (.quiet rfl rfl rfl rfl rfl rfl rfl) (engineOp_chunkControlByte c _))
      fun _ => .ite (fun _ => engineOp_raise .data s) fun _ => engineOp_chunkControlByte c s

theorem engineOp_control : EngineOp control := fun s =>
  .bind (engineOp_inByte s) (fun _ => engineOp_controlByte _) rfl

theorem engineOp_header (h : HeaderByte) : EngineOp (header h) := fun s =>
  .bind (engineOp_inByte s)
    (fun x t => .done (t := { t with sq := t.sq.headerByte x h }) 0 (.quiet rfl rfl rfl rfl rfl rfl rfl)) rfl

theorem engineOp_propsByte (v : Byte) : EngineOp (propsByte v) := fun s =>
  .ite (fun _ => engineOp_raise .data s) fun _ =>
    .after (t := s.setProps v) (.quiet rfl rfl rfl rfl rfl rfl rfl) <|
      .ite (fun _ => engineOp_raise .data _) fun _ =>
        .done (t := { (s.setProps v).lzmaStateReset with
          sq := { (s.setProps v).lzmaStateReset.sq with seq := .lzmaPrepare } }) 0 (.quiet rfl rfl rfl rfl rfl rfl rfl)

theorem engineOp_properties : EngineOp properties := fun s =>
  .bind (engineOp_inByte s) (fun _ => engineOp_propsByte _) rfl

theorem engineOp_prepare : EngineOp prepare := fun s =>
  .ite (fun _ => engineOp_raise .data s) fun _ =>
    .bind (engineOp_rcInit s)
      (fun _ t => .done (t := { t with sq := { t.sq with seq := .lzmaRun } }) 0 (.quiet rfl rfl rfl rfl rfl rfl rfl)) rfl

theorem engineOp_chunkEnd : EngineOp chunkEnd := fun s =>
  .ite (fun _ => engineOp_raise .data s) fun _ =>
    .done (t := { s with rc := .idle, sq := { s.sq with seq := .control } }) 0 (.quiet rfl rfl rfl rfl rfl rfl rfl)

theorem engineOp_runLoop (fuel : Nat) : EngineOp (runLoop fuel) := by
  induction fuel with
  | zero => exact engineOp_done _
  | succ fuel ih =>
    exact fun s => .ite (fun _ => .bind (engineOp_lzPacket s) (fun _ => ih) rfl) fun _ => engineOp_chunkEnd s

theorem engineOp_run : EngineOp run := fun s => engineOp_runLoop _ s

theorem engineOp_copyLoop (fuel : Nat) : EngineOp (copyLoop fuel) := by
  induction fuel with
  | zero => exact engineOp_done _
  | succ fuel ih =>
    exact fun s => .ite
      (fun _ => .bind (engineOp_inByte s)
        (fun b t => .bind (engineOp_dictPut _ t)
          (fun _ u => .after (t := u.countByte) (.quiet rfl rfl rfl rfl rfl rfl rfl) (ih _)) rfl) rfl)
      fun _ => .done 0 (.refl s)

theorem engineOp_copy : EngineOp copy := fun s =>
  .bind (engineOp_copyLoop _ s)
    (fun _ t => .done (t := { t with sq := { t.sq with seq := .control } }) 0 (.quiet rfl rfl rfl rfl rfl rfl rfl)) rfl

/-! ## Resumption -/

/-- Every continuation is an engine operation. -/
theorem engineOp_resumeFrame (fr : Frame) (v : Nat) : EngineOp (resumeFrame fr v) := by
  cases fr with
  | rcByte => exact fun t => .done (t := t.countByte) v (.quiet rfl rfl rfl rfl rfl rfl rfl)
  | rcNorm => exact fun t => .done (t := t.shiftIn v) 0 (.quiet rfl rfl rfl rfl rfl rfl rfl)
  | rcBit bit => exact engineOp_done bit
  | rcInitFirst => exact engineOp_rcInitFirst v
  | rcInitNext left c => exact engineOp_rcInitFrom left _
  | rcTree base n left sym => exact engineOp_rcTreeFrom base n left _
  | rcTreeRev base left k sym w => exact engineOp_rcTreeRevFrom base left _ _ _
  | rcDirect left w => exact engineOp_rcDirectFrom left w
  | ret => exact engineOp_keep v
  | isMatch => exact engineOp_afterIsMatch v
  | isRep => exact engineOp_afterIsRep v
  | isRep0 => exact engineOp_afterIsRep0 v
  | isRep0Long => exact engineOp_afterIsRep0Long v
  | isRep1 => exact engineOp_afterIsRep1 v
  | isRep2 => exact engineOp_afterIsRep2 v
  | litByte => exact engineOp_litByte v
  | litPut => exact fun t => .done (t := t.literalDone) 0 (.quiet rfl rfl rfl rfl rfl rfl rfl)
  | mlit c left mbyte matchBit offset sym =>
    exact fun t => .ite (fun _ => engineOp_mlitFrom _ _ _ _ _ t) fun _ => engineOp_mlitFrom _ _ _ _ _ t
  | lenChoice l => exact engineOp_lenChoice l v
  | lenChoice2 l => exact engineOp_lenChoice2 l v
  | lenLow => exact fun u => .done (t := lenLow (.ofNat 3 v) u) 0 (.quiet rfl rfl rfl rfl rfl rfl rfl)
  | lenMid => exact fun u => .done (t := lenMid (.ofNat 3 v) u) 0 (.quiet rfl rfl rfl rfl rfl rfl rfl)
  | lenHigh => exact fun u => .done (t := lenHigh (.ofNat 8 v) u) 0 (.quiet rfl rfl rfl rfl rfl rfl rfl)
  | distSlot => exact engineOp_distSlot v
  | distSpecial slot => exact fun u => .done (t := distSlot4To13 slot v u) 0 (.quiet rfl rfl rfl rfl rfl rfl rfl)
  | distDirect slot => exact engineOp_distDirect slot v
  | distAlign slot x => exact fun u => .done (t := distSlot14To63 slot x v u) 0 (.quiet rfl rfl rfl rfl rfl rfl rfl)
  | matchLen => exact engineOp_matchDist
  | copyMatch => exact engineOp_copyMatch
  | repeatPut dist fuel =>
    exact fun t => .after (t := t.countCopy) (.quiet rfl rfl rfl rfl rfl rfl rfl) (engineOp_repeatLoop dist fuel _)
  | control => exact engineOp_controlByte _
  | header h => exact fun t => .done (t := { t with sq := t.sq.headerByte v h }) 0 (.quiet rfl rfl rfl rfl rfl rfl rfl)
  | properties => exact engineOp_propsByte _
  | prepare => exact fun t => .done (t := { t with sq := { t.sq with seq := .lzmaRun } }) 0 (.quiet rfl rfl rfl rfl rfl rfl rfl)
  | run fuel => exact engineOp_runLoop fuel
  | copyRead fuel =>
    exact fun t => .bind (engineOp_dictPut _ t)
      (fun _ u => .after (t := u.countByte) (.quiet rfl rfl rfl rfl rfl rfl rfl) (engineOp_copyLoop fuel _)) rfl
  | copyPut fuel =>
    exact fun t => .after (t := t.countByte) (.quiet rfl rfl rfl rfl rfl rfl rfl) (engineOp_copyLoop fuel _)
  | copyDone =>
    exact fun t => .done (t := { t with sq := { t.sq with seq := .control } }) 0 (.quiet rfl rfl rfl rfl rfl rfl rfl)
  | outByte left k n => exact engineOp_outBytes left k n
  | flush rest =>
    exact fun t => .after (t := { t with bcj := { t.bcj with carry := rest } }) (.quiet rfl rfl rfl rfl rfl rfl rfl)
      (engineOp_flushBytes rest _)
  | endMark => exact fun t => .done (t := { t with status := .streamEnd }) 0 (.quiet rfl rfl rfl rfl rfl rfl rfl)

/-- The callers of an operation, one after the other. -/
theorem EndsAt.resumeFrames {s : State} {a : Res} {b : List Byte → Nat → Res} (h : EndsAt s a b) (k : List Frame) :
    EndsAt s (resumeFrames k a) fun bs n => resumeFrames k (b bs n) := by
  induction k generalizing a b with
  | nil => exact h
  | cons fr k ih => exact ih (h.bind (engineOp_resumeFrame fr) rfl)

/-- A resumed operation, whatever its callers, is an engine operation. -/
theorem engineOp_resume (w : Suspension) : EngineOp (resume w) := fun s =>
  (engineOp_runPrim w.prim s).resumeFrames w.frames

/-- What the sequencer can run is an engine operation. -/
theorem exec_seqInstr (q : Seq) : ∃ f, EngineOp f ∧ ∀ s, exec (seqInstr q) s = finish (f s) := by
  cases q
  · exact ⟨control, engineOp_control, fun _ => rfl⟩
  · exact ⟨header .uncompressed1, engineOp_header _, fun _ => rfl⟩
  · exact ⟨header .uncompressed2, engineOp_header _, fun _ => rfl⟩
  · exact ⟨header .compressed1, engineOp_header _, fun _ => rfl⟩
  · exact ⟨header .compressed2, engineOp_header _, fun _ => rfl⟩
  · exact ⟨properties, engineOp_properties, fun _ => rfl⟩
  · exact ⟨prepare, engineOp_prepare, fun _ => rfl⟩
  · exact ⟨run, engineOp_run, fun _ => rfl⟩
  · exact ⟨copy, engineOp_copy, fun _ => rfl⟩

end Sys2Proof.Machine
end

