-- ==== Sys2Proof/Laws/Coding.lean ====
section
/-! SUPPORT. What the range coder, the lengths and the distances can do from a state whose cells and `range` are as R81 says,
said once for each operation: it stops on no cell of `P`, keeps both, changes only what its frame names, and waits only in
the byte source, below the callers that Waits lists. -/

namespace Sys2Proof.Machine

/-! ## How an operation ends -/

/-- Where an operation returns, where it waits, and where it raises an error; it does not stop. -/
def Res.Ends (D : Nat → State → Prop) (W : Prim → List Frame → State → Prop) (F : State → Prop) : Res → Prop
  | .done v t => D v t
  | .hold p k t => W p k t
  | .fail t => F t
  | .stop _ => False

namespace Res.Ends

variable {D D' : Nat → State → Prop} {W W' : Prim → List Frame → State → Prop} {F F' : State → Prop} {r : Res}

/-- A call. -/
theorem bind {fr : Frame} {f : Nat → State → Res} (h : r.Ends D W F) (hf : ∀ v t, D v t → (f v t).Ends D' W' F')
    (hw : ∀ p k t, W p k t → W' p (k ++ [fr]) t) (he : ∀ t, F t → F' t) : (r.bind fr f).Ends D' W' F' := by
  cases r with
  | done v t => exact hf v t h
  | hold p k t => exact hw p k t h
  | fail t => exact he t h
  | stop x => exact h.elim

theorem mono (h : r.Ends D W F) (hd : ∀ v t, D v t → D' v t) (hw : ∀ p k t, W p k t → W' p k t)
    (he : ∀ t, F t → F' t) : r.Ends D' W' F' := by
  cases r with
  | done v t => exact hd v t h
  | hold p k t => exact hw p k t h
  | fail t => exact he t h
  | stop x => exact h.elim

/-- An operation that does not stop answers a next state. -/
theorem finish (h : r.Ends D W F) : ∃ t, Machine.finish r = .next t ∧
    ((∃ v, D v t) ∨ (∃ p k u, W p k u ∧ t = u.suspend p k) ∨ F t) := by
  cases r with
  | done v t => exact ⟨t, rfl, .inl ⟨v, h⟩⟩
  | hold p k t => exact ⟨_, rfl, .inr (.inl ⟨p, k, t, h, rfl⟩)⟩
  | fail t => exact ⟨t, rfl, .inr (.inr h)⟩
  | stop x => exact h.elim

end Res.Ends

/-! ## What decoding needs, and what it leaves alone -/

/-- A cell is as R81 says. -/
def Prob.InRange (p : Prob) : Prop := 31 ≤ p.toNat ∧ p.toNat ≤ 2017

/-- The cells and `range` are as R81 says. -/
structure State.Coding (s : State) : Prop where
  wf : s.probs.wf = true
  cells : ∀ i, Prob.InRange (s.probs.read i)
  rangeHigh : 2 ^ 24 ≤ s.rc.range.toNat

/-- Only `range`, `code`, `P`, the unread input and `comp_left` differ. -/
def CodeFrame (s t : State) : Prop :=
  t = { s with rc := t.rc, probs := t.probs, io := { s.io with input := t.io.input },
               sq := { s.sq with compLeft := t.sq.compLeft } }

namespace CodeFrame

variable {s t u : State}

theorem refl (s : State) : CodeFrame s s := rfl

theorem trans (h : CodeFrame s t) (k : CodeFrame t u) : CodeFrame s u := by
  unfold CodeFrame at *
  rw [k, h]

theorem lz (h : CodeFrame s t) : t.lz = s.lz := by rw [h]
theorem dict (h : CodeFrame s t) : t.dict = s.dict := by rw [h]
theorem bcj (h : CodeFrame s t) : t.bcj = s.bcj := by rw [h]
theorem cfg (h : CodeFrame s t) : t.cfg = s.cfg := by rw [h]
theorem status (h : CodeFrame s t) : t.status = s.status := by rw [h]
theorem susp (h : CodeFrame s t) : t.susp = s.susp := by rw [h]
theorem seq (h : CodeFrame s t) : t.sq.seq = s.sq.seq := by rw [h]
theorem nextSeq (h : CodeFrame s t) : t.sq.nextSeq = s.sq.nextSeq := by rw [h]
theorem uncLeft (h : CodeFrame s t) : t.sq.uncLeft = s.sq.uncLeft := by rw [h]
theorem needProps (h : CodeFrame s t) : t.sq.needProps = s.sq.needProps := by rw [h]

end CodeFrame

/-- A relation that says what an operation leaves alone. -/
structure Framing (R : State → State → Prop) : Prop where
  refl : ∀ s, R s s
  trans : ∀ {s t u}, R s t → R t u → R s u

theorem codeFraming : Framing CodeFrame := ⟨.refl, .trans⟩

/-! ## The arithmetic of R81 -/

theorem rcBound_toNat (r : RangeCoder) (p : Prob) : (rcBound r p).toNat = r.range.toNat / 2048 * p.toNat := by
  have h1 := r.range.isLt
  have h2 := p.isLt
  have h3 : r.range.toNat / 2048 ≤ 2 ^ 21 - 1 := by omega
  have h4 : r.range.toNat / 2048 * p.toNat ≤ (2 ^ 21 - 1) * 2047 := Nat.mul_le_mul h3 (by omega)
  simp only [rcBound, BitVec.toNat_mul, BitVec.toNat_ushiftRight, BitVec.toNat_setWidth, Nat.shiftRight_eq_div_pow,
    show 2 ^ 11 = 2048 from rfl]
  rw [Nat.mod_eq_of_lt (a := p.toNat) (by omega), Nat.mod_eq_of_lt (by omega)]

/-- The two parts of `range` are both at least 2^16, so one shift by 8 is enough. -/
theorem rcBound_parts {r : RangeCoder} {p : Prob} (hr : 2 ^ 24 ≤ r.range.toNat) (hp : Prob.InRange p) :
    2 ^ 16 ≤ (rcBound r p).toNat ∧ (rcBound r p).toNat < r.range.toNat ∧
      2 ^ 16 ≤ (r.range - rcBound r p).toNat := by
  have hb := rcBound_toNat r p
  have h1 : r.range.toNat / 2048 * 31 ≤ r.range.toNat / 2048 * p.toNat := Nat.mul_le_mul_left _ hp.1
  have h2 : r.range.toNat / 2048 * p.toNat ≤ r.range.toNat / 2048 * 2017 := Nat.mul_le_mul_left _ hp.2
  rw [BitVec.toNat_sub_of_le (BitVec.le_def.mpr (by omega))]
  omega

theorem probAfter0_inRange {p : Prob} (h : Prob.InRange p) : Prob.InRange (probAfter0 p) := by
  obtain ⟨h1, h2⟩ := h
  simp only [probAfter0, Prob.InRange, BitVec.toNat_ofNat]
  rw [Nat.mod_eq_of_lt (by omega)]
  omega

theorem probAfter1_inRange {p : Prob} (h : Prob.InRange p) : Prob.InRange (probAfter1 p) := by
  obtain ⟨h1, h2⟩ := h
  have hs : (p >>> 5).toNat = p.toNat / 32 := by simp [Nat.shiftRight_eq_div_pow]
  have hle : (p >>> 5) ≤ p := BitVec.le_def.mpr (by omega)
  simp only [probAfter1, Prob.InRange, BitVec.toNat_sub_of_le hle, hs]
  omega

theorem cells_write {m : Probs} (hm : m.wf = true) (h : ∀ i, Prob.InRange (m.read i)) (i : Nat) {p : Prob}
    (hp : Prob.InRange p) (j : Nat) : Prob.InRange ((m.write i p).read j) := by
  by_cases hj : j = i
  · rw [hj, Probs.read_write_same hm]
    exact hp
  · rw [Probs.read_write_other hm p hj]
    exact h j

/-! ## Operations of the range coder -/

/-- The state in which an error was raised. -/
def CodeFails (R : State → State → Prop) (s t : State) : Prop := ∃ u k, R s u ∧ t = u.raised k

/-- A wait of the range coder below callers: everything before the missing byte is done (R85). -/
def CodeWait (R : State → State → Prop) (s : State) (C : List Frame → Prop) (p : Prim) (k : List Frame) (t : State) : Prop :=
  p = .inByte ∧ (∃ c, k = .rcByte :: .rcNorm :: c ∧ C c) ∧ R s t ∧ t.Coding

/-- How an operation of the range coder ends: it returns a value that has `V`, or waits below callers that have `C`, with
cells and `range` as R81 says, or raises an error; `R` says what it leaves alone. -/
def Codes (R : State → State → Prop) (s : State) (V : Nat → Prop) (C : List Frame → Prop) (r : Res) : Prop :=
  r.Ends (fun v t => V v ∧ R s t ∧ t.Coding) (CodeWait R s C) (CodeFails R s)

namespace Codes

variable {R R' : State → State → Prop} {s t : State} {V V' : Nat → Prop} {C C' : List Frame → Prop} {r : Res}

theorem done {v : Nat} (hv : V v) (hr : R s t) (h : t.Coding) : Codes R s V C (.done v t) := ⟨hv, hr, h⟩

theorem mono (h : Codes R s V C r) (hR : ∀ t, R s t → R' s t) (hV : ∀ v, V v → V' v) (hC : ∀ l, C l → C' l) :
    Codes R' s V' C' r :=
  Res.Ends.mono h (fun v t ⟨a, b, c⟩ => ⟨hV v a, hR t b, c⟩)
    (fun _ _ t ⟨a, ⟨l, hk, hl⟩, b, c⟩ => ⟨a, ⟨l, hk, hC l hl⟩, hR t b, c⟩) fun _ ⟨u, k, a, b⟩ => ⟨u, k, hR u a, b⟩

/-- A change that `R` allows comes first. -/
theorem after (hR : Framing R) (ht : R s t) (h : Codes R t V C r) : Codes R s V C r :=
  Res.Ends.mono h (fun _ _ ⟨a, b, c⟩ => ⟨a, hR.trans ht b, c⟩) (fun _ _ _ ⟨a, l, b, c⟩ => ⟨a, l, hR.trans ht b, c⟩)
    fun _ ⟨u, k, a, b⟩ => ⟨u, k, hR.trans ht a, b⟩

/-- A call: the waits of the callee are waits of the caller at `fr`. -/
theorem bind {fr : Frame} {f : Nat → State → Res} (hR : Framing R) (h : Codes R s V C r)
    (hf : ∀ v t, V v → R s t → t.Coding → Codes R t V' C' (f v t)) (hC : ∀ l, C l → C' (l ++ [fr])) :
    Codes R s V' C' (r.bind fr f) :=
  Res.Ends.bind h (fun v t ⟨hv, ht, hk⟩ => Codes.after hR ht (hf v t hv ht hk))
    (fun _ _ _ ⟨a, ⟨l, hk, hl⟩, b⟩ => ⟨a, ⟨l ++ [fr], by simp [hk], hC l hl⟩, b⟩) fun _ => id

end Codes

theorem rcByte_ends (s : State) :
    (rcByte s).Ends (fun v t => v < 256 ∧ CodeFrame s t ∧ t.rc = s.rc ∧ t.probs = s.probs)
      (fun p k t => p = .inByte ∧ k = [.rcByte] ∧ t = s) (CodeFails CodeFrame s) := by
  unfold rcByte
  split
  · exact ⟨s, .data, .refl s, rfl⟩
  · rcases inByte_cases s with ⟨b, r, hi, he⟩ | ⟨hi, hn, he⟩ | ⟨hi, hn, he⟩
    · rw [he]
      exact ⟨b.isLt, rfl, rfl, rfl⟩
    · rw [he]
      exact ⟨s, .buf, .refl s, rfl⟩
    · rw [he]
      exact ⟨rfl, rfl, rfl⟩

theorem rcNorm_codes {s : State} (hw : s.probs.wf = true) (hc : ∀ i, Prob.InRange (s.probs.read i))
    (hr : 2 ^ 16 ≤ s.rc.range.toNat) : Codes CodeFrame s (· = 0) (· = []) (rcNorm s) := by
  unfold rcNorm
  split
  · next hlt =>
    have hl : s.rc.range.toNat < 2 ^ 24 := hlt
    have hs : (s.rc.range <<< 8).toNat = s.rc.range.toNat * 256 := by
      rw [BitVec.toNat_shiftLeft, Nat.shiftLeft_eq]
      omega
    have h0 : CodeFrame s { s with rc := { s.rc with range := s.rc.range <<< 8 } } := rfl
    refine Res.Ends.bind (rcByte_ends _) ?_ ?_ ?_
    · rintro v t ⟨-, hf, hrc, hp⟩
      exact ⟨rfl, h0.trans (hf.trans rfl), by simpa [State.shiftIn, hp] using hw, by simpa [State.shiftIn, hp] using hc, by
        simp only [State.shiftIn, hrc, hs]
        omega⟩
    · rintro p k t ⟨hp, hk, rfl⟩
      exact ⟨hp, ⟨[], by simp [hk], rfl⟩, rfl, hw, hc, by simp only [hs]; omega⟩
    · rintro t ⟨u, k, hu, rfl⟩
      exact ⟨u, k, h0.trans hu, rfl⟩
  · next hge => exact .done rfl rfl ⟨hw, hc, Nat.le_of_not_lt hge⟩

/-! ## One bit -/

/-- What RC_BIT does before its normalization. -/
theorem decideBit_codes {s : State} (h : s.Coding) (i : Nat) :
    (s.decideBit i).1 < 2 ∧ CodeFrame s (s.decideBit i).2 ∧ (s.decideBit i).2.probs.wf = true ∧
      (∀ j, Prob.InRange ((s.decideBit i).2.probs.read j)) ∧ 2 ^ 16 ≤ (s.decideBit i).2.rc.range.toNat := by
  obtain ⟨hb, -, hd⟩ := rcBound_parts h.rangeHigh (h.cells i)
  unfold State.decideBit
  dsimp only
  split
  · exact ⟨by simp, rfl, Probs.write_wf h.wf _ _, cells_write h.wf h.cells i (probAfter0_inRange (h.cells i)), hb⟩
  · exact ⟨by simp, rfl, Probs.write_wf h.wf _ _, cells_write h.wf h.cells i (probAfter1_inRange (h.cells i)), hd⟩

/-- A wait after a decided bit. -/
def BitWait (c : List Frame) : Prop := ∃ b, b < 2 ∧ c = [.rcBit b]

theorem rcBit_codes {s : State} (h : s.Coding) {i : Nat} (hi : i < Config.probCells) :
    Codes CodeFrame s (· < 2) BitWait (rcBit i s) := by
  obtain ⟨hv, hf, hw, hc, hr⟩ := decideBit_codes h i
  unfold rcBit
  rw [if_pos hi]
  exact .after codeFraming hf ((rcNorm_codes hw hc hr).bind codeFraming (fun _ _ _ _ ht => .done hv rfl ht) (by
    rintro l rfl
    exact ⟨_, hv, rfl⟩))

theorem decideDirect_codes {s : State} (h : s.Coding) :
    s.decideDirect.1 < 2 ∧ CodeFrame s s.decideDirect.2 ∧ s.decideDirect.2.probs = s.probs ∧
      2 ^ 16 ≤ s.decideDirect.2.rc.range.toNat := by
  have hr := h.rangeHigh
  have hs : (s.rc.range >>> 1).toNat = s.rc.range.toNat / 2 := by simp [Nat.shiftRight_eq_div_pow]
  unfold State.decideDirect
  dsimp only
  split <;> exact ⟨by simp, rfl, rfl, by simp only [hs]; omega⟩

/-! ## Trees and direct bits -/

/-- A wait in a tree of `n` bits. -/
def TreeWait (n base : Nat) (c : List Frame) : Prop :=
  ∃ b left sym, b < 2 ∧ treeWait n base left sym ∧ c = [.rcBit b, .rcTree base n left sym]

theorem rcTreeFrom_codes {base n : Nat} (hb : base + 2 ^ n ≤ Config.probCells) {left : Nat} (hl : left ≤ n) {sym : Nat}
    (hs : sym < 2 ^ (n - left + 1)) {s : State} (h : s.Coding) :
    Codes CodeFrame s (· < 2 ^ n) (TreeWait n base) (rcTreeFrom base n left sym s) := by
  induction left generalizing sym s with
  | zero =>
    rw [Nat.sub_zero, Nat.pow_succ] at hs
    have := Nat.two_pow_pos n
    exact .done (by omega) rfl h
  | succ left ih =>
    have hp : 2 ^ (n - left) ≤ 2 ^ n := Nat.pow_le_pow_right (by omega) (by omega)
    have he : n - (left + 1) + 1 = n - left := by omega
    rw [he] at hs
    refine (rcBit_codes h (i := base + sym) (by omega)).bind codeFraming (fun b t hb2 _ ht => ih (by omega) ?_ ht) ?_
    · rw [Nat.pow_succ]
      omega
    · rintro l ⟨b, hb2, rfl⟩
      exact ⟨b, left, sym, hb2, ⟨by omega, hs, hb⟩, rfl⟩

theorem rcTree_codes {base n : Nat} (hb : base + 2 ^ n ≤ Config.probCells) {s : State} (h : s.Coding) :
    Codes CodeFrame s (· < 2 ^ n) (TreeWait n base) (rcTree base n s) :=
  rcTreeFrom_codes hb (Nat.le_refl n) (by simp) h

/-- A wait in a reverse tree. -/
def TreeRevWait (base : Nat) (c : List Frame) : Prop :=
  ∃ b left k sym v, b < 2 ∧ treeRevWait base left k sym ∧ c = [.rcBit b, .rcTreeRev base left k sym v]

theorem rcTreeRevFrom_codes {base left k : Nat} (hb : base + 2 ^ (k + left) ≤ Config.probCells) {sym : Nat}
    (hs : sym < 2 ^ (k + 1)) (v : Nat) {s : State} (h : s.Coding) :
    Codes CodeFrame s (fun _ => True) (TreeRevWait base) (rcTreeRevFrom base left k sym v s) := by
  induction left generalizing k sym v s with
  | zero => exact .done trivial rfl h
  | succ left ih =>
    have he : k + (left + 1) = k + 1 + left := by omega
    rw [he] at hb
    have hp : 2 ^ (k + 1) ≤ 2 ^ (k + 1 + left) := Nat.pow_le_pow_right (by omega) (by omega)
    refine (rcBit_codes h (i := base + sym) (by omega)).bind codeFraming (fun b t hb2 _ ht => ih hb ?_ _ ht) ?_
    · rw [Nat.pow_succ]
      omega
    · rintro l ⟨b, hb2, rfl⟩
      exact ⟨b, left, k, sym, v, hb2, ⟨hs, hb⟩, rfl⟩

theorem rcTreeRev_codes {base n : Nat} (hb : base + 2 ^ n ≤ Config.probCells) {s : State} (h : s.Coding) :
    Codes CodeFrame s (fun _ => True) (TreeRevWait base) (rcTreeRev base n s) :=
  rcTreeRevFrom_codes (by simpa using hb) (by simp) 0 h

/-- A wait in the direct bits. -/
def DirectWait (c : List Frame) : Prop := ∃ left v, c = [.rcDirect left v]

theorem rcDirectFrom_codes (left v : Nat) {s : State} (h : s.Coding) :
    Codes CodeFrame s (fun _ => True) DirectWait (rcDirectFrom left v s) := by
  induction left generalizing v s with
  | zero => exact .done trivial rfl h
  | succ left ih =>
    obtain ⟨-, hf, hp, hr⟩ := decideDirect_codes h
    refine .after codeFraming hf ((rcNorm_codes (by rw [hp]; exact h.wf) (by rw [hp]; exact h.cells) hr).bind codeFraming
      (fun _ _ _ _ ht => ih _ ht) ?_)
    rintro l rfl
    exact ⟨left, _, rfl⟩

theorem rcDirect_codes (n : Nat) {s : State} (h : s.Coding) :
    Codes CodeFrame s (fun _ => True) DirectWait (rcDirect n s) := rcDirectFrom_codes n 0 h

/-! ## Lengths and distances -/

/-- Beside what CodeFrame names, `len` and `rep0` may differ. -/
def SymbolFrame (s t : State) : Prop :=
  CodeFrame { s with lz := { s.lz with len := t.lz.len, rep0 := t.lz.rep0 } } t

theorem symbolFraming : Framing SymbolFrame where
  refl _ := rfl
  trans h k := by
    unfold SymbolFrame CodeFrame at *
    rw [k, h]

theorem CodeFrame.symbol {s t : State} (h : CodeFrame s t) : SymbolFrame s t := by
  unfold SymbolFrame
  rw [h.lz]
  exact h

theorem SymbolFrame.lz {s t : State} (h : SymbolFrame s t) :
    t.lz = { s.lz with len := t.lz.len, rep0 := t.lz.rep0 } := CodeFrame.lz h

theorem SymbolFrame.dict {s t : State} (h : SymbolFrame s t) : t.dict = s.dict :=
  CodeFrame.dict (s := { s with lz := { s.lz with len := t.lz.len, rep0 := t.lz.rep0 } }) h

theorem Coding.of_eq {s t : State} (h : s.Coding) (hp : t.probs = s.probs) (hr : t.rc = s.rc) : t.Coding :=
  ⟨by rw [hp]; exact h.wf, by rw [hp]; exact h.cells, by rw [hr]; exact h.rangeHigh⟩

theorem ps_lt {s : State} (h : s.lz.pb ≤ 4) : s.ps < 16 := by
  have h1 : s.ps ≤ s.lz.pbMask := Nat.and_le_right
  have h2 : 2 ^ s.lz.pb ≤ 2 ^ 4 := Nat.pow_le_pow_right (by omega) h
  have h3 := Nat.two_pow_pos s.lz.pb
  simp only [LzmaRegs.pbMask] at h1
  omega

/-- A wait in a length, below either of its callers. -/
def LenWait (c : List Frame) : Prop := ∀ k, LenCallers k → NormCallers (c ++ k)

/-- A tree of a length: its wait, and the length it gives. -/
theorem lenTree_codes {s : State} (h : s.Coding) {base n : Nat} (hb : base + 2 ^ n ≤ Config.probCells) (fr : Frame)
    (f : Nat → State → Nat)
    (hw : ∀ left sym, treeWait n base left sym → ∀ k, LenCallers k → BitCallers (.rcTree base n left sym :: fr :: k)) :
    Codes SymbolFrame s (fun _ => True) LenWait
      ((rcTree base n s).bind fr fun v t => .done 0 (t.setLen (f v t))) := by
  refine .bind symbolFraming ((rcTree_codes hb h).mono (fun _ => CodeFrame.symbol) (fun _ => id) fun _ => id) ?_ ?_
  · exact fun v t _ _ ht => .done trivial rfl (Coding.of_eq ht rfl rfl)
  · rintro l ⟨b, left, sym, hb2, ht, rfl⟩ k hk
    exact .bit hb2 (hw left sym ht k hk)

theorem lenChoice2_codes (l : LenCoder) (b : Nat) {s : State} (h : s.Coding) (hp : s.lz.pb ≤ 4) :
    Codes SymbolFrame s (fun _ => True) LenWait (lenChoice2 l b s) := by
  have hps := ps_lt hp
  have hl : lenBase l ≤ 1332 := by cases l <;> decide
  unfold lenChoice2
  split
  · exact lenTree_codes h (by simp only [midTree, Config.probCells]; omega) .lenMid (fun v _ => midLength (.ofNat 3 v))
      fun _ _ ht _ hk => .mid ht hk
  · exact lenTree_codes h (by simp only [highTree, Config.probCells]; omega) .lenHigh (fun v _ => highLength (.ofNat 8 v))
      fun _ _ ht _ hk => .high ht hk

theorem lenChoice_codes (l : LenCoder) (b : Nat) {s : State} (h : s.Coding) (hp : s.lz.pb ≤ 4) :
    Codes SymbolFrame s (fun _ => True) LenWait (lenChoice l b s) := by
  have hps := ps_lt hp
  have hl : lenBase l ≤ 1332 := by cases l <;> decide
  unfold lenChoice
  split
  · exact lenTree_codes h (by simp only [lowTree, Config.probCells]; omega) .lenLow (fun v _ => lowLength (.ofNat 3 v))
      fun _ _ ht _ hk => .low ht hk
  · refine .bind symbolFraming
      ((rcBit_codes h (by simp only [choice2Cell, Config.probCells]; omega)).mono (fun _ => CodeFrame.symbol) (fun _ => id)
        fun _ => id) ?_ ?_
    · exact fun v t _ ht hc => lenChoice2_codes l v hc (by rw [ht.lz]; exact hp)
    · rintro c ⟨b, hb, rfl⟩ k hk
      exact .bit hb (.choice2 l hk)

/-- LZ_LEN. -/
theorem lzLen_codes (l : LenCoder) {s : State} (h : s.Coding) (hp : s.lz.pb ≤ 4) :
    Codes SymbolFrame s (fun _ => True) LenWait (lzLen l s) := by
  have hl : lenBase l ≤ 1332 := by cases l <;> decide
  refine .bind symbolFraming
    ((rcBit_codes h (by simp only [choiceCell, Config.probCells]; omega)).mono (fun _ => CodeFrame.symbol) (fun _ => id)
      fun _ => id) ?_ ?_
  · exact fun v t _ ht hc => lenChoice_codes l v hc (by rw [ht.lz]; exact hp)
  · rintro c ⟨b, hb, rfl⟩ k hk
    exact .bit hb (.choice l hk)

/-- A wait in a distance. -/
def DistWait (c : List Frame) : Prop := ∀ fuel, NormCallers (c ++ [.copyMatch, .run fuel])

theorem slotBase_special {slot : Nat} (h4 : 4 ≤ slot) (h14 : slot < 14) :
    distSpecialTree slot + 2 ^ slotBits slot ≤ Config.probCells := by
  have : ∀ k : Fin 14, 4 ≤ k.val → distSpecialTree k + 2 ^ slotBits k ≤ Config.probCells := by decide
  exact this ⟨slot, h14⟩ h4

theorem distDirect_codes (slot x : Nat) {s : State} (h : s.Coding) :
    Codes SymbolFrame s (fun _ => True) DistWait (distDirect slot x s) := by
  refine .bind symbolFraming
    ((rcTreeRev_codes (by decide) h).mono (fun _ => CodeFrame.symbol) (fun _ => id) fun _ => id) ?_ ?_
  · exact fun v t _ _ ht => .done trivial rfl (Coding.of_eq ht rfl rfl)
  · rintro c ⟨b, left, k, sym, v, hb, ht, rfl⟩ fuel
    exact .bit hb (.align ht)

theorem distSlot_codes (slot : Nat) {s : State} (h : s.Coding) :
    Codes SymbolFrame s (fun _ => True) DistWait (distSlot slot s) := by
  unfold distSlot
  split
  · exact .done trivial rfl (Coding.of_eq h rfl rfl)
  · split
    · refine .bind symbolFraming
        ((rcTreeRev_codes (slotBase_special (by omega) (by omega)) h).mono (fun _ => CodeFrame.symbol) (fun _ => id)
          fun _ => id) ?_ ?_
      · exact fun v t _ _ ht => .done trivial rfl (Coding.of_eq ht rfl rfl)
      · rintro c ⟨b, left, k, sym, v, hb, ht, rfl⟩ fuel
        exact .bit hb (.special ht)
    · refine .bind symbolFraming
        ((rcDirect_codes _ h).mono (fun _ => CodeFrame.symbol) (fun _ => id) fun _ => id) ?_ ?_
      · exact fun v t _ _ ht => distDirect_codes slot v ht
      · rintro c ⟨left, v, rfl⟩ fuel
        exact .direct left v slot fuel

/-- LZ_DIST. -/
theorem lzDist_codes {s : State} (h : s.Coding) : Codes SymbolFrame s (fun _ => True) DistWait (lzDist s) := by
  have hd : s.distState ≤ 3 := Nat.min_le_right _ _
  refine .bind symbolFraming
    ((rcTree_codes (by simp only [distSlotTree, distSlotBase, Config.probCells]; omega) h).mono (fun _ => CodeFrame.symbol)
      (fun _ => id) fun _ => id) ?_ ?_
  · exact fun v t _ _ ht => distSlot_codes v ht
  · rintro c ⟨b, left, sym, hb, ht, rfl⟩ fuel
    exact .bit hb (.slot ht)

end Sys2Proof.Machine
end

