-- ==== Sys2Proof/Laws/Running.lean ====
section
/-! SUPPORT. What stage 2, the copies, the packets and RUN can do from a state of the coder's invariant, said once for each
operation: none stops, each returns to such a state, and each waits where Waits says. -/

namespace Sys2Proof.Machine

/-! ## What stage 2 holds (R117) -/

/-- A filter leaves at most the bound of its window unfinished. -/
theorem unitFilter_holds (size : Nat) (hs : 0 < size) (conv : Word32 → List Byte → List Byte) (pos mask : Word32)
    (buf : List Byte) : buf.length ≤ (unitFilter size conv pos mask buf).n + (size - 1) := by
  have h1 := Nat.div_add_mod buf.length size
  have h2 := Nat.mod_lt buf.length hs
  rw [Nat.mul_comm] at h1
  show buf.length ≤ buf.length / size * size + (size - 1)
  omega

theorem length_le_three {l : List Byte} (h : ∀ b0 b1 b2 b3 r, l = b0 :: b1 :: b2 :: b3 :: r → False) : l.length ≤ 3 := by
  match l with
  | [] | [_] | [_, _] | [_, _, _] => simp
  | b0 :: b1 :: b2 :: b3 :: r => exact (h b0 b1 b2 b3 r rfl).elim

theorem thumbScan_holds (pos : Word32) (l : List Byte) : l.length ≤ (thumbScan pos l).2 + 3 := by
  induction pos, l using thumbScan.induct with
  | case1 pos b0 b1 b2 b3 r h ih =>
    rw [thumbScan, if_pos h]
    simp only [List.length_cons]
    omega
  | case2 pos b0 b1 b2 b3 r h ih =>
    rw [thumbScan, if_neg h]
    simp only [List.length_cons] at *
    omega
  | case3 pos l h =>
    rw [thumbScan]
    · simpa using length_le_three h
    · exact h

theorem x86Loop_holds (pos : Word32) (lim fuel : Nat) (st : X86Scan) (h : st.buf.length = lim + 4)
    (hf : lim ≤ st.i + fuel) : lim ≤ (x86Loop pos lim fuel st).i := by
  induction fuel generalizing st with
  | zero => exact hf
  | succ fuel ih =>
    rw [x86Loop]
    split
    · obtain ⟨hb, hlt, -⟩ := x86Step_fits (pos := pos) (st := st) (by omega)
      exact ih _ (by omega) (by omega)
    · omega

theorem filterX86_holds (pos mask : Word32) (buf : List Byte) : buf.length ≤ (filterX86 pos mask buf).n + 4 := by
  unfold filterX86
  split
  · simpa
  · have := x86Loop_holds pos (buf.length - 4) (buf.length - 4) { i := 0, prevPos := -1, mask := mask, buf := buf }
      (by simp; omega) (by simp)
    dsimp only
    omega

/-- What a filter leaves unfinished is within the bound of its architecture. -/
theorem filter_holds {id : Byte} {arch : Arch} (hid : archOfId id = some arch) (pos mask : Word32) (buf : List Byte) :
    buf.length ≤ (filter arch pos mask buf).n + carryBound (some id) := by
  simp only [carryBound, Option.bind_some, hid]
  cases arch with
  | x86 => exact filterX86_holds pos mask buf
  | powerpc => exact unitFilter_holds 4 (by decide) ppcUnit pos mask buf
  | ia64 => exact unitFilter_holds 16 (by decide) ia64Unit pos mask buf
  | arm => exact unitFilter_holds 4 (by decide) armUnit pos mask buf
  | armthumb => exact thumbScan_holds pos buf
  | sparc => exact unitFilter_holds 4 (by decide) sparcUnit pos mask buf

/-! ## A byte through stage 2 -/

/-- `carry` is within its bound. -/
def State.Held (s : State) : Prop := s.bcj.carry.length ≤ carryBound s.cfg.bcjArch

/-- Only stage 2, the check registers, the output and the space differ. -/
def PutFrame (s t : State) : Prop :=
  t = { s with bcj := t.bcj, chk := t.chk, io := { s.io with output := t.io.output, space := t.io.space } }

theorem putFraming : Framing PutFrame where
  refl _ := rfl
  trans h k := by
    unfold PutFrame at *
    rw [k, h]

/-- A wait for output space, before a byte or between a window's final bytes. -/
def PutWait (s : State) (p : Prim) (k : List Frame) (t : State) : Prop :=
  PutFrame s t ∧ ∃ b, p = .deliver b ∧
    ((k = [] ∧ t.Held) ∨ ∃ left i n, k = [.outByte left i n] ∧ t.bcj.carry.length ≤ n + carryBound t.cfg.bcjArch)

/-- How an operation ends that hands a byte to stage 2: it raises no error. -/
def Puts (s : State) (r : Res) : Prop := r.Ends (fun _ t => PutFrame s t ∧ t.Held) (PutWait s) fun _ => False

theorem Puts.after {s t : State} {r : Res} (ht : PutFrame s t) (h : Puts t r) : Puts s r :=
  Res.Ends.mono h (fun _ _ ⟨a, b⟩ => ⟨putFraming.trans ht a, b⟩) (fun _ _ _ ⟨a, b⟩ => ⟨putFraming.trans ht a, b⟩)
    fun _ h => h

theorem outBytes_puts (left k n : Nat) (s : State) (h : s.bcj.carry.length ≤ n + carryBound s.cfg.bcjArch) :
    Puts s (outBytes left k n s) := by
  induction left generalizing k s with
  | zero =>
    refine ⟨rfl, ?_⟩
    simp only [State.Held, State.outDone, List.length_drop]
    omega
  | succ left ih =>
    rw [outBytes]
    rcases deliver_cases (s.bcj.carry.getD k 0) s with ⟨-, he⟩ | ⟨-, he⟩
    · rw [he]
      exact ⟨rfl, _, rfl, .inr ⟨left, k + 1, n, rfl, h⟩⟩
    · rw [he]
      exact .after (t := s.deliver (s.bcj.carry.getD k 0)) rfl (ih (k + 1) _ h)

theorem outByte_puts (b : Byte) {s : State} (ha : archSupported s.cfg.bcjArch = true) (h : s.Held) :
    Puts s (outByte b s) := by
  unfold outByte
  cases hc : s.cfg.bcjArch with
  | none =>
    rcases deliver_cases b s with ⟨-, he⟩ | ⟨-, he⟩
    · simp only [he]
      exact ⟨rfl, b, rfl, .inl ⟨rfl, h⟩⟩
    · simp only [he]
      exact ⟨rfl, h⟩
  | some id =>
    rw [hc] at ha
    obtain ⟨arch, hid⟩ := Option.isSome_iff_exists.mp ha
    simp only [hid]
    refine .after (t := (s.filtered arch b).1) rfl (outBytes_puts _ 0 _ _ ?_)
    have hl := filtered_carry_length s arch b
    have hh := filter_holds hid s.bcj.pos s.bcj.x86PrevMask (s.bcj.carry ++ [b])
    rw [List.length_append] at hh
    show (s.filtered arch b).1.bcj.carry.length ≤ (s.filtered arch b).2 + carryBound s.cfg.bcjArch
    rw [hl, hc]
    exact hh

/-! ## A state in RUN -/

/-- What every state in RUN has, between packets and inside them. -/
structure State.Running (s : State) : Prop where
  alone : s.susp = none
  running : s.status = .running
  seq : s.sq.seq = .lzmaRun
  props : s.sq.needProps = false
  arch : archSupported s.cfg.bcjArch = true
  context : s.lz.lc + s.lz.lp ≤ 4
  pb : s.lz.pb ≤ 4
  valid : s.dict.valid ≤ s.dict.size
  coding : s.Coding

/-- A state that differs in nothing that RUN needs. -/
theorem State.Running.of_eq {s t : State} (h : s.Running) (hv : t.dict.valid ≤ t.dict.size)
    (h1 : t.susp = s.susp := by rfl) (h2 : t.status = s.status := by rfl) (h3 : t.sq.seq = s.sq.seq := by rfl)
    (h4 : t.sq.needProps = s.sq.needProps := by rfl) (h5 : t.cfg = s.cfg := by rfl) (h6 : t.lz.lc = s.lz.lc := by rfl)
    (h7 : t.lz.lp = s.lz.lp := by rfl) (h8 : t.lz.pb = s.lz.pb := by rfl) (h9 : t.probs = s.probs := by rfl)
    (h10 : t.rc.range = s.rc.range := by rfl) : t.Running :=
  ⟨h1.trans h.alone, h2.trans h.running, h3.trans h.seq, h4.trans h.props, by rw [h5]; exact h.arch,
    by rw [h6, h7]; exact h.context, by rw [h8]; exact h.pb, hv, by rw [h9]; exact h.coding.wf,
    by rw [h9]; exact h.coding.cells, by rw [h10]; exact h.coding.rangeHigh⟩

/-- A matched literal can read its distance (R102). -/
def State.Reaches (s : State) : Prop := 7 ≤ s.lz.state.val → s.lz.rep0.toNat < s.dict.valid

theorem State.Running.symbol {s t : State} (h : s.Running) (hf : SymbolFrame s t) (hc : t.Coding) : t.Running := by
  unfold SymbolFrame CodeFrame at hf
  rw [hf] at hc ⊢
  exact ⟨h.alone, h.running, h.seq, h.props, h.arch, h.context, h.pb, h.valid, hc⟩

theorem State.Held.symbol {s t : State} (h : s.Held) (hf : SymbolFrame s t) : t.Held := by
  unfold SymbolFrame CodeFrame at hf
  rw [hf]
  exact h

theorem State.Running.put {s t : State} (h : s.Running) (hf : PutFrame s t) : t.Running := by
  unfold PutFrame at hf
  rw [hf]
  exact h.of_eq h.valid

theorem State.Reaches.put {s t : State} (h : s.Reaches) (hf : PutFrame s t) : t.Reaches := by
  unfold PutFrame at hf
  rw [hf]
  exact h

/-- A wait inside RUN: below its callers stands RUN, and a copy that waits reaches its distance. -/
structure RunWait (s : State) (w : Suspension) : Prop where
  running : s.Running
  waits : Waits s w
  run : ∃ fuel, Frame.run fuel ∈ w.frames
  held : (∀ left i n, Frame.outByte left i n ∉ w.frames) → s.Held
  reaches : ∀ d n, Frame.repeatPut d n ∈ w.frames → s.Reaches

/-- An error in RUN. -/
def RunFails (s : State) : Prop := ∃ e, s.status = .error e ∧ s.susp = none ∧ s.Held

/-- How a packet, or a part of one that ends it, ends. -/
def Packets (r : Res) : Prop :=
  r.Ends (fun _ t => t.Running ∧ t.Held ∧ t.Reaches) (fun p k t => ∀ fuel, RunWait t ⟨p, k ++ [.run fuel]⟩) RunFails

theorem lenCallers_plain {k : List Frame} (h : LenCallers k) :
    (∀ left i n, Frame.outByte left i n ∉ k) ∧ (∀ d n, Frame.repeatPut d n ∉ k) ∧ ∃ fuel, Frame.run fuel ∈ k := by
  cases h <;> simp

theorem bitCallers_plain {k : List Frame} (h : BitCallers k) :
    (∀ left i n, Frame.outByte left i n ∉ k) ∧ (∀ d n, Frame.repeatPut d n ∉ k) ∧ ∃ fuel, Frame.run fuel ∈ k := by
  cases h with
  | choice l h => simpa using lenCallers_plain h
  | choice2 l h => simpa using lenCallers_plain h
  | low h hk => simpa using lenCallers_plain hk
  | mid h hk => simpa using lenCallers_plain hk
  | high h hk => simpa using lenCallers_plain hk
  | _ => simp

theorem normCallers_plain {k : List Frame} (h : NormCallers k) :
    (∀ left i n, Frame.outByte left i n ∉ k) ∧ (∀ d n, Frame.repeatPut d n ∉ k) ∧ ∃ fuel, Frame.run fuel ∈ k := by
  cases h with
  | bit hb h => simpa using bitCallers_plain h
  | direct => simp

/-- A wait of the range coder in RUN. -/
theorem runWait_norm {s : State} {k : List Frame} (h : s.Running) (hh : s.Held) (hk : NormCallers k) :
    RunWait s ⟨.inByte, .rcByte :: .rcNorm :: k⟩ := by
  obtain ⟨ho, hr, fuel, hf⟩ := normCallers_plain hk
  exact ⟨h, .norm h.seq hk, ⟨fuel, by simp [hf]⟩, fun _ => hh, fun d n hm => by simp [hr d n] at hm⟩

/-- A symbol of the range coder, and then the rest of its packet. -/
theorem Codes.packet {R : State → State → Prop} {s : State} {V : Nat → Prop} {C : List Frame → Prop} {r : Res} {fr : Frame}
    {f : Nat → State → Res} (h : Codes R s V C r) (hR : ∀ t, R s t → SymbolFrame s t) (hs : s.Running) (hh : s.Held)
    (hf : ∀ v t, V v → R s t → t.Running → t.Held → Packets (f v t))
    (hC : ∀ c, C c → ∀ fuel, NormCallers (c ++ [fr, .run fuel])) : Packets (r.bind fr f) := by
  refine Res.Ends.bind h ?_ ?_ ?_
  · rintro v t ⟨hv, ht, hc⟩
    exact hf v t hv ht (hs.symbol (hR t ht) hc) (hh.symbol (hR t ht))
  · rintro p k t ⟨rfl, ⟨c, rfl, hc⟩, ht, hk⟩ fuel
    have := hC c hc fuel
    simpa using runWait_norm (hs.symbol (hR t ht) hk) (hh.symbol (hR t ht)) this
  · rintro t ⟨u, e, hu, rfl⟩
    exact ⟨e, rfl, rfl, (show u.Held from hh.symbol (hR u hu))⟩

/-! ## A byte from a packet -/

/-- A wait for output space in RUN. -/
theorem runWait_put {s t : State} {p : Prim} {l k : List Frame} (h : PutWait s p l t) (ht : t.Running)
    (hk : PutCallers .lzmaRun k) (hr : ∀ d n, Frame.repeatPut d n ∈ k → t.Reaches) : RunWait t ⟨p, l ++ k⟩ := by
  have hk' : PutCallers t.sq.seq k := by rw [ht.seq]; exact hk
  have hrun : ∃ fuel, Frame.run fuel ∈ k := by cases hk <;> simp
  obtain ⟨fuel, hf⟩ := hrun
  obtain ⟨-, b, rfl, ⟨rfl, hh⟩ | ⟨left, i, n, rfl, hh⟩⟩ := h
  · exact ⟨ht, .put b hk', ⟨fuel, hf⟩, fun _ => hh, hr⟩
  · exact ⟨ht, .outByte b left i n hk' hh, ⟨fuel, by simp [hf]⟩, fun h => absurd (by simp) (h left i n),
      fun d m hm => hr d m (by simpa using hm)⟩

/-- A produced byte, and then the rest of its packet. -/
theorem dictPut_packet {s : State} (b : Byte) (hs : s.Running) (hh : s.Held) {fr : Frame} {f : Nat → State → Res}
    (hf : ∀ v t, PutFrame { s with dict := s.dict.put b } t → t.Running → t.Held → Packets (f v t))
    (hC : ∀ fuel, PutCallers .lzmaRun [fr, .run fuel])
    (hr : ∀ d n, fr = .repeatPut d n → State.Reaches { s with dict := s.dict.put b }) :
    Packets ((dictPut b s).bind fr f) := by
  have hp : ({ s with dict := s.dict.put b } : State).Running := hs.of_eq (by simp)
  refine Res.Ends.bind (outByte_puts b hp.arch hh) (fun v t ⟨ht, hk⟩ => hf v t ht (hp.put ht) hk) ?_ fun _ h => h.elim
  intro p k t ht fuel
  have := runWait_put ht (hp.put ht.1) (hC fuel) fun d n hm => (hr d n (by simpa [eq_comm] using hm)).put ht.1
  simpa using this

theorem litNext_lt (k : Fin 12) : (litNext k).val < 7 := by revert k; decide

/-- The end of a literal. -/
theorem litByte_packet (v : Nat) {s : State} (hs : s.Running) (hh : s.Held) : Packets (litByte v s) := by
  refine dictPut_packet _ hs hh ?_ (fun fuel => .literal fuel) (by simp)
  intro v t _ ht hk
  refine ⟨ht.of_eq ht.valid, hk, fun h => ?_⟩
  exact absurd h (Nat.not_le_of_lt (litNext_lt t.lz.state))

/-- A match copy whose distance has been tested. -/
theorem repeatLoop_packet (dist : Word32) (fuel : Nat) {s : State} (hs : s.Running) (hh : s.Held) (hr : s.Reaches) :
    Packets (repeatLoop dist fuel s) := by
  induction fuel generalizing s with
  | zero => exact ⟨hs, hh, hr⟩
  | succ fuel ih =>
    rw [repeatLoop]
    split
    · have hput : State.Reaches { s with dict := s.dict.put (s.dict.get dist) } := fun h7 => by
        have h1 := hr h7
        have h2 := hs.valid
        simp only [Dict.put_valid]
        omega
      refine dictPut_packet _ hs hh ?_ (fun n => .repeated dist fuel n) fun _ _ _ => hput
      intro v t ht hk hl
      exact ih (s := t.countCopy) (hk.of_eq hk.valid) hl (show t.Reaches from hput.put ht)
    · exact ⟨hs, hh, hr⟩

/-- The copy of a copy packet: it tests `rep0` first. -/
theorem copyMatch_packet {s : State} (hs : s.Running) (hh : s.Held) : Packets (copyMatch s) := by
  unfold copyMatch dictRepeat
  split
  · exact ⟨.data, rfl, rfl, hh⟩
  · exact repeatLoop_packet _ _ hs hh fun _ => by omega

/-! ## Literals -/

theorem litCtx_lt {s : State} (h : s.lz.lc + s.lz.lp ≤ 4) : s.litCtx < 16 := by
  have h1 : s.dict.pos &&& s.lz.lpMask ≤ s.lz.lpMask := Nat.and_le_right
  have h2 := Nat.two_pow_pos s.lz.lp
  have h3 : (s.dict.get 0).toNat < 2 ^ 8 := (s.dict.get 0).isLt
  have h4 : (s.dict.get 0).toNat >>> (8 - s.lz.lc) < 2 ^ s.lz.lc := by
    rw [Nat.shiftRight_eq_div_pow]
    apply Nat.div_lt_of_lt_mul
    rwa [← Nat.pow_add, Nat.sub_add_cancel (by omega)]
  have h5 : (s.dict.pos &&& s.lz.lpMask) + 1 ≤ 2 ^ s.lz.lp := by
    simp only [LzmaRegs.lpMask] at *
    omega
  have h6 : ((s.dict.pos &&& s.lz.lpMask) + 1) * 2 ^ s.lz.lc ≤ 2 ^ s.lz.lp * 2 ^ s.lz.lc := Nat.mul_le_mul_right _ h5
  have h7 : 2 ^ s.lz.lp * 2 ^ s.lz.lc ≤ 2 ^ 4 := by
    rw [← Nat.pow_add]
    exact Nat.pow_le_pow_right (by omega) (by omega)
  unfold State.litCtx
  rw [Nat.shiftLeft_eq]
  rw [Nat.succ_mul] at h6
  omega

/-- LZ_LIT. -/
theorem lzLit_packet {s : State} (hs : s.Running) (hh : s.Held) : Packets (lzLit s) := by
  have hc := litCtx_lt hs.context
  refine (rcTree_codes (base := literalTree s.litCtx)
    (by simp only [literalTree, literalBase, Config.probCells]; omega) hs.coding).packet (fun _ => CodeFrame.symbol) hs hh
    (fun v t _ _ ht hk => litByte_packet v ht hk) ?_
  rintro c ⟨b, left, sym, hb, hw, rfl⟩ fuel
  exact .bit hb (.lit hw)

theorem and_bit8 (x : Word32) : x &&& 0x100 = 0 ∨ x &&& 0x100 = 0x100 := by
  have h : (0x100 : Word32) = BitVec.twoPow 32 8 := rfl
  rw [h, BitVec.and_twoPow]
  split <;> simp

/-- `offset` is 0 or 0x100, and stays so. -/
def MlitOffset (x : Word32) : Prop := x = 0 ∨ x = 0x100

theorem mlitOffset_and {x : Word32} (h : MlitOffset x) (m : Word32) : (m &&& x = 0 ∨ m &&& x = x) := by
  rcases h with rfl | rfl
  · simp
  · exact and_bit8 m

theorem mlitOffset_next {offset m : Word32} (h : MlitOffset offset) (hm : m = 0 ∨ m = offset) :
    MlitOffset m ∧ MlitOffset (offset &&& ~~~m) := by
  rcases h with rfl | rfl <;> rcases hm with rfl | rfl <;> simp [MlitOffset]

/-- `sym` has one more bit, and does not overflow. -/
theorem mlitSym_next {sym : Word32} {n : Nat} (hn : n ≤ 8) (h : sym.toNat < 2 ^ n) :
    (sym <<< 1).toNat < 2 ^ (n + 1) ∧ (sym <<< 1 + 1).toNat < 2 ^ (n + 1) := by
  have h8 : 2 ^ n ≤ 2 ^ 8 := Nat.pow_le_pow_right (by omega) hn
  have h0 : (sym <<< 1).toNat = 2 * sym.toNat := by
    rw [BitVec.toNat_shiftLeft, Nat.shiftLeft_eq]
    omega
  have h1 : (sym <<< 1 + 1).toNat = 2 * sym.toNat + 1 := by
    rw [BitVec.toNat_add, h0]
    show (2 * sym.toNat + 1) % 2 ^ 32 = _
    omega
  rw [h0, h1, Nat.pow_succ]
  omega

/-- The `while` of LZ_MLIT: the cell of every bit is one of its literal context's. -/
theorem mlitFrom_packet {c left : Nat} (hc : c < 16) (hl : left ≤ 8) {mbyte offset sym : Word32} (ho : MlitOffset offset)
    (hsym : sym.toNat < 2 ^ (9 - left)) {s : State} (hs : s.Running) (hh : s.Held) :
    Packets (mlitFrom c left mbyte offset sym s) := by
  induction left generalizing mbyte offset sym s with
  | zero => exact litByte_packet _ hs hh
  | succ left ih =>
    have he : 9 - (left + 1) = 8 - left := by omega
    have he' : 9 - left = 8 - left + 1 := by omega
    have h8 : 2 ^ (8 - left) ≤ 2 ^ 8 := Nat.pow_le_pow_right (by omega) (by omega)
    rw [he] at hsym
    have hm := mlitOffset_and ho mbyte
    obtain ⟨hn, hn'⟩ := mlitOffset_next ho hm
    have hcell : (offset + (mbyte &&& offset) + sym).toNat < 0x300 := by
      have h1 : (offset + (mbyte &&& offset)).toNat ≤ 0x200 := by
        rcases hm with h | h <;> rw [h] <;> rcases ho with rfl | rfl <;> decide
      rw [BitVec.toNat_add]
      omega
    obtain ⟨h0, h1⟩ := mlitSym_next (n := 8 - left) (by omega) hsym
    unfold mlitFrom
    refine (rcBit_codes hs.coding (i := literalTree c + (offset + (mbyte &&& offset) + sym).toNat)
      (by simp only [literalTree, literalBase, Config.probCells]; omega)).packet (fun _ => CodeFrame.symbol) hs hh ?_ ?_
    · intro b t _ _ ht hk
      split
      · exact ih (by omega) hn (by rw [he']; exact h1) ht hk
      · exact ih (by omega) hn' (by rw [he']; exact h0) ht hk
    · rintro k ⟨b, hb, rfl⟩ fuel
      exact .bit hb (.mlit hc (by omega) ho hm hsym)

/-- LZ_MLIT. -/
theorem lzMlit_packet {s : State} (hs : s.Running) (hh : s.Held) : Packets (lzMlit s) :=
  mlitFrom_packet (litCtx_lt hs.context) (Nat.le_refl 8) (.inr rfl) (by decide) hs hh

/-! ## Copy packets -/

/-- The registers with which a copy packet starts are of no concern to the range coder. -/
theorem State.Running.withLz {s : State} (h : s.Running) {z : LzmaRegs} (hc : z.lc = s.lz.lc) (hp : z.lp = s.lz.lp)
    (hb : z.pb = s.lz.pb) : State.Running { s with lz := z } :=
  h.of_eq h.valid (h6 := hc) (h7 := hp) (h8 := hb)

/-- LZ_LEN, and then the copy. -/
theorem lenCopy_packet (l : LenCoder) {s : State} (hs : s.Running) (hh : s.Held) :
    Packets ((lzLen l s).bind .copyMatch fun _ s => copyMatch s) :=
  (lzLen_codes l hs.coding hs.pb).packet (fun _ => id) hs hh (fun _ _ _ _ ht hk => copyMatch_packet ht hk)
    fun _ h fuel => h _ (.longRep fuel)

/-- LZ_DIST, and then the copy. -/
theorem matchDist_packet {s : State} (hs : s.Running) (hh : s.Held) : Packets (matchDist s) :=
  (lzDist_codes hs.coding).packet (fun _ => id) hs hh (fun _ _ _ _ ht hk => copyMatch_packet ht hk) fun _ h => h

/-- LZ_MATCH. -/
theorem lzMatch_packet {s : State} (hs : s.Running) (hh : s.Held) : Packets (lzMatch s) := by
  have hm : s.matchStart.Running := hs.withLz rfl rfl rfl
  exact (lzLen_codes .matchLen hm.coding hm.pb).packet (fun _ => id) hm hh
    (fun _ _ _ _ ht hk => matchDist_packet ht hk) fun _ h fuel => h _ (.newMatch fuel)

/-- LZ_SHORTREP. -/
theorem lzShortRep_packet {s : State} (hs : s.Running) (hh : s.Held) : Packets (lzShortRep s) :=
  copyMatch_packet (hs.withLz rfl rfl rfl) hh

theorem rotate_props (z : LzmaRegs) (n : Nat) :
    (z.rotate n).lc = z.lc ∧ (z.rotate n).lp = z.lp ∧ (z.rotate n).pb = z.pb := by
  unfold LzmaRegs.rotate
  split <;> exact ⟨rfl, rfl, rfl⟩

/-- LZ_LONGREP. -/
theorem lzLongRep_packet (n : Nat) {s : State} (hs : s.Running) (hh : s.Held) : Packets (lzLongRep n s) := by
  obtain ⟨h1, h2, h3⟩ := rotate_props s.lz n
  exact lenCopy_packet .repLen (hs.withLz h1 h2 h3) hh

/-! ## Packets and RUN -/

/-- A decision bit, and then the rest of its packet. -/
theorem decision_packet {s : State} {i : Nat} (hi : i < Config.probCells) (hs : s.Running) (hh : s.Held) {fr : Frame}
    {f : Nat → State → Res} (hf : ∀ v t, t.Running → t.Held → Packets (f v t))
    (hC : ∀ fuel, BitCallers [fr, .run fuel]) : Packets ((rcBit i s).bind fr f) := by
  refine (rcBit_codes hs.coding hi).packet (fun _ => CodeFrame.symbol) hs hh (fun v t _ _ => hf v t) ?_
  rintro c ⟨b, hb, rfl⟩ fuel
  exact .bit hb (hC fuel)

theorem st_lt (s : State) : s.st < 12 := s.lz.state.isLt

theorem afterIsRep2_packet (b : Nat) {s : State} (hs : s.Running) (hh : s.Held) : Packets (afterIsRep2 b s) := by
  unfold afterIsRep2
  split <;> exact lzLongRep_packet _ hs hh

theorem afterIsRep1_packet (b : Nat) {s : State} (hs : s.Running) (hh : s.Held) : Packets (afterIsRep1 b s) := by
  have := st_lt s
  unfold afterIsRep1
  split
  · exact lzLongRep_packet _ hs hh
  · exact decision_packet (by simp only [isRep2Cell, isRep2Base, Config.probCells]; omega) hs hh
      (fun v _ => afterIsRep2_packet v) .isRep2

theorem afterIsRep0Long_packet (b : Nat) {s : State} (hs : s.Running) (hh : s.Held) : Packets (afterIsRep0Long b s) := by
  unfold afterIsRep0Long
  split
  · exact lzShortRep_packet hs hh
  · exact lzLongRep_packet _ hs hh

theorem afterIsRep0_packet (b : Nat) {s : State} (hs : s.Running) (hh : s.Held) : Packets (afterIsRep0 b s) := by
  have := st_lt s
  have := ps_lt hs.pb
  unfold afterIsRep0
  split
  · exact decision_packet (by simp only [isRep0LongCell, isRep0LongBase, Config.probCells]; omega) hs hh
      (fun v _ => afterIsRep0Long_packet v) .isRep0Long
  · exact decision_packet (by simp only [isRep1Cell, isRep1Base, Config.probCells]; omega) hs hh
      (fun v _ => afterIsRep1_packet v) .isRep1

theorem afterIsRep_packet (b : Nat) {s : State} (hs : s.Running) (hh : s.Held) : Packets (afterIsRep b s) := by
  have := st_lt s
  unfold afterIsRep
  split
  · exact lzMatch_packet hs hh
  · exact decision_packet (by simp only [isRep0Cell, isRep0Base, Config.probCells]; omega) hs hh
      (fun v _ => afterIsRep0_packet v) .isRep0

theorem afterIsMatch_packet (b : Nat) {s : State} (hs : s.Running) (hh : s.Held) : Packets (afterIsMatch b s) := by
  have := st_lt s
  unfold afterIsMatch
  split
  · split
    · exact lzLit_packet hs hh
    · exact lzMlit_packet hs hh
  · exact decision_packet (by simp only [isRepCell, isRepBase, Config.probCells]; omega) hs hh
      (fun v _ => afterIsRep_packet v) .isRep

/-- LZ_PACKET: it does not stop, it waits where Waits says, and it ends where a matched literal can read its distance. -/
theorem lzPacket_packet {s : State} (hs : s.Running) (hh : s.Held) : Packets (lzPacket s) := by
  have := st_lt s
  have := ps_lt hs.pb
  exact decision_packet (by simp only [isMatchCell, isMatchBase, Config.probCells]; omega) hs hh
    (fun v _ => afterIsMatch_packet v) .isMatch

/-- How RUN ends: at the next control byte with the range coder idle, or between two packets; it waits and fails as its
packets do. -/
def Runs (r : Res) : Prop :=
  r.Ends
    (fun _ t => (t.Running ∧ t.Held ∧ t.Reaches) ∨
      ∃ u : State, u.Running ∧ u.Held ∧ u.Reaches ∧ t = { u with rc := .idle, sq := { u.sq with seq := .control } })
    (fun p k t => RunWait t ⟨p, k⟩) RunFails

theorem runLoop_runs (fuel : Nat) {s : State} (hs : s.Running) (hh : s.Held) (hr : s.Reaches) : Runs (runLoop fuel s) := by
  induction fuel generalizing s with
  | zero => exact .inl ⟨hs, hh, hr⟩
  | succ fuel ih =>
    rw [runLoop]
    split
    · exact (lzPacket_packet hs hh).bind (fun _ _ ⟨a, b, c⟩ => ih a b c) (fun _ _ _ h => h fuel) fun _ h => h
    · unfold chunkEnd
      split
      · exact ⟨.data, rfl, rfl, hh⟩
      · exact .inr ⟨s, hs, hh, hr, rfl⟩

/-- The rest of a packet, and then RUN goes on. -/
theorem Packets.run {r : Res} (h : Packets r) (fuel : Nat) : Runs (r.bind (.run fuel) fun _ s => runLoop fuel s) :=
  Res.Ends.bind h (fun _ _ ⟨a, b, c⟩ => runLoop_runs fuel a b c) (fun _ _ _ h => h fuel) fun _ h => h

/-! ## Resumption in RUN -/

/-- The rest of a length, and then its caller goes on. -/
theorem lenCallers_run {k : List Frame} (hk : LenCallers k) {s : State} (hs : s.Running) (hh : s.Held) {r : Res}
    (h : Codes SymbolFrame s (fun _ => True) LenWait r) : Runs (resumeFrames k r) := by
  cases hk with
  | newMatch fuel =>
    exact (h.packet (fr := .matchLen) (fun _ => id) hs hh (fun _ _ _ _ ht hk => matchDist_packet ht hk)
      fun _ h fuel => h _ (.newMatch fuel)).run fuel
  | longRep fuel =>
    exact (h.packet (fr := .copyMatch) (fun _ => id) hs hh (fun _ _ _ _ ht hk => copyMatch_packet ht hk)
      fun _ h fuel => h _ (.longRep fuel)).run fuel

/-- The rest of a tree of a length. -/
theorem lenTree_run {k : List Frame} (hk : LenCallers k) {s : State} (hs : s.Running) (hh : s.Held) {n base left sym b : Nat}
    (ht : treeWait n base left sym) (hb : b < 2) {fr : Frame} (f : Nat → State → Nat)
    (hr : ∀ v t, resumeFrame fr v t = .done 0 (t.setLen (f v t)))
    (hw : ∀ left sym, treeWait n base left sym → ∀ k, LenCallers k → BitCallers (.rcTree base n left sym :: fr :: k)) :
    Runs (resumeFrames (.rcTree base n left sym :: fr :: k) (.done b s)) := by
  obtain ⟨hl, hsym, hbase⟩ := ht
  refine lenCallers_run hk hs hh (r := (rcTreeFrom base n left (2 * sym + b) s).bind fr (resumeFrame fr)) ?_
  refine .bind symbolFraming ((rcTreeFrom_codes hbase (by omega) (by rw [Nat.pow_succ]; omega) hs.coding).mono
    (fun _ => CodeFrame.symbol) (fun _ => id) fun _ => id) ?_ ?_
  · intro v t _ _ ht
    rw [hr]
    exact .done trivial rfl (Coding.of_eq ht rfl rfl)
  · rintro l ⟨b, left, sym, hb2, ht, rfl⟩ k hk
    exact .bit hb2 (hw left sym ht k hk)

/-- A decided bit goes to the caller that waited for it. -/
theorem bitCallers_run {k : List Frame} (hk : BitCallers k) {s : State} (hs : s.Running) (hh : s.Held) {b : Nat}
    (hb : b < 2) : Runs (resumeFrames k (.done b s)) := by
  cases hk with
  | isMatch fuel => exact (afterIsMatch_packet b hs hh).run fuel
  | isRep fuel => exact (afterIsRep_packet b hs hh).run fuel
  | isRep0 fuel => exact (afterIsRep0_packet b hs hh).run fuel
  | isRep0Long fuel => exact (afterIsRep0Long_packet b hs hh).run fuel
  | isRep1 fuel => exact (afterIsRep1_packet b hs hh).run fuel
  | isRep2 fuel => exact (afterIsRep2_packet b hs hh).run fuel
  | lit h =>
    obtain ⟨hl, hsym, hbase⟩ := h
    refine Packets.run (r := (rcTreeFrom _ 8 _ _ s).bind .litByte litByte) ?_ _
    refine (rcTreeFrom_codes hbase (by omega) (by rw [Nat.pow_succ]; omega) hs.coding).packet (fun _ => CodeFrame.symbol) hs hh
      (fun v t _ _ ht hk => litByte_packet v ht hk) ?_
    rintro c ⟨b, left, sym, hb, hw, rfl⟩ fuel
    exact .bit hb (.lit hw)
  | @mlit c left fuel mbyte matchBit offset sym hc hl ho hm hsym =>
    obtain ⟨hn, hn'⟩ := mlitOffset_next ho hm
    have he : 9 - left = 8 - left + 1 := by omega
    obtain ⟨h0, h1⟩ := mlitSym_next (n := 8 - left) (by omega) hsym
    refine Packets.run (r := if b = 1 then mlitFrom c left mbyte matchBit (sym <<< 1 + 1) s
      else mlitFrom c left mbyte (offset &&& ~~~matchBit) (sym <<< 1) s) ?_ fuel
    split
    · exact mlitFrom_packet hc (by omega) hn (by rw [he]; exact h1) hs hh
    · exact mlitFrom_packet hc (by omega) hn' (by rw [he]; exact h0) hs hh
  | choice l h => exact lenCallers_run h hs hh (lenChoice_codes l b hs.coding hs.pb)
  | choice2 l h => exact lenCallers_run h hs hh (lenChoice2_codes l b hs.coding hs.pb)
  | low h hk =>
    exact lenTree_run hk hs hh h hb (fun v _ => lowLength (.ofNat 3 v)) (fun _ _ => rfl) fun _ _ ht _ hk => .low ht hk
  | mid h hk =>
    exact lenTree_run hk hs hh h hb (fun v _ => midLength (.ofNat 3 v)) (fun _ _ => rfl) fun _ _ ht _ hk => .mid ht hk
  | high h hk =>
    exact lenTree_run hk hs hh h hb (fun v _ => highLength (.ofNat 8 v)) (fun _ _ => rfl) fun _ _ ht _ hk => .high ht hk
  | slot h =>
    obtain ⟨hl, hsym, hbase⟩ := h
    refine Packets.run (r := ((rcTreeFrom _ 6 _ _ s).bind .distSlot distSlot).bind .copyMatch fun _ s => copyMatch s) ?_ _
    refine Codes.packet (R := SymbolFrame) (V := fun _ => True) (C := DistWait) ?_ (fun _ => id) hs hh
      (fun _ _ _ _ ht hk => copyMatch_packet ht hk) fun _ h => h
    refine .bind symbolFraming ((rcTreeFrom_codes hbase (by omega) (by rw [Nat.pow_succ]; omega) hs.coding).mono
      (fun _ => CodeFrame.symbol) (fun _ => id) fun _ => id) (fun v t _ _ ht => distSlot_codes v ht) ?_
    rintro c ⟨b, left, sym, hb, ht, rfl⟩ fuel
    exact .bit hb (.slot ht)
  | @special base left k sym v slot fuel h =>
    obtain ⟨hsym, hbase⟩ := h
    refine Packets.run (r := ((rcTreeRevFrom base left (k + 1) (2 * sym + b) (v ||| (b <<< k)) s).bind (.distSpecial slot)
      fun t s => .done 0 (distSlot4To13 slot t s)).bind .copyMatch fun _ s => copyMatch s) ?_ fuel
    refine Codes.packet (R := SymbolFrame) (V := fun _ => True) (C := DistWait) ?_ (fun _ => id) hs hh
      (fun _ _ _ _ ht hk => copyMatch_packet ht hk) fun _ h => h
    refine .bind symbolFraming ((rcTreeRevFrom_codes hbase (by rw [Nat.pow_succ]; omega) _ hs.coding).mono
      (fun _ => CodeFrame.symbol) (fun _ => id) fun _ => id)
      (fun v t _ _ ht => .done trivial rfl (Coding.of_eq ht rfl rfl)) ?_
    rintro c ⟨b, left, k, sym, v, hb, ht, rfl⟩ fuel
    exact .bit hb (.special ht)
  | @align base left k sym v slot x fuel h =>
    obtain ⟨hsym, hbase⟩ := h
    refine Packets.run (r := ((rcTreeRevFrom base left (k + 1) (2 * sym + b) (v ||| (b <<< k)) s).bind (.distAlign slot x)
      fun a s => .done 0 (distSlot14To63 slot x a s)).bind .copyMatch fun _ s => copyMatch s) ?_ fuel
    refine Codes.packet (R := SymbolFrame) (V := fun _ => True) (C := DistWait) ?_ (fun _ => id) hs hh
      (fun _ _ _ _ ht hk => copyMatch_packet ht hk) fun _ h => h
    refine .bind symbolFraming ((rcTreeRevFrom_codes hbase (by rw [Nat.pow_succ]; omega) _ hs.coding).mono
      (fun _ => CodeFrame.symbol) (fun _ => id) fun _ => id)
      (fun v t _ _ ht => .done trivial rfl (Coding.of_eq ht rfl rfl)) ?_
    rintro c ⟨b, left, k, sym, v, hb, ht, rfl⟩ fuel
    exact .bit hb (.align ht)

/-- A normalization is done, and the caller that waited for it goes on. -/
theorem normCallers_run {k : List Frame} (hk : NormCallers k) {s : State} (hs : s.Running) (hh : s.Held) (v : Nat) :
    Runs (resumeFrames k (.done v s)) := by
  cases hk with
  | bit hb h => exact bitCallers_run h hs hh hb
  | direct left w slot fuel =>
    refine Packets.run (r := ((rcDirectFrom left w s).bind (.distDirect slot) (distDirect slot)).bind .copyMatch
      fun _ s => copyMatch s) ?_ fuel
    refine Codes.packet (R := SymbolFrame) (V := fun _ => True) (C := DistWait) ?_ (fun _ => id) hs hh
      (fun _ _ _ _ ht hk => copyMatch_packet ht hk) fun _ h => h
    refine .bind symbolFraming ((rcDirectFrom_codes left w hs.coding).mono (fun _ => CodeFrame.symbol) (fun _ => id)
      fun _ => id) (fun v t _ _ ht => distDirect_codes slot v ht) ?_
    rintro c ⟨left, v, rfl⟩ fuel
    exact .direct left v slot fuel

/-- The missing byte of a normalization, and then its callers go on. -/
theorem norm_run {k : List Frame} (hk : NormCallers k) {s : State} (hs : s.Running) (hh : s.Held) :
    Runs (resumeFrames (.rcByte :: .rcNorm :: k) (inByte s)) := by
  rcases inByte_cases s with ⟨b, r, hi, he⟩ | ⟨hi, hn, he⟩ | ⟨hi, hn, he⟩
  · rw [he]
    let u : State := { s with io := { s.io with input := r } }
    exact normCallers_run hk (s := u.countByte.shiftIn b.toNat)
      (hs.of_eq hs.valid) hh 0
  · rw [he, resumeFrames_fail]
    exact ⟨.buf, rfl, rfl, hh⟩
  · rw [he, resumeFrames_hold]
    exact runWait_norm hs hh hk

/-- A byte went through stage 2, and then its callers go on. -/
theorem putCallers_run {k : List Frame} (hk : PutCallers .lzmaRun k) {s : State} (hs : s.Running)
    (hr : ∀ d n, Frame.repeatPut d n ∈ k → s.Reaches) {r : Res} (h : Puts s r) : Runs (resumeFrames k r) := by
  cases r with
  | stop x => exact h.elim
  | fail t => exact h.elim
  | hold p l t =>
    rw [resumeFrames_hold]
    exact runWait_put h (hs.put h.1) hk fun d n hm => (hr d n hm).put h.1
  | done v t =>
    obtain ⟨ht, hh⟩ := h
    have hrun := hs.put ht
    cases hk with
    | literal fuel =>
      refine Packets.run (r := .done 0 t.literalDone) ?_ fuel
      exact ⟨hrun.of_eq hrun.valid, hh, fun h => absurd h (Nat.not_le_of_lt (litNext_lt t.lz.state))⟩
    | repeated dist left fuel =>
      refine Packets.run (r := repeatLoop dist left t.countCopy) (repeatLoop_packet dist left ?_ hh ?_) fuel
      · exact hrun.of_eq hrun.valid
      · exact (show t.Reaches from (hr dist left (by simp)).put ht)

/-- A waiting delivery, before a byte. -/
theorem deliver_puts (b : Byte) {s : State} (h : s.Held) : Puts s (deliver b s) := by
  rcases deliver_cases b s with ⟨-, he⟩ | ⟨-, he⟩
  · rw [he]
    exact ⟨rfl, b, rfl, .inl ⟨rfl, h⟩⟩
  · rw [he]
    exact ⟨rfl, h⟩

/-- A waiting delivery between a window's final bytes. -/
theorem outByte_goes_on (b : Byte) (left i n : Nat) {s : State} (h : s.bcj.carry.length ≤ n + carryBound s.cfg.bcjArch) :
    Puts s ((deliver b s).bind (.outByte left i n) fun _ s => outBytes left i n s) := by
  rcases deliver_cases b s with ⟨-, he⟩ | ⟨-, he⟩
  · rw [he]
    exact ⟨rfl, b, rfl, .inr ⟨left, i, n, rfl, h⟩⟩
  · rw [he]
    exact .after (t := s.deliver b) rfl (outBytes_puts left i n _ h)

/-- A packet that waits goes on as RUN does. -/
theorem RunWait.resume {s : State} {w : Suspension} (h : RunWait s w) : Runs (Machine.resume w s) := by
  obtain ⟨hs, hw, hrun, hh, hr⟩ := h
  have hseq := hs.seq
  cases hw with
  | control h => rw [hseq] at h; cases h
  | header b h => rw [hseq] at h; cases b <;> cases h
  | properties h => rw [hseq] at h; cases h
  | initFirst h => rw [hseq] at h; cases h
  | initNext left c h => rw [hseq] at h; cases h
  | copyRead fuel h => rw [hseq] at h; cases h
  | flush b rest h => rw [hseq] at h; cases h
  | norm h hk => exact norm_run hk hs (hh (by simpa using (normCallers_plain hk).1))
  | put b hk =>
    rw [hseq] at hk
    exact putCallers_run hk hs hr (deliver_puts b (hh fun _ _ _ => by cases hk <;> simp))
  | outByte b left i n hk hn =>
    rw [hseq] at hk
    exact putCallers_run hk hs (fun d m hm => hr d m (by simp [hm])) (outByte_goes_on b left i n hn)

end Sys2Proof.Machine
end

