-- ==== Sys2Proof/Laws/Coder.lean ====
section
/-! SUPPORT. The operations of the sequencer beside RUN, from a state of the coder's invariant: what each of them leaves,
and where it waits. -/

namespace Sys2Proof.Machine

/-! ## The invariant of the coder at an operation boundary -/

/-- The registers of State.CoderInv, where no operation waits. -/
structure State.CoderRegs (s : State) : Prop where
  alone : s.susp = none
  propsRead : s.status = .running →
    (s.sq.seq = .properties ∨ s.sq.seq = .lzmaPrepare ∨ s.sq.seq = .lzmaRun ∨
      (s.sq.seq.readsSize ∧ s.sq.nextSeq ≠ .copy)) → s.sq.needProps = false
  context : s.coderReady → s.lz.lc + s.lz.lp ≤ 4
  cells : s.coderReady → ∀ i, Prob.InRange (s.probs.read i)
  rangeHigh : s.coderReady → 0x01000000 ≤ s.rc.range
  reachable : s.coderReady → s.Reaches

/-- A state that differs in nothing that the coder looks at. -/
theorem State.CoderRegs.of_eq {s t : State} (h : s.CoderRegs) (h1 : t.susp = s.susp := by rfl)
    (h2 : t.status = s.status := by rfl) (h3 : t.sq.seq = s.sq.seq := by rfl) (h4 : t.sq.nextSeq = s.sq.nextSeq := by rfl)
    (h5 : t.sq.needProps = s.sq.needProps := by rfl) (h6 : t.lz = s.lz := by rfl) (h7 : t.probs = s.probs := by rfl)
    (h8 : t.rc = s.rc := by rfl) (h9 : t.dict.valid = s.dict.valid := by rfl) : t.CoderRegs := by
  have hy : t.coderReady ↔ s.coderReady := by simp only [State.coderReady, h2, h3, h4, h5]
  refine ⟨h1.trans h.alone, ?_, ?_, ?_, ?_, ?_⟩
  · rw [h2, h3, h4, h5]
    exact h.propsRead
  · rw [hy, h6]
    exact h.context
  · rw [hy, h7]
    exact h.cells
  · rw [hy, h8]
    exact h.rangeHigh
  · rw [hy, State.Reaches, h6, h9]
    exact h.reachable

/-- Nothing is asked of the coder where it is not ready. -/
theorem coderRegs_of_not_ready {s : State} (h : s.susp = none) (hr : ¬ s.coderReady)
    (hp : s.status = .running →
      (s.sq.seq = .properties ∨ s.sq.seq = .lzmaPrepare ∨ s.sq.seq = .lzmaRun ∨
        (s.sq.seq.readsSize ∧ s.sq.nextSeq ≠ .copy)) → s.sq.needProps = false) : s.CoderRegs :=
  ⟨h, hp, fun h => absurd h hr, fun h => absurd h hr, fun h => absurd h hr, fun h => absurd h hr⟩

theorem coderInv_of_regs {s : State} (h : s.CoderRegs) (hh : s.Held) : s.CoderInv :=
  ⟨h.propsRead, h.context, h.cells, h.rangeHigh, fun hr _ => h.reachable hr, fun _ => hh, fun w hw => by
    rw [h.alone] at hw; cases hw⟩

theorem State.CoderInv.regs {s : State} (h : s.CoderInv) (hn : s.susp = none) : s.CoderRegs ∧ s.Held := by
  refine ⟨⟨hn, h.propsRead, h.context, h.cells, h.rangeHigh, fun hr => h.reachable hr ?_⟩, h.carryShort ?_⟩
  · rintro ⟨w, fuel, hw, -⟩
    rw [hn] at hw
    cases hw
  · rintro ⟨w, left, i, n, hw, -⟩
    rw [hn] at hw
    cases hw

theorem coderInv_raised {s : State} (hh : s.Held) (k : ErrKind) : (s.raised k).CoderInv :=
  coderInv_of_regs (coderRegs_of_not_ready rfl (fun h => nomatch h.1) fun h => nomatch h) hh

theorem coderInv_of_error {s : State} (h : RunFails s) : s.CoderInv := by
  obtain ⟨e, h1, h2, hh⟩ := h
  exact coderInv_of_regs (coderRegs_of_not_ready h2 (fun h => nomatch h1.symm.trans h.1)
    fun h => nomatch h1.symm.trans h) hh

theorem Waits.of_eq {s t : State} {w : Suspension} (h : Waits s w) (h1 : t.sq.seq = s.sq.seq := by rfl)
    (h2 : t.bcj = s.bcj := by rfl) (h3 : t.cfg = s.cfg := by rfl) : Waits t w := by
  cases h with
  | control h => exact .control (h1.trans h)
  | header b h => exact .header b (h1.trans h)
  | properties h => exact .properties (h1.trans h)
  | initFirst h => exact .initFirst (h1.trans h)
  | initNext left c h => exact .initNext left c (h1.trans h)
  | norm h hk => exact .norm (h1.trans h) hk
  | copyRead fuel h => exact .copyRead fuel (h1.trans h)
  | put b hk => exact .put b (by rw [h1]; exact hk)
  | outByte b left i n hk hn => exact .outByte b left i n (by rw [h1]; exact hk) (by rw [h2, h3]; exact hn)
  | flush b rest h hr => exact .flush b rest (h1.trans h) (by rw [h3]; exact hr)

/-- An operation puts itself to wait where the coder has nothing left open. -/
theorem coderInv_suspend {s : State} (h : s.CoderRegs) {p : Prim} {k : List Frame}
    (hh : (∀ left i n, Frame.outByte left i n ∉ k) → s.Held) (hw : Waits s ⟨p, k⟩) : (s.suspend p k).CoderInv where
  propsRead := h.propsRead
  context := h.context
  cells := h.cells
  rangeHigh := h.rangeHigh
  reachable hr _ := h.reachable hr
  carryShort hd := hh fun left i n hm => hd ⟨_, left, i, n, rfl, hm⟩
  waits w hs := by
    cases hs
    exact hw.of_eq

/-- A packet that waits. -/
theorem RunWait.coderInv {s : State} {p : Prim} {k : List Frame} (h : RunWait s ⟨p, k⟩) : (s.suspend p k).CoderInv where
  propsRead _ _ := h.running.props
  context _ := h.running.context
  cells _ := h.running.coding.cells
  rangeHigh _ := h.running.coding.rangeHigh
  reachable _ hb := by
    by_cases hm : ∃ d n, Frame.repeatPut d n ∈ k
    · obtain ⟨d, n, hm⟩ := hm
      exact h.reaches d n hm
    · obtain ⟨fuel, hf⟩ := h.run
      exact absurd ⟨_, fuel, rfl, hf, fun d n hn => hm ⟨d, n, hn⟩⟩ hb
  carryShort hd := h.held fun left i n hm => hd ⟨_, left, i, n, rfl, hm⟩
  waits w hs := by
    cases hs
    exact h.waits.of_eq

theorem State.Running.regs {s : State} (h : s.Running) (hr : s.Reaches) : s.CoderRegs :=
  ⟨h.alone, fun _ _ => h.props, fun _ => h.context, fun _ => h.coding.cells, fun _ => h.coding.rangeHigh, fun _ => hr⟩

/-- RUN starts, or goes on, from the two invariants. -/
theorem running_of_inv {s : State} (hi : s.Inv) (hc : s.CoderInv) (hr : s.status = .running) (hq : s.sq.seq = .lzmaRun) :
    State.Running { s with susp := none } := by
  have hp : s.sq.needProps = false := hc.propsRead hr (.inr (.inr (.inl hq)))
  have hy : s.coderReady := ⟨hr, hp, by simp [hq], by simp [hq, Seq.readsSize]⟩
  exact ⟨rfl, hr, hq, hp, hi.filterKnown hr, hc.context hy, hi.pbLe, hi.validLe, hi.probsWf, hc.cells hy, hc.rangeHigh hy⟩

/-! ## How an operation of the sequencer ends -/

/-- An operation that does not stop and ends in the coder's invariant. -/
def Keeps (r : Res) : Prop :=
  r.Ends (fun _ t => t.CoderInv) (fun p k t => (t.suspend p k).CoderInv) State.CoderInv

theorem Keeps.finish {r : Res} (h : Keeps r) : ∃ t, Machine.finish r = .next t ∧ t.CoderInv := by
  cases r with
  | done v t => exact ⟨t, rfl, h⟩
  | hold p k t => exact ⟨_, rfl, h⟩
  | fail t => exact ⟨t, rfl, h⟩
  | stop x => exact h.elim

theorem Keeps.done {v : Nat} {s : State} (h : s.CoderRegs) (hh : s.Held) : Keeps (.done v s) := coderInv_of_regs h hh

theorem Keeps.raise {s : State} (hh : s.Held) (k : ErrKind) : Keeps (Machine.raise k s) := coderInv_raised hh k

/-- RUN keeps the invariant of the coder. -/
theorem Runs.keeps {r : Res} (h : Runs r) : Keeps r := by
  refine Res.Ends.mono h ?_ (fun p k t h => h.coderInv) fun t => coderInv_of_error
  rintro v t (⟨ht, hh, hr⟩ | ⟨u, hu, hh, hr, rfl⟩)
  · exact coderInv_of_regs (ht.regs hr) hh
  · exact coderInv_of_regs ⟨hu.alone, fun _ _ => hu.props, fun _ => hu.context, fun _ => hu.coding.cells,
      fun _ => (by decide : (0x01000000 : Word32) ≤ 0xFFFFFFFF), fun _ => hr⟩ hh

/-- What an operation does once the byte at its start is there. -/
theorem inByte_keeps {s : State} (h : s.CoderRegs) (hh : s.Held) {fr : Frame} {f : Nat → State → Res}
    (hw : Waits s ⟨.inByte, [fr]⟩)
    (hf : ∀ (b : Byte) r, s.io.input = b :: r → Keeps (f b.toNat { s with io := { s.io with input := r } })) :
    Keeps ((inByte s).bind fr f) := by
  rcases inByte_cases s with ⟨b, r, hi, he⟩ | ⟨hi, hn, he⟩ | ⟨hi, hn, he⟩
  · rw [he]
    exact hf b r hi
  · rw [he]
    exact coderInv_raised hh .buf
  · rw [he]
    exact coderInv_suspend h (fun _ => hh) hw

/-! ## CONTROL and END -/

/-- `seq` = control in the middle of a block. -/
structure State.AtControl (s : State) : Prop where
  regs : s.CoderRegs
  running : s.status = .running
  seq : s.sq.seq = .control

theorem State.AtControl.ready {s : State} (h : s.AtControl) (hp : s.sq.needProps = false) : s.coderReady :=
  ⟨h.running, hp, by simp [h.seq], by simp [h.seq, Seq.readsSize]⟩

/-- BCJ_FLUSH and the end of the stream, from any byte on. -/
theorem flushBytes_keeps (l : List Byte) {s : State} (h : s.AtControl) (hh : s.Held)
    (hl : l.length ≤ carryBound s.cfg.bcjArch) : Keeps ((flushBytes l s).bind .endMark fun _ s =>
      .done 0 { s with status := .streamEnd }) := by
  induction l generalizing s with
  | nil =>
    exact coderInv_of_regs (coderRegs_of_not_ready h.regs.alone (fun h => nomatch h.1) fun h => nomatch h) (Nat.zero_le _)
  | cons b l ih =>
    simp only [List.length_cons] at hl
    rw [flushBytes]
    rcases deliver_cases b s with ⟨-, he⟩ | ⟨-, he⟩
    · rw [he]
      exact coderInv_suspend h.regs (fun _ => hh) (.flush b l h.seq (by omega))
    · rw [he]
      exact ih (s := { s.deliver b with bcj := { (s.deliver b).bcj with carry := l } })
        ⟨h.regs.of_eq, h.running,
          h.seq⟩ (by simp only [State.Held, State.deliver_cfg]; omega) (by simp only [State.deliver_cfg]; omega)

theorem controlByte_keeps (c : Byte) {s : State} (h : s.AtControl) (hh : s.Held) : Keeps (controlByte c s) := by
  obtain ⟨hr, hs, hq⟩ := h
  unfold controlByte
  split
  · exact flushBytes_keeps _ ⟨hr, hs, hq⟩ hh hh
  split
  · next hc =>
    unfold chunkControlByte lzmaControlByte
    split
    · next h80 =>
      have hE0 : 0xC0 ≤ c.toNat := by
        simp only [resetsDict, Bool.or_eq_true, decide_eq_true_eq, beq_iff_eq] at hc
        rcases hc with h | rfl
        · omega
        · simp at h80
      simp only [hE0, if_true]
      exact .done (coderRegs_of_not_ready hr.alone (fun h => h.2.2.2 trivial rfl) fun _ _ => rfl) hh
    · split
      · exact .raise (by exact hh) .data
      · refine .done (coderRegs_of_not_ready hr.alone (fun h => nomatch h.2.1) fun _ h => ?_) hh
        rcases h with h | h | h | ⟨-, h⟩
        · cases h
        · cases h
        · cases h
        · exact absurd rfl h
  split
  · exact .raise (by exact hh) .data
  unfold chunkControlByte lzmaControlByte
  split
  · dsimp only
    split
    · exact .done (coderRegs_of_not_ready hr.alone (fun h => h.2.2.2 trivial rfl) fun _ _ => rfl) hh
    · split
      · exact .raise (by exact hh) .data
      · next hp =>
        have hp : s.sq.needProps = false := by simpa using hp
        have hy := State.AtControl.ready ⟨hr, hs, hq⟩ hp
        refine .done ?_ ?_
        · split
          · exact ⟨hr.alone, fun _ _ => hp, fun _ => hr.context hy, fun _ i => by simp [Prob.InRange, Probs.read,
              Sparse.read, Config.probInit], fun _ => (by decide : (0x01000000 : Word32) ≤ 0xFFFFFFFF),
              fun _ h => absurd (show 7 ≤ 0 from h) (by decide)⟩
          · exact ⟨hr.alone, fun _ _ => hp, fun _ => hr.context hy, fun _ => hr.cells hy, fun _ => hr.rangeHigh hy,
              fun _ => hr.reachable hy⟩
        · split <;> exact hh
  · split
    · exact .raise (by exact hh) .data
    · have hy := State.AtControl.ready ⟨hr, hs, hq⟩
      refine .done ⟨hr.alone, fun _ h => ?_, fun h => hr.context (hy h.2.1), fun h => hr.cells (hy h.2.1),
        fun h => hr.rangeHigh (hy h.2.1), fun h => hr.reachable (hy h.2.1)⟩ hh
      rcases h with h | h | h | ⟨-, h⟩
      · cases h
      · cases h
      · cases h
      · exact absurd rfl h

theorem control_keeps {s : State} (h : s.AtControl) (hh : s.Held) : Keeps (control s) :=
  inByte_keeps h.regs hh (.control h.seq) fun _ _ _ =>
    controlByte_keeps _ ⟨h.regs.of_eq, h.running, h.seq⟩ hh

/-! ## HEADER and PROPERTIES -/

/-- A header byte moves `seq` on; the coder is as ready as it was. -/
theorem header_keeps (b : HeaderByte) {s : State} (h : s.CoderRegs) (hh : s.Held) (hr : s.status = .running)
    (hq : s.sq.seq = seqOfHeader b) : Keeps (header b s) := by
  refine inByte_keeps h hh (.header b hq) fun x r _ => .done ?_ hh
  have hs : s.sq.seq.readsSize := by rw [hq]; cases b <;> trivial
  have hp : s.sq.nextSeq ≠ .copy → s.sq.needProps = false := fun hn => h.propsRead hr (.inr (.inr (.inr ⟨hs, hn⟩)))
  have hy : s.sq.needProps = false → s.sq.nextSeq ≠ .properties → s.coderReady := fun hp hn =>
    ⟨hr, hp, by rw [hq]; cases b <;> simp [seqOfHeader], fun _ => hn⟩
  cases b with
  | compressed2 =>
    have hy' : s.sq.needProps = false → s.sq.nextSeq.toSeq ≠ .properties → s.coderReady := fun hp hn =>
      hy hp fun he => hn (by rw [he]; rfl)
    refine ⟨h.alone, fun _ hc => hp fun hn => ?_, fun hc => h.context (hy' hc.2.1 hc.2.2.1),
      fun hc => h.cells (hy' hc.2.1 hc.2.2.1), fun hc => h.rangeHigh (hy' hc.2.1 hc.2.2.1),
      fun hc => h.reachable (hy' hc.2.1 hc.2.2.1)⟩
    simp only [Sequencer.headerByte, hn, NextSeq.toSeq] at hc
    simp [Seq.readsSize] at hc
  | _ =>
    refine ⟨h.alone, fun _ hc => ?_, fun hc => h.context (hy hc.2.1 (hc.2.2.2 trivial)),
      fun hc => h.cells (hy hc.2.1 (hc.2.2.2 trivial)), fun hc => h.rangeHigh (hy hc.2.1 (hc.2.2.2 trivial)),
      fun hc => h.reachable (hy hc.2.1 (hc.2.2.2 trivial))⟩
    rcases hc with hc | hc | hc | ⟨-, hc⟩
    · cases hc
    · cases hc
    · cases hc
    · exact hp hc

theorem propsByte_keeps (v : Byte) {s : State} (h : s.CoderRegs) (hh : s.Held) (hp : s.sq.needProps = false) :
    Keeps (propsByte v s) := by
  unfold propsByte
  split
  · exact .raise (by exact hh) .data
  · dsimp only
    split
    · exact .raise (by exact hh) .data
    · next hl =>
      exact .done ⟨h.alone, fun _ _ => hp, fun _ => by simpa using hl, fun _ i => by simp [Prob.InRange, Probs.read,
        Sparse.read, Config.probInit], fun _ => (by decide : (0x01000000 : Word32) ≤ 0xFFFFFFFF),
        fun _ h => absurd (show 7 ≤ 0 from h) (by decide)⟩ hh

theorem properties_keeps {s : State} (h : s.CoderRegs) (hh : s.Held) (hr : s.status = .running)
    (hq : s.sq.seq = .properties) : Keeps (properties s) :=
  inByte_keeps h hh (.properties hq) fun _ _ _ =>
    propsByte_keeps _ h.of_eq hh (h.propsRead hr (.inl hq))

/-! ## PREPARE -/

/-- `seq` = lzma-prepare. -/
structure State.AtPrepare (s : State) : Prop where
  regs : s.CoderRegs
  held : s.Held
  running : s.status = .running
  seq : s.sq.seq = .lzmaPrepare

/-- The end of PREPARE. -/
def prepareDone (r : Res) : Res := r.bind .prepare fun _ s => .done 0 { s with sq := { s.sq with seq := .lzmaRun } }

/-- One counted byte of RC_INIT, and then the rest of PREPARE. -/
theorem initByte_keeps {fr : Frame} {f : Nat → State → Res}
    (hw : ∀ s : State, s.sq.seq = .lzmaPrepare → Waits s ⟨.inByte, [.rcByte, fr, .prepare]⟩)
    (hf : ∀ v t, t.AtPrepare → Keeps (prepareDone (f v t))) {s : State} (h : s.AtPrepare) :
    Keeps (prepareDone (((inByte s).bind .rcByte fun v s => .done v s.countByte).bind fr f)) := by
  rcases inByte_cases s with ⟨b, r, hi, he⟩ | ⟨hi, hn, he⟩ | ⟨hi, hn, he⟩
  · rw [he]
    exact hf _ _ ⟨h.regs.of_eq, h.held,
      h.running, h.seq⟩
  · rw [he]
    exact coderInv_raised h.held .buf
  · rw [he]
    exact coderInv_suspend h.regs (fun _ => h.held) (hw s h.seq)

theorem rcInitByte_keeps {fr : Frame} {f : Nat → State → Res}
    (hw : ∀ s : State, s.sq.seq = .lzmaPrepare → Waits s ⟨.inByte, [.rcByte, fr, .prepare]⟩)
    (hf : ∀ v t, t.AtPrepare → Keeps (prepareDone (f v t))) {s : State} (h : s.AtPrepare) :
    Keeps (prepareDone ((rcByte s).bind fr f)) := by
  unfold rcByte
  split
  · exact coderInv_raised h.held .data
  · exact initByte_keeps hw hf h

theorem rcInitFrom_keeps (left : Nat) (c : Word32) {s : State} (h : s.AtPrepare) :
    Keeps (prepareDone (rcInitFrom left c s)) := by
  induction left generalizing c s with
  | zero =>
    have hp := h.regs.propsRead h.running (.inr (.inl h.seq))
    have hy : s.coderReady := ⟨h.running, hp, by simp [h.seq], by simp [h.seq, Seq.readsSize]⟩
    exact coderInv_of_regs ⟨h.regs.alone, fun _ _ => hp, fun _ => h.regs.context hy, fun _ => h.regs.cells hy,
      fun _ => (by decide : (0x01000000 : Word32) ≤ 0xFFFFFFFF), fun _ => h.regs.reachable hy⟩ h.held
  | succ left ih => exact rcInitByte_keeps (fun _ => .initNext left c) (fun v t ht => ih _ ht) h

theorem rcInitFirst_keeps (v : Nat) {s : State} (h : s.AtPrepare) : Keeps (prepareDone (rcInitFirst v s)) := by
  unfold rcInitFirst
  split
  · exact coderInv_raised h.held .data
  · exact rcInitFrom_keeps 4 0 h

theorem prepare_keeps {s : State} (h : s.AtPrepare) : Keeps (prepare s) := by
  unfold prepare
  split
  · exact coderInv_raised h.held .data
  · exact rcInitByte_keeps (fun _ => .initFirst) rcInitFirst_keeps h

/-! ## COPY -/

/-- `seq` = copy. -/
structure State.AtCopy (s : State) : Prop where
  regs : s.CoderRegs
  running : s.status = .running
  seq : s.sq.seq = .copy
  arch : archSupported s.cfg.bcjArch = true
  valid : s.dict.valid ≤ s.dict.size

/-- The end of COPY. -/
def copyEnd (r : Res) : Res := r.bind .copyDone fun _ s => .done 0 { s with sq := { s.sq with seq := .control } }

/-- A byte of the chunk goes through stage 2, and then COPY goes on. -/
theorem copyPut_keeps {fuel : Nat} (ih : ∀ t : State, t.AtCopy → t.Held → Keeps (copyEnd (copyLoop fuel t))) {s : State}
    (h : s.AtCopy) {r : Res} (hr : Puts s r) :
    Keeps (copyEnd (r.bind (.copyPut fuel) fun _ s => copyLoop fuel s.countByte)) := by
  cases r with
  | stop x => exact hr.elim
  | fail t => exact hr.elim
  | done v t =>
    obtain ⟨ht, hh⟩ := hr
    refine ih t.countByte ?_ hh
    unfold PutFrame at ht
    rw [ht]
    exact ⟨h.regs.of_eq,
      h.running, h.seq, h.arch, h.valid⟩
  | hold p l t =>
    obtain ⟨ht, b, rfl, hk⟩ := hr
    have hs : t.sq.seq = .copy := by rw [ht]; exact h.seq
    have hregs : t.CoderRegs := by
      rw [ht]
      exact h.regs.of_eq
    have hc : PutCallers t.sq.seq [.copyPut fuel, .copyDone] := by rw [hs]; exact .copied fuel
    rcases hk with ⟨rfl, hk⟩ | ⟨left, i, n, rfl, hk⟩
    · exact coderInv_suspend hregs (fun _ => hk) (.put b hc)
    · exact coderInv_suspend hregs (fun ho => absurd (by simp) (ho left i n)) (.outByte b left i n hc hk)

/-- The next byte of the chunk, and then COPY goes on. -/
theorem copyRead_keeps {fuel : Nat} (ih : ∀ t : State, t.AtCopy → t.Held → Keeps (copyEnd (copyLoop fuel t))) {s : State}
    (h : s.AtCopy) (hh : s.Held) : Keeps (copyEnd ((inByte s).bind (.copyRead fuel) fun b s =>
      (dictPut (.ofNat 8 b) s).bind (.copyPut fuel) fun _ s => copyLoop fuel s.countByte)) := by
  rcases inByte_cases s with ⟨b, r, hi, he⟩ | ⟨hi, hn, he⟩ | ⟨hi, hn, he⟩
  · rw [he]
    let u : State := { s with io := { s.io with input := r }, dict := s.dict.put (.ofNat 8 b.toNat) }
    have hu : u.AtCopy := by
      refine ⟨⟨h.regs.alone, h.regs.propsRead, h.regs.context, h.regs.cells, h.regs.rangeHigh, fun hy h7 => ?_⟩,
        h.running, h.seq, h.arch, by simp [u]⟩
      have h1 : s.lz.rep0.toNat < s.dict.valid := h.regs.reachable hy h7
      have h2 := h.valid
      show s.lz.rep0.toNat < (s.dict.put _).valid
      simp only [Dict.put_valid]
      omega
    exact copyPut_keeps ih hu (outByte_puts _ h.arch hh)
  · rw [he]
    exact coderInv_raised hh .buf
  · rw [he]
    exact coderInv_suspend h.regs (fun _ => hh) (.copyRead fuel h.seq)

theorem copyEnd_keeps {s : State} (h : s.AtCopy) (hh : s.Held) (v : Nat) : Keeps (copyEnd (.done v s)) := by
  have hy : s.sq.needProps = false → s.coderReady := fun hp =>
    ⟨h.running, hp, by simp [h.seq], by simp [h.seq, Seq.readsSize]⟩
  refine coderInv_of_regs ⟨h.regs.alone, fun _ hc => ?_, fun hc => h.regs.context (hy hc.2.1),
    fun hc => h.regs.cells (hy hc.2.1), fun hc => h.regs.rangeHigh (hy hc.2.1), fun hc => h.regs.reachable (hy hc.2.1)⟩ hh
  simp [Seq.readsSize] at hc

theorem copyLoop_keeps (fuel : Nat) (s : State) (h : s.AtCopy) (hh : s.Held) : Keeps (copyEnd (copyLoop fuel s)) := by
  induction fuel generalizing s with
  | zero => exact copyEnd_keeps h hh 0
  | succ fuel ih =>
    rw [copyLoop]
    split
    · exact copyRead_keeps ih h hh
    · exact copyEnd_keeps h hh 0

theorem copy_keeps {s : State} (h : s.AtCopy) (hh : s.Held) : Keeps (copy s) := copyLoop_keeps _ s h hh

/-! ## From the two invariants -/

/-- The operation that `seq` names, from a boundary. -/
theorem seqOp_keeps {s : State} (hi : s.Inv) (hc : s.CoderInv) (hr : s.status = .running) (hn : s.susp = none) :
    ∃ t, exec (seqInstr s.sq.seq) s = .next t ∧ t.CoderInv := by
  obtain ⟨h, hh⟩ := hc.regs hn
  cases hq : s.sq.seq with
  | control => exact (control_keeps ⟨h, hr, hq⟩ hh).finish
  | uncompressed1 => exact (header_keeps .uncompressed1 h hh hr hq).finish
  | uncompressed2 => exact (header_keeps .uncompressed2 h hh hr hq).finish
  | compressed1 => exact (header_keeps .compressed1 h hh hr hq).finish
  | compressed2 => exact (header_keeps .compressed2 h hh hr hq).finish
  | properties => exact (properties_keeps h hh hr hq).finish
  | lzmaPrepare => exact (prepare_keeps ⟨h, hh, hr, hq⟩).finish
  | lzmaRun =>
    have ht := running_of_inv hi hc hr hq
    have he : ({ s with susp := none } : State) = s := by rw [← hn]
    rw [he] at ht
    exact (runLoop_runs _ ht hh (h.reachable ⟨hr, ht.props, by simp [hq], by simp [hq, Seq.readsSize]⟩)).keeps.finish
  | copy => exact (copy_keeps ⟨h, hr, hq, hi.filterKnown hr, hi.validLe⟩ hh).finish

theorem putCallers_plain {q : Seq} {k : List Frame} (h : PutCallers q k) (left i n : Nat) : Frame.outByte left i n ∉ k := by
  cases h <;> simp

/-- An operation that waits outside RUN has left the coder as it was at a boundary. -/
theorem State.CoderInv.waitRegs {s : State} {w : Suspension} (hc : s.CoderInv) (hw : s.susp = some w)
    (hk : ∀ fuel, Frame.run fuel ∉ w.frames) : State.CoderRegs { s with susp := none } := by
  refine ⟨rfl, hc.propsRead, hc.context, hc.cells, hc.rangeHigh, fun hr => hc.reachable hr ?_⟩
  rintro ⟨v, fuel, hv, hf, -⟩
  rw [hw] at hv
  cases hv
  exact hk fuel hf

theorem State.CoderInv.waitHeld {s : State} {w : Suspension} (hc : s.CoderInv) (hw : s.susp = some w)
    (hk : ∀ left i n, Frame.outByte left i n ∉ w.frames) : State.Held { s with susp := none } := by
  refine hc.carryShort ?_
  rintro ⟨v, left, i, n, hv, hf⟩
  rw [hw] at hv
  cases hv
  exact hk left i n hf

/-- An operation that waits in RUN. -/
theorem State.CoderInv.runWait {s : State} {w : Suspension} (hi : s.Inv) (hc : s.CoderInv) (hw : s.susp = some w)
    (hq : s.sq.seq = .lzmaRun) (hk : ∃ fuel, Frame.run fuel ∈ w.frames) : RunWait { s with susp := none } w := by
  have hr := hi.suspRuns (by rw [hw]; rfl)
  have ht := running_of_inv hi hc hr hq
  refine ⟨ht, (hc.waits w hw).of_eq, hk, hc.waitHeld hw, fun d n hm => ?_⟩
  refine hc.reachable ⟨hr, ht.props, by simp [hq], by simp [hq, Seq.readsSize]⟩ ?_
  rintro ⟨v, fuel, hv, -, hno⟩
  rw [hw] at hv
  cases hv
  exact hno d n hm

/-- COPY goes on after a produced byte. -/
theorem copyWait_keeps {s : State} (h : s.AtCopy) {fuel : Nat} {r : Res} (hr : Puts s r) :
    Keeps (resumeFrames [.copyPut fuel, .copyDone] r) := copyPut_keeps (copyLoop_keeps fuel) h hr

/-- A waiting operation goes on in the statement where it waits. -/
theorem resume_keeps {s : State} {w : Suspension} (hi : s.Inv) (hc : s.CoderInv) (hw : s.susp = some w) :
    Keeps (resume w { s with susp := none }) := by
  have hr := hi.suspRuns (by rw [hw]; rfl)
  have hregs := hc.waitRegs hw
  have hheld := hc.waitHeld hw
  have hrun := hc.runWait hi hw
  cases hc.waits w hw with
  | control h => exact control_keeps ⟨hregs (by simp), hr, h⟩ (hheld (by simp))
  | header b h => exact header_keeps b (hregs (by simp)) (hheld (by simp)) hr h
  | properties h => exact properties_keeps (hregs (by simp)) (hheld (by simp)) hr h
  | initFirst h =>
    exact initByte_keeps (fun _ => .initFirst) rcInitFirst_keeps ⟨hregs (by simp), hheld (by simp), hr, h⟩
  | initNext left c h =>
    exact initByte_keeps (fun _ => .initNext left c) (fun _ _ ht => rcInitFrom_keeps left _ ht)
      ⟨hregs (by simp), hheld (by simp), hr, h⟩
  | norm h hk =>
    obtain ⟨-, -, fuel, hf⟩ := normCallers_plain hk
    exact (hrun h ⟨fuel, by simp [hf]⟩).resume.keeps
  | copyRead fuel h =>
    exact copyRead_keeps (copyLoop_keeps fuel)
      ⟨hregs (by simp), hr, h, hi.filterKnown hr, hi.validLe⟩ (hheld (by simp))
  | @put k b hk =>
    generalize hq : s.sq.seq = q at hk
    cases hk with
    | literal fuel => exact (hrun hq ⟨fuel, by simp⟩).resume.keeps
    | repeated dist left fuel => exact (hrun hq ⟨fuel, by simp⟩).resume.keeps
    | copied fuel =>
      exact copyWait_keeps ⟨hregs (by simp), hr, hq, hi.filterKnown hr, hi.validLe⟩
        (deliver_puts b (hheld (by simp)))
  | @outByte k b left i n hk hn =>
    generalize hq : s.sq.seq = q at hk
    cases hk with
    | literal fuel => exact (hrun hq ⟨fuel, by simp⟩).resume.keeps
    | repeated dist l fuel => exact (hrun hq ⟨fuel, by simp⟩).resume.keeps
    | copied fuel =>
      exact copyWait_keeps ⟨hregs (by simp), hr, hq, hi.filterKnown hr, hi.validLe⟩
        (outByte_goes_on b left i n hn)
  | flush b rest h hrest =>
    have ha : State.AtControl { s with susp := none } := ⟨hregs (by simp), hr, h⟩
    rcases deliver_cases b { s with susp := none } with ⟨-, he⟩ | ⟨-, he⟩
    · show Keeps (resumeFrames [.flush rest, .endMark] (deliver b _))
      rw [he]
      exact coderInv_suspend ha.regs (fun _ => hheld (by simp)) (.flush b rest h hrest)
    · show Keeps (resumeFrames [.flush rest, .endMark] (deliver b _))
      rw [he]
      exact flushBytes_keeps rest ⟨ha.regs.of_eq, hr, h⟩ hrest hrest

end Sys2Proof.Machine
end

