-- ==== Sys2Proof/Laws/PerInstr.lean ====
section
/-! SUPPORT. The family `Encoding`: the words of every instruction have the size that its format has (30_encoding.md R67, R71
to R77). One lemma per constructor. -/

namespace Sys2Proof.Laws.Encoding

/-- The bytes of a unit of a byte format (R67, R71, R72, R76, R77); 0 for the formats that are bits. -/
def unitBytes : Format → Nat
  | .control | .props | .dictProp | .checkType => 1
  | .bcj .x86 => 5
  | .bcj _ => 4
  | .ia64Slot _ => 16
  | .packet _ | .length | .distance => 0

/-- The greatest count of bits of a unit of a bit format (R73, R74, R75); 0 for the formats that are bytes. -/
def unitBits : Format → Nat
  | .packet _ => 5
  | .length => 10
  | .distance => 36
  | .control | .props | .dictProp | .checkType | .bcj _ | .ia64Slot _ => 0

/-- Words of the size of their format. -/
def Fits (f : Format) : Code → Prop
  | .bytes l => l.length = unitBytes f ∧ 0 < unitBytes f
  | .bits l => 0 < l.length ∧ l.length ≤ unitBits f

/-- An instruction that has an encoding has one of its format's size. -/
def Statement (i : Instr) : Prop := ∀ w, encode i = some w → Fits w.1 w.2

theorem of_encode {i : Instr} {f : Format} {c : Code} (h : encode i = some (f, c)) (hf : Fits f c) : Statement i := by
  intro w hw
  rw [h] at hw
  cases hw
  exact hf

theorem of_none {i : Instr} (h : encode i = none) : Statement i := by
  intro w hw
  rw [h] at hw
  cases hw

@[simp] theorem putLe_size {w : Nat} (x : BitVec w) (n : Nat) : (putLe x n).length = n := by
  induction n with
  | zero => rfl
  | succ n ih => simp [putLe, ih]

@[simp] theorem putBe_size {w : Nat} (x : BitVec w) (n : Nat) : (putBe x n).length = n := by
  induction n with
  | zero => rfl
  | succ n ih => simp [putBe, ih]

@[simp] theorem putMsb_size (v n : Nat) : (putMsb v n).length = n := by
  induction n with
  | zero => rfl
  | succ n ih => simp [putMsb, ih]

@[simp] theorem putLsb_size (v n : Nat) : (putLsb v n).length = n := by
  induction n generalizing v with
  | zero => rfl
  | succ n ih => simp [putLsb, ih]

theorem slotExtraBits_le (slot : BitVec 6) : Instr.slotExtraBits slot ≤ 30 := by
  have := slot.isLt
  unfold Instr.slotExtraBits
  omega

theorem endMark : Statement .endMark := of_encode rfl ⟨rfl, by decide⟩

theorem uncDr : Statement .uncDr := of_encode rfl ⟨rfl, by decide⟩

theorem unc : Statement .unc := of_encode rfl ⟨rfl, by decide⟩

theorem reservedCtrl (c : Byte) : Statement (.reservedCtrl c) := of_encode rfl ⟨rfl, by decide⟩

theorem lz0 (u : BitVec 5) : Statement (.lz0 u) := of_encode rfl ⟨rfl, by decide⟩

theorem lz1 (u : BitVec 5) : Statement (.lz1 u) := of_encode rfl ⟨rfl, by decide⟩

theorem lz2 (u : BitVec 5) : Statement (.lz2 u) := of_encode rfl ⟨rfl, by decide⟩

theorem lz3 (u : BitVec 5) : Statement (.lz3 u) := of_encode rfl ⟨rfl, by decide⟩

theorem props (v : Byte) : Statement (.props v) := of_encode rfl ⟨rfl, by decide⟩

theorem dictProp (b : Byte) : Statement (.dictProp b) := of_encode rfl ⟨rfl, by decide⟩

theorem lit : Statement .lit := of_encode rfl (by simp [Fits, unitBits])

theorem mlit : Statement .mlit := of_encode rfl (by simp [Fits, unitBits])

theorem matchNew : Statement .matchNew := of_encode rfl (by simp [Fits, unitBits])

theorem shortRep : Statement .shortRep := of_encode rfl (by simp [Fits, unitBits])

theorem longRep0 : Statement .longRep0 := of_encode rfl (by simp [Fits, unitBits])

theorem longRep1 : Statement .longRep1 := of_encode rfl (by simp [Fits, unitBits])

theorem longRep2 : Statement .longRep2 := of_encode rfl (by simp [Fits, unitBits])

theorem longRep3 : Statement .longRep3 := of_encode rfl (by simp [Fits, unitBits])

theorem lenLow (t : BitVec 3) : Statement (.lenLow t) := of_encode rfl (by simp [Fits, unitBits])

theorem lenMid (t : BitVec 3) : Statement (.lenMid t) := of_encode rfl (by simp [Fits, unitBits])

theorem lenHigh (t : BitVec 8) : Statement (.lenHigh t) := of_encode rfl (by simp [Fits, unitBits])

theorem distSlot0To3 (slot : BitVec 6) : Statement (.distSlot0To3 slot) := of_encode rfl (by simp [Fits, unitBits])

theorem distSlot4To13 (slot : BitVec 6) (t : BitVec 5) : Statement (.distSlot4To13 slot t) :=
  of_encode rfl (by have := slotExtraBits_le slot; simp [Fits, unitBits]; omega)

theorem distSlot14To63 (slot : BitVec 6) (x : BitVec 26) (a : BitVec 4) : Statement (.distSlot14To63 slot x a) :=
  of_encode rfl (by have := slotExtraBits_le slot; simp [Fits, unitBits]; omega)

theorem bcjX86CallJmp (jmp : Bool) (operand : Word32) : Statement (.bcjX86CallJmp jmp operand) :=
  of_encode rfl (by simp [Fits, unitBytes, bcjBytes])

theorem bcjPpcBl (a : BitVec 24) : Statement (.bcjPpcBl a) := of_encode rfl (by simp [Fits, unitBytes, bcjBytes])

theorem bcjIa64BranchSlot (slot : Fin 3) (norm : BitVec 41) : Statement (.bcjIa64BranchSlot slot norm) :=
  of_encode rfl (by
    have := slot.isLt
    have hk : ia64BytePos slot ≤ 10 := by unfold ia64BytePos; omega
    simp [Fits, unitBytes, bcjBytes, ia64PutSlot, ia64PutInstr]
    omega)

theorem bcjArmBl (a : BitVec 24) : Statement (.bcjArmBl a) := of_encode rfl (by simp [Fits, unitBytes, bcjBytes])

theorem bcjThumbBl (a : BitVec 22) : Statement (.bcjThumbBl a) :=
  of_encode rfl (by simp [Fits, unitBytes, bcjBytes, thumbPair])

theorem bcjSparcCallPos (d : BitVec 22) : Statement (.bcjSparcCallPos d) :=
  of_encode rfl (by simp [Fits, unitBytes, bcjBytes])

theorem bcjSparcCallNeg (d : BitVec 22) : Statement (.bcjSparcCallNeg d) :=
  of_encode rfl (by simp [Fits, unitBytes, bcjBytes])

theorem checkNone : Statement .checkNone := of_encode rfl ⟨rfl, by decide⟩

theorem checkCrc32 : Statement .checkCrc32 := of_encode rfl ⟨rfl, by decide⟩

theorem checkCrc64 : Statement .checkCrc64 := of_encode rfl ⟨rfl, by decide⟩

theorem checkSha256 : Statement .checkSha256 := of_encode rfl ⟨rfl, by decide⟩

theorem checkUnsupported (b : Byte) : Statement (.checkUnsupported b) := of_encode rfl ⟨rfl, by decide⟩

theorem dictCheck : Statement .dictCheck := of_none rfl

theorem control : Statement .control := of_none rfl

theorem header (h : HeaderByte) : Statement (.header h) := of_none rfl

theorem properties : Statement .properties := of_none rfl

theorem prepare : Statement .prepare := of_none rfl

theorem run : Statement .run := of_none rfl

theorem chunkEnd : Statement .chunkEnd := of_none rfl

theorem copy : Statement .copy := of_none rfl

theorem rcInit : Statement .rcInit := of_none rfl

theorem rcNorm : Statement .rcNorm := of_none rfl

theorem rcBit (i : Nat) : Statement (.rcBit i) := of_none rfl

theorem rcTree (base n : Nat) : Statement (.rcTree base n) := of_none rfl

theorem rcTreeRev (base n : Nat) : Statement (.rcTreeRev base n) := of_none rfl

theorem rcDirect (n : Nat) : Statement (.rcDirect n) := of_none rfl

theorem rcFinished : Statement .rcFinished := of_none rfl

theorem bcjFlush : Statement .bcjFlush := of_none rfl

theorem chkUpdate (b : Byte) : Statement (.chkUpdate b) := of_none rfl

theorem chkFinalize : Statement .chkFinalize := of_none rfl

theorem dictReset : Statement .dictReset := of_none rfl

theorem lzmaStateReset : Statement .lzmaStateReset := of_none rfl

theorem rcReset : Statement .rcReset := of_none rfl

theorem hostReset (cap : Word32) : Statement (.hostReset cap) := of_none rfl

theorem hostConfig (dictProp : Byte) (bcjArch : Option Byte) (checkType : Byte) : Statement (.hostConfig dictProp bcjArch checkType) :=
  of_none rfl

theorem hostFeed (bytes : List Byte) : Statement (.hostFeed bytes) := of_none rfl

theorem hostEndInput : Statement .hostEndInput := of_none rfl

theorem hostSpace (n : Nat) : Statement (.hostSpace n) := of_none rfl

theorem hostRun : Statement .hostRun := of_none rfl

theorem hostCompare (tag : List Byte) : Statement (.hostCompare tag) := of_none rfl

end Sys2Proof.Laws.Encoding
end

