-- ==== Sys2Proof/Laws/Waiting.lean ====
section
/-! SUPPORT. An operation that waits has left `status` and the resumption point as they were; only END, which has no caller
but CONTROL, returns with another `status`; and a raise leaves no resumption point. -/

namespace Sys2Proof.Machine

/-- `status` and the resumption point are the same. -/
def Same (s t : State) : Prop := t.status = s.status ∧ t.susp = s.susp

/-- Where the operation returns or waits, both are as they were. -/
def Res.Alive (s : State) : Res → Prop
  | .done _ t | .hold _ _ t => Same s t
  | .fail t => t.susp = none
  | .stop _ => True

/-- Where the operation waits, both are as they were; where it returns, the resumption point is. -/
def Res.WaitsAs (s : State) : Res → Prop
  | .hold _ _ t => Same s t
  | .done _ t => t.susp = s.susp
  | .fail t => t.susp = none
  | .stop _ => True

/-- An operation that keeps both. -/
def AliveOp (f : State → Res) : Prop := ∀ s, (f s).Alive s

theorem Same.trans {s t u : State} (h : Same s t) (k : Same t u) : Same s u := ⟨k.1.trans h.1, k.2.trans h.2⟩

namespace Res.Alive

variable {s t : State} {r r' : Res} {fr : Frame} {f : Nat → State → Res}

theorem done (v : Nat) (h : Same s t) : (Res.done v t).Alive s := h

theorem after (ht : Same s t) (h : r.Alive t) : r.Alive s := by
  cases r with
  | done v u => exact ht.trans h
  | hold p k u => exact ht.trans h
  | fail u => exact h
  | stop x => trivial

/-- A call. -/
theorem bind (h : r.Alive s) (hf : ∀ v, AliveOp (f v)) : (r.bind fr f).Alive s := by
  cases r with
  | done v t => exact .after h (hf v t)
  | hold p k t => exact h
  | fail t => exact h
  | stop x => trivial

theorem waitsAs (h : r.Alive s) : r.WaitsAs s := by
  cases r with
  | hold p k t => exact h
  | done v t => exact h.2
  | fail t => exact h
  | stop x => trivial

/-- A call after which `status` may change. -/
theorem bindLast (h : r.Alive s) (hf : ∀ v t, (f v t).WaitsAs t) : (r.bind fr f).WaitsAs s := by
  cases r with
  | done v t =>
    have := hf v t
    show (f v t).WaitsAs s
    cases hr : f v t with
    | hold p k u =>
      rw [hr] at this
      exact h.trans this
    | done w u =>
      rw [hr] at this
      exact Eq.trans this h.2
    | fail u =>
      rw [hr] at this
      exact this
    | stop x => trivial
  | hold p k t => exact h
  | fail t => exact h
  | stop x => trivial

theorem ite {c : Prop} [Decidable c] (h : c → r.Alive s) (h' : ¬ c → r'.Alive s) : (if c then r else r').Alive s := by
  split
  · exact h ‹_›
  · exact h' ‹_›

end Res.Alive

/-! ## The primitives -/

theorem alive_raise (k : ErrKind) : AliveOp (raise k) := fun _ => rfl

theorem alive_done (v : Nat) : AliveOp (.done v) := fun _ => ⟨rfl, rfl⟩

theorem alive_inByte : AliveOp inByte := by
  intro s
  rcases inByte_cases s with ⟨b, r, -, he⟩ | ⟨-, -, he⟩ | ⟨-, -, he⟩ <;> rw [he]
  · exact ⟨rfl, rfl⟩
  · exact rfl
  · exact ⟨rfl, rfl⟩

theorem alive_deliver (b : Byte) : AliveOp (deliver b) := by
  intro s
  rcases deliver_cases b s with ⟨-, he⟩ | ⟨-, he⟩ <;> rw [he] <;> exact ⟨rfl, rfl⟩

theorem alive_runPrim (p : Prim) : AliveOp (runPrim p) := by
  cases p
  · exact alive_inByte
  · exact alive_deliver _

/-! ## The range coder -/

theorem alive_rcByte : AliveOp rcByte := fun s =>
  .ite (fun _ => alive_raise .data s) fun _ =>
    .bind (alive_inByte s) (fun v t => .done (t := t.countByte) v ⟨rfl, rfl⟩)

theorem alive_rcNorm : AliveOp rcNorm := fun s =>
  .ite
    (fun _ => .after (t := { s with rc := { s.rc with range := s.rc.range <<< 8 } }) ⟨rfl, rfl⟩
      (.bind (alive_rcByte _) (fun v t => .done (t := t.shiftIn v) 0 ⟨rfl, rfl⟩)))
    fun _ => .done 0 ⟨rfl, rfl⟩

theorem decideBit_alive (s : State) (i : Nat) : Same s (s.decideBit i).2 := by
  simp only [State.decideBit]
  split <;> exact ⟨rfl, rfl⟩

theorem alive_rcBit (i : Nat) : AliveOp (rcBit i) := fun s =>
  .ite (fun _ => .after (decideBit_alive s i) (.bind (alive_rcNorm _) (fun _ => alive_done _))) fun _ => trivial

theorem alive_rcTreeFrom (base n left sym : Nat) : AliveOp (rcTreeFrom base n left sym) := by
  induction left generalizing sym with
  | zero => exact alive_done _
  | succ left ih => exact fun s => .bind (alive_rcBit _ s) (fun b => ih _)

theorem alive_rcTree (base n : Nat) : AliveOp (rcTree base n) := alive_rcTreeFrom base n n 1

theorem alive_rcTreeRevFrom (base left k sym v : Nat) : AliveOp (rcTreeRevFrom base left k sym v) := by
  induction left generalizing k sym v with
  | zero => exact alive_done _
  | succ left ih => exact fun s => .bind (alive_rcBit _ s) (fun b => ih _ _ _)

theorem alive_rcTreeRev (base n : Nat) : AliveOp (rcTreeRev base n) := alive_rcTreeRevFrom base n 0 1 0

theorem decideDirect_alive (s : State) : Same s s.decideDirect.2 := by
  simp only [State.decideDirect]
  split <;> exact ⟨rfl, rfl⟩

theorem alive_rcDirectFrom (left v : Nat) : AliveOp (rcDirectFrom left v) := by
  induction left generalizing v with
  | zero => exact alive_done _
  | succ left ih =>
    intro s
    unfold rcDirectFrom
    exact .after (decideDirect_alive s) (.bind (alive_rcNorm _) (fun _ => ih _))

theorem alive_rcDirect (n : Nat) : AliveOp (rcDirect n) := alive_rcDirectFrom n 0

theorem alive_rcInitFrom (left : Nat) (c : Word32) : AliveOp (rcInitFrom left c) := by
  induction left generalizing c with
  | zero => exact fun s => .done (t := { s with rc := _ }) 0 ⟨rfl, rfl⟩
  | succ left ih => exact fun s => .bind (alive_rcByte s) (fun v => ih _)

theorem alive_rcInitFirst (v : Nat) : AliveOp (rcInitFirst v) := fun s =>
  .ite (fun _ => alive_raise .data s) fun _ => alive_rcInitFrom 4 0 s

theorem alive_rcInit : AliveOp rcInit := fun s => .bind (alive_rcByte s) alive_rcInitFirst

theorem alive_keep (v : Nat) : AliveOp (keep v) := fun s =>
  .done (t := { s with ret := .num v }) v ⟨rfl, rfl⟩

/-! ## Stage 2 and the dictionary -/

theorem alive_outBytes (left k n : Nat) : AliveOp (outBytes left k n) := by
  induction left generalizing k with
  | zero => exact fun s => .done (t := s.outDone n) 0 ⟨rfl, rfl⟩
  | succ left ih => exact fun s => .bind (alive_deliver _ s) (fun _ => ih _)

theorem alive_outByte (b : Byte) : AliveOp (outByte b) := by
  intro s
  unfold outByte
  split
  · exact alive_deliver b s
  · split
    · exact trivial
    · next arch _ => exact .after (t := (s.filtered arch b).1) ⟨rfl, rfl⟩ (alive_outBytes _ _ _ _)

theorem alive_dictPut (b : Byte) : AliveOp (dictPut b) := fun s =>
  .after (t := { s with dict := s.dict.put b }) ⟨rfl, rfl⟩ (alive_outByte b _)

theorem alive_repeatLoop (dist : Word32) (fuel : Nat) : AliveOp (repeatLoop dist fuel) := by
  induction fuel with
  | zero => exact alive_done _
  | succ fuel ih =>
    exact fun s => .ite
      (fun _ => .bind (alive_dictPut _ s)
        (fun _ t => .after (t := t.countCopy) ⟨rfl, rfl⟩ (ih _)))
      fun _ => .done 0 ⟨rfl, rfl⟩

theorem alive_dictRepeat (dist : Word32) : AliveOp (dictRepeat dist) := fun s =>
  .ite (fun _ => alive_raise .data s) fun _ => alive_repeatLoop dist s.lz.len s

/-! ## Packets -/

theorem alive_litByte (v : Nat) : AliveOp (litByte v) := fun s =>
  .bind (alive_dictPut _ s) (fun _ t => .done (t := t.literalDone) 0 ⟨rfl, rfl⟩)

theorem alive_lzLit : AliveOp lzLit := fun s => .bind (alive_rcTree _ _ s) alive_litByte

theorem alive_mlitFrom (c left : Nat) (mbyte offset sym : Word32) : AliveOp (mlitFrom c left mbyte offset sym) := by
  induction left generalizing mbyte offset sym with
  | zero => exact alive_litByte _
  | succ left ih =>
    exact fun s => .bind (alive_rcBit _ s) (fun b t => .ite (fun _ => ih _ _ _ t) fun _ => ih _ _ _ t)

theorem alive_lzMlit : AliveOp lzMlit := fun s => alive_mlitFrom s.litCtx 8 _ _ _ s

theorem alive_lenChoice2 (l : LenCoder) (b : Nat) : AliveOp (lenChoice2 l b) := fun s =>
  .ite
    (fun _ => .bind (alive_rcTree _ _ s)
      (fun t u => .done (t := lenMid (.ofNat 3 t) u) 0 ⟨rfl, rfl⟩))
    fun _ => .bind (alive_rcTree _ _ s)
      (fun t u => .done (t := lenHigh (.ofNat 8 t) u) 0 ⟨rfl, rfl⟩)

theorem alive_lenChoice (l : LenCoder) (b : Nat) : AliveOp (lenChoice l b) := fun s =>
  .ite
    (fun _ => .bind (alive_rcTree _ _ s)
      (fun t u => .done (t := lenLow (.ofNat 3 t) u) 0 ⟨rfl, rfl⟩))
    fun _ => .bind (alive_rcBit _ s) (alive_lenChoice2 l)

theorem alive_lzLen (l : LenCoder) : AliveOp (lzLen l) := fun s =>
  .bind (alive_rcBit _ s) (alive_lenChoice l)

theorem alive_distDirect (slot x : Nat) : AliveOp (distDirect slot x) := fun s =>
  .bind (alive_rcTreeRev _ _ s)
    (fun a u => .done (t := distSlot14To63 slot x a u) 0 ⟨rfl, rfl⟩)

theorem alive_distSlot (slot : Nat) : AliveOp (distSlot slot) := fun s =>
  .ite (fun _ => .done (t := distSlot0To3 slot s) 0 ⟨rfl, rfl⟩) fun _ =>
    .ite
      (fun _ => .bind (alive_rcTreeRev _ _ s)
        (fun t u => .done (t := distSlot4To13 slot t u) 0 ⟨rfl, rfl⟩))
      fun _ => .bind (alive_rcDirect _ s) (alive_distDirect slot)

theorem alive_lzDist : AliveOp lzDist := fun s => .bind (alive_rcTree _ _ s) alive_distSlot

theorem alive_copyMatch : AliveOp copyMatch := fun s => alive_dictRepeat s.lz.rep0 s

theorem alive_matchDist : AliveOp matchDist := fun s => .bind (alive_lzDist s) (fun _ => alive_copyMatch)

theorem alive_lzMatch : AliveOp lzMatch := fun s =>
  .after (t := s.matchStart) ⟨rfl, rfl⟩
    (.bind (alive_lzLen _ _) (fun _ => alive_matchDist))

theorem alive_lzShortRep : AliveOp lzShortRep := fun s =>
  .after (t := s.shortRepStart) ⟨rfl, rfl⟩ (alive_copyMatch _)

theorem alive_lzLongRep (n : Nat) : AliveOp (lzLongRep n) := fun s =>
  .after (t := s.longRepStart n) ⟨rfl, rfl⟩
    (.bind (alive_lzLen _ _) (fun _ => alive_copyMatch))

theorem alive_afterIsRep2 (b : Nat) : AliveOp (afterIsRep2 b) := fun s =>
  .ite (fun _ => alive_lzLongRep 2 s) fun _ => alive_lzLongRep 3 s

theorem alive_afterIsRep1 (b : Nat) : AliveOp (afterIsRep1 b) := fun s =>
  .ite (fun _ => alive_lzLongRep 1 s) fun _ => .bind (alive_rcBit _ s) alive_afterIsRep2

theorem alive_afterIsRep0Long (b : Nat) : AliveOp (afterIsRep0Long b) := fun s =>
  .ite (fun _ => alive_lzShortRep s) fun _ => alive_lzLongRep 0 s

theorem alive_afterIsRep0 (b : Nat) : AliveOp (afterIsRep0 b) := fun s =>
  .ite (fun _ => .bind (alive_rcBit _ s) alive_afterIsRep0Long) fun _ =>
    .bind (alive_rcBit _ s) alive_afterIsRep1

theorem alive_afterIsRep (b : Nat) : AliveOp (afterIsRep b) := fun s =>
  .ite (fun _ => alive_lzMatch s) fun _ => .bind (alive_rcBit _ s) alive_afterIsRep0

theorem alive_afterIsMatch (b : Nat) : AliveOp (afterIsMatch b) := fun s =>
  .ite (fun _ => .ite (fun _ => alive_lzLit s) fun _ => alive_lzMlit s) fun _ =>
    .bind (alive_rcBit _ s) alive_afterIsRep

theorem alive_lzPacket : AliveOp lzPacket := fun s => .bind (alive_rcBit _ s) alive_afterIsMatch

/-! ## Chunks -/

theorem alive_flushBytes (l : List Byte) : AliveOp (flushBytes l) := by
  induction l with
  | nil => exact fun s => .done (t := { s with bcj := _ }) 0 ⟨rfl, rfl⟩
  | cons b l ih =>
    exact fun s => .bind (alive_deliver b s)
      (fun _ t => .after (t := { t with bcj := { t.bcj with carry := l } }) ⟨rfl, rfl⟩ (ih _))

theorem alive_bcjFlush : AliveOp bcjFlush := fun s => alive_flushBytes s.bcj.carry s

/-- END waits in its flush, before it sets `status`. -/
theorem l2End_waits (s : State) : (l2End s).WaitsAs s := (alive_bcjFlush s).bindLast fun _ _ => rfl

theorem alive_lzmaControlByte (c : Byte) : AliveOp (lzmaControlByte c) := by
  intro s
  let t : State := { s with sq := { s.sq with uncLeft := (c &&& 0x1F).toNat <<< 16, seq := .uncompressed1 } }
  refine .after (t := t) ⟨rfl, rfl⟩ <| .ite
    (fun _ => .done (t := { t with sq := { t.sq with needProps := false, nextSeq := .properties } }) 0 ⟨rfl, rfl⟩)
    fun _ => .ite (fun _ => alive_raise .data t) fun _ => ?_
  show Same t (if 0xA0 ≤ c.toNat then _ else _)
  split <;> exact ⟨rfl, rfl⟩

theorem alive_chunkControlByte (c : Byte) : AliveOp (chunkControlByte c) := fun s =>
  .ite (fun _ => alive_lzmaControlByte c s) fun _ =>
    .ite (fun _ => alive_raise .data s) fun _ =>
      .done (t := { s with sq := { s.sq with seq := .compressed1, nextSeq := .copy } }) 0
        ⟨rfl, rfl⟩

theorem controlByte_waits (c : Byte) (s : State) : (controlByte c s).WaitsAs s := by
  unfold controlByte
  split
  · exact l2End_waits s
  · refine Res.Alive.waitsAs (.ite
      (fun _ => .after (t := { s with sq := s.sq.dictResetFlags, dict := s.dict.restart }) ⟨rfl, rfl⟩
        (alive_chunkControlByte c _))
      fun _ => .ite (fun _ => alive_raise .data s) fun _ => alive_chunkControlByte c s)

theorem control_waits (s : State) : (control s).WaitsAs s :=
  (alive_inByte s).bindLast fun _ => controlByte_waits _

theorem alive_header (h : HeaderByte) : AliveOp (header h) := fun s =>
  .bind (alive_inByte s)
    (fun x t => .done (t := { t with sq := t.sq.headerByte x h }) 0 ⟨rfl, rfl⟩)

theorem alive_propsByte (v : Byte) : AliveOp (propsByte v) := fun s =>
  .ite (fun _ => alive_raise .data s) fun _ =>
    .after (t := s.setProps v) ⟨rfl, rfl⟩ <|
      .ite (fun _ => alive_raise .data _) fun _ =>
        .done (t := { (s.setProps v).lzmaStateReset with
          sq := { (s.setProps v).lzmaStateReset.sq with seq := .lzmaPrepare } }) 0 ⟨rfl, rfl⟩

theorem alive_properties : AliveOp properties := fun s =>
  .bind (alive_inByte s) (fun _ => alive_propsByte _)

theorem alive_prepare : AliveOp prepare := fun s =>
  .ite (fun _ => alive_raise .data s) fun _ =>
    .bind (alive_rcInit s)
      (fun _ t => .done (t := { t with sq := { t.sq with seq := .lzmaRun } }) 0 ⟨rfl, rfl⟩)

theorem alive_chunkEnd : AliveOp chunkEnd := fun s =>
  .ite (fun _ => alive_raise .data s) fun _ =>
    .done (t := { s with rc := .idle, sq := { s.sq with seq := .control } }) 0 ⟨rfl, rfl⟩

theorem alive_runLoop (fuel : Nat) : AliveOp (runLoop fuel) := by
  induction fuel with
  | zero => exact alive_done _
  | succ fuel ih =>
    exact fun s => .ite (fun _ => .bind (alive_lzPacket s) (fun _ => ih)) fun _ => alive_chunkEnd s

theorem alive_run : AliveOp run := fun s => alive_runLoop _ s

theorem alive_copyLoop (fuel : Nat) : AliveOp (copyLoop fuel) := by
  induction fuel with
  | zero => exact alive_done _
  | succ fuel ih =>
    exact fun s => .ite
      (fun _ => .bind (alive_inByte s)
        (fun b t => .bind (alive_dictPut _ t)
          (fun _ u => .after (t := u.countByte) ⟨rfl, rfl⟩ (ih _))))
      fun _ => .done 0 ⟨rfl, rfl⟩

theorem alive_copy : AliveOp copy := fun s =>
  .bind (alive_copyLoop _ s)
    (fun _ t => .done (t := { t with sq := { t.sq with seq := .control } }) 0 ⟨rfl, rfl⟩)

/-! ## Resumption -/

/-- Every continuation but the two outermost ones keeps both. -/
theorem alive_resumeFrame {fr : Frame} (h : fr ≠ .control ∧ fr ≠ .endMark) (v : Nat) : AliveOp (resumeFrame fr v) := by
  cases fr with
  | rcByte => exact fun t => .done (t := t.countByte) v ⟨rfl, rfl⟩
  | rcNorm => exact fun t => .done (t := t.shiftIn v) 0 ⟨rfl, rfl⟩
  | rcBit bit => exact alive_done bit
  | rcInitFirst => exact alive_rcInitFirst v
  | rcInitNext left c => exact alive_rcInitFrom left _
  | rcTree base n left sym => exact alive_rcTreeFrom base n left _
  | rcTreeRev base left k sym w => exact alive_rcTreeRevFrom base left _ _ _
  | rcDirect left w => exact alive_rcDirectFrom left w
  | ret => exact alive_keep v
  | isMatch => exact alive_afterIsMatch v
  | isRep => exact alive_afterIsRep v
  | isRep0 => exact alive_afterIsRep0 v
  | isRep0Long => exact alive_afterIsRep0Long v
  | isRep1 => exact alive_afterIsRep1 v
  | isRep2 => exact alive_afterIsRep2 v
  | litByte => exact alive_litByte v
  | litPut => exact fun t => .done (t := t.literalDone) 0 ⟨rfl, rfl⟩
  | mlit c left mbyte matchBit offset sym =>
    exact fun t => .ite (fun _ => alive_mlitFrom _ _ _ _ _ t) fun _ => alive_mlitFrom _ _ _ _ _ t
  | lenChoice l => exact alive_lenChoice l v
  | lenChoice2 l => exact alive_lenChoice2 l v
  | lenLow => exact fun u => .done (t := lenLow (.ofNat 3 v) u) 0 ⟨rfl, rfl⟩
  | lenMid => exact fun u => .done (t := lenMid (.ofNat 3 v) u) 0 ⟨rfl, rfl⟩
  | lenHigh => exact fun u => .done (t := lenHigh (.ofNat 8 v) u) 0 ⟨rfl, rfl⟩
  | distSlot => exact alive_distSlot v
  | distSpecial slot => exact fun u => .done (t := distSlot4To13 slot v u) 0 ⟨rfl, rfl⟩
  | distDirect slot => exact alive_distDirect slot v
  | distAlign slot x => exact fun u => .done (t := distSlot14To63 slot x v u) 0 ⟨rfl, rfl⟩
  | matchLen => exact alive_matchDist
  | copyMatch => exact alive_copyMatch
  | repeatPut dist fuel =>
    exact fun t => .after (t := t.countCopy) ⟨rfl, rfl⟩ (alive_repeatLoop dist fuel _)
  | control => exact absurd rfl h.1
  | header b => exact fun t => .done (t := { t with sq := t.sq.headerByte v b }) 0 ⟨rfl, rfl⟩
  | properties => exact alive_propsByte _
  | prepare => exact fun t => .done (t := { t with sq := { t.sq with seq := .lzmaRun } }) 0 ⟨rfl, rfl⟩
  | run fuel => exact alive_runLoop fuel
  | copyRead fuel =>
    exact fun t => .bind (alive_dictPut _ t)
      (fun _ u => .after (t := u.countByte) ⟨rfl, rfl⟩ (alive_copyLoop fuel _))
  | copyPut fuel =>
    exact fun t => .after (t := t.countByte) ⟨rfl, rfl⟩ (alive_copyLoop fuel _)
  | copyDone =>
    exact fun t => .done (t := { t with sq := { t.sq with seq := .control } }) 0 ⟨rfl, rfl⟩
  | outByte left k n => exact alive_outBytes left k n
  | flush rest =>
    exact fun t => .after (t := { t with bcj := { t.bcj with carry := rest } }) ⟨rfl, rfl⟩
      (alive_flushBytes rest _)
  | endMark => exact absurd rfl h.2

/-- Every continuation waits as it started. -/
theorem resumeFrame_waits (fr : Frame) (v : Nat) (s : State) : (resumeFrame fr v s).WaitsAs s := by
  by_cases hc : fr = .control
  · rw [hc]
    exact controlByte_waits _ s
  · by_cases he : fr = .endMark
    · rw [he]
      rfl
    · exact (alive_resumeFrame ⟨hc, he⟩ v s).waitsAs

/-- The callers go on one after the other, CONTROL and END only at the end. -/
theorem resumeFrames_waits {k : List Frame} (hk : ∀ fr ∈ k.dropLast, fr ≠ .control ∧ fr ≠ .endMark) {s : State} {r : Res}
    (h : r.Alive s) : (resumeFrames k r).WaitsAs s := by
  induction k generalizing r with
  | nil => exact h.waitsAs
  | cons fr k ih =>
    cases k with
    | nil => exact h.bindLast (resumeFrame_waits fr)
    | cons fr' k =>
      exact ih (fun x hx => hk x (by simp [hx])) (h.bind (alive_resumeFrame (hk fr (by simp))))

/-- A resumed operation that waits again is as it was. -/
theorem resume_waits {w : Suspension} (hk : ∀ fr ∈ w.frames.dropLast, fr ≠ .control ∧ fr ≠ .endMark) (s : State) :
    (resume w s).WaitsAs s := resumeFrames_waits hk (alive_runPrim w.prim s)

/-- What the sequencer can run waits as it started. -/
theorem exec_seqInstr_waits (q : Seq) :
    ∃ f, EngineOp f ∧ (∀ s, (f s).WaitsAs s) ∧ ∀ s, exec (seqInstr q) s = finish (f s) := by
  cases q
  · exact ⟨control, engineOp_control, control_waits, fun _ => rfl⟩
  · exact ⟨header .uncompressed1, engineOp_header _, fun s => (alive_header _ s).waitsAs, fun _ => rfl⟩
  · exact ⟨header .uncompressed2, engineOp_header _, fun s => (alive_header _ s).waitsAs, fun _ => rfl⟩
  · exact ⟨header .compressed1, engineOp_header _, fun s => (alive_header _ s).waitsAs, fun _ => rfl⟩
  · exact ⟨header .compressed2, engineOp_header _, fun s => (alive_header _ s).waitsAs, fun _ => rfl⟩
  · exact ⟨properties, engineOp_properties, fun s => (alive_properties s).waitsAs, fun _ => rfl⟩
  · exact ⟨prepare, engineOp_prepare, fun s => (alive_prepare s).waitsAs, fun _ => rfl⟩
  · exact ⟨run, engineOp_run, fun s => (alive_run s).waitsAs, fun _ => rfl⟩
  · exact ⟨copy, engineOp_copy, fun s => (alive_copy s).waitsAs, fun _ => rfl⟩

end Sys2Proof.Machine
end

