-- ==== Sys2Proof/Tests/Slice0.lean ====
section
/-! SUPPORT. Tests: ill-formed terms, words written out from the spec's encodings, single steps with results taken from
95_test_vectors.md and the examples of the rules, and a witness for the hypotheses of every obligation that has some. -/

namespace Sys2Proof.Tests

open Sys2Proof.Machine

/-- The next state of an outcome. -/
def next? : Host.Outcome State Fault Refusal → Option State
  | .next t => some t
  | _ => none

/-- A block in the middle of a HOST_RUN: zero bytes of input, space for 400 bytes, three zero bytes in the dictionary. -/
def base : State :=
  { State.reset with
    status := .running
    sq := { seq := .control, nextSeq := .copy, uncLeft := 300, compLeft := 60, needDictReset := false, needProps := false }
    dict := { size := 4096, mem := [], pos := 3, valid := 3 }
    io := { input := List.replicate 60 0, inputEnded := false, output := [], space := 400 }
    host := { queue := [], inRun := true, runReturn := none } }

/-- `base` with other unread input. -/
def withInput (l : List Byte) : State := { base with io := { base.io with input := l } }

/-- `base` at another point of the chunk sequence. -/
def atSeq (q : Seq) (l : List Byte) : State := { withInput l with sq := { base.sq with seq := q } }

/-- `base` with a range coder. -/
def withRc (range code : Word32) : State := { base with rc := ⟨range, code⟩ }

/-- `base` with stage 2 at a position, with held bytes. -/
def withCarry (pos : Word32) (l : List Byte) : State := { base with bcj := { pos := pos, carry := l, x86PrevMask := 0 } }

/-- `base` with a check engine. -/
def withCheck (e : CheckEngine) (n : Nat) : State := { base with chk := { base.chk with engine := e, tagLen := n } }

/-- `base` with a dictionary that holds the bytes of a list, oldest first. -/
def withBytes (l : List Byte) : State := { base with dict := l.foldl Dict.put { base.dict with pos := 0, valid := 0 } }

/-- A finished block whose payload is "a", with its CRC32 (§2.5). -/
def finished : State :=
  { base with
    status := .streamEnd
    chk := { base.chk with engine := .crc32, tagLen := 4, crc32 := 0xE8B7BE43 }
    host := { queue := [], inRun := false, runReturn := some { status := .streamEnd, wait := none } } }

/-! ## Ill-formed terms, one per check -/

theorem test_wf_reservedCtrl : (Instr.reservedCtrl 0x02).wellFormed = false ∧ (Instr.reservedCtrl 0x80).wellFormed = false := by
  decide
theorem test_wf_distSlot0To3 : (Instr.distSlot0To3 4).wellFormed = false := by decide
theorem test_wf_distSlot4To13 : (Instr.distSlot4To13 14 0).wellFormed = false ∧ (Instr.distSlot4To13 4 2).wellFormed = false := by
  decide
theorem test_wf_distSlot14To63 :
    (Instr.distSlot14To63 13 0 0).wellFormed = false ∧ (Instr.distSlot14To63 14 4 0).wellFormed = false := by decide
theorem test_wf_ia64 : (Instr.bcjIa64BranchSlot 0 0).wellFormed = false ∧
    (Instr.bcjIa64BranchSlot 0 0x0A000000200).wellFormed = false := by decide
theorem test_wf_checkUnsupported : (Instr.checkUnsupported 0x0A).wellFormed = false := by decide
theorem test_wf_rcBit : (Instr.rcBit 14134).wellFormed = false := by decide
theorem test_wf_rcTree : (Instr.rcTree 0 9).wellFormed = false ∧ (Instr.rcTree 14000 8).wellFormed = false := by decide
theorem test_wf_rcTreeRev : (Instr.rcTreeRev 0 0).wellFormed = false ∧ (Instr.rcTreeRev 14133 1).wellFormed = false := by decide
theorem test_wf_rcDirect : (Instr.rcDirect 1).wellFormed = false ∧ (Instr.rcDirect 27).wellFormed = false := by decide
theorem test_wf_hostCompare : (Instr.hostCompare [0]).wellFormed = false := by decide

/-! ## Words written out from 30_encoding.md -/

/-- R67, R68: the control bytes. -/
theorem test_decode_control :
    [0b00000000, 0b00000001, 0b00000010, 0b00000011, 0b01111111, 0b10000001, 0b10111111, 0b11000000, 0b11110000].map
      decodeControl =
    [.endMark, .uncDr, .unc, .reservedCtrl 3, .reservedCtrl 127, .lz0 1, .lz1 31, .lz2 0, .lz3 16] := by decide

/-- R71, R72: a property byte is its own field. -/
theorem test_decode_props : decode .props (.bytes [0x5D, 0]) = .ok (.props 0x5D, .bytes [0]) ∧
    decode .dictProp (.bytes [0x1C]) = .ok (.dictProp 28, .bytes []) ∧ decode .props (.bytes []) = .error .truncated := by decide

/-- R77: the check types. -/
theorem test_decode_checkType : [0x00, 0x01, 0x04, 0x0A, 0x02].map decodeCheckType =
    [.checkNone, .checkCrc32, .checkCrc64, .checkSha256, .checkUnsupported 2] := by decide

/-- R73: the prefix code of the packets. -/
theorem test_decode_packet :
    decodePacket true [false] = .ok (.lit, []) ∧ decodePacket false [false] = .ok (.mlit, []) ∧
    decodePacket true [true, false] = .ok (.matchNew, []) ∧
    decodePacket true [true, true, false, false] = .ok (.shortRep, []) ∧
    decodePacket true [true, true, false, true] = .ok (.longRep0, []) ∧
    decodePacket true [true, true, true, false] = .ok (.longRep1, []) ∧
    decodePacket true [true, true, true, true, false] = .ok (.longRep2, []) ∧
    decodePacket true [true, true, true, true, true] = .ok (.longRep3, []) ∧
    decodePacket true [true, true] = .error .truncated := by decide

/-- R74: `0ttt`, `10ttt`, `11tttttttt`. The length 139 of V-LZ-8 is `18 + 121`. -/
theorem test_decode_length :
    decodeLength [false, true, false, false] = .ok (.lenLow 4, []) ∧
    decodeLength [true, false, false, false, true] = .ok (.lenMid 1, []) ∧
    decodeLength [true, true, false, true, true, true, true, false, false, true] = .ok (.lenHigh 121, []) := by decide

/-- R75: slot 3; slot 4 with one reverse bit; slot 19 with the direct bits 1110 and the align bits of 12, of V-LZ-9. -/
theorem test_decode_distance :
    decodeDistance [false, false, false, false, true, true] = .ok (.distSlot0To3 3, []) ∧
    decodeDistance [false, false, false, true, false, false, true] = .ok (.distSlot4To13 4 1, []) ∧
    decodeDistance [false, false, false, true, true, false, true, false] = .ok (.distSlot4To13 6 1, []) ∧
    decodeDistance [false, true, false, false, true, true, true, true, true, false, false, false, true, true] =
      .ok (.distSlot14To63 19 14 12, []) := by decide

/-- R76: the BCJ words of V-BCJ-1, 2, 11, 12, 15, 16, 19, and a CALL with bits 29..22 set. -/
theorem test_decode_bcj :
    decodeBcj .x86 [0xE8, 0x05, 0x01, 0x00, 0x00, 0x90] = .ok (.bcjX86CallJmp false 0x105, [0x90]) ∧
    decodeBcj .x86 [0xE9, 0x00, 0x10, 0x00, 0x00] = .ok (.bcjX86CallJmp true 0x1000, []) ∧
    decodeBcj .powerpc [0x48, 0x00, 0x01, 0x09] = .ok (.bcjPpcBl 0x42, []) ∧
    decodeBcj .arm [0x42, 0x00, 0x00, 0xEB] = .ok (.bcjArmBl 0x42, []) ∧
    decodeBcj .armthumb [0x00, 0xF0, 0x82, 0xF8] = .ok (.bcjThumbBl 0x82, []) ∧
    decodeBcj .sparc [0x40, 0x00, 0x00, 0x42] = .ok (.bcjSparcCallPos 0x42, []) ∧
    decodeBcj .sparc [0x7F, 0xFF, 0xFF, 0xFF] = .ok (.bcjSparcCallNeg 0x3FFFFF, []) := by decide

/-- What is no branch: V-BCJ-10, B of V-BCJ-14, V-BCJ-18, V-BCJ-20, a PowerPC branch without link. -/
theorem test_decode_bcj_refused :
    decodeBcj .x86 [0x0F, 0x80, 0x10, 0x00, 0x00] = .error .notABranch ∧
    decodeBcj .arm [0x00, 0x00, 0x00, 0xEA] = .error .notABranch ∧
    decodeBcj .armthumb [0x00, 0xF0, 0x00, 0xF0] = .error .notABranch ∧
    decodeBcj .sparc [0x40, 0x40, 0x00, 0x00] = .error .notABranch ∧
    decodeBcj .powerpc [0x48, 0x00, 0x01, 0x08] = .error .notABranch ∧
    decodeBcj .x86 [0xE8, 0, 0, 0] = .error .truncated := by decide

/-- R76, R120: the bundle of V-BCJ-22, template 0x10: slot 2 holds opcode 5 and the field 0x10, and the other two slots are
not selected. -/
theorem test_decode_ia64 :
    decodeIa64Slot 2 [0x10, 0, 0, 0, 0, 0, 0, 0, 0, 0, 0, 0, 0, 0x01, 0, 0x50] =
      .ok (.bcjIa64BranchSlot 2 (0xA000000000 ||| (0x10 <<< 13)), []) ∧
    decodeIa64Slot 1 [0x10, 0, 0, 0, 0, 0, 0, 0, 0, 0, 0, 0, 0, 0x01, 0, 0x50] = .error .slotNotSelected := by decide

/-- The table's own numbering: a control byte, and one word of each BCJ row with fixed bits. -/
theorem test_decodeTableWord :
    decodeTableWord 8 0xE0 = some (.lz3 0) ∧ decodeTableWord 32 0x48000001 = some (.bcjPpcBl 0) ∧
    decodeTableWord 32 0xEB000000 = some (.bcjArmBl 0) ∧ decodeTableWord 32 0xF800F000 = some (.bcjThumbBl 0) ∧
    decodeTableWord 32 0x40000000 = some (.bcjSparcCallPos 0) ∧ decodeTableWord 32 0x7FC00000 = some (.bcjSparcCallNeg 0) ∧
    decodeTableWord 40 0xE8 = some (.bcjX86CallJmp false 0) ∧
    decodeTableWord 48 0x0A000000000 = some (.bcjIa64BranchSlot 0 0x0A000000000) := by decide

/-- V-L2-20: the largest header. -/
theorem test_chunk_header : ChunkHeader.decode [0xFF, 0xFF, 0xFF, 0xFF, 0xFF, 0x5D] =
    some (.lzma 3 0x200000 0x10000 (some 0x5D), []) := by decide

/-! ## Single steps: the range coder (§2.1) -/

/-- V-RC-1 and V-RC-4. -/
theorem test_rcBit :
    (next? (exec (.rcBit 5) (withRc 0xFFFFFFFF 0x341949EE))).map (fun t => (t.ret, t.rc, t.probs)) =
      some (.num 0, ⟨0x7FFFFC00, 0x341949EE⟩, [(5, 1056)]) ∧
    (next? (exec (.rcBit 5) (withRc 0xFFFFFFFF 0x7FFFFC00))).map (fun t => (t.ret, t.rc, t.probs)) =
      some (.num 1, ⟨0x800003FF, 0⟩, [(5, 992)]) := by decide

/-- V-RC-6: normalization after a 1. -/
theorem test_rcBit_normalizes :
    (next? (exec (.rcBit 5) { withInput [0xAB] with rc := ⟨0x01000000, 0x00800000⟩ })).map (fun t => (t.rc, t.sq.compLeft)) =
      some (⟨0x80000000, 0xAB⟩, 59) := by decide

/-- A cell that `P` does not have (R38). -/
theorem test_rcBit_noSuchCell : exec (.rcBit 14134) base = .fault (.noSuchCell 14134) := rfl

/-- R82: the byte source of a chunk that is used up. -/
theorem test_rcNorm_data :
    (next? (exec .rcNorm { withRc 0x00FFFFFF 0 with sq := { base.sq with compLeft := 0 } })).map (·.status) =
      some (.error .data) := by decide

/-- V-RC-12 and V-RC-13. -/
theorem test_rcDirect :
    (next? (exec (.rcDirect 2) (withRc 0x80000000 0x50000000))).map (fun t => (t.ret, t.rc)) =
      some (.num 2, ⟨0x20000000, 0x10000000⟩) ∧
    (next? (exec (.rcDirect 1) { withInput [0x12] with rc := ⟨0x01000000, 0x00FFFFFF⟩ })).map (fun t => (t.ret, t.rc)) =
      some (.num 1, ⟨0x80000000, 0x7FFFFF12⟩) := by decide

/-- V-RC-14. -/
theorem test_rcInit :
    (next? (exec .rcInit (withInput [0x00, 0x34, 0x19, 0x49, 0xEE]))).map (fun t => (t.rc, t.sq.compLeft)) =
      some (⟨0xFFFFFFFF, 0x341949EE⟩, 55) ∧
    (next? (exec .rcInit (withInput [0x01, 0, 0, 0, 0]))).map (fun t => (t.status, t.io.input.length)) =
      some (.error .data, 4) := by decide

/-- R86, R87: of the bits 0, 0, 1 the last is bit 0 of a tree's value and bit 2 of a reverse tree's. -/
theorem test_rcTree_order :
    (next? (exec (.rcTree 0 3) (withRc 0xFFFFFFFF 0x20000000))).map (·.ret) = some (.num 1) ∧
    (next? (exec (.rcTreeRev 0 3) (withRc 0xFFFFFFFF 0x20000000))).map (·.ret) = some (.num 4) := by decide

/-- R89, R149. -/
theorem test_rcFinished_rcReset :
    (next? (exec .rcFinished (withRc 5 0))).map (·.ret) = some (.flag true) ∧
    (next? (exec .rcFinished (withRc 5 1))).map (·.ret) = some (.flag false) ∧
    (next? (exec .rcReset (withRc 5 1))).map (·.rc) = some ⟨0xFFFFFFFF, 0⟩ := by decide

/-! ## Single steps: chunks (§2.2) -/

/-- END after held bytes: they are flushed, and `bcj_pos` does not advance (R94, R116). -/
theorem test_endMark : (next? (exec .endMark (withCarry 5 [0x90]))).map (fun t => (t.status, t.io.output, t.bcj.pos)) =
    some (.streamEnd, [0x90], 5) := by decide

/-- P1: 0x01 clears `need_dict_reset` and sets `need_props`; V-L2-4: 0x02 as the first chunk. -/
theorem test_uncompressed :
    (next? (exec .uncDr { base with sq := State.reset.sq })).map (fun t => (t.sq.needDictReset, t.sq.needProps, t.dict.valid)) =
      some (false, true, 0) ∧
    (next? (exec .unc { base with sq := State.reset.sq })).map (·.status) = some (.error .data) ∧
    (next? (exec .unc base)).map (·.sq.seq) = some .compressed1 := by decide

/-- V-L2-6, V-L2-8. -/
theorem test_reservedCtrl :
    (next? (exec (.reservedCtrl 3) { base with sq := State.reset.sq })).map (·.status) = some (.error .data) ∧
    (next? (exec (.reservedCtrl 0x7F) base)).map (·.status) = some (.error .data) := by decide

/-- V-L2-5, V-L2-9, and LZ0 and LZ1 where they are legal: the second resets the state. -/
theorem test_lz0_lz1 :
    (next? (exec (.lz0 0) { base with sq := State.reset.sq })).map (·.status) = some (.error .data) ∧
    (next? (exec (.lz0 0) { base with sq := { base.sq with needProps := true } })).map (·.status) = some (.error .data) ∧
    (next? (exec (.lz0 31) { base with lz := { base.lz with state := 4 } })).map (fun t => (t.sq.uncLeft, t.lz.state)) =
      some (0x1F0000, 4) ∧
    (next? (exec (.lz1 0) { base with lz := { base.lz with state := 4 } })).map (fun t => (t.sq.nextSeq, t.lz.state)) =
      some (.lzmaPrepare, 0) := by decide

/-- P2's chunk 2 resets the properties but not the dictionary; a chunk 0xE0 resets both. -/
theorem test_lz2_lz3 :
    (next? (exec (.lz2 0) base)).map (fun t => (t.sq.nextSeq, t.dict.valid)) = some (.properties, 3) ∧
    (next? (exec (.lz3 0) { base with sq := State.reset.sq })).map
      (fun t => (t.status, t.sq.needDictReset, t.sq.needProps, t.dict.valid)) = some (.running, false, false, 0) := by decide

/-- The properties table of §2.2: 0x5D, 0x15, 0xE1. -/
theorem test_props :
    (next? (exec (.props 0x5D) base)).map (fun t => (t.lz.lc, t.lz.lp, t.lz.pb, t.sq.seq)) = some (3, 0, 2, .lzmaPrepare) ∧
    (next? (exec (.props 0x15) base)).map (·.status) = some (.error .data) ∧
    (next? (exec (.props 0xE1) base)).map (·.status) = some (.error .data) := by decide

/-- CONTROL and PROPERTIES read the byte they run; HEADER of V-L2-20's last size byte. -/
theorem test_byte_operations :
    (next? (exec .control (withInput [0x01, 7]))).map (fun t => (t.sq.seq, t.io.input)) = some (.compressed1, [7]) ∧
    (next? (exec .properties (withInput [0x5D, 7]))).map (fun t => (t.lz.lc, t.io.input)) = some (3, [7]) ∧
    (next? (exec (.header .uncompressed2) { atSeq .uncompressed2 [0xFF] with
      sq := { base.sq with uncLeft := 0x1FFF00 } })).map (·.sq.uncLeft) = some 0x200000 := by decide

/-- V-HOST-3: no byte, and then the end of the input. -/
theorem test_control_waits :
    (next? (exec .control (withInput []))).map (·.susp) = some (some { prim := .inByte, frames := [.control] }) ∧
    (next? (exec .control { withInput [] with io := { base.io with input := [], inputEnded := true } })).map (·.status) =
      some (.error .buf) := by decide

/-- V-L2-10 and V-LZ-1's five bytes. -/
theorem test_prepare :
    (next? (exec .prepare { base with sq := { base.sq with compLeft := 4 } })).map (·.status) = some (.error .data) ∧
    (next? (exec .prepare (withInput [0x00, 0x34, 0x19, 0x49, 0xEE]))).map (fun t => (t.rc.code, t.sq.seq)) =
      some (0x341949EE, .lzmaRun) := by decide

/-- R99: a clean end, and a byte left. RUN with no byte left to produce is the same (R98). -/
theorem test_chunkEnd :
    (next? (exec .chunkEnd { base with sq := { base.sq with compLeft := 0 } })).map (fun t => (t.status, t.sq.seq)) =
      some (.running, .control) ∧
    (next? (exec .chunkEnd base)).map (·.status) = some (.error .data) ∧
    (next? (exec .run { base with sq := { base.sq with compLeft := 0, uncLeft := 0 } })).map (·.status) = some .running := by
  decide

/-- V-L2-2's five bytes, and P4's cut after two. -/
theorem test_copy :
    (next? (exec .copy { withInput [0x48, 0x65, 0x6C, 0x6C, 0x6F] with sq := { base.sq with compLeft := 5 } })).map
      (fun t => (t.io.output, t.sq.compLeft, t.sq.seq)) = some ([0x48, 0x65, 0x6C, 0x6C, 0x6F], 0, .control) ∧
    (next? (exec .copy { withInput [0x48, 0x65] with sq := { base.sq with compLeft := 5 } })).map
      (fun t => (t.io.output, t.sq.compLeft, t.susp.isSome)) = some ([0x48, 0x65], 3, true) := by decide +kernel

/-! ## Single steps: packets (§2.3) -/

/-- The state of V-LZ-1 after RC_INIT, its packets in the unread input. -/
def lz1 : State :=
  { withInput [0x8D, 0xE9, 0x4F, 0x7E, 0x15, 0xE0, 0x00] with
    rc := ⟨0xFFFFFFFF, 0x341949EE⟩
    lz := { State.reset.lz with lc := 3, pb := 2 }
    dict := { size := 4096, mem := [], pos := 0, valid := 0 }
    sq := { base.sq with seq := .lzmaRun, uncLeft := 17, compLeft := 7 } }

/-- V-LZ-1: "hello hello hello". -/
theorem test_run : (next? (exec .run lz1)).map (fun t => (t.io.output, t.lz.state, t.lz.rep0, t.status)) =
    some ([0x68, 0x65, 0x6C, 0x6C, 0x6F, 0x20, 0x68, 0x65, 0x6C, 0x6C, 0x6F, 0x20, 0x68, 0x65, 0x6C, 0x6C, 0x6F], 7, 5,
      .running) := by decide +kernel

/-- V-LZ-1's first literal, once its `is_match` bit is decoded. -/
theorem test_lit : (next? (exec .lit (lz1.decideBit 0).2)).map (fun t => (t.io.output, t.lz.state, t.sq.uncLeft)) =
    some ([0x68], 0, 16) := by decide +kernel

/-- R106: with `code` at 0 every bit is 0, and the first match bit of 0xFF differs: the byte is 0, and of the cells with the
match bit only 0x100 + 0x100 + 1 is used. -/
theorem test_mlit : (next? (exec .mlit { withBytes [1, 2, 0xFF] with rc := ⟨0xFFFFFFFF, 0⟩ })).map
    (fun t => (t.io.output, t.probs.map (·.1))) =
      some ([0], [2, 4, 8, 16, 32, 64, 128, 0x201].map fun k => 1846 + k) := by decide +kernel

/-- R109, R110: with `code` at 0 a MATCH has length 2 and distance 0; it is `data` in an empty dictionary. -/
theorem test_matchNew :
    (next? (exec .matchNew (withBytes [7, 8]))).map (fun t => (t.io.output, t.lz.state, t.lz.rep0, t.lz.len)) =
      some ([8, 8], 7, 0, 0) ∧
    (next? (exec .matchNew (withBytes []))).map (fun t => (t.status, t.io.output)) = some (.error .data, []) := by
  decide +kernel

/-- R111. -/
theorem test_shortRep : (next? (exec .shortRep { withBytes [7, 8] with lz := { base.lz with rep0 := 1 } })).map
    (fun t => (t.io.output, t.lz.state, t.lz.rep0)) = some ([7], 9, 1) := by decide +kernel

/-- The reps of V-LZ-5: (7, 3, 0, 0) to (3, 7, 0, 0) by LONGREP1, (13, 4, 0, 3) to (3, 13, 4, 0) by LONGREP3. -/
theorem test_longRep :
    (next? (exec .longRep1 { withBytes (List.replicate 16 1) with
        lz := { base.lz with rep0 := 7, rep1 := 3 } })).map (fun t => (t.lz.rep0, t.lz.rep1, t.lz.rep2, t.lz.rep3, t.lz.state)) =
      some (3, 7, 0, 0, 8) ∧
    (next? (exec .longRep3 { withBytes (List.replicate 16 1) with
        lz := { base.lz with state := 7, rep0 := 13, rep1 := 4, rep3 := 3 } })).map
      (fun t => (t.lz.rep0, t.lz.rep1, t.lz.rep2, t.lz.rep3, t.lz.state)) = some (3, 13, 4, 0, 11) := by decide +kernel

/-- LONGREP0 keeps the reps; LONGREP2 rotates three of them (R112). -/
theorem test_longRep0_longRep2 :
    (next? (exec .longRep0 { withBytes [5] with lz := { base.lz with rep1 := 9 } })).map (fun t => (t.io.output, t.lz.rep1)) =
      some ([5, 5], 9) ∧
    (next? (exec .longRep2 { withBytes [5, 6, 7] with lz := { base.lz with rep0 := 10, rep1 := 11, rep2 := 1, rep3 := 13 } })).map
      (fun t => (t.lz.rep0, t.lz.rep1, t.lz.rep2, t.lz.rep3)) = some (1, 10, 11, 13) := by decide +kernel

/-- R74: the shortest length, the shortest of the middle form, 139 of V-LZ-8, and the longest. -/
theorem test_lengths :
    (next? (exec (.lenLow 0) base)).map (·.lz.len) = some 2 ∧ (next? (exec (.lenMid 0) base)).map (·.lz.len) = some 10 ∧
    (next? (exec (.lenHigh 121) base)).map (·.lz.len) = some 139 ∧
    (next? (exec (.lenHigh 255) base)).map (·.lz.len) = some 273 := by decide

/-- R75: slot 3; slot 4; dist 1004 of V-LZ-9; the largest distance. -/
theorem test_distances :
    (next? (exec (.distSlot0To3 3) base)).map (·.lz.rep0) = some 3 ∧
    (next? (exec (.distSlot4To13 4 1) base)).map (·.lz.rep0) = some 5 ∧
    (next? (exec (.distSlot14To63 19 14 12) base)).map (·.lz.rep0) = some 1004 ∧
    (next? (exec (.distSlot14To63 63 0x3FFFFFF 15) base)).map (·.lz.rep0) = some 0xFFFFFFFF := by decide

/-! ## Single steps: BCJ units (§2.4) -/

/-- V-BCJ-1, and V-BCJ-4's unconverted unit. -/
theorem test_bcjX86 :
    (next? (exec (.bcjX86CallJmp false 0x105) (withCarry 0 [0xE8, 0x05, 0x01, 0x00, 0x00, 0x90]))).map
      (fun t => (t.bcj.carry, t.ret)) = some ([0xE8, 0x00, 0x01, 0x00, 0x00, 0x90], .num 5) ∧
    (next? (exec (.bcjX86CallJmp false 0x80000000) (withCarry 0 [0xE8, 0, 0, 0, 0x80]))).map
      (fun t => (t.bcj.carry, t.bcj.x86PrevMask, t.ret)) = some ([0xE8, 0, 0, 0, 0x80], 1, .num 1) := by decide

/-- V-BCJ-11, V-BCJ-12, V-BCJ-13. -/
theorem test_bcjPpc_bcjArm :
    (next? (exec (.bcjPpcBl 0x42) (withCarry 8 [0x48, 0x00, 0x01, 0x09]))).map (·.bcj.carry) =
      some [0x48, 0x00, 0x01, 0x01] ∧
    (next? (exec (.bcjArmBl 0x42) (withCarry 0 [0x42, 0, 0, 0xEB]))).map (·.bcj.carry) = some [0x40, 0, 0, 0xEB] ∧
    (next? (exec (.bcjArmBl 0xFFFFFF) (withCarry 4 [0xFF, 0xFF, 0xFF, 0xEB]))).map (·.bcj.carry) =
      some [0xFC, 0xFF, 0xFF, 0xEB] := by decide

/-- V-BCJ-15, V-BCJ-16, V-BCJ-17. -/
theorem test_bcjThumb :
    (next? (exec (.bcjThumbBl 0x82) (withCarry 0 [0x00, 0xF0, 0x82, 0xF8]))).map (·.bcj.carry) =
      some [0x00, 0xF0, 0x80, 0xF8] ∧
    (next? (exec (.bcjThumbBl 0) (withCarry 0 [0x00, 0xF0, 0x00, 0xF8]))).map (·.bcj.carry) =
      some [0xFF, 0xF7, 0xFE, 0xFF] ∧
    (next? (exec (.bcjThumbBl 0x3FFFFE) (withCarry 2 [0xFF, 0xF7, 0xFE, 0xFF]))).map (·.bcj.carry) =
      some [0xFF, 0xF7, 0xFB, 0xFF] := by decide

/-- V-BCJ-19; and a call below its own position becomes negative: displacement 0 at position 4 is word -1. -/
theorem test_bcjSparc :
    (next? (exec (.bcjSparcCallPos 0x42) (withCarry 4 [0x40, 0, 0, 0x42]))).map (·.bcj.carry) = some [0x40, 0, 0, 0x41] ∧
    (next? (exec (.bcjSparcCallPos 0) (withCarry 4 [0x40, 0, 0, 0]))).map (·.bcj.carry) = some [0x7F, 0xFF, 0xFF, 0xFF] ∧
    (next? (exec (.bcjSparcCallNeg 0x3FFFFF) (withCarry 0 [0x7F, 0xFF, 0xFF, 0xFF]))).map (·.bcj.carry) =
      some [0x7F, 0xFF, 0xFF, 0xFF] := by decide

/-- V-BCJ-22. -/
theorem test_bcjIa64 :
    (next? (exec (.bcjIa64BranchSlot 2 (0xA000000000 ||| (0x10 <<< 13)))
      (withCarry 16 [0x10, 0, 0, 0, 0, 0, 0, 0, 0, 0, 0, 0, 0, 0x01, 0, 0x50]))).map (fun t => (t.bcj.carry, t.ret)) =
      some ([0x10, 0, 0, 0, 0, 0, 0, 0, 0, 0, 0, 0, 0xF0, 0, 0, 0x50], .num 16) := by decide

/-- FILTER[ia64] on the bundle of V-BCJ-22, and on the same bundle with template 0x00, which selects no slot. -/
theorem test_filter_ia64 :
    (filter .ia64 16 0 [0x10, 0, 0, 0, 0, 0, 0, 0, 0, 0, 0, 0, 0, 0x01, 0, 0x50]).buf =
      [0x10, 0, 0, 0, 0, 0, 0, 0, 0, 0, 0, 0, 0xF0, 0, 0, 0x50] ∧
    (filter .ia64 16 0 [0x00, 0, 0, 0, 0, 0, 0, 0, 0, 0, 0, 0, 0, 0x01, 0, 0x50]).buf =
      [0x00, 0, 0, 0, 0, 0, 0, 0, 0, 0, 0, 0, 0, 0x01, 0, 0x50] := by decide

/-- R46, R118: a byte that is no E8 or E9 shifts the stored mask by one, and only bits 0 to 5 are kept. -/
theorem test_filter_x86_mask :
    [1, 16, 32].map (fun m => (filter .x86 8 m [0, 0, 0, 0x80, 0]).mask) = [2, 32, 0] := by decide

/-- BCJ_FLUSH, with and without space for every byte (R116). -/
theorem test_bcjFlush :
    (next? (exec .bcjFlush (withCarry 0 [1, 2]))).map (fun t => (t.io.output, t.bcj.carry)) = some ([1, 2], []) ∧
    (next? (exec .bcjFlush { withCarry 0 [1, 2] with io := { base.io with space := 1 } })).map
      (fun t => (t.io.output, t.bcj.carry, t.susp.isSome)) = some ([1], [2], true) := by decide

/-! ## Single steps: checks and configuration (§2.5, §2.2) -/

/-- §2.5: CRC32 and CRC64 of "a". -/
theorem test_chkUpdate_crc :
    (next? (exec (.chkUpdate 0x61) (withCheck .crc32 4))).map (·.chk.crc32) = some 0xE8B7BE43 ∧
    (next? (exec (.chkUpdate 0x61) (withCheck .crc64 8))).map (·.chk.crc64) = some 0x330284772E652B05 := by decide

/-- §2.5: the tags of no byte: CRC32, none, and SHA-256. -/
theorem test_chkFinalize :
    (next? (exec .chkFinalize (withCheck .crc32 4))).map (·.ret) = some (.bytes [0, 0, 0, 0]) ∧
    (next? (exec .chkFinalize (withCheck .none 0))).map (·.ret) = some (.bytes []) ∧
    (next? (exec .chkFinalize (withCheck .sha256 32))).map (·.ret) = some (.bytes
      [0xe3, 0xb0, 0xc4, 0x42, 0x98, 0xfc, 0x1c, 0x14, 0x9a, 0xfb, 0xf4, 0xc8, 0x99, 0x6f, 0xb9, 0x24, 0x27, 0xae, 0x41, 0xe4,
       0x64, 0x9b, 0x93, 0x4c, 0xa4, 0x95, 0x99, 0x1b, 0x78, 0x52, 0xb8, 0x55]) := by decide +kernel

/-- §2.5: SHA-256 of "abc", the third byte through CHK_UPDATE. -/
theorem test_chkUpdate_sha256 :
    ((next? (exec (.chkUpdate 0x63) { withCheck .sha256 32 with
        chk := { (withCheck .sha256 32).chk with shaBuf := [0x61, 0x62], shaLen := 2 } })).map
      (fun t => t.chk.finalize.take 4)) = some [0xba, 0x78, 0x16, 0xbf] := by decide +kernel

/-- CHK_SELECT of §2.5. -/
theorem test_check_types :
    (next? (exec .checkNone base)).map (·.chk.tagLen) = some 0 ∧ (next? (exec .checkCrc32 base)).map (·.chk.tagLen) = some 4 ∧
    (next? (exec .checkCrc64 base)).map (·.chk.tagLen) = some 8 ∧
    (next? (exec .checkSha256 base)).map (·.chk.tagLen) = some 32 ∧
    (next? (exec (.checkUnsupported 0x09) base)).map (·.status) = some (.error .unsupportedCheck) ∧
    (next? (exec (.checkUnsupported 0x0B) base)).map (·.status) = some (.error .options) := by decide

/-- The dictionary table of §2.2: 1, 28 (equal to the cap), 29, 41. -/
theorem test_dictProp :
    (next? (exec (.dictProp 1) base)).map (·.dict.size) = some 0x1800 ∧
    (next? (exec (.dictProp 28) base)).map (fun t => (t.dict.size, t.status)) = some (0x04000000, .running) ∧
    (next? (exec (.dictProp 29) base)).map (·.status) = some (.error .memlimit) ∧
    (next? (exec (.dictProp 41) base)).map (·.status) = some (.error .options) := by decide

/-- DICT_CHECK reads the register (R90). -/
theorem test_dictCheck : (next? (exec .dictCheck { base with cfg := { base.cfg with dictProp := 2 } })).map (·.dict.size) =
    some 0x2000 := by decide

/-- R147, R148. -/
theorem test_state_resets :
    (next? (exec .dictReset base)).map (fun t => (t.dict.pos, t.dict.valid, t.dict.get 0)) = some (0, 0, 0) ∧
    (next? (exec .lzmaStateReset { base with lz := { base.lz with rep0 := 5, lc := 3 }, probs := [(5, 1)] })).map
      (fun t => (t.lz.rep0, t.lz.lc, t.probs)) = some (0, 3, []) := by decide

/-! ## Single steps: host operations (§2.6) -/

/-- P6's cap, and the default (R33). -/
theorem test_hostReset :
    (next? (exec (.hostReset 0x02000000) base)).map (fun t => (t.cfg.dictCap, t.status, t.io.input)) =
      some (0x02000000, .idle, []) ∧
    (next? (exec (.hostReset 0) base)).map (·.cfg.dictCap) = some 0x04000000 := by decide

/-- V-HOST-2: accepted from S0, no effect while running. -/
theorem test_hostConfig :
    (next? (exec (.hostConfig 0x00 none 0x00) State.reset)).map (·.status) = some .running ∧
    (next? (exec (.hostConfig 0x01 none 0x01) base)).map (fun t => (t.cfg.checkType, t.dict.size)) = some (0, 4096) := by decide

/-- P7: the order of the configuration errors. -/
theorem test_hostConfig_order :
    [(0x02 : Byte), 0x0B, 0x00].map (fun ct => (next? (exec (.hostConfig 0x29 (some 0x03) ct) State.reset)).map (·.status)) =
      [some (.error .unsupportedCheck), some (.error .options), some (.error .options)] := by decide

/-- R133: the streams. -/
theorem test_hostFeed_endInput_space :
    (next? (exec (.hostFeed [1, 2]) (withInput [9]))).map (·.io.input) = some [9, 1, 2] ∧
    (next? (exec .hostEndInput base)).map (·.io.inputEnded) = some true ∧
    (next? (exec (.hostSpace 3) base)).map (·.io.space) = some 403 := by decide

/-- V-HOST-1: from S0 HOST_RUN returns `idle`; while running it starts the engine. -/
theorem test_hostRun :
    (next? (exec .hostRun State.reset)).map (·.host.runReturn) = some (some { status := .idle, wait := none }) ∧
    (next? (exec .hostRun { base with host := State.reset.host })).map (·.host.inRun) = some true := by decide

/-- P1 and its variant, on the CRC32 of "a"; no effect from S0. -/
theorem test_hostCompare :
    (next? (exec (.hostCompare [0x43, 0xBE, 0xB7, 0xE8]) finished)).map (·.checkOk) = some true ∧
    (next? (exec (.hostCompare [0, 0, 0, 0]) finished)).map (·.status) = some (.error .data) ∧
    next? (exec (.hostCompare []) State.reset) = some State.reset := by decide

/-! ## Steps -/

/-- A step at `seq` = control runs the control byte; END returns HOST_RUN. -/
theorem test_step_end : (next? (step (withInput [0x00]))).map (fun t => (t.status, t.host.inRun, t.host.runReturn)) =
    some (.streamEnd, false, some { status := .streamEnd, wait := none }) := by decide

/-- V-HOST-3: HOST_RUN returns `wait_input`; with the byte fed, the next run goes on there. -/
theorem test_step_resume :
    (next? (step (withInput []))).map (·.host.runReturn) = some (some { status := .running, wait := some .input }) ∧
    ((next? (step (withInput []))).bind fun t => next? (step (t.feed [0x02]).rerun)).map (·.sq.seq) = some .compressed1 := by
  decide

/-- The host's operations run in order, and then nothing changes. -/
theorem test_step_host :
    (next? (step { State.reset with host := { State.reset.host with queue := [.space 3, .run] } })).map
      (fun t => (t.io.space, t.host.queue)) = some (3, [.run]) ∧ next? (step State.reset) = some State.reset := by decide

/-- Table words run as the first instruction after reset: a control byte; a BCJ unit (V-BCJ-12's field at position 0). -/
theorem test_step_fetchWord :
    (next? (step (State.reset.withFetchWord 8 0x01))).map (fun t => (t.sq.seq, t.sq.needDictReset)) = some (.compressed1, false) ∧
    (next? (step (State.reset.withFetchWord 32 0xEB000042))).map (·.io.output) = some [0x40, 0x00, 0x00, 0xEB] := by
  decide +kernel

/-! ## Witnesses: concrete values that meet the hypotheses of each obligation that has some -/

/-- `base` runs. -/
theorem base_engineRuns : base.engineRuns := ⟨rfl, rfl, rfl⟩

/-- The coder of `base` at `code` 0, where every bit is 0, with the literal contexts as wide as they get. -/
def zeros : State := { withRc 0xFFFFFFFF 0 with lz := { base.lz with lc := 3, lp := 1, pb := 4 } }

/-- One byte waits for space. -/
def waiting : State := { base with susp := some { prim := .deliver 7, frames := [] }, io := { base.io with space := 0 } }

/-- The first 15 bytes of V-BCJ-22's bundle. -/
def bundle : List Byte := [0x10, 0, 0, 0, 0, 0, 0, 0, 0, 0, 0, 0, 0, 0x01, 0]

/-- A packet waits for the byte of its first normalization. -/
def midPacket : State :=
  { atSeq .lzmaRun [] with
    rc := ⟨0x80000000, 0⟩
    lz := { base.lz with lc := 3, lp := 1 }
    susp := some { prim := .inByte, frames := [.rcByte, .rcNorm, .rcBit 1, .isMatch, .run 5] } }

theorem witness_DecodeOfEncodeIsTheInstruction :
    (Instr.distSlot14To63 63 0x3FFFFFF 15).wellFormed = true ∧
    (∃ l, encode (.distSlot14To63 63 0x3FFFFFF 15) = some (.distance, .bits l)) ∧
    (Instr.bcjIa64BranchSlot 2 0x0A000000000).wellFormed = true ∧
    ∃ l, encode (.bcjIa64BranchSlot 2 0x0A000000000) = some (.ia64Slot 2, .bytes l) :=
  ⟨by decide, ⟨_, rfl⟩, by decide, ⟨_, rfl⟩⟩

theorem witness_EncodeOfDecodeIsTheWords : decodeBcj .sparc [0x7F, 0xC0, 0, 0, 9] = .ok (.bcjSparcCallNeg 0, [9]) := by decide

theorem witness_ChunkHeaderRoundTrip :
    (ChunkHeader.lzma 3 (2 ^ 21) (2 ^ 16) (some 0xFF)).wellFormed = true ∧
    (ChunkHeader.lzma 1 1 1 none).wellFormed = true ∧ (ChunkHeader.uncompressed true (2 ^ 16)).wellFormed = true := by decide

/-- One state for each row of R91, and one that waits. -/
theorem witness_StepIsTheSequencersOperation :
    (∀ q, (atSeq q []).engineRuns ∧ (atSeq q []).susp = none ∧ (atSeq q []).sq.seq = q) ∧ waiting.engineRuns ∧ waiting.susp = some { prim := .deliver 7, frames := [] } :=
  ⟨fun _ => ⟨⟨rfl, rfl, rfl⟩, rfl, rfl⟩, ⟨rfl, rfl, rfl⟩, rfl⟩

theorem witness_StepRunsTheDecodedByte :
    (base.engineRuns ∧ base.susp = none ∧ base.io.input = 0 :: List.replicate 59 0 ∧ base.sq.seq = .control) ∧
    (atSeq .properties [0xE0]).engineRuns ∧ (atSeq .properties [0xE0]).susp = none ∧
    (atSeq .properties [0xE0]).io.input = 0xE0 :: [] ∧ (atSeq .properties [0xE0]).sq.seq = .properties :=
  ⟨⟨base_engineRuns, rfl, rfl, rfl⟩, ⟨rfl, rfl, rfl⟩, rfl, rfl, rfl⟩

/-- A first decision bit, 0. -/
theorem witness_PacketRunsTheDecodedBits : decodePacket (isLitState zeros.lz.state) [false] = .ok (.lit, []) ∧
    ∃ u, Decodes (packetPath zeros.st zeros.ps [] [false]) zeros u := ⟨by decide, _, _, rfl, rfl⟩

/-- A unit, no unit, a window that is one byte short of a bundle, and slots that hold a branch, that hold none, and that the
template does not select. -/
theorem witness_FilterRunsTheDecodedUnit :
    decodeBcj .x86 ((withCarry 0 [0xE8, 5, 1, 0]).bcj.carry ++ [0]) = .ok (.bcjX86CallJmp false 0x105, []) ∧
    (withCarry 0 [0x90, 5, 1, 0]).bcj.carry.length ≤ 4 ∧
    decodeBcj .x86 ((withCarry 0 [0x90, 5, 1, 0]).bcj.carry ++ [0]) = .error .notABranch ∧
    (withCarry 0 (List.replicate 14 0)).bcj.carry.length < 15 ∧ (withCarry 0 bundle).bcj.carry.length = 15 ∧
    decodeIa64Slot 2 ((withCarry 0 bundle).bcj.carry ++ [0x50]) =
      .ok (.bcjIa64BranchSlot 2 (0xA000000000 ||| (0x10 <<< 13)), []) ∧
    decodeIa64Slot 1 ((withCarry 0 bundle).bcj.carry ++ [0x50]) = .error .slotNotSelected ∧
    decodeIa64Slot 2 ((withCarry 0 bundle).bcj.carry ++ [0x00]) = .error .notABranch := by decide

theorem witness_HostOperationsRunInOrder :
    (State.reset.host.inRun = false ∧ State.reset.host.queue = []) ∧
    ({ State.reset with host := { State.reset.host with queue := [.run] } } : State).host.queue = HostOp.run :: [] :=
  ⟨⟨rfl, rfl⟩, rfl⟩

theorem witness_RunReturnsOnWaitOrTerminalStatus :
    (base.engineRuns ∧ ∃ t, step base = .next t ∧ t.status ≠ .running) ∧
    ∃ t, step (withInput []) = .next t ∧ t.status = .running ∧ t.susp = some { prim := .inByte, frames := [.control] } :=
  ⟨⟨base_engineRuns, _, rfl, by decide⟩, _, rfl, rfl, rfl⟩

/-- A state in a HOST_RUN that meets the invariant, and its step. -/
theorem witness_invariant : base.Inv ∧ ∃ t, step base = .next t :=
  ⟨by constructor <;> first | decide | simp [base, State.reset], _, rfl⟩

/-- The invariant of the coder, at an operation boundary and in a packet. -/
theorem witness_coder : (base.Inv ∧ base.CoderInv) ∧ midPacket.Inv ∧ midPacket.CoderInv := by
  refine ⟨⟨witness_invariant.1, ?_⟩, ?_, ?_⟩
  · constructor <;> simp [base, State.reset, Probs.read, Sparse.read, Config.probInit, carryBound]
  · constructor <;> simp [midPacket, atSeq, withInput, base, State.reset, seqOfHeader] <;>
      first | decide | (rintro _ _ rfl h; revert h; simp; try rintro (rfl | rfl | rfl | rfl) <;> decide)
  · constructor <;> try simp [midPacket, atSeq, withInput, base, State.reset, Probs.read, Sparse.read, Config.probInit, carryBound]
    exact .norm rfl (.bit (by decide) (.isMatch 5))

theorem witness_EngineMovesOnlyItsStreams : base.engineRuns ∧ ∃ t, step base = .next t := ⟨base_engineRuns, _, rfl⟩

theorem waiting_inv : waiting.Inv := by
  constructor <;> first | decide | simp [waiting, base, State.reset] <;> (rintro _ _ rfl h; simp at h)

theorem witness_InputWaitIsTransparent :
    (base.Inv ∧ base.engineRuns ∧ base.io.inputEnded = false ∧ ∃ t, step base = .next t ∧ ¬ t.waitsForInput) ∧
    (withInput []).Inv ∧ (withInput []).engineRuns ∧ ∃ t, step (withInput []) = .next t ∧ t.waitsForInput :=
  ⟨⟨witness_invariant.1, base_engineRuns, rfl, _, rfl, fun ⟨_, h, _⟩ => nomatch h⟩,
    by constructor <;> first | decide | simp [withInput, base, State.reset], ⟨rfl, rfl, rfl⟩, _, rfl, _, rfl, rfl⟩

theorem witness_OutputWaitIsTransparent :
    (base.Inv ∧ base.engineRuns ∧ ∃ t, step base = .next t ∧ ¬ t.waitsForOutput) ∧
    waiting.Inv ∧ waiting.engineRuns ∧ ∃ t, step waiting = .next t ∧ t.waitsForOutput :=
  ⟨⟨witness_invariant.1, base_engineRuns, _, rfl, fun ⟨_, _, h, _⟩ => nomatch h⟩, waiting_inv, ⟨rfl, rfl, rfl⟩, _, rfl,
    _, _, rfl, rfl⟩

theorem witness_ErrorIsSticky : (base.raised .data).status = .error .data ∧ ∀ cap, HostOp.run ≠ .reset cap :=
  ⟨rfl, fun _ h => nomatch h⟩

/-- SHORTREP with one reachable byte. -/
theorem witness_CopyPacketLeavesAReachableDistance :
    (withBytes [7]).status = .running ∧ (withBytes [7]).susp = none ∧
    (withBytes [7]).dict.valid ≤ (withBytes [7]).dict.size ∧
    ∃ t, exec .shortRep (withBytes [7]) = .next t ∧ t.status = .running ∧ t.susp = none :=
  ⟨rfl, rfl, by decide, _, rfl, rfl, rfl⟩

/-- `zeros` with one byte left to produce, and the state after its literal. -/
def lastByte : State := { zeros with sq := { base.sq with uncLeft := 1 } }

def afterLastByte : State :=
  match lzPacket lastByte with
  | .done _ t => t
  | _ => lastByte

/-- One literal, and the chunk is produced; a chunk with its bytes and its space at hand. -/
theorem witness_RunIsPacketsThenChunkEnd : PacketsTo lastByte afterLastByte ∧
    zeros.sq.compLeft ≤ zeros.io.input.length ∧ zeros.bcj.carry.length + zeros.sq.uncLeft ≤ zeros.io.space ∧
    archSupported zeros.cfg.bcjArch = true ∧ zeros.lz.lc + zeros.lz.lp ≤ 4 ∧ zeros.lz.pb ≤ 4 :=
  ⟨.packet (x := 0) (by decide) (by decide +kernel) (.here (by decide +kernel)), by decide⟩

/-- The x86 filter at its highest position, with a mask. -/
def filtering : State :=
  { base with
    cfg := { base.cfg with bcjArch := some 0x04 }, bcj := { pos := 0xFFFFFFFF, carry := [], x86PrevMask := 5 } }

theorem witness_FilterPerByteIsFilterOfTheWhole :
    filtering.cfg.bcjArch = some (archId .x86) ∧ filtering.bcj.carry = [] ∧ filtering.io.output = [] := by decide

theorem witness_RcBitDecodesAgainstItsBound :
    let p := base.probs.read 14133
    let bound : Word32 := (base.rc.range >>> 11) * p.setWidth 32
    14133 < 14134 ∧ 0x01000000 ≤ bound ∧
    (((0x01000000 : Word32) >>> 11) * p.setWidth 32 < 0x01000000 ∧ 0 < base.sq.compLeft ∧
      base.io.input = 0 :: List.replicate 59 0) ∧
    ({ base with sq := { base.sq with compLeft := 0 } } : State).sq.compLeft = 0 ∧ (withInput []).io.input = [] := by
  decide

theorem witness_RcNormShiftsOneByteIn :
    (0x01000000 : Word32) ≤ (withRc 0x01000000 0).rc.range ∧
    ((withRc 0x00FFFFFF 0).rc.range < 0x01000000 ∧ 0 < (withRc 0x00FFFFFF 0).sq.compLeft ∧
      (withRc 0x00FFFFFF 0).io.input = 0 :: List.replicate 59 0) ∧
    ({ withRc 0x00FFFFFF 0 with sq := { base.sq with compLeft := 0 } } : State).sq.compLeft = 0 ∧
    0 < (withInput []).sq.compLeft ∧ (withInput []).io.input = [] := by decide

theorem witness_ProbabilitiesStayInRange :
    ((∃ u, Decodes [(.cell 0, false), (.direct, false)] zeros u) ∧ zeros.probs.wf = true ∧
      (0x01000000 : Word32) ≤ zeros.rc.range ∧ ∀ i, 31 ≤ (zeros.probs.read i).toNat ∧ (zeros.probs.read i).toNat ≤ 2017) ∧
    (31 ≤ (31 : Prob).toNat ∧ (31 : Prob).toNat ≤ 2017) ∧ (31 ≤ (2017 : Prob).toNat ∧ (2017 : Prob).toNat ≤ 2017) ∧
    (0x01000000 : Word32) ≤ (RangeCoder.mk 0x01000000 0).range :=
  ⟨⟨⟨_, _, rfl, _, rfl, rfl⟩, by decide, by decide, by simp [zeros, withRc, base, State.reset, Probs.read, Sparse.read,
    Config.probInit]⟩, by decide⟩

theorem witness_RcInitAndPrepareReadFiveBytes :
    (base.io.input = 0 :: 0 :: 0 :: 0 :: 0 :: List.replicate 55 0 ∧ 5 ≤ base.sq.compLeft) ∧
    ((withInput [1, 2, 3, 4, 5]).io.input = [1, 2, 3, 4, 5] ∧ 5 ≤ (withInput [1, 2, 3, 4, 5]).sq.compLeft) ∧
    ({ base with sq := { base.sq with compLeft := 4 } } : State).sq.compLeft < 5 := by decide

theorem witness_RcTreesReturnTheirBits : 8 ≤ base.sq.compLeft ∧ 8 ≤ base.io.input.length ∧
    (Instr.rcTree 13878 8).wellFormed = true ∧ (Instr.rcTreeRev 14102 5).wellFormed = true := by decide

theorem witness_RcDirectReturnsItsBitsForward :
    ((Instr.rcDirect 26).wellFormed = true ∧ 26 ≤ base.sq.compLeft ∧ 26 ≤ base.io.input.length) ∧
    ∃ u, Decodes [(.direct, false)] base u := ⟨by decide, _, _, rfl, rfl⟩

theorem witness_DecodingBitsFrame :
    (∃ u, Decodes [(.cell 0, false), (.direct, false)] zeros u) ∧ zeros.probs.wf = true ∧
    ∀ b, (BitSource.cell 1, b) ∉ [(BitSource.cell 0, false), (.direct, false)] :=
  ⟨⟨_, _, rfl, _, rfl, rfl⟩, by decide, by decide⟩

/-- The literals' hypotheses: `lc + lp` = 4, one byte of space. -/
theorem witness_literals : zeros.lz.lc + zeros.lz.lp ≤ 4 ∧ 8 ≤ zeros.sq.compLeft ∧ 8 ≤ zeros.io.input.length ∧
    zeros.bcj.carry.length < zeros.io.space ∧ archSupported zeros.cfg.bcjArch = true := by decide

theorem witness_LengthAndDistanceAreTheFormsOfTheirBits :
    (decodeLength [false, false, false, false] = .ok (.lenLow 0, []) ∧
      ∃ u, Decodes (lenPath .matchLen zeros.ps [false, false, false, false]) zeros u) ∧
    decodeDistance [false, false, false, false, false, false] = .ok (.distSlot0To3 0, []) ∧
      ∃ u, Decodes (distPath zeros.distState [false, false, false, false, false, false]) zeros u :=
  ⟨⟨by decide, _, _, rfl, _, rfl, _, rfl, _, rfl, rfl⟩, by decide,
    _, _, rfl, _, rfl, _, rfl, _, rfl, _, rfl, _, rfl, rfl⟩

theorem witness_LengthAndDistanceFormsSetTheirRegister :
    (Instr.distSlot4To13 4 1).wellFormed = true ∧ (Instr.distSlot4To13 13 31).wellFormed = true ∧
    (Instr.distSlot14To63 14 3 0).wellFormed = true ∧ (Instr.distSlot14To63 63 0x3FFFFFF 15).wellFormed = true := by decide

/-- The copy packets' hypotheses, with `pb` = 4 and an empty `carry`. -/
theorem witness_copyPackets : zeros.lz.pb ≤ 4 ∧ 46 ≤ zeros.sq.compLeft ∧ 46 ≤ zeros.io.input.length ∧
    zeros.bcj.carry.length + 273 ≤ zeros.io.space ∧ archSupported zeros.cfg.bcjArch = true ∧ 0 < zeros.sq.uncLeft := by decide

theorem witness_DictPutMovesTheWindow :
    base.dict.mem.wf = true ∧ base.dict.pos < base.dict.size ∧ base.dict.size ≤ 2 ^ 32 ∧
    (2 : Word32).toNat + 1 < base.dict.size ∧ (2 : Word32).toNat < base.dict.valid := by decide

/-- A distance of one byte in a full window of two. -/
theorem witness_OverlappingCopyRepeats :
    let d : Dict := { size := 2, mem := [(0, 5)], pos := 1, valid := 2 }
    d.mem.wf = true ∧ d.pos < d.size ∧ d.valid ≤ d.size ∧ (1 : Word32).toNat < d.valid ∧ (1 : Word32).toNat < 5 ∧
    (1 : Word32).toNat < d.size := by decide

theorem witness_CopyFillsTheDictionaryWithUnfilteredBytes :
    let s : State := { base with lz := { base.lz with len := 273 } }
    273 ≤ s.lz.len ∧ 273 ≤ s.sq.uncLeft := by decide

theorem witness_HeldBytesStayWithinTheBound :
    let s : State := { filtering with bcj := { filtering.bcj with carry := [0xE8, 0, 0, 0] } }
    s.cfg.bcjArch = some (archId .x86) ∧ s.bcj.carry.length ≤ 4 := by decide

theorem witness_EndFlushesThenEndsTheStream :
    let s : State := { withCarry 0 [1] with io := { base.io with space := 1 } }
    s.bcj.carry.length ≤ s.io.space := by decide

theorem witness_UncompressedAndReservedControlBytes :
    (Instr.reservedCtrl 0x03).wellFormed = true ∧ (Instr.reservedCtrl 0x7F).wellFormed = true := by decide

theorem witness_ByteOperationsTakeOneByte :
    base.io.input = 0 :: List.replicate 59 0 ∧ base.bcj.carry.length ≤ base.io.space := by decide

theorem witness_MissingInputWaitsOrRaisesBuf : (withInput []).io.input = [] := rfl

theorem witness_PropertiesByteSetsLcLpPb :
    ((0x24 : Byte).toNat ≤ 224 ∧ (0x24 : Byte).toNat % 9 + (0x24 : Byte).toNat % 45 / 9 ≤ 4) ∧
    ((0xE0 : Byte).toNat ≤ 224 ∧ ¬ (0xE0 : Byte).toNat % 9 + (0xE0 : Byte).toNat % 45 / 9 ≤ 4) ∧
    ¬ (0xE1 : Byte).toNat ≤ 224 := by decide

theorem witness_ChunkEndNeedsACleanEnd : ({ base with sq := { base.sq with uncLeft := 0 } } : State).sq.uncLeft = 0 := rfl

theorem witness_CopyCopiesTheChunk :
    base.sq.compLeft ≤ base.io.input.length ∧ base.bcj.carry.length + base.sq.compLeft ≤ base.io.space ∧
    archSupported base.cfg.bcjArch = true := by decide

theorem witness_WordBranchesBecomeRelative :
    (withCarry 0xFFFFFFFC []).bcj.pos.toNat % 4 = 0 ∧ (withCarry 0xFFFFFFFE []).bcj.pos.toNat % 2 = 0 := by decide

/-- With no mask, a top byte that is converted and one that is not; with the mask 1, an operand whose byte 2 is neither 00
nor FF, so that it is converted, and comes out 00 at position 0; a mask that is not allowed. -/
theorem witness_X86CallsBecomeRelative :
    (withCarry 0 []).bcj.x86PrevMask.toNat % 8 = 0 ∧ (0xFF000000 : Word32).toNat / 2 ^ 24 = 255 ∧
    (0x80000000 : Word32).toNat / 2 ^ 24 = 128 ∧
    (let s : State := { base with bcj := { pos := 0, carry := [], x86PrevMask := 1 } }
     s.bcj.x86PrevMask.toNat % 8 = 1 ∧ (0x00010000 : Word32).toNat / 2 ^ 16 % 256 = 1 ∧
     (0x00010000 : Word32).toNat / 2 ^ 24 = 0 ∧ ((0x00010000 : Word32) - (s.bcj.pos + 5)).toNat / 2 ^ 16 % 256 = 0) ∧
    filtering.bcj.x86PrevMask.toNat % 8 = 5 := by decide

theorem witness_Ia64BranchesBecomeRelative :
    let s := withCarry 0xFFFFFFF0 (0x16 :: List.replicate 15 0)
    Instr.isIa64Branch 0x0A000000000 = true ∧ s.bcj.pos.toNat % 16 = 0 ∧ 16 ≤ s.bcj.carry.length := by decide

/-- 28 gives the cap itself, 29 is above it, 40 is the last size, 41 has none. -/
theorem witness_DictCheckSizesTheDictionary :
    let size : Byte → Nat := fun b => (2 + b.toNat % 2) * 2 ^ (b.toNat / 2 + 11)
    (28 : Byte).toNat ≤ 40 ∧ size 28 = base.cfg.dictCap.toNat ∧ (40 : Byte).toNat ≤ 40 ∧
    base.cfg.dictCap.toNat < size 29 ∧ base.cfg.dictCap.toNat < size 40 ∧ 40 < (41 : Byte).toNat ∧
    base.dict.mem.wf = true := by decide

/-- The check registers after no byte, and after "abc". -/
theorem witness_FinalizeReturnsTheTag :
    (withCheck .crc32 4).chk.engine = .crc32 ∧ (withCheck .crc64 8).chk.engine = .crc64 ∧
    ((withCheck .sha256 32).chk.engine = .sha256 ∧ (withCheck .sha256 32).chk.shaH = .ofList shaH0 ∧
      (withCheck .sha256 32).chk.shaBuf = [] ∧ (withCheck .sha256 32).chk.shaLen = 0) ∧
    let abc := ([0x61, 0x62, 0x63] : List Byte).foldl Check.update (withCheck .sha256 32).chk
    abc.engine = .sha256 ∧ abc.shaH = .ofList shaH0 ∧ abc.shaBuf = [0x61, 0x62, 0x63] ∧ abc.shaLen = 3 := by decide

theorem witness_CheckTypesSelectTheEngine :
    (Instr.checkUnsupported 0x09).wellFormed = true ∧ (Instr.checkUnsupported 0x0B).wellFormed = true := by decide

theorem witness_CheckUpdateIsTheBitwiseCrc :
    (withCheck .none 0).chk.engine = .none ∧ (withCheck .crc32 4).chk.engine = .crc32 ∧
    (withCheck .crc64 8).chk.engine = .crc64 ∧
    ((withCheck .sha256 32).chk.engine = .sha256 ∧ (withCheck .sha256 32).chk.shaBuf.length ≠ 63) ∧
    let s : State := { base with chk := { base.chk with engine := .sha256, shaBuf := List.replicate 63 0 } }
    s.chk.engine = .sha256 ∧ s.chk.shaBuf.length = 63 := by decide

/-- SHA-256, SPARC, the largest size that the default cap lets through. -/
theorem witness_HostConfigStartsABlock :
    State.reset.status = .idle ∧ State.reset.dict.mem.wf = true ∧ (0x0A : Byte) = 0x0A ∧
    (0x09 : Byte) ∈ [(0x04 : Byte), 0x05, 0x06, 0x07, 0x08, 0x09] ∧ filtering.cfg.bcjArch = some 0x04 ∧ (28 : Byte).toNat ≤ 40 ∧
    (2 + (28 : Byte).toNat % 2) * 2 ^ ((28 : Byte).toNat / 2 + 11) ≤ State.reset.cfg.dictCap.toNat := by decide

theorem witness_HostConfigErrorsInOrder :
    State.reset.status = .idle ∧ (0x09 : Byte).toNat < 0x0A ∧ 0x0A ≤ (0x0B : Byte).toNat ∧
    (0x03 : Byte) ∉ [(0x04 : Byte), 0x05, 0x06, 0x07, 0x08, 0x09] ∧ 40 < (41 : Byte).toNat ∧
    State.reset.cfg.dictCap.toNat < (2 + (29 : Byte).toNat % 2) * 2 ^ ((29 : Byte).toNat / 2 + 11) ∧
    base.status ≠ .idle ∧ base.status ≠ .streamEnd := by decide

theorem witness_FeedEndInputSpaceAndRun : base.status = .running ∧ State.reset.status ≠ .running := by decide

theorem witness_CompareSetsCheckOkOrRaisesData :
    State.reset.status ≠ .streamEnd ∧
    (finished.status = .streamEnd ∧ ([0x43, 0xBE, 0xB7, 0xE8] : List Byte).take finished.chk.tagLen = finished.chk.finalize) ∧
    ([0x43, 0xBE, 0xB7, 0xE9] : List Byte).take finished.chk.tagLen ≠ finished.chk.finalize ∧
    let s : State := { withCheck .none 0 with status := .streamEnd }
    s.status = .streamEnd ∧ s.chk.engine = .none ∧ s.chk.tagLen = 0 := by decide

end Sys2Proof.Tests
end

section
/-! SUPPORT. Waits are transparent (60_exceptions.md R140, 00_scope.md R17): an engine step that waits does so because the
input or the space has run out, and with more of either before it the step gives what it gives with the same supply at its
wait. -/

namespace Sys2Proof.Machine

/-! ## Supplying a state -/

theorem State.feed_eq_supply (s : State) (bs : List Byte) : s.feed bs = s.supply bs 0 := rfl

theorem State.grant_eq_supply (s : State) (n : Nat) : s.grant n = s.supply [] n := by simp [State.grant, State.supply]

theorem State.supply_nil_zero (s : State) : s.supply [] 0 = s := by simp [State.supply]

/-! ## The return of HOST_RUN -/

@[simp] theorem settle_susp (s : State) : (settle s).susp = s.susp := by
  unfold settle
  split
  · cases hw : s.susp <;> simp [hw]
  · rfl

/-- The return depends on `status` and the resumption point, and a supply changes neither. -/
theorem settle_supply (s : State) (bs : List Byte) (n : Nat) : settle (s.supply bs n) = (settle s).supply bs n := by
  by_cases h : s.status = .running
  · cases hw : s.susp <;> simp [settle, State.supply, h, hw]
  · simp [settle, State.supply, h]

/-- The next HOST_RUN takes the return back. -/
theorem rerun_settle {s : State} (h : s.engineRuns) : (settle s).rerun = s := by
  obtain ⟨hin, hret, hstatus⟩ := h
  have hsame : (settle s).rerun = s.rerun := by
    cases hw : s.susp <;> simp [settle, State.rerun, hstatus, hw]
  rw [hsame, State.rerun, ← hin, ← hret]

/-! ## A step of the engine -/

theorem step_of_engineRuns {s : State} (h : s.engineRuns) : step s = settled (engineOp s) := by
  obtain ⟨hin, -, hstatus⟩ := h
  simp [step, blockStep, engineStep, hin, hstatus]

/-- The state from which the next operation of the engine starts: nothing is left to resume. -/
def State.awake (s : State) : State := { s with susp := none }

theorem State.awake_eq_self {s : State} (h : s.susp = none) : s.awake = s := by
  obtain ⟨⟩ := s
  cases h
  rfl

/-- From a state of the invariant the engine performs an operation that waits as it started, the same one with any
supply. -/
theorem engineOp_eq_finish {s : State} (hi : s.Inv) :
    ∃ f, EngineOp f ∧ (f s.awake).WaitsAs s.awake ∧
      ∀ bs n, engineOp (s.supply bs n) = finish (f (s.awake.supply bs n)) := by
  cases hw : s.susp with
  | none =>
    obtain ⟨f, hf, hwait, he⟩ := exec_seqInstr_waits s.sq.seq
    refine ⟨f, hf, hwait _, fun bs n => ?_⟩
    rw [State.awake_eq_self hw, ← he]
    simp [engineOp, State.supply, hw]
  | some w =>
    refine ⟨resume w, engineOp_resume w, resume_waits (fun fr hfr => hi.outermost w fr hw hfr) _, fun bs n => ?_⟩
    simp [engineOp, State.supply, State.awake, hw]

/-! ## Statements that cannot go on -/

/-- What a statement waits for is not there: an input byte, or space for an output byte (R140). -/
def Prim.Blocked (io : Streams) : Prim → Prop
  | .inByte => io.input = [] ∧ io.inputEnded = false
  | .deliver _ => io.space = 0

theorem runPrim_of_blocked {p : Prim} {s : State} (h : p.Blocked s.io) : runPrim p s = .hold p [] s := by
  cases p with
  | inByte =>
    obtain ⟨hi, he⟩ := h
    simp [runPrim, inByte, hi, he]
  | deliver b => exact if_pos h

/-- Bytes do not help a delivery. -/
theorem Prim.Blocked.supply_input {p : Prim} {s : State} (h : p.Blocked s.io) (hp : p ≠ .inByte) (bs : List Byte) :
    p.Blocked (s.supply bs 0).io := by
  cases p with
  | inByte => exact absurd rfl hp
  | deliver b => exact h

/-- Space does not help a read. -/
theorem Prim.Blocked.supply_space {p : Prim} {s : State} (h : p.Blocked s.io) (hp : ∀ b, p ≠ .deliver b) (n : Nat) :
    p.Blocked (s.supply [] n).io := by
  cases p with
  | inByte =>
    obtain ⟨hi, he⟩ := h
    exact ⟨by simp [State.supply, hi], he⟩
  | deliver b => exact absurd rfl (hp b)

/-- Callers that go on from `t` move the streams on from `t`. -/
theorem moves_of_resumeFrames {k l : List Frame} {v : Nat} {p : Prim} {t u : State}
    (h : resumeFrames k (.done v t) = .hold p l u) : Moves t u := by
  have hm := ((EndsAt.done v (.refl t)).resumeFrames k).moves
  rwa [h] at hm

/-- An operation waits only where its statement is blocked. Resumed without a supply it waits as before, so its statement
has neither taken a byte nor delivered one. -/
theorem EngineOp.blocked {f : State → Res} (hf : EngineOp f) {s u : State} {p : Prim} {k : List Frame}
    (h : f s = .hold p k u) : p.Blocked u.io := by
  have again : resumeFrames k (runPrim p u) = .hold p k u := by
    have := (hf s).supply [] 0 (.inl rfl)
    rw [State.supply_nil_zero, h, Res.supplied, State.supply_nil_zero] at this
    exact this.symm
  cases p with
  | inByte =>
    rcases inByte_cases u with ⟨b, r, hb, he⟩ | ⟨-, -, he⟩ | ⟨hb, hn, -⟩
    · rw [runPrim, he] at again
      obtain ⟨used, hused⟩ := (moves_of_resumeFrames again).input
      have := congrArg List.length hused
      simp [hb] at this
      omega
    · rw [runPrim, he, resumeFrames_fail] at again
      cases again
    · exact ⟨hb, hn⟩
  | deliver b =>
    rcases deliver_cases b u with ⟨hs, -⟩ | ⟨-, he⟩
    · exact hs
    · rw [runPrim, he] at again
      obtain ⟨bs, hbs, -⟩ := (moves_of_resumeFrames again).output
      have := congrArg List.length hbs
      simp [State.deliver] at this

/-- A waiting operation whose statement is still blocked changes nothing: the HOST_RUN returns. -/
theorem step_of_blocked {s : State} {w : Suspension} (hr : s.engineRuns) (hw : s.susp = some w)
    (hb : w.prim.Blocked s.io) : step s = .next (settle s) := by
  have hwait : resume w s.awake = .hold w.prim w.frames s.awake := by
    rw [resume, runPrim_of_blocked (s := s.awake) hb, resumeFrames_hold, List.nil_append]
  have hs : s.awake.suspend w.prim w.frames = s := by
    obtain ⟨⟩ := s
    cases hw
    rfl
  have he : engineOp s = finish (resume w s.awake) := by simp only [engineOp, hw, State.awake]
  rw [step_of_engineRuns hr, he, hwait, finish_hold, hs, settled]

/-! ## A step with a supply -/

/-- `v` is the end of an engine step from `s` before the return of HOST_RUN is worked out. The operation has ended, and
with a supply it ends with that supply; or it waits in a blocked statement, and with a supply the step is the step that goes
on from the wait. -/
inductive StepEnd (s v : State) : Prop
  | ended (hn : v.susp = none)
      (hs : ∀ bs n, bs = [] ∨ s.io.inputEnded = false → step (s.supply bs n) = .next (settle (v.supply bs n)))
  | waits (w : Suspension) (hw : v.susp = some w) (hr : v.engineRuns) (hb : w.prim.Blocked v.io)
      (hs : ∀ bs n, bs = [] ∨ s.io.inputEnded = false → step (s.supply bs n) = step (v.supply bs n))

/-- Everything an engine step from a state of the invariant can do, with and without a supply. -/
theorem step_cases {s t : State} (hi : s.Inv) (hr : s.engineRuns) (h : step s = .next t) :
    ∃ v, t = settle v ∧ StepEnd s v := by
  obtain ⟨f, hf, hwait, he⟩ := engineOp_eq_finish hi
  have hstep : ∀ bs n, step (s.supply bs n) = settled (finish (f (s.awake.supply bs n))) := fun bs n => by
    rw [step_of_engineRuns (s := s.supply bs n) hr, he]
  have hsupply := (hf s.awake).supply
  have hmoves := (hf s.awake).moves
  have ht : settled (finish (f s.awake)) = .next t := by
    rw [← h]
    simpa only [State.supply_nil_zero] using (hstep [] 0).symm
  cases hres : f s.awake with
  | done _ v | fail v =>
    rw [hres] at ht hwait hsupply
    cases ht
    refine ⟨v, rfl, .ended hwait fun bs n hbs => ?_⟩
    rw [hstep, hsupply bs n hbs]
    rfl
  | stop x =>
    rw [hres] at ht
    cases ht
  | hold p k u =>
    have hb := hf.blocked hres
    rw [hres] at ht hwait hsupply hmoves
    cases ht
    obtain ⟨hstatus, hsusp⟩ := hwait
    have hhost : u.host = s.host := hmoves.host
    obtain ⟨hin, hret, hrun⟩ := hr
    have hru : (u.suspend p k).engineRuns := by
      rw [← hhost] at hin hret
      exact ⟨hin, hret, hstatus.trans hrun⟩
    refine ⟨u.suspend p k, rfl, .waits ⟨p, k⟩ rfl hru hb fun bs n hbs => ?_⟩
    have hgo : engineOp ((u.suspend p k).supply bs n) = finish (resumeFrames k (runPrim p (u.supply bs n))) := by
      have hu : (u.supply bs n).awake = u.supply bs n := State.awake_eq_self hsusp
      rw [← hu]
      rfl
    rw [hstep, hsupply bs n hbs, step_of_engineRuns (s := (u.suspend p k).supply bs n) hru, hgo]
    rfl

end Sys2Proof.Machine

open Sys2Proof Sys2Proof.Machine

/-- Settles O16: an operation that ends does so with the bytes behind it, a delivery that waits still waits with them, and a
read that waits goes on with them. -/
theorem inputWaitIsTransparent : Obligations.InputWaitIsTransparent := by
  intro s t bs hi hr hopen h
  obtain ⟨v, rfl, hv⟩ := step_cases hi hr h
  simp only [State.feed_eq_supply, State.waitsForInput, settle_susp, ← settle_supply]
  cases hv with
  | ended hn hs => exact ⟨fun _ => hs bs 0 (.inr hopen), fun ⟨w, hw, _⟩ => by simp [hn] at hw⟩
  | waits w hw hv hb hs =>
    refine ⟨fun hno => ?_, fun _ => ?_⟩
    · have hp : w.prim ≠ .inByte := fun hp => hno ⟨w, hw, hp⟩
      rw [hs bs 0 (.inr hopen)]
      exact step_of_blocked (s := v.supply bs 0) hv hw (hb.supply_input hp bs)
    · rw [hs bs 0 (.inr hopen), rerun_settle (s := v.supply bs 0) hv]

/-- Settles O17: an operation that ends does so with the space left over, a read that waits still waits with it, and a
delivery that waits goes on with it. -/
theorem outputWaitIsTransparent : Obligations.OutputWaitIsTransparent := by
  intro s t n hi hr h
  obtain ⟨v, rfl, hv⟩ := step_cases hi hr h
  simp only [State.grant_eq_supply, State.waitsForOutput, settle_susp, ← settle_supply]
  cases hv with
  | ended hn hs => exact ⟨fun _ => hs [] n (.inl rfl), fun ⟨w, b, hw, _⟩ => by simp [hn] at hw⟩
  | waits w hw hv hb hs =>
    refine ⟨fun hno => ?_, fun _ => ?_⟩
    · have hp : ∀ b, w.prim ≠ .deliver b := fun b hp => hno ⟨w, b, hw, hp⟩
      rw [hs [] n (.inl rfl)]
      exact step_of_blocked (s := v.supply [] n) hv hw (hb.supply_space hp n)
    · rw [hs [] n (.inl rfl), rerun_settle (s := v.supply [] n) hv]

end

section
/-! SUPPORT. Every operation of the engine keeps the registers' ranges, stops on nothing but a cell that `P` does not have, and
waits below callers that can stand where they stand: said once for each operation. -/

namespace Sys2Proof.Machine

/-! ## The ranges of the registers that the engine changes -/

/-- `D`, `pos` and `valid` (R40 to R42). -/
structure Dict.InRange (d : Dict) : Prop where
  wf : d.mem.wf = true
  below : Sparse.below d.size d.mem = true
  pos : d.pos < d.size
  valid : d.valid ≤ d.size

/-- `P` (R38). -/
structure Probs.InRange (p : Probs) : Prop where
  wf : p.wf = true
  below : Sparse.below Config.probCells p = true

/-- `len` (R25) and the properties (R26). -/
structure LzmaRegs.InRange (z : LzmaRegs) : Prop where
  len : z.len ≤ 273
  lc : z.lc ≤ 8
  lp : z.lp ≤ 4
  pb : z.pb ≤ 4

/-- The most that `unc_left` can hold where `seq` stands: the header's bytes come one after the other (R92, R95). -/
def uncBound : Seq → Nat
  | .uncompressed1 => 0x1F0000
  | .uncompressed2 => 0x1FFF00
  | .control | .compressed1 | .compressed2 | .properties | .lzmaPrepare | .lzmaRun | .copy => 2 ^ 21

/-- The most that `comp_left` can hold where `seq` stands (R95). -/
def compBound : Seq → Nat
  | .compressed2 => 0xFF00
  | .control | .uncompressed1 | .uncompressed2 | .compressed1 | .properties | .lzmaPrepare | .lzmaRun | .copy => 2 ^ 16

theorem uncBound_le (q : Seq) : uncBound q ≤ 2 ^ 21 := by cases q <;> simp [uncBound]

theorem compBound_le (q : Seq) : compBound q ≤ 2 ^ 16 := by cases q <;> simp [compBound]

/-- The chunk counters (R29). -/
structure Sequencer.InRange (q : Sequencer) : Prop where
  unc : q.uncLeft ≤ uncBound q.seq
  comp : q.compLeft ≤ compBound q.seq

/-- The registers that an operation of the engine changes are in their ranges, and `BCJ_ARCH` has a filter. Stated of the
register groups, so that a change of any other register is none to it. -/
structure RegRanges (c : ConfigRegs) (d : Dict) (p : Probs) (z : LzmaRegs) (q : Sequencer) (b : Bcj) : Prop where
  arch : archSupported c.bcjArch = true
  dict : d.InRange
  probs : p.InRange
  lz : z.InRange
  sq : q.InRange
  mask : b.x86PrevMask.toNat < 64

/-- The same of a state. -/
abbrev State.Ranges (s : State) : Prop := RegRanges s.cfg s.dict s.probs s.lz s.sq s.bcj

/-! ### Changes of one register group -/

theorem Dict.InRange.put {d : Dict} (h : d.InRange) (b : Byte) : (d.put b).InRange where
  wf := d.put_wf h.wf b
  below := Sparse.write_below b h.below h.pos
  pos := Nat.mod_lt _ (Nat.zero_lt_of_lt h.pos)
  valid := Nat.min_le_right _ _

theorem Dict.InRange.restart {d : Dict} (h : d.InRange) : d.restart.InRange :=
  ⟨h.wf, h.below, Nat.zero_lt_of_lt h.pos, Nat.zero_le _⟩

theorem Probs.InRange.write {p : Probs} (h : p.InRange) {i : Nat} (hi : i < Config.probCells) (v : Prob) :
    (p.write i v).InRange := ⟨p.write_wf h.wf i v, Sparse.write_below v h.below hi⟩

theorem Probs.inRange_nil : Probs.InRange [] := ⟨rfl, rfl⟩

theorem LzmaRegs.InRange.setLen {z : LzmaRegs} (h : z.InRange) {n : Nat} (hn : n ≤ 273) : { z with len := n }.InRange :=
  ⟨hn, h.lc, h.lp, h.pb⟩

theorem LzmaRegs.InRange.rotate {z : LzmaRegs} (h : z.InRange) (n : Nat) : (z.rotate n).InRange := by
  unfold LzmaRegs.rotate
  split <;> exact ⟨h.len, h.lc, h.lp, h.pb⟩

/-- The properties of a byte that PROPERTIES does not turn away at once (R71, R96). -/
theorem props_le {v : Byte} (h : ¬ 224 < v.toNat) : propsLc v ≤ 8 ∧ propsLp v ≤ 4 ∧ propsPb v ≤ 4 := by
  unfold propsLc propsLp propsPb
  omega

/-- The counters go down, or `seq` leaves the header. -/
theorem Sequencer.InRange.mono {q r : Sequencer} (h : q.InRange) (hu : r.uncLeft ≤ q.uncLeft) (hc : r.compLeft ≤ q.compLeft)
    (hs : r.seq = q.seq ∨ uncBound r.seq = 2 ^ 21 ∧ compBound r.seq = 2 ^ 16) : r.InRange := by
  have hu' := Nat.le_trans hu h.unc
  have hc' := Nat.le_trans hc h.comp
  rcases hs with hs | ⟨hsu, hsc⟩
  · exact ⟨hs ▸ hu', hs ▸ hc'⟩
  · exact ⟨hsu ▸ Nat.le_trans hu' (uncBound_le _), hsc ▸ Nat.le_trans hc' (compBound_le _)⟩

theorem Sequencer.InRange.countByte {q : Sequencer} (h : q.InRange) : { q with compLeft := q.compLeft - 1 }.InRange :=
  h.mono (Nat.le_refl _) (Nat.sub_le _ _) (.inl rfl)

theorem Sequencer.InRange.countOut {q : Sequencer} (h : q.InRange) : { q with uncLeft := q.uncLeft - 1 }.InRange :=
  h.mono (Nat.sub_le _ _) (Nat.le_refl _) (.inl rfl)

/-- The header of an LZMA chunk opens with five bits of its size (R92). -/
theorem Sequencer.InRange.openHeader {q : Sequencer} (h : q.InRange) (c : Byte) :
    { q with uncLeft := (c &&& 0x1F).toNat <<< 16, seq := .uncompressed1 }.InRange := by
  have h1 := h.comp
  have h2 := compBound_le q.seq
  have h3 : (c &&& 0x1F).toNat ≤ 0x1F := by
    rw [BitVec.toNat_and]
    exact Nat.and_le_right
  constructor
  · simp only [uncBound, Nat.shiftLeft_eq]
    omega
  · simp only [compBound]
    omega

theorem bounds_toSeq (n : NextSeq) : uncBound n.toSeq = 2 ^ 21 ∧ compBound n.toSeq = 2 ^ 16 := by
  cases n <;> exact ⟨rfl, rfl⟩

/-- A header byte (R95). -/
theorem Sequencer.InRange.headerByte {q : Sequencer} (h : q.InRange) {x : Nat} (hx : x < 256) {b : HeaderByte}
    (hq : q.seq = seqOfHeader b) : (q.headerByte x b).InRange := by
  obtain ⟨hunc, hcomp⟩ := h
  rw [hq] at hunc hcomp
  cases b with
  | compressed2 =>
    obtain ⟨hu, hc⟩ := bounds_toSeq q.nextSeq
    simp only [uncBound, compBound, seqOfHeader] at hunc hcomp
    constructor <;> simp only [Sequencer.headerByte, hu, hc] <;> omega
  | uncompressed1 | uncompressed2 | compressed1 =>
    simp only [uncBound, compBound, seqOfHeader] at hunc hcomp
    constructor <;> simp only [Sequencer.headerByte, uncBound, compBound, Nat.shiftLeft_eq] <;> omega

/-- A filter leaves `x86_prev_mask` within its six bits (R46). -/
theorem filter_mask_lt (arch : Arch) (pos : Word32) {mask : Word32} (h : mask.toNat < 64) (buf : List Byte) :
    (filter arch pos mask buf).mask.toNat < 64 := by
  cases arch with
  | x86 =>
    simp only [filter, filterX86]
    split
    · exact h
    · dsimp only
      split
      · simp
      · rw [BitVec.toNat_and]
        exact Nat.lt_succ_of_le Nat.and_le_right
  | powerpc | ia64 | arm | armthumb | sparc => exact h

/-! ## How an operation ends -/

/-- A caller that can stand below others: only CONTROL, HEADER and END are always outermost. -/
def Frame.Inner : Frame → Prop
  | .control | .header _ | .endMark => False
  | _ => True

theorem Frame.inner_iff (fr : Frame) : fr.Inner ↔ (fr ≠ .control ∧ fr ≠ .endMark) ∧ ∀ b, fr ≠ .header b := by
  cases fr <;> simp [Frame.Inner]

/-- Callers that can stand below others. -/
def InnerFrames (k : List Frame) (_ : State) : Prop := ∀ fr ∈ k, fr.Inner

/-- Callers as State.Inv asks for them. -/
def PlacedFrames (k : List Frame) (t : State) : Prop :=
  (∀ b, .header b ∈ k → k = [.header b] ∧ t.sq.seq = seqOfHeader b) ∧
    ∀ fr ∈ k.dropLast, fr ≠ .control ∧ fr ≠ .endMark

/-- Wherever the operation ends the registers are in their ranges, it waits below callers as `C` says, and it stops on
nothing but a cell that `P` does not have. -/
def Res.Stays (C : List Frame → State → Prop) : Res → Prop
  | .done _ t | .fail t => t.Ranges
  | .hold _ k t => C k t ∧ t.Ranges
  | .stop x => ∃ i, x = .noSuchCell i

/-- An operation that can stand below others. -/
def RangesOp (f : State → Res) : Prop := ∀ s, s.Ranges → (f s).Stays InnerFrames

namespace Res.Stays

variable {C : List Frame → State → Prop} {r r' : Res} {fr : Frame} {f : Nat → State → Res}

theorem ite {c : Prop} [Decidable c] (h : c → r.Stays C) (h' : ¬ c → r'.Stays C) : (if c then r else r').Stays C := by
  split
  · exact h ‹_›
  · exact h' ‹_›

/-- A call. -/
theorem bind (hi : fr.Inner) (h : r.Stays InnerFrames) (hf : ∀ v, RangesOp (f v)) :
    (r.bind fr f).Stays InnerFrames := by
  cases r with
  | done v t => exact hf v t h
  | hold p k t =>
    obtain ⟨hk, ht⟩ := h
    refine ⟨fun x hx => ?_, ht⟩
    rcases List.mem_append.mp hx with hx | hx
    · exact hk x hx
    · exact List.mem_singleton.mp hx ▸ hi
  | fail t => exact h
  | stop x => exact h

theorem placed (h : r.Stays InnerFrames) : r.Stays PlacedFrames := by
  cases r with
  | hold p k t =>
    obtain ⟨hk, ht⟩ := h
    exact ⟨⟨fun b hb => (hk _ hb).elim, fun fr hfr => ((Frame.inner_iff fr).mp (hk fr (List.mem_of_mem_dropLast hfr))).1⟩, ht⟩
  | done v t => exact h
  | fail t => exact h
  | stop x => exact h

/-- A call by an outermost caller. -/
theorem bindLast (h : r.Stays InnerFrames) (hf : ∀ v t, t.Ranges → (f v t).Stays PlacedFrames)
    (hi : ∀ b, fr ≠ .header b) : (r.bind fr f).Stays PlacedFrames := by
  cases r with
  | done v t => exact hf v t h
  | hold p k t =>
    obtain ⟨hk, ht⟩ := h
    refine ⟨⟨fun b hb => ?_, fun x hx => ?_⟩, ht⟩
    · rcases List.mem_append.mp hb with hb | hb
      · exact (hk _ hb).elim
      · exact absurd (List.mem_singleton.mp hb).symm (hi b)
    · rw [List.dropLast_concat] at hx
      exact ((Frame.inner_iff x).mp (hk x hx)).1
  | fail t => exact h
  | stop x => exact h

end Res.Stays

/-! ## The primitives -/

theorem ranges_done (v : Nat) : RangesOp (.done v) := fun _ h => h

theorem ranges_raise (k : ErrKind) : RangesOp (raise k) := fun _ h => h

theorem ranges_inByte : RangesOp inByte := by
  intro s h
  rcases inByte_cases s with ⟨b, r, -, he⟩ | ⟨-, -, he⟩ | ⟨-, -, he⟩ <;> rw [he]
  · exact h
  · exact h
  · exact ⟨by simp [InnerFrames], h⟩

theorem ranges_deliver (b : Byte) : RangesOp (deliver b) := by
  intro s h
  rcases deliver_cases b s with ⟨-, he⟩ | ⟨-, he⟩ <;> rw [he]
  · exact ⟨by simp [InnerFrames], h⟩
  · exact h

theorem ranges_runPrim (p : Prim) : RangesOp (runPrim p) := by
  cases p with
  | inByte => exact ranges_inByte
  | deliver b => exact ranges_deliver b

/-! ## The range coder -/

theorem State.Ranges.countByte {s : State} (h : s.Ranges) : s.countByte.Ranges := { h with sq := h.sq.countByte }

theorem ranges_rcByte : RangesOp rcByte := fun s h =>
  .ite (fun _ => h) fun _ => .bind trivial (ranges_inByte s h) fun _ _ => State.Ranges.countByte

theorem ranges_rcNorm : RangesOp rcNorm := fun _ h =>
  .ite (fun _ => .bind trivial (ranges_rcByte _ h) fun _ _ ht => ht) fun _ => h

theorem decideBit_ranges {s : State} (h : s.Ranges) {i : Nat} (hi : i < Config.probCells) : (s.decideBit i).2.Ranges := by
  simp only [State.decideBit]
  split <;> exact { h with probs := h.probs.write hi _ }

theorem ranges_rcBit (i : Nat) : RangesOp (rcBit i) := fun _ h =>
  .ite (fun hi => .bind trivial (ranges_rcNorm _ (decideBit_ranges h hi)) fun _ => ranges_done _) fun _ => ⟨i, rfl⟩

theorem ranges_rcTreeFrom (base n left sym : Nat) : RangesOp (rcTreeFrom base n left sym) := by
  induction left generalizing sym with
  | zero => exact ranges_done _
  | succ left ih => exact fun s h => .bind trivial (ranges_rcBit _ s h) fun _ => ih _

theorem ranges_rcTree (base n : Nat) : RangesOp (rcTree base n) := ranges_rcTreeFrom base n n 1

theorem ranges_rcTreeRevFrom (base left k sym v : Nat) : RangesOp (rcTreeRevFrom base left k sym v) := by
  induction left generalizing k sym v with
  | zero => exact ranges_done _
  | succ left ih => exact fun s h => .bind trivial (ranges_rcBit _ s h) fun _ => ih _ _ _

theorem ranges_rcTreeRev (base n : Nat) : RangesOp (rcTreeRev base n) := ranges_rcTreeRevFrom base n 0 1 0

theorem decideDirect_ranges {s : State} (h : s.Ranges) : s.decideDirect.2.Ranges := by
  simp only [State.decideDirect]
  split <;> exact h

theorem ranges_rcDirectFrom (left v : Nat) : RangesOp (rcDirectFrom left v) := by
  induction left generalizing v with
  | zero => exact ranges_done _
  | succ left ih => exact fun s h => .bind trivial (ranges_rcNorm _ (decideDirect_ranges h)) fun _ => ih _

theorem ranges_rcInitFrom (left : Nat) (c : Word32) : RangesOp (rcInitFrom left c) := by
  induction left generalizing c with
  | zero => exact fun _ h => h
  | succ left ih => exact fun s h => .bind trivial (ranges_rcByte s h) fun _ => ih _

theorem ranges_rcInitFirst (v : Nat) : RangesOp (rcInitFirst v) := fun s h =>
  .ite (fun _ => h) fun _ => ranges_rcInitFrom 4 0 s h

theorem ranges_rcInit : RangesOp rcInit := fun s h => .bind trivial (ranges_rcByte s h) ranges_rcInitFirst

/-! ## Stage 2 and the dictionary -/

theorem ranges_outBytes (left k n : Nat) : RangesOp (outBytes left k n) := by
  induction left generalizing k with
  | zero => exact fun _ h => { h with mask := h.mask }
  | succ left ih => exact fun s h => .bind trivial (ranges_deliver _ s h) fun _ => ih _

theorem filtered_ranges {s : State} (h : s.Ranges) (arch : Arch) (b : Byte) : (s.filtered arch b).1.Ranges :=
  { h with mask := filter_mask_lt arch _ h.mask _ }

/-- OutByte finds the filter that `BCJ_ARCH` names. -/
theorem ranges_outByte (b : Byte) : RangesOp (outByte b) := by
  intro s h
  unfold outByte
  cases hc : s.cfg.bcjArch with
  | none => exact ranges_deliver b s h
  | some id =>
    obtain ⟨arch, ha⟩ := Option.isSome_iff_exists.mp (show (archOfId id).isSome = true by simpa [hc, archSupported] using h.arch)
    simp only [ha]
    exact ranges_outBytes _ _ _ _ (filtered_ranges h arch b)

theorem ranges_dictPut (b : Byte) : RangesOp (dictPut b) := fun _ h => ranges_outByte b _ { h with dict := h.dict.put b }

theorem State.Ranges.countCopy {s : State} (h : s.Ranges) : s.countCopy.Ranges :=
  { h with lz := h.lz.setLen (Nat.le_trans (Nat.sub_le _ _) h.lz.len), sq := h.sq.countOut }

theorem ranges_repeatLoop (dist : Word32) (fuel : Nat) : RangesOp (repeatLoop dist fuel) := by
  induction fuel with
  | zero => exact ranges_done _
  | succ fuel ih =>
    exact fun s h => .ite (fun _ => .bind trivial (ranges_dictPut _ s h) fun _ _ ht => ih _ (State.Ranges.countCopy ht)) fun _ => h

theorem ranges_dictRepeat (dist : Word32) : RangesOp (dictRepeat dist) := fun s h =>
  .ite (fun _ => h) fun _ => ranges_repeatLoop dist _ s h

/-! ## Packets -/

theorem State.Ranges.literalDone {s : State} (h : s.Ranges) : s.literalDone.Ranges :=
  { h with lz := ⟨h.lz.len, h.lz.lc, h.lz.lp, h.lz.pb⟩, sq := h.sq.countOut }

theorem State.Ranges.setLen {s : State} (h : s.Ranges) {n : Nat} (hn : n ≤ 273) : (s.setLen n).Ranges :=
  { h with lz := h.lz.setLen hn }

theorem State.Ranges.setRep0 {s : State} (h : s.Ranges) (d : Word32) : (s.setRep0 d).Ranges :=
  { h with lz := ⟨h.lz.len, h.lz.lc, h.lz.lp, h.lz.pb⟩ }

theorem State.Ranges.lenLow {s : State} (h : s.Ranges) (t : BitVec 3) : (lenLow t s).Ranges :=
  h.setLen (by have := t.isLt; unfold lowLength; omega)

theorem State.Ranges.lenMid {s : State} (h : s.Ranges) (t : BitVec 3) : (lenMid t s).Ranges :=
  h.setLen (by have := t.isLt; unfold midLength; omega)

theorem State.Ranges.lenHigh {s : State} (h : s.Ranges) (t : BitVec 8) : (lenHigh t s).Ranges :=
  h.setLen (by have := t.isLt; unfold highLength; omega)

theorem ranges_litByte (v : Nat) : RangesOp (litByte v) := fun s h =>
  .bind trivial (ranges_dictPut _ s h) fun _ _ => State.Ranges.literalDone

theorem ranges_lzLit : RangesOp lzLit := fun s h => .bind trivial (ranges_rcTree _ _ s h) ranges_litByte

theorem ranges_mlitFrom (c left : Nat) (mbyte offset sym : Word32) : RangesOp (mlitFrom c left mbyte offset sym) := by
  induction left generalizing mbyte offset sym with
  | zero => exact ranges_litByte _
  | succ left ih =>
    exact fun s h => .bind trivial (ranges_rcBit _ s h) fun _ t ht => .ite (fun _ => ih _ _ _ t ht) fun _ => ih _ _ _ t ht

theorem ranges_lzMlit : RangesOp lzMlit := fun s h => ranges_mlitFrom _ 8 _ _ _ s h

theorem ranges_lenChoice2 (l : LenCoder) (b : Nat) : RangesOp (lenChoice2 l b) := fun s h =>
  .ite (fun _ => .bind trivial (ranges_rcTree _ _ s h) fun _ _ ht => State.Ranges.lenMid ht _) fun _ =>
    .bind trivial (ranges_rcTree _ _ s h) fun _ _ ht => State.Ranges.lenHigh ht _

theorem ranges_lenChoice (l : LenCoder) (b : Nat) : RangesOp (lenChoice l b) := fun s h =>
  .ite (fun _ => .bind trivial (ranges_rcTree _ _ s h) fun _ _ ht => State.Ranges.lenLow ht _) fun _ =>
    .bind trivial (ranges_rcBit _ s h) (ranges_lenChoice2 l)

theorem ranges_lzLen (l : LenCoder) : RangesOp (lzLen l) := fun s h => .bind trivial (ranges_rcBit _ s h) (ranges_lenChoice l)

theorem ranges_distDirect (slot x : Nat) : RangesOp (distDirect slot x) := fun s h =>
  .bind trivial (ranges_rcTreeRev _ _ s h) fun _ _ ht => State.Ranges.setRep0 ht _

theorem ranges_distSlot (slot : Nat) : RangesOp (distSlot slot) := fun s h =>
  .ite (fun _ => h.setRep0 _) fun _ =>
    .ite (fun _ => .bind trivial (ranges_rcTreeRev _ _ s h) fun _ _ ht => State.Ranges.setRep0 ht _) fun _ =>
      .bind trivial (ranges_rcDirectFrom _ 0 s h) (ranges_distDirect slot)

theorem ranges_lzDist : RangesOp lzDist := fun s h => .bind trivial (ranges_rcTree _ _ s h) ranges_distSlot

theorem ranges_copyMatch : RangesOp copyMatch := fun s h => ranges_dictRepeat s.lz.rep0 s h

theorem ranges_matchDist : RangesOp matchDist := fun s h => .bind trivial (ranges_lzDist s h) fun _ => ranges_copyMatch

theorem State.Ranges.matchStart {s : State} (h : s.Ranges) : s.matchStart.Ranges :=
  { h with lz := ⟨h.lz.len, h.lz.lc, h.lz.lp, h.lz.pb⟩ }

theorem State.Ranges.shortRepStart {s : State} (h : s.Ranges) : s.shortRepStart.Ranges :=
  { h with lz := ⟨show 1 ≤ 273 by omega, h.lz.lc, h.lz.lp, h.lz.pb⟩ }

theorem State.Ranges.longRepStart {s : State} (h : s.Ranges) (n : Nat) : (s.longRepStart n).Ranges :=
  have hz := h.lz.rotate n
  { h with lz := ⟨hz.len, hz.lc, hz.lp, hz.pb⟩ }

theorem ranges_lzMatch : RangesOp lzMatch := fun _ h =>
  .bind trivial (ranges_lzLen _ _ h.matchStart) fun _ => ranges_matchDist

theorem ranges_lzShortRep : RangesOp lzShortRep := fun _ h => ranges_copyMatch _ h.shortRepStart

theorem ranges_lzLongRep (n : Nat) : RangesOp (lzLongRep n) := fun _ h =>
  .bind trivial (ranges_lzLen _ _ (h.longRepStart n)) fun _ => ranges_copyMatch

theorem ranges_afterIsRep2 (b : Nat) : RangesOp (afterIsRep2 b) := fun s h =>
  .ite (fun _ => ranges_lzLongRep 2 s h) fun _ => ranges_lzLongRep 3 s h

theorem ranges_afterIsRep1 (b : Nat) : RangesOp (afterIsRep1 b) := fun s h =>
  .ite (fun _ => ranges_lzLongRep 1 s h) fun _ => .bind trivial (ranges_rcBit _ s h) ranges_afterIsRep2

theorem ranges_afterIsRep0Long (b : Nat) : RangesOp (afterIsRep0Long b) := fun s h =>
  .ite (fun _ => ranges_lzShortRep s h) fun _ => ranges_lzLongRep 0 s h

theorem ranges_afterIsRep0 (b : Nat) : RangesOp (afterIsRep0 b) := fun s h =>
  .ite (fun _ => .bind trivial (ranges_rcBit _ s h) ranges_afterIsRep0Long) fun _ => .bind trivial (ranges_rcBit _ s h) ranges_afterIsRep1

theorem ranges_afterIsRep (b : Nat) : RangesOp (afterIsRep b) := fun s h =>
  .ite (fun _ => ranges_lzMatch s h) fun _ => .bind trivial (ranges_rcBit _ s h) ranges_afterIsRep0

theorem ranges_afterIsMatch (b : Nat) : RangesOp (afterIsMatch b) := fun s h =>
  .ite (fun _ => .ite (fun _ => ranges_lzLit s h) fun _ => ranges_lzMlit s h) fun _ =>
    .bind trivial (ranges_rcBit _ s h) ranges_afterIsRep

theorem ranges_lzPacket : RangesOp lzPacket := fun s h => .bind trivial (ranges_rcBit _ s h) ranges_afterIsMatch

/-! ## Chunks -/

theorem ranges_flushBytes (l : List Byte) : RangesOp (flushBytes l) := by
  induction l with
  | nil => exact fun _ h => { h with mask := h.mask }
  | cons b l ih => exact fun s h => .bind trivial (ranges_deliver b s h) fun _ _ ht => ih _ { ht with mask := ht.mask }

/-- END is outermost. -/
theorem l2End_stays {s : State} (h : s.Ranges) : (l2End s).Stays PlacedFrames :=
  (ranges_flushBytes _ s h).bindLast (fun _ _ ht => ht) (by simp)

theorem State.Ranges.lzmaStateReset {s : State} (h : s.Ranges) : s.lzmaStateReset.Ranges :=
  { h with probs := Probs.inRange_nil, lz := ⟨Nat.zero_le _, h.lz.lc, h.lz.lp, h.lz.pb⟩ }

theorem ranges_lzmaControlByte (c : Byte) : RangesOp (lzmaControlByte c) := by
  intro s h
  have hq := h.sq.openHeader c
  refine .ite (fun _ => { h with sq := ⟨hq.unc, hq.comp⟩ }) fun _ => .ite (fun _ => { h with sq := hq }) fun _ => ?_
  have ht : State.Ranges { s with sq :=
      { s.sq with uncLeft := (c &&& 0x1F).toNat <<< 16, seq := .uncompressed1, nextSeq := .lzmaPrepare } } :=
    { h with sq := ⟨hq.unc, hq.comp⟩ }
  show State.Ranges (if 0xA0 ≤ c.toNat then _ else _)
  split
  · exact ht.lzmaStateReset
  · exact ht

theorem ranges_chunkControlByte (c : Byte) : RangesOp (chunkControlByte c) := fun s h =>
  .ite (fun _ => ranges_lzmaControlByte c s h) fun _ => .ite (fun _ => h) fun _ =>
    { h with sq := h.sq.mono (Nat.le_refl _) (Nat.le_refl _) (.inr ⟨rfl, rfl⟩) }

theorem controlByte_stays (c : Byte) {s : State} (h : s.Ranges) : (controlByte c s).Stays PlacedFrames :=
  .ite (fun _ => l2End_stays h) fun _ => Res.Stays.placed <|
    .ite
      (fun _ => ranges_chunkControlByte c _
        { h with dict := h.dict.restart, sq := h.sq.mono (Nat.le_refl _) (Nat.le_refl _) (.inl rfl) })
      fun _ => .ite (fun _ => h) fun _ => ranges_chunkControlByte c s h

theorem control_stays {s : State} (h : s.Ranges) : (control s).Stays PlacedFrames :=
  (ranges_inByte s h).bindLast (fun _ _ => controlByte_stays _) (by simp)

/-- HEADER, from its start and from its wait: `InByte()` gives a byte, and nothing else waits below HEADER. -/
theorem header_stays (p : Prim) {s : State} (h : s.Ranges) {b : HeaderByte} (hq : s.sq.seq = seqOfHeader b) :
    ((runPrim p s).bind (.header b) fun x s => .done 0 { s with sq := s.sq.headerByte x b }).Stays PlacedFrames := by
  have hwait : PlacedFrames [.header b] s := ⟨fun c hc => by simp_all, by simp⟩
  cases p with
  | inByte =>
    rw [runPrim]
    rcases inByte_cases s with ⟨x, r, -, he⟩ | ⟨-, -, he⟩ | ⟨-, -, he⟩ <;> rw [he]
    · exact { h with sq := h.sq.headerByte x.isLt hq }
    · exact h
    · exact ⟨hwait, h⟩
  | deliver x =>
    rw [runPrim]
    rcases deliver_cases x s with ⟨-, he⟩ | ⟨-, he⟩ <;> rw [he]
    · exact ⟨hwait, h⟩
    · exact { h with sq := h.sq.headerByte (Nat.succ_pos _) hq }

/-- `seq` leaves the header. -/
theorem State.Ranges.toSeq {s : State} (h : s.Ranges) {q : Seq} (hq : uncBound q = 2 ^ 21 ∧ compBound q = 2 ^ 16) :
    State.Ranges { s with sq := { s.sq with seq := q } } :=
  { h with sq := h.sq.mono (Nat.le_refl _) (Nat.le_refl _) (.inr hq) }

theorem ranges_propsByte (v : Byte) : RangesOp (propsByte v) := by
  intro s h
  refine .ite (fun _ => h) fun hv => ?_
  obtain ⟨hlc, hlp, hpb⟩ := props_le hv
  have ht : (s.setProps v).Ranges := { h with lz := ⟨h.lz.len, hlc, hlp, hpb⟩ }
  exact .ite (fun _ => ht) fun _ =>
    ht.lzmaStateReset.toSeq ⟨rfl, rfl⟩

theorem ranges_properties : RangesOp properties := fun s h => .bind trivial (ranges_inByte s h) fun _ => ranges_propsByte _

theorem ranges_prepare : RangesOp prepare := fun s h =>
  .ite (fun _ => h) fun _ => .bind trivial (ranges_rcInit s h) fun _ _ ht => State.Ranges.toSeq ht ⟨rfl, rfl⟩

theorem ranges_chunkEnd : RangesOp chunkEnd := fun _ h => .ite (fun _ => h) fun _ => h.toSeq ⟨rfl, rfl⟩

theorem ranges_runLoop (fuel : Nat) : RangesOp (runLoop fuel) := by
  induction fuel with
  | zero => exact ranges_done _
  | succ fuel ih => exact fun s h => .ite (fun _ => .bind trivial (ranges_lzPacket s h) fun _ => ih) fun _ => ranges_chunkEnd s h

theorem ranges_copyLoop (fuel : Nat) : RangesOp (copyLoop fuel) := by
  induction fuel with
  | zero => exact ranges_done _
  | succ fuel ih =>
    exact fun s h => .ite
      (fun _ => .bind trivial (ranges_inByte s h) fun _ t ht => .bind trivial (ranges_dictPut _ t ht) fun _ _ hu => ih _ hu.countByte)
      fun _ => h

theorem ranges_copy : RangesOp copy := fun s h => .bind trivial (ranges_copyLoop _ s h) fun _ _ ht =>
  State.Ranges.toSeq ht ⟨rfl, rfl⟩

/-! ## Resumption -/

/-- Every continuation but the outermost ones. -/
theorem ranges_resumeFrame {fr : Frame} (hi : fr.Inner) (v : Nat) : RangesOp (resumeFrame fr v) := by
  cases fr with
  | rcByte => exact fun _ => State.Ranges.countByte
  | rcNorm => exact fun _ h => h
  | rcBit bit => exact ranges_done bit
  | rcInitFirst => exact ranges_rcInitFirst v
  | rcInitNext left c => exact ranges_rcInitFrom left _
  | rcTree base n left sym => exact ranges_rcTreeFrom base n left _
  | rcTreeRev base left k sym w => exact ranges_rcTreeRevFrom base left _ _ _
  | rcDirect left w => exact ranges_rcDirectFrom left w
  | ret => exact fun _ h => h
  | isMatch => exact ranges_afterIsMatch v
  | isRep => exact ranges_afterIsRep v
  | isRep0 => exact ranges_afterIsRep0 v
  | isRep0Long => exact ranges_afterIsRep0Long v
  | isRep1 => exact ranges_afterIsRep1 v
  | isRep2 => exact ranges_afterIsRep2 v
  | litByte => exact ranges_litByte v
  | litPut => exact fun _ => State.Ranges.literalDone
  | mlit c left mbyte matchBit offset sym =>
    exact fun t h => .ite (fun _ => ranges_mlitFrom _ _ _ _ _ t h) fun _ => ranges_mlitFrom _ _ _ _ _ t h
  | lenChoice l => exact ranges_lenChoice l v
  | lenChoice2 l => exact ranges_lenChoice2 l v
  | lenLow => exact fun _ h => State.Ranges.lenLow h _
  | lenMid => exact fun _ h => State.Ranges.lenMid h _
  | lenHigh => exact fun _ h => State.Ranges.lenHigh h _
  | distSlot => exact ranges_distSlot v
  | distSpecial slot => exact fun _ h => State.Ranges.setRep0 h _
  | distDirect slot => exact ranges_distDirect slot v
  | distAlign slot x => exact fun _ h => State.Ranges.setRep0 h _
  | matchLen => exact ranges_matchDist
  | copyMatch => exact ranges_copyMatch
  | repeatPut dist fuel => exact fun _ h => ranges_repeatLoop dist fuel _ h.countCopy
  | control => exact hi.elim
  | header b => exact hi.elim
  | properties => exact ranges_propsByte _
  | prepare => exact fun _ h => State.Ranges.toSeq h ⟨rfl, rfl⟩
  | run fuel => exact ranges_runLoop fuel
  | copyRead fuel =>
    exact fun t h => .bind trivial (ranges_dictPut _ t h) fun _ _ hu => ranges_copyLoop fuel _ (State.Ranges.countByte hu)
  | copyPut fuel => exact fun _ h => ranges_copyLoop fuel _ h.countByte
  | copyDone => exact fun _ h => State.Ranges.toSeq h ⟨rfl, rfl⟩
  | outByte left k n => exact ranges_outBytes left k n
  | flush rest => exact fun _ h => ranges_flushBytes rest _ { h with mask := h.mask }
  | endMark => exact hi.elim

/-- Every continuation but HEADER's, as the outermost one. -/
theorem resumeFrame_stays {fr : Frame} (hh : ∀ b, fr ≠ .header b) (v : Nat) {s : State} (h : s.Ranges) :
    (resumeFrame fr v s).Stays PlacedFrames := by
  by_cases hi : fr.Inner
  · exact (ranges_resumeFrame hi v s h).placed
  · cases fr with
    | control => exact controlByte_stays _ h
    | endMark => exact h
    | header b => exact absurd rfl (hh b)
    | _ => exact absurd trivial hi

/-- The callers go on one after the other, the outermost ones only at the end. -/
theorem resumeFrames_stays {k : List Frame} (hk : ∀ fr ∈ k.dropLast, fr ≠ .control ∧ fr ≠ .endMark)
    (hh : ∀ b, .header b ∉ k) {r : Res} (h : r.Stays InnerFrames) : (resumeFrames k r).Stays PlacedFrames := by
  induction k generalizing r with
  | nil => exact h.placed
  | cons fr k ih =>
    have hfr : ∀ b, fr ≠ .header b := fun b hb => hh b (by simp [hb])
    cases k with
    | nil => exact h.bindLast (fun v _ => resumeFrame_stays hfr v) hfr
    | cons fr' k =>
      have hi : fr.Inner := (Frame.inner_iff fr).mpr ⟨hk fr (by simp), hfr⟩
      exact ih (fun x hx => hk x (by simp [hx])) (fun b hb => hh b (List.mem_cons_of_mem _ hb))
        (h.bind hi (ranges_resumeFrame hi))

/-- A waiting operation goes on. -/
theorem resume_stays {w : Suspension} {s : State} (h : s.Ranges) (hw : PlacedFrames w.frames s) :
    (resume w s).Stays PlacedFrames := by
  obtain ⟨hhead, hout⟩ := hw
  by_cases hh : ∃ b, .header b ∈ w.frames
  · obtain ⟨b, hb⟩ := hh
    obtain ⟨hf, hq⟩ := hhead b hb
    rw [resume, hf]
    exact header_stays w.prim h hq
  · exact resumeFrames_stays hout (fun b hb => hh ⟨b, hb⟩) (ranges_runPrim w.prim s h)

end Sys2Proof.Machine
end

section
/-! SUPPORT. What a step of the engine and an operation of the host can do, said once (41_lzma2_chunks.md R91,
60_exceptions.md R133 to R135). -/

namespace Sys2Proof.Machine

/-! ## The operation of an engine step -/

/-- The operation that `seq` names (R91). -/
def seqOp : Seq → State → Res
  | .control => control
  | .uncompressed1 => header .uncompressed1
  | .uncompressed2 => header .uncompressed2
  | .compressed1 => header .compressed1
  | .compressed2 => header .compressed2
  | .properties => properties
  | .lzmaPrepare => prepare
  | .lzmaRun => run
  | .copy => copy

theorem exec_seqInstr_eq_finish (q : Seq) (s : State) : exec (seqInstr q) s = finish (seqOp q s) := by cases q <;> rfl

theorem engineOp_seqOp (q : Seq) : EngineOp (seqOp q) := by
  cases q with
  | control => exact engineOp_control
  | uncompressed1 | uncompressed2 | compressed1 | compressed2 => exact engineOp_header _
  | properties => exact engineOp_properties
  | lzmaPrepare => exact engineOp_prepare
  | lzmaRun => exact engineOp_run
  | copy => exact engineOp_copy

theorem seqOp_waits (q : Seq) (s : State) : (seqOp q s).WaitsAs s := by
  cases q with
  | control => exact control_waits s
  | uncompressed1 | uncompressed2 | compressed1 | compressed2 => exact (alive_header _ s).waitsAs
  | properties => exact (alive_properties s).waitsAs
  | lzmaPrepare => exact (alive_prepare s).waitsAs
  | lzmaRun => exact (alive_run s).waitsAs
  | copy => exact (alive_copy s).waitsAs

theorem seqOp_stays {s : State} (h : s.Ranges) : (seqOp s.sq.seq s).Stays PlacedFrames := by
  cases hq : s.sq.seq with
  | control => exact control_stays h
  | uncompressed1 => exact header_stays .inByte h (b := .uncompressed1) hq
  | uncompressed2 => exact header_stays .inByte h (b := .uncompressed2) hq
  | compressed1 => exact header_stays .inByte h (b := .compressed1) hq
  | compressed2 => exact header_stays .inByte h (b := .compressed2) hq
  | properties => exact (ranges_properties s h).placed
  | lzmaPrepare => exact (ranges_prepare s h).placed
  | lzmaRun => exact (ranges_runLoop _ s h).placed
  | copy => exact (ranges_copy s h).placed

/-- The operation of an engine step: the waiting one goes on, or the one that `seq` names is performed (R135, R140). -/
def State.nextOp (s : State) : Res :=
  match s.susp with
  | some w => resume w s.awake
  | none => seqOp s.sq.seq s.awake

theorem engineOp_eq_finish_nextOp (s : State) : engineOp s = finish s.nextOp := by
  cases hw : s.susp with
  | some w => simp only [engineOp, State.nextOp, State.awake, hw]
  | none =>
    rw [engineOp, State.nextOp, hw]
    dsimp only
    rw [exec_seqInstr_eq_finish, State.awake_eq_self hw]

theorem nextOp_moves (s : State) : s.nextOp.All (Moves s) := by
  have h0 : Moves s s.awake := .quiet rfl rfl rfl rfl rfl rfl rfl
  have hop : s.nextOp.All (Moves s.awake) := by
    unfold State.nextOp
    split
    · exact (engineOp_resume _ _).moves
    · exact (engineOp_seqOp _ _).moves
  exact hop.mono fun t => h0.trans

/-- The return of HOST_RUN is the host's side alone. -/
theorem settle_eq (s : State) : settle s = { s with host := (settle s).host } := by
  unfold settle
  split
  · split <;> rfl
  · rfl

@[simp] theorem settle_queue (s : State) : (settle s).host.queue = s.host.queue := by
  unfold settle
  split
  · split <;> rfl
  · rfl

/-- An engine step is its operation, and then the return of HOST_RUN. -/
theorem nextOp_of_step {s t : State} (hr : s.engineRuns) (h : step s = .next t) :
    ∃ v, finish s.nextOp = .next v ∧ t = settle v := by
  rw [step_of_engineRuns hr, engineOp_eq_finish_nextOp] at h
  cases hv : finish s.nextOp with
  | next v =>
    rw [hv] at h
    cases h
    exact ⟨v, rfl, rfl⟩
  | fault f => rw [hv] at h; cases h
  | refused r => rw [hv] at h; cases h

/-- The operation of an engine step moves the streams in order and leaves the configuration alone. -/
theorem moves_of_nextOp {s v : State} (h : finish s.nextOp = .next v) : Moves s v :=
  finish_next_all (nextOp_moves s) (fun _ _ _ hm => hm.trans (.quiet rfl rfl rfl rfl rfl rfl rfl)) h

/-! ## The check registers -/

theorem update_engine (c : Check) (b : Byte) : (c.update b).engine = c.engine ∧ (c.update b).tagLen = c.tagLen := by
  unfold Check.update
  split
  · exact ⟨rfl, rfl⟩
  · exact ⟨rfl, rfl⟩
  · exact ⟨rfl, rfl⟩
  · unfold shaByte
    dsimp only
    split <;> exact ⟨rfl, rfl⟩

theorem update_shaBuf {c : Check} (h : c.shaBuf.length < 64) (b : Byte) : (c.update b).shaBuf.length < 64 := by
  unfold Check.update
  split
  · exact h
  · exact h
  · exact h
  · unfold shaByte
    dsimp only
    split
    · exact Nat.zero_lt_succ _
    · next hne =>
      simp only [List.length_append, List.length_singleton] at hne ⊢
      omega

/-- Delivered bytes leave the engine and the length of the tag alone. -/
theorem foldl_update_engine (bs : List Byte) (c : Check) :
    (bs.foldl Check.update c).engine = c.engine ∧ (bs.foldl Check.update c).tagLen = c.tagLen := by
  induction bs generalizing c with
  | nil => exact ⟨rfl, rfl⟩
  | cons b bs ih =>
    obtain ⟨h1, h2⟩ := update_engine c b
    exact ⟨(ih _).1.trans h1, (ih _).2.trans h2⟩

theorem foldl_update_shaBuf (bs : List Byte) {c : Check} (h : c.shaBuf.length < 64) :
    (bs.foldl Check.update c).shaBuf.length < 64 := by
  induction bs generalizing c with
  | nil => exact h
  | cons b bs ih => exact ih (update_shaBuf h b)

/-! ## HOST_CONFIG's checks (R90, R124, R134) -/

/-- R124's rows: a check type with its engine and the length of its tag. -/
def CheckRow (ct : Byte) (e : CheckEngine) (n : Nat) : Prop :=
  (ct = 0x00 ∧ e = .none ∧ n = 0) ∨ (ct = 0x01 ∧ e = .crc32 ∧ n = 4) ∨ (ct = 0x04 ∧ e = .crc64 ∧ n = 8) ∨
    (ct = 0x0A ∧ e = .sha256 ∧ n = 32)

/-- A check type that picks an engine. -/
def CheckKnown (ct : Byte) : Prop := ct = 0x00 ∨ ct = 0x01 ∨ ct = 0x04 ∨ ct = 0x0A

theorem CheckRow.tagLen_le {ct : Byte} {e : CheckEngine} {n : Nat} (h : CheckRow ct e n) : n ≤ 32 := by
  rcases h with ⟨-, -, rfl⟩ | ⟨-, -, rfl⟩ | ⟨-, -, rfl⟩ | ⟨-, -, rfl⟩ <;> omega

theorem CheckKnown.row {ct : Byte} (h : CheckKnown ct) : ∃ e n, CheckRow ct e n := by
  rcases h with h | h | h | h
  · exact ⟨_, _, .inl ⟨h, rfl, rfl⟩⟩
  · exact ⟨_, _, .inr (.inl ⟨h, rfl, rfl⟩)⟩
  · exact ⟨_, _, .inr (.inr (.inl ⟨h, rfl, rfl⟩))⟩
  · exact ⟨_, _, .inr (.inr (.inr ⟨h, rfl, rfl⟩))⟩

theorem CheckRow.known {ct : Byte} {e : CheckEngine} {n : Nat} (h : CheckRow ct e n) : CheckKnown ct := by
  rcases h with ⟨h, -⟩ | ⟨h, -⟩ | ⟨h, -⟩ | ⟨h, -⟩ <;> simp [CheckKnown, h]

/-- The error of a check type without an engine (R124). -/
def checkError (ct : Byte) : ErrKind := if ct.toNat < 0x0A then .unsupportedCheck else .options

theorem chkSelect_row {s : State} {e : CheckEngine} {n : Nat} (h : CheckRow s.cfg.checkType e n) :
    chkSelect s = .done 0 (s.selectEngine e n) := by
  rcases h with ⟨h, rfl, rfl⟩ | ⟨h, rfl, rfl⟩ | ⟨h, rfl, rfl⟩ | ⟨h, rfl, rfl⟩ <;> simp [chkSelect, h]

theorem chkSelect_unknown {s : State} (h : ¬ CheckKnown s.cfg.checkType) :
    chkSelect s = .fail (s.raised (checkError s.cfg.checkType)) := by
  simp only [CheckKnown, not_or] at h
  obtain ⟨h0, h1, h4, hA⟩ := h
  simp only [chkSelect, h0, h1, h4, hA, if_false, raise, checkError]
  split <;> rfl

/-- `DICT_SIZE` of a dictionary property as R72 writes it. -/
theorem dictSizeOf_eq (b : Byte) : dictSizeOf b = (2 + b.toNat % 2) * 2 ^ (b.toNat / 2 + 11) := by
  have h : 2 ||| (b.toNat &&& 1) = 2 + b.toNat % 2 := by
    rw [Nat.and_one_is_mod]
    rcases Nat.mod_two_eq_zero_or_one b.toNat with h | h <;> simp [h]
  rw [dictSizeOf, Nat.shiftLeft_eq, h]

theorem dictSizeOf_pos (b : Byte) : 0 < dictSizeOf b := by
  rw [dictSizeOf_eq]
  exact Nat.mul_pos (by omega) (Nat.two_pow_pos _)

/-- The filters that HOST_CONFIG accepts are none and R34's six. -/
theorem archSupported_iff (arch : Option Byte) :
    archSupported arch = true ↔ arch = none ∨ ∃ id ∈ [(0x04 : Byte), 0x05, 0x06, 0x07, 0x08, 0x09], arch = some id := by
  cases arch with
  | none => simp [archSupported]
  | some id =>
    simp only [archSupported, archOfId]
    split_ifs <;> simp_all

/-- After the check type comes the filter, and then the dictionary property (R134). -/
theorem configChecks_row {s : State} {e : CheckEngine} {n : Nat} (h : CheckRow s.cfg.checkType e n) :
    configChecks s = if archSupported s.cfg.bcjArch then dictCheck (s.selectEngine e n)
      else raise .options (s.selectEngine e n) := by
  rw [configChecks, chkSelect_row h]
  rfl

/-- HOST_CONFIG's checks, in their order: each raises its error, or the next one is made. -/
theorem configChecks_cases (s : State) :
    (¬ CheckKnown s.cfg.checkType ∧ configChecks s = .fail (s.raised (checkError s.cfg.checkType))) ∨
    ∃ e n, CheckRow s.cfg.checkType e n ∧
      ((archSupported s.cfg.bcjArch = false ∧ configChecks s = .fail ((s.selectEngine e n).raised .options)) ∨
      (archSupported s.cfg.bcjArch = true ∧ 40 < s.cfg.dictProp.toNat ∧
        configChecks s = .fail ((s.selectEngine e n).raised .options)) ∨
      (archSupported s.cfg.bcjArch = true ∧ s.cfg.dictProp.toNat ≤ 40 ∧
        s.cfg.dictCap.toNat < dictSizeOf s.cfg.dictProp ∧
        configChecks s = .fail ((s.selectEngine e n).raised .memlimit)) ∨
      (archSupported s.cfg.bcjArch = true ∧ s.cfg.dictProp.toNat ≤ 40 ∧
        dictSizeOf s.cfg.dictProp ≤ s.cfg.dictCap.toNat ∧
        configChecks s =
          .done 0 { s.selectEngine e n with dict := s.dict.resize (dictSizeOf s.cfg.dictProp) })) := by
  by_cases hk : CheckKnown s.cfg.checkType
  · obtain ⟨e, n, hrow⟩ := hk.row
    refine .inr ⟨e, n, hrow, ?_⟩
    rw [configChecks_row hrow]
    cases ha : archSupported s.cfg.bcjArch with
    | false => exact .inl ⟨rfl, rfl⟩
    | true =>
      rw [if_pos rfl, dictCheck]
      by_cases hp : 40 < s.cfg.dictProp.toNat
      · exact .inr (.inl ⟨rfl, hp, if_pos hp⟩)
      · by_cases hc : s.cfg.dictCap.toNat < dictSizeOf s.cfg.dictProp
        · exact .inr (.inr (.inl ⟨rfl, Nat.le_of_not_lt hp, hc, (if_neg hp).trans (if_pos hc)⟩))
        · exact .inr (.inr (.inr ⟨rfl, Nat.le_of_not_lt hp, Nat.le_of_not_lt hc, (if_neg hp).trans (if_neg hc)⟩))
  · exact .inl ⟨hk, by rw [configChecks, chkSelect_unknown hk]; rfl⟩

/-- The block of HOST_CONFIG before its checks (R134, R146). -/
def State.configured (s : State) (dp : Byte) (arch : Option Byte) (ct : Byte) : State :=
  State.rstBlock { s with cfg := { s.cfg with dictProp := dp, bcjArch := arch, checkType := ct } }

theorem configLegal_iff {st : Status} : configLegal st = true ↔ st = .idle ∨ st = .streamEnd := by simp [configLegal]

theorem exec_hostConfig_legal {s : State} (h : s.status = .idle ∨ s.status = .streamEnd) (dp : Byte) (arch : Option Byte)
    (ct : Byte) : exec (.hostConfig dp arch ct) s = finish (configChecks (s.configured dp arch ct)) :=
  if_pos (configLegal_iff.mpr h)

theorem exec_hostConfig_illegal {s : State} (h : ¬ (s.status = .idle ∨ s.status = .streamEnd)) (dp : Byte)
    (arch : Option Byte) (ct : Byte) : exec (.hostConfig dp arch ct) s = .next s :=
  if_neg (mt configLegal_iff.mp h)

/-! ## The host's operations -/

/-- What an operation of the host can do (R133). -/
inductive HostEffect (s : State) : State → Prop
  /-- HOST_RESET -/
  | reset (cap : Word32) : HostEffect s (s.rstHost cap)
  /-- HOST_CONFIG, turned away by one of its checks -/
  | turnedAway (dp : Byte) (arch : Option Byte) (ct : Byte) (c : Check) (k : ErrKind)
      (hs : c.shaBuf = []) (ht : c.tagLen = s.chk.tagLen ∨ c.tagLen ≤ 32) :
      HostEffect s (State.raised { s.configured dp arch ct with chk := c } k)
  /-- HOST_CONFIG, a block started -/
  | started (dp : Byte) (arch : Option Byte) (ct : Byte) (c : Check) (ha : archSupported arch = true)
      (hs : c.shaBuf = []) (ht : c.tagLen ≤ 32) :
      HostEffect s { s.configured dp arch ct with chk := c, dict := s.dict.restart.resize (dictSizeOf dp) }
  /-- HOST_FEED, HOST_END_INPUT, HOST_SPACE, HOST_RUN, and an operation without effect -/
  | streams (io : Streams) (host : HostSide)
      (hr : host.inRun = true → s.host.inRun = true ∨ s.status = .running ∧ host.runReturn = none) :
      HostEffect s { s with io := io, host := host }
  /-- HOST_COMPARE of the right tag -/
  | matched (tag : List Byte) (h : s.status = .streamEnd) :
      HostEffect s { s with cfg := { s.cfg with expectedTag := tag.take s.chk.tagLen }, checkOk := true }
  /-- HOST_COMPARE of another tag -/
  | mismatched (tag : List Byte) (h : s.status = .streamEnd) :
      HostEffect s (State.raised { s with cfg := { s.cfg with expectedTag := tag.take s.chk.tagLen } } .data)

theorem hostEffect_refl (s : State) : HostEffect s s := .streams s.io s.host .inl

theorem hostConfig_effect (s : State) (dp : Byte) (arch : Option Byte) (ct : Byte) :
    ∃ t, exec (.hostConfig dp arch ct) s = .next t ∧ HostEffect s t := by
  by_cases hl : s.status = .idle ∨ s.status = .streamEnd
  · rw [exec_hostConfig_legal hl]
    rcases configChecks_cases (s.configured dp arch ct) with
      ⟨-, he⟩ | ⟨e, n, hrow, ⟨-, he⟩ | ⟨-, -, he⟩ | ⟨-, -, -, he⟩ | ⟨ha, -, -, he⟩⟩
    · rw [he]
      exact ⟨_, rfl, .turnedAway dp arch ct (s.configured dp arch ct).chk _ rfl (.inl rfl)⟩
    · rw [he]
      exact ⟨_, rfl, .turnedAway dp arch ct ((s.configured dp arch ct).selectEngine e n).chk _ rfl (.inr hrow.tagLen_le)⟩
    · rw [he]
      exact ⟨_, rfl, .turnedAway dp arch ct ((s.configured dp arch ct).selectEngine e n).chk _ rfl (.inr hrow.tagLen_le)⟩
    · rw [he]
      exact ⟨_, rfl, .turnedAway dp arch ct ((s.configured dp arch ct).selectEngine e n).chk _ rfl (.inr hrow.tagLen_le)⟩
    · rw [he]
      exact ⟨_, rfl, .started dp arch ct ((s.configured dp arch ct).selectEngine e n).chk ha rfl hrow.tagLen_le⟩
  · exact ⟨s, exec_hostConfig_illegal hl dp arch ct, hostEffect_refl s⟩

theorem hostCompare_effect (s : State) (tag : List Byte) :
    ∃ t, exec (.hostCompare tag) s = .next t ∧ HostEffect s t := by
  show ∃ t, execHostCompare tag s = .next t ∧ HostEffect s t
  unfold execHostCompare
  split
  · next hl =>
    have hs : s.status = .streamEnd := by simpa [compareLegal] using hl
    unfold chkCompare
    dsimp only
    split
    · exact ⟨_, rfl, .mismatched tag hs⟩
    · exact ⟨_, rfl, .matched tag hs⟩
  · exact ⟨s, rfl, hostEffect_refl s⟩

theorem hostRun_effect (s : State) : ∃ t, exec .hostRun s = .next t ∧ HostEffect s t := by
  show ∃ t, execHostRun s = .next t ∧ HostEffect s t
  unfold execHostRun
  split
  · next hr => exact ⟨_, rfl, .streams s.io _ fun _ => .inr ⟨hr, rfl⟩⟩
  · exact ⟨_, rfl, .streams s.io _ .inl⟩

/-- Every operation of the host answers a next state. -/
theorem hostOp_effect (op : HostOp) (s : State) : ∃ t, exec op.toInstr s = .next t ∧ HostEffect s t := by
  cases op with
  | reset cap => exact ⟨_, rfl, .reset cap⟩
  | config dp arch ct => exact hostConfig_effect s dp arch ct
  | feed bs => exact ⟨_, rfl, .streams { s.io with input := s.io.input ++ bs } s.host .inl⟩
  | endInput => exact ⟨_, rfl, .streams { s.io with inputEnded := true } s.host .inl⟩
  | space n => exact ⟨_, rfl, .streams { s.io with space := s.io.space + n } s.host .inl⟩
  | run => exact hostRun_effect s
  | compare tag => exact hostCompare_effect s tag

/-- The host's turn: its queue moves on, and its operation has its effect. -/
theorem hostStep_effect {s : State} (h : s.host.inRun = false) :
    ∃ rest t, step s = .next t ∧ HostEffect { s with host := { s.host with queue := rest } } t := by
  have hstep : step s = hostStep s := by simp [step, blockStep, h]
  rw [hstep, hostStep]
  cases hq : s.host.queue with
  | nil => exact ⟨[], s, rfl, by rw [← hq]; exact hostEffect_refl s⟩
  | cons op rest =>
    obtain ⟨t, ht, he⟩ := hostOp_effect op { s with host := { s.host with queue := rest } }
    exact ⟨rest, t, ht, he⟩

end Sys2Proof.Machine
end

section
/-! SUPPORT. The invariant by register groups, and what keeps it: an engine step, and each effect of the host. -/

namespace Sys2Proof.Machine

/-! ## The invariant by register groups -/

theorem State.Inv.dictInRange {s : State} (h : s.Inv) : s.dict.InRange := ⟨h.memWf, h.memBelow, h.posBelow, h.validLe⟩

theorem State.Inv.probsInRange {s : State} (h : s.Inv) : s.probs.InRange := ⟨h.probsWf, h.probsBelow⟩

theorem State.Inv.lzInRange {s : State} (h : s.Inv) : s.lz.InRange := ⟨h.lenLe, h.lcLe, h.lpLe, h.pbLe⟩

theorem State.Inv.sqInRange {s : State} (h : s.Inv) (hr : s.status = .running) : s.sq.InRange := by
  have h1 := h.unc1 hr
  have h2 := h.unc2 hr
  have h3 := h.comp2 hr
  have h4 := h.uncLe
  have h5 := h.compLe
  constructor <;> cases hq : s.sq.seq <;> simp_all [uncBound, compBound]

/-- Where the engine runs, all of its registers are in their ranges. -/
theorem State.Inv.ranges {s : State} (h : s.Inv) (hr : s.status = .running) : s.Ranges :=
  ⟨h.filterKnown hr, h.dictInRange, h.probsInRange, h.lzInRange, h.sqInRange hr, h.maskShort⟩

theorem State.Inv.placed {s : State} (h : s.Inv) {w : Suspension} (hw : s.susp = some w) : PlacedFrames w.frames s :=
  ⟨fun b => h.headerAlone w b hw, fun fr => h.outermost w fr hw⟩

theorem State.Inv.not_waiting {s : State} (h : s.Inv) (hr : s.status ≠ .running) : s.susp = none := by
  cases hw : s.susp with
  | none => rfl
  | some w => exact absurd (h.suspRuns (by simp [hw])) hr

theorem State.Inv.engineRuns {s : State} (h : s.Inv) (hin : s.host.inRun = true) : s.engineRuns := by
  obtain ⟨hr, hret⟩ := h.runRuns hin
  exact ⟨hin, hret, hr⟩

/-- State.Inv from its groups. The ranges that hang on `running` come together. -/
theorem inv_of_groups {t : State} (hd : t.dict.InRange) (hp : t.probs.InRange) (hz : t.lz.InRange)
    (hu : t.sq.uncLeft ≤ 2 ^ 21) (hc : t.sq.compLeft ≤ 2 ^ 16) (hs : t.chk.shaBuf.length < 64)
    (hm : t.bcj.x86PrevMask.toNat < 64) (htag : t.chk.tagLen ≤ 32 ∧ t.cfg.expectedTag.length ≤ 32)
    (hrun : t.status = .running → t.sq.InRange ∧ archSupported t.cfg.bcjArch = true)
    (hw : ∀ w, t.susp = some w → t.status = .running ∧ PlacedFrames w.frames t)
    (hh : t.host.inRun = true → t.status = .running ∧ t.host.runReturn = none) : t.Inv where
  memWf := hd.wf
  memBelow := hd.below
  posBelow := hd.pos
  validLe := hd.valid
  probsWf := hp.wf
  probsBelow := hp.below
  lenLe := hz.len
  lcLe := hz.lc
  lpLe := hz.lp
  pbLe := hz.pb
  uncLe := hu
  compLe := hc
  unc1 hr hq := by simpa [hq, uncBound] using (hrun hr).1.unc
  unc2 hr hq := by simpa [hq, uncBound] using (hrun hr).1.unc
  comp2 hr hq := by simpa [hq, compBound] using (hrun hr).1.comp
  headerAlone w b hs := (hw w hs).2.1 b
  outermost w fr hs := (hw w hs).2.2 fr
  shaBufShort := hs
  maskShort := hm
  tagShort := htag
  filterKnown hr := (hrun hr).2
  suspRuns h := by
    obtain ⟨w, hs⟩ := Option.isSome_iff_exists.mp h
    exact (hw w hs).1
  runRuns := hh

/-! ## An engine step -/

theorem nextOp_stays {s : State} (hi : s.Inv) (hr : s.status = .running) : s.nextOp.Stays PlacedFrames := by
  have h : s.awake.Ranges := hi.ranges hr
  unfold State.nextOp
  split
  · next w hw => exact resume_stays h (hi.placed hw)
  · exact seqOp_stays h

theorem nextOp_waits {s : State} (hi : s.Inv) : s.nextOp.WaitsAs s.awake := by
  unfold State.nextOp
  split
  · next w hw => exact resume_waits (fun fr => hi.outermost w fr hw) _
  · exact seqOp_waits _ _

/-- After an engine operation the registers are in their ranges, and an operation waits only in `running`. -/
theorem nextOp_ends {s v : State} (hi : s.Inv) (hr : s.status = .running) (h : finish s.nextOp = .next v) :
    v.Ranges ∧ ∀ w, v.susp = some w → v.status = .running ∧ PlacedFrames w.frames v := by
  have hst := nextOp_stays hi hr
  have hwt := nextOp_waits hi
  cases hres : s.nextOp with
  | done x t | fail t =>
    rw [hres] at h hst hwt
    cases h
    refine ⟨hst, fun w hw => ?_⟩
    have hnone : v.susp = none := hwt
    rw [hnone] at hw
    cases hw
  | hold p k t =>
    rw [hres] at h hst hwt
    cases h
    obtain ⟨hk, ht⟩ := hst
    refine ⟨ht, fun w hw => ?_⟩
    cases hw
    exact ⟨hwt.1.trans hr, hk⟩
  | stop x =>
    rw [hres] at h
    cases h

/-- A HOST_RUN goes on after `settle` only where the engine runs and no operation waits. -/
theorem settle_inRun {v : State} (hret : v.host.runReturn = none) (h : (settle v).host.inRun = true) :
    v.status = .running ∧ (settle v).host.runReturn = none := by
  unfold settle at h ⊢
  split
  · next hr =>
    rw [if_pos hr] at h
    split
    · next w hw => simp [hw] at h
    · exact ⟨hr, hret⟩
  · next hr => simp [if_neg hr] at h

/-- An engine step keeps the invariant: what its operation delivers leaves the check registers in their ranges as well. -/
theorem inv_settle {s v : State} (hi : s.Inv) (hr : s.engineRuns) (h : finish s.nextOp = .next v) : (settle v).Inv := by
  obtain ⟨hin, hret, hrun⟩ := hr
  obtain ⟨hv, hw⟩ := nextOp_ends hi hrun h
  have hm := moves_of_nextOp h
  obtain ⟨bs, -, -, hchk⟩ := hm.output
  have hgo := settle_inRun (v := v) (by rw [hm.host]; exact hret)
  rw [settle_eq]
  refine inv_of_groups hv.dict hv.probs hv.lz (Nat.le_trans hv.sq.unc (uncBound_le _))
    (Nat.le_trans hv.sq.comp (compBound_le _)) ?_ hv.mask ?_ (fun _ => ⟨hv.sq, hv.arch⟩) hw hgo
  · exact hchk ▸ foldl_update_shaBuf bs hi.shaBufShort
  · dsimp only
    rw [hchk, (foldl_update_engine bs s.chk).2, hm.cfg]
    exact hi.tagShort

/-! ## The effects of the host's operations -/

theorem State.Inv.withStreams {s : State} (h : s.Inv) (io : Streams) {host : HostSide}
    (hr : host.inRun = true → s.status = .running ∧ host.runReturn = none) :
    State.Inv { s with io := io, host := host } := { h with runRuns := hr }

/-- A raise keeps the registers' ranges and leaves nothing to resume. -/
theorem State.Inv.raised {s : State} (h : s.Inv) (hin : s.host.inRun = false) (k : ErrKind) : (s.raised k).Inv :=
  inv_of_groups h.dictInRange h.probsInRange h.lzInRange h.uncLe h.compLe h.shaBufShort h.maskShort h.tagShort
    (fun hr => nomatch hr) (fun _ hw => nomatch hw) fun hr => absurd (hin.symm.trans hr) Bool.false_ne_true

theorem State.Inv.withTag {s : State} (h : s.Inv) (tag : List Byte) :
    State.Inv { s with cfg := { s.cfg with expectedTag := tag.take s.chk.tagLen } } :=
  { h with
    tagShort := by
      obtain ⟨ht, -⟩ := h.tagShort
      refine ⟨ht, ?_⟩
      rw [List.length_take]
      omega }

/-- The block of HOST_CONFIG, whatever its checks leave of it. -/
theorem inv_of_configured {s t : State} (h : s.Inv) (hin : s.host.inRun = false) {dp : Byte} {arch : Option Byte} {ct : Byte}
    {st : Status} {c : Check} {d : Dict} (ht : t = { s.configured dp arch ct with status := st, chk := c, dict := d })
    (hd : d.InRange) (hs : c.shaBuf = []) (htag : c.tagLen ≤ 32) (ha : st = .running → archSupported arch = true) :
    t.Inv := by
  subst ht
  exact inv_of_groups hd h.probsInRange ⟨Nat.zero_le _, h.lcLe, h.lpLe, h.pbLe⟩ (Nat.zero_le _) (Nat.zero_le _)
    (by simp [hs]) (show 0 < 64 by omega) ⟨htag, h.tagShort.2⟩
    (fun hr => ⟨⟨Nat.zero_le _, Nat.zero_le _⟩, ha hr⟩) (fun _ hw => nomatch hw)
    fun hr => absurd (hin.symm.trans hr) Bool.false_ne_true

theorem Dict.InRange.resize {d : Dict} (h : d.InRange) {n : Nat} (hn : 0 < n) : (d.restart.resize n).InRange :=
  ⟨d.restart.resize_wf h.wf n, Sparse.filter_below _ _, hn, Nat.zero_le _⟩

/-- HOST_RESET's free values are in the registers' ranges (R145). -/
theorem inv_rstHost {s : State} (hin : s.host.inRun = false) (cap : Word32) : (s.rstHost cap).Inv := by
  have hd : (s.rstHost cap).dict.InRange :=
    ⟨rfl, rfl, Nat.mod_lt _ (Nat.succ_pos _), Nat.le_of_lt_succ (Nat.mod_lt _ (Nat.succ_pos _))⟩
  have hp : (s.rstHost cap).probs.InRange := ⟨Sparse.ofCells_wf _ _, Sparse.ofCells_below _ _⟩
  have hz : (s.rstHost cap).lz.InRange := by
    constructor <;> exact Nat.le_of_lt_succ (Nat.mod_lt _ (Nat.succ_pos _))
  refine inv_of_groups hd hp hz (Nat.le_of_lt_succ (Nat.mod_lt _ (Nat.succ_pos _))) (Nat.le_of_lt_succ (Nat.mod_lt _ (Nat.succ_pos _)))
    ?_ (show 0 < 64 by omega) ⟨Nat.le_of_lt_succ (Nat.mod_lt _ (Nat.succ_pos _)), ?_⟩ (fun hr => nomatch hr)
    (fun _ hw => nomatch hw) fun hr => absurd (hin.symm.trans hr) Bool.false_ne_true
  · show (List.take 63 _).length < 64
    exact Nat.lt_succ_of_le (List.length_take_le _ _)
  · exact List.length_take_le _ _

theorem HostEffect.inv {s t : State} (h : HostEffect s t) (hi : s.Inv) (hin : s.host.inRun = false) : t.Inv := by
  cases h with
  | reset cap => exact inv_rstHost hin cap
  | turnedAway dp arch ct c k hs ht =>
    refine inv_of_configured hi hin (dp := dp) (arch := arch) (ct := ct) rfl hi.dictInRange.restart hs ?_ fun h => nomatch h
    rcases ht with ht | ht
    · exact ht ▸ hi.tagShort.1
    · exact ht
  | started dp arch ct c ha hs ht =>
    exact inv_of_configured hi hin (dp := dp) (arch := arch) (ct := ct) rfl (hi.dictInRange.resize (dictSizeOf_pos dp)) hs ht
      fun _ => ha
  | streams io host hr =>
    refine hi.withStreams io fun h => ?_
    rcases hr h with h | h
    · exact absurd (hin.symm.trans h) Bool.false_ne_true
    · exact h
  | matched tag hst => exact { hi.withTag tag with }
  | mismatched tag hst => exact (hi.withTag tag).raised hin .data

/-- Every step keeps the invariant. -/
theorem step_keeps_inv {s t : State} (hi : s.Inv) (h : step s = .next t) : t.Inv := by
  cases hin : s.host.inRun with
  | true =>
    have hr := hi.engineRuns hin
    obtain ⟨v, hv, rfl⟩ := nextOp_of_step hr h
    exact inv_settle hi hr hv
  | false =>
    obtain ⟨rest, u, hu, he⟩ := hostStep_effect hin
    rw [h] at hu
    cases hu
    exact he.inv (hi.withStreams s.io fun hr => absurd (hin.symm.trans hr) Bool.false_ne_true) hin

/-! ## The invariant of the coder -/

/-- The coder does not look at the streams or the host's side. -/
theorem State.CoderInv.withStreams {s : State} (h : s.CoderInv) (io : Streams) (host : HostSide) :
    State.CoderInv { s with io := io, host := host } :=
  { h with waits := fun w hw => (h.waits w hw).of_eq }

theorem coderInv_settle {s : State} (h : s.CoderInv) : (settle s).CoderInv := by
  rw [settle_eq]
  exact h.withStreams s.io _

theorem HostEffect.coderInv {s t : State} (h : HostEffect s t) (hi : s.Inv) (hc : s.CoderInv) : t.CoderInv := by
  have held : s.status = .streamEnd → s.susp = none ∧ s.Held := fun hst =>
    have hn := hi.not_waiting (by simp [hst])
    ⟨hn, (hc.regs hn).2⟩
  cases h with
  | reset cap =>
    exact coderInv_of_regs (coderRegs_of_not_ready rfl (fun h => nomatch h.1) fun h => nomatch h) (Nat.zero_le _)
  | turnedAway dp arch ct c k hs ht => exact coderInv_raised (Nat.zero_le _) k
  | started dp arch ct c ha hs ht =>
    refine coderInv_of_regs (coderRegs_of_not_ready rfl (fun h => nomatch h.2.1) fun _ h => ?_) (Nat.zero_le _)
    simp [State.configured, State.rstBlock, Seq.readsSize] at h
  | streams io host hr => exact hc.withStreams io host
  | matched tag hst =>
    obtain ⟨hn, hh⟩ := held hst
    exact coderInv_of_regs
      (coderRegs_of_not_ready hn (fun h => nomatch hst.symm.trans h.1) fun h => nomatch hst.symm.trans h) hh
  | mismatched tag hst =>
    have hh : State.Held { s with cfg := { s.cfg with expectedTag := tag.take s.chk.tagLen } } := (held hst).2
    exact coderInv_raised hh .data

/-- From the two invariants the engine's operation answers a next state, and keeps the second. -/
theorem engineOp_keeps {s : State} (hi : s.Inv) (hc : s.CoderInv) (hr : s.status = .running) :
    ∃ t, engineOp s = .next t ∧ t.CoderInv := by
  unfold engineOp
  split
  · next w hw => exact (resume_keeps hi hc hw).finish
  · next hw => exact seqOp_keeps hi hc hr hw

/-- From the two invariants every step answers a next state, and keeps the second. -/
theorem step_keeps_coderInv {s : State} (hi : s.Inv) (hc : s.CoderInv) : ∃ t, step s = .next t ∧ t.CoderInv := by
  cases hin : s.host.inRun with
  | true =>
    have hr := hi.engineRuns hin
    obtain ⟨t, ht, hct⟩ := engineOp_keeps hi hc hr.2.2
    exact ⟨settle t, by rw [step_of_engineRuns hr, ht, settled], coderInv_settle hct⟩
  | false =>
    obtain ⟨rest, t, ht, he⟩ := hostStep_effect hin
    exact ⟨t, ht, he.coderInv (hi.withStreams s.io fun hr => absurd (hin.symm.trans hr) Bool.false_ne_true)
      (hc.withStreams s.io _)⟩

/-- From the first invariant alone a step stops on nothing but a cell that `P` does not have. -/
theorem step_answers {s : State} (hi : s.Inv) :
    (∃ t, step s = .next t) ∨ ∃ i, step s = .fault (.noSuchCell i) := by
  cases hin : s.host.inRun with
  | true =>
    have hr := hi.engineRuns hin
    have hst := nextOp_stays hi hr.2.2
    rw [step_of_engineRuns hr, engineOp_eq_finish_nextOp]
    cases hres : s.nextOp with
    | done v t => exact .inl ⟨_, rfl⟩
    | hold p k t => exact .inl ⟨_, rfl⟩
    | fail t => exact .inl ⟨_, rfl⟩
    | stop x =>
      rw [hres] at hst
      obtain ⟨i, rfl⟩ := hst
      exact .inr ⟨i, rfl⟩
  | false =>
    obtain ⟨rest, t, ht, -⟩ := hostStep_effect hin
    exact .inl ⟨t, ht⟩

/-! ## Runs from reset -/

theorem reset_inv : State.reset.Inv := by
  refine inv_of_groups ⟨rfl, rfl, ?_, ?_⟩ ⟨rfl, rfl⟩ ⟨?_, ?_, ?_, ?_⟩ ?_ ?_ ?_ ?_ ⟨?_, ?_⟩ (fun hr => nomatch hr)
    (fun _ hw => nomatch hw) fun hr => nomatch hr
  all_goals simp [State.reset]

theorem reset_coderInv : State.reset.CoderInv :=
  coderInv_of_regs (coderRegs_of_not_ready rfl (fun h => nomatch h.1) fun h => nomatch h) (Nat.zero_le _)

/-- Both invariants hold at reset, whatever the host is going to issue. -/
theorem resetWith_invs (ops : List HostOp) : (State.resetWith ops).Inv ∧ (State.resetWith ops).CoderInv :=
  ⟨reset_inv.withStreams State.reset.io (fun hr => nomatch hr), reset_coderInv.withStreams State.reset.io _⟩

/-- From a state of both invariants no run stops. -/
theorem runSteps_answers (n : Nat) {s : State} (hi : s.Inv) (hc : s.CoderInv) : ∃ t, runSteps n s = .next t := by
  induction n generalizing s with
  | zero => exact ⟨s, rfl⟩
  | succ n ih =>
    obtain ⟨t, ht, hct⟩ := step_keeps_coderInv hi hc
    obtain ⟨u, hu⟩ := ih (step_keeps_inv hi ht) hct
    exact ⟨u, by rw [runSteps, ht]; exact hu⟩

end Sys2Proof.Machine

open Sys2Proof Sys2Proof.Machine

/-- Settles O12, step by step: an engine operation keeps its registers in their ranges and waits below callers that State.Inv
allows, and each effect of the host keeps the invariant. -/
theorem everyStepKeepsTheInvariant : Obligations.EveryStepKeepsTheInvariant := fun _ _ hi h => step_keeps_inv hi h

/-- Settles O13: the ranges alone leave a missing cell as the only fault, and the invariant of the coder rules that out. -/
theorem noStepIsRefusedOrWithoutFilter : Obligations.NoStepIsRefusedOrWithoutFilter := by
  intro s hi
  refine ⟨fun id h => ?_, fun r h => ?_, step_keeps_coderInv hi⟩
  · rcases step_answers hi with ⟨t, ht⟩ | ⟨i, ht⟩ <;> rw [h] at ht <;> cases ht
  · rcases step_answers hi with ⟨t, ht⟩ | ⟨i, ht⟩ <;> rw [h] at ht <;> cases ht

/-- Settles O14: both invariants hold at reset, and every step from them answers a next state and keeps them. -/
theorem noRunStops : Obligations.NoRunStops := by
  intro ops n
  obtain ⟨hi, hc⟩ := resetWith_invs ops
  exact runSteps_answers n hi hc

/-- Settles O15: the operation of an engine step moves the streams in order, and the return of HOST_RUN touches none of
them. -/
theorem engineMovesOnlyItsStreams : Obligations.EngineMovesOnlyItsStreams := by
  intro s t hr h
  obtain ⟨v, hv, rfl⟩ := nextOp_of_step hr h
  have hm := moves_of_nextOp hv
  obtain ⟨bs, hout, hspace, hchk⟩ := hm.output
  obtain ⟨hengine, htag⟩ := foldl_update_engine bs s.chk
  have hqueue : (settle v).host.queue = s.host.queue := by rw [settle_queue, hm.host]
  rw [← hchk] at hengine htag
  rw [settle_eq]
  exact ⟨hm.input, ⟨bs, hout, hspace, hchk⟩, hm.cfg, hm.size, hm.ended, hm.checkOk, hengine, htag, hqueue⟩

end

section
/-! SUPPORT. Decoding bits: what a bit takes from the input and what it leaves alone, from any state (40_range_coder.md R82,
R84, R85, R88), and the places of `P` as a numbering that can be undone (10_state.md R38). -/

namespace Sys2Proof.Machine

/-! ## The bytes that decoding takes -/

/-- Decoding has gone from `s` to `t` and taken at most `n` bytes, each of them counted. -/
def Takes (n : Nat) (s t : State) : Prop :=
  CodeFrame s t ∧
    ∃ used, s.io.input = used ++ t.io.input ∧ used.length ≤ n ∧ s.sq.compLeft = t.sq.compLeft + used.length

theorem Takes.trans {m n : Nat} {s t u : State} (h : Takes m s t) (k : Takes n t u) : Takes (m + n) s u := by
  obtain ⟨hf, a, ha, hal, hac⟩ := h
  obtain ⟨kf, b, hb, hbl, hbc⟩ := k
  exact ⟨hf.trans kf, a ++ b, by rw [ha, hb, List.append_assoc], by rw [List.length_append]; omega,
    by rw [List.length_append]; omega⟩

/-- A change of `range`, `code` and `P` takes nothing. -/
theorem takes_zero (s : State) (rc : RangeCoder) (p : Probs) : Takes 0 s { s with rc := rc, probs := p } :=
  ⟨rfl, [], rfl, Nat.le_refl _, rfl⟩

/-- RC_NORM takes at most one byte, and leaves `P` alone. -/
theorem rcNorm_takes {s t : State} {v : Nat} (h : rcNorm s = .done v t) : Takes 1 s t ∧ t.probs = s.probs := by
  unfold rcNorm at h
  split at h
  · obtain ⟨w, u, hu, hut⟩ := Res.bind_eq_done.mp h
    rcases rcByte_cases { s with rc := { s.rc with range := s.rc.range <<< 8 } } with
      ⟨-, he⟩ | ⟨hc, b, r, hi, he⟩ | ⟨-, -, -, he⟩ | ⟨-, -, -, he⟩
    · rw [he] at hu
      cases hu
    · rw [he] at hu
      cases hu
      cases hut
      exact ⟨⟨rfl, [b], hi, Nat.le_refl _, (Nat.sub_add_cancel hc).symm⟩, rfl⟩
    · rw [he] at hu
      cases hu
    · rw [he] at hu
      cases hu
  · cases h
    exact ⟨⟨.refl s, [], rfl, Nat.zero_le _, rfl⟩, rfl⟩

/-- What RC_BIT does before its normalization: it moves `range`, `code` and its own cell. -/
theorem decideBit_takes (s : State) (i : Nat) :
    Takes 0 s (s.decideBit i).2 ∧
      (s.probs.wf = true → (s.decideBit i).2.probs.wf = true ∧
        ∀ j, j ≠ i → (s.decideBit i).2.probs.read j = s.probs.read j) := by
  unfold State.decideBit
  dsimp only
  split
  all_goals exact ⟨takes_zero s _ _, fun hw => ⟨Probs.write_wf hw _ _, fun j hj => Probs.read_write_other hw _ hj⟩⟩

theorem decideDirect_takes (s : State) : Takes 0 s s.decideDirect.2 ∧ s.decideDirect.2.probs = s.probs := by
  unfold State.decideDirect
  dsimp only
  split
  all_goals exact ⟨takes_zero s _ _, rfl⟩

/-- A returning RC_BIT ends in its normalization. -/
theorem rcNorm_of_rcBit {i v : Nat} {s t : State} (h : rcBit i s = .done v t) :
    ∃ w, rcNorm (s.decideBit i).2 = .done w t := by
  unfold rcBit at h
  split at h
  · obtain ⟨w, u, hu, hut⟩ := Res.bind_eq_done.mp h
    cases hut
    exact ⟨w, hu⟩
  · cases h

/-- A returning direct bit ends in its normalization. -/
theorem rcNorm_of_rcDirect {v : Nat} {s t : State} (h : rcDirect 1 s = .done v t) :
    ∃ w, rcNorm s.decideDirect.2 = .done w t := by
  obtain ⟨w, u, hu, hut⟩ := Res.bind_eq_done.mp h
  cases hut
  exact ⟨w, hu⟩

/-- One decoded bit takes at most one byte, and changes no cell but its own. -/
theorem decodeOne_takes {c : BitSource} {s t : State} {v : Nat} (h : decodeOne c s = .done v t) :
    Takes 1 s t ∧ (s.probs.wf = true → t.probs.wf = true ∧ ∀ j, c ≠ .cell j → t.probs.read j = s.probs.read j) := by
  cases c with
  | cell i =>
    obtain ⟨w, hw⟩ := rcNorm_of_rcBit h
    obtain ⟨hd, hp⟩ := decideBit_takes s i
    obtain ⟨hn, hpn⟩ := rcNorm_takes hw
    refine ⟨hd.trans hn, fun hw => ?_⟩
    obtain ⟨hwf, hread⟩ := hp hw
    rw [hpn]
    exact ⟨hwf, fun j hj => hread j fun hji => hj (by rw [hji])⟩
  | direct =>
    obtain ⟨w, hw⟩ := rcNorm_of_rcDirect h
    obtain ⟨hd, hp⟩ := decideDirect_takes s
    obtain ⟨hn, hpn⟩ := rcNorm_takes hw
    refine ⟨hd.trans hn, fun hw => ?_⟩
    rw [hpn, hp]
    exact ⟨hw, fun _ _ => rfl⟩

/-- A decoded path takes at most one byte a bit, and changes no cell beside those on it. -/
theorem decodes_takes {path : List (BitSource × Bool)} {s u : State} (h : Decodes path s u) :
    Takes path.length s u ∧
      (s.probs.wf = true → ∀ i, (∀ b, (BitSource.cell i, b) ∉ path) → u.probs.read i = s.probs.read i) := by
  induction path generalizing s with
  | nil =>
    cases h
    exact ⟨takes_zero u u.rc u.probs, fun _ _ _ => rfl⟩
  | cons x path ih =>
    obtain ⟨c, b⟩ := x
    obtain ⟨v, hv, hr⟩ := h
    obtain ⟨h1, hp1⟩ := decodeOne_takes hv
    obtain ⟨h2, hp2⟩ := ih hr
    refine ⟨by rw [List.length_cons, Nat.add_comm]; exact h1.trans h2, fun hw i hi => ?_⟩
    obtain ⟨hwv, hone⟩ := hp1 hw
    have hc : c ≠ .cell i := fun hci => hi b (by simp [hci])
    exact (hp2 hwv i fun b hb => hi b (List.mem_cons_of_mem _ hb)).trans (hone i hc)

/-! ## The places of `P` -/

/-- The number of a place's cell, in the order of R38's table (log entry 17). -/
def CellUse.number : CellUse → Nat
  | .isMatch st ps => 0 + st * 16 + ps
  | .isRep st => 192 + st
  | .isRep0 st => 204 + st
  | .isRep1 st => 216 + st
  | .isRep2 st => 228 + st
  | .isRep0Long st ps => 240 + st * 16 + ps
  | .distSlot ds k => 432 + ds * 64 + k
  | .distSpecial k => 688 + k
  | .distAlign k => 802 + k
  | .choice l => lenBase l + 0
  | .choice2 l => lenBase l + 1
  | .low l ps k => lenBase l + 2 + ps * 8 + k
  | .mid l ps k => lenBase l + 130 + ps * 8 + k
  | .high l k => lenBase l + 258 + k
  | .literal c k => 1846 + c * 768 + k

theorem cell_eq_number (x : CellUse) : x.cell = x.number := by cases x <;> rfl

/-- The place of a length coder at an offset from its first cell. -/
def lenUseAt (l : LenCoder) (o : Nat) : CellUse :=
  if o = 0 then .choice l
  else if o = 1 then .choice2 l
  else if o < 130 then .low l (.ofNat 16 ((o - 2) / 8)) (.ofNat 8 ((o - 2) % 8))
  else if o < 258 then .mid l (.ofNat 16 ((o - 130) / 8)) (.ofNat 8 ((o - 130) % 8))
  else .high l (.ofNat 256 (o - 258))

/-- The place that a cell is, array by array in the order of R38. -/
def useAt (i : Nat) : CellUse :=
  if i < 192 then .isMatch (.ofNat 12 (i / 16)) (.ofNat 16 (i % 16))
  else if i < 204 then .isRep (.ofNat 12 (i - 192))
  else if i < 216 then .isRep0 (.ofNat 12 (i - 204))
  else if i < 228 then .isRep1 (.ofNat 12 (i - 216))
  else if i < 240 then .isRep2 (.ofNat 12 (i - 228))
  else if i < 432 then .isRep0Long (.ofNat 12 ((i - 240) / 16)) (.ofNat 16 ((i - 240) % 16))
  else if i < 688 then .distSlot (.ofNat 4 ((i - 432) / 64)) (.ofNat 64 ((i - 432) % 64))
  else if i < 802 then .distSpecial (.ofNat 114 (i - 688))
  else if i < 818 then .distAlign (.ofNat 16 (i - 802))
  else if i < 1332 then lenUseAt .matchLen (i - 818)
  else if i < 1846 then lenUseAt .repLen (i - 1332)
  else .literal (.ofNat 16 ((i - 1846) / 768)) (.ofNat 768 ((i - 1846) % 768))

theorem fin_ofNat_eq {n v : Nat} [NeZero n] {k : Fin n} (h : v = k.val) : Fin.ofNat n v = k := by
  rw [h, Fin.ofNat_eq_cast, Fin.cast_val_eq_self]

/-- The places of a length coder, from its first cell on. -/
theorem useAt_lenBase (l : LenCoder) {o : Nat} (h : o < 514) : useAt (lenBase l + o) = lenUseAt l o := by
  cases l with
  | matchLen =>
    show useAt (818 + o) = _
    simp (disch := omega) only [useAt, if_pos, if_neg, Nat.add_sub_cancel_left]
  | repLen =>
    show useAt (1332 + o) = _
    simp (disch := omega) only [useAt, if_pos, if_neg, Nat.add_sub_cancel_left]

/-- Every place is found again from its number. -/
theorem useAt_number (x : CellUse) : useAt x.number = x := by
  cases x with
  | isRep k | isRep0 k | isRep1 k | isRep2 k | distSpecial k | distAlign k =>
    rw [CellUse.number]
    simp (disch := omega) only [useAt, if_pos, if_neg]
    rw [fin_ofNat_eq (k := k)]
    omega
  | isMatch j k | isRep0Long j k | distSlot j k | literal j k =>
    rw [CellUse.number]
    simp (disch := omega) only [useAt, if_pos, if_neg]
    rw [fin_ofNat_eq (k := j), fin_ofNat_eq (k := k)] <;> omega
  | choice l | choice2 l => exact useAt_lenBase l (by omega)
  | low l ps k | mid l ps k =>
    rw [CellUse.number, Nat.add_assoc, Nat.add_assoc, useAt_lenBase l (by omega)]
    simp (disch := omega) only [lenUseAt, if_pos, if_neg]
    rw [fin_ofNat_eq (k := ps), fin_ofNat_eq (k := k)] <;> omega
  | high l k =>
    rw [CellUse.number, Nat.add_assoc, useAt_lenBase l (by omega)]
    simp (disch := omega) only [lenUseAt, if_neg]
    rw [fin_ofNat_eq (k := k)]
    omega

theorem cell_lt (x : CellUse) : x.cell < 14134 := by
  have hl : ∀ l, lenBase l ≤ 1332 := fun l => by cases l <;> simp [lenBase, matchLenBase, repLenBase]
  rw [cell_eq_number]
  cases x with
  | choice l | choice2 l | low l ps k | mid l ps k | high l k =>
    have := hl l
    rw [CellUse.number]
    omega
  | _ =>
    rw [CellUse.number]
    omega

/-- Different places are different cells. -/
theorem cell_injective {x y : CellUse} (h : x.cell = y.cell) : x = y := by
  rw [cell_eq_number, cell_eq_number] at h
  rw [← useAt_number x, h, useAt_number]

end Sys2Proof.Machine

open Sys2Proof Sys2Proof.Machine

/-- Settles O28: a path takes its bytes and changes its cells bit by bit, and every place of `P` is found again from its
cell. -/
theorem decodingBitsFrame : Obligations.DecodingBitsFrame := by
  refine ⟨fun path s u h => ?_, cell_lt, fun _ _ h => cell_injective h, by decide⟩
  obtain ⟨⟨hframe, used, hin, hlen, hcomp⟩, hprobs⟩ := decodes_takes h
  exact ⟨used, hin, hlen, hcomp, hprobs, hframe⟩

end

section
/-! SUPPORT. HOST_CONFIG, from its checks (60_exceptions.md R134, R139). -/

namespace Sys2Proof.Machine

/-- OutByte runs the filter that `BCJ_ARCH` names (R115). -/
theorem outByte_arch {s : State} {id : Byte} {arch : Arch} (hs : s.cfg.bcjArch = some id) (ha : archOfId id = some arch)
    (b : Byte) : outByte b s = outBytes (s.filtered arch b).2 0 (s.filtered arch b).2 (s.filtered arch b).1 := by
  simp only [outByte, hs, ha]

/-- A dictionary property that passes both of its tests (R90). -/
theorem dictCheck_passes {s : State} (hp : s.cfg.dictProp.toNat ≤ 40)
    (hc : dictSizeOf s.cfg.dictProp ≤ s.cfg.dictCap.toNat) :
    dictCheck s = .done 0 { s with dict := s.dict.resize (dictSizeOf s.cfg.dictProp) } :=
  (if_neg (by omega)).trans (if_neg (by omega))

/-- HOST_CONFIG that passes all of its checks. -/
theorem hostConfig_passes {s : State} (hs : s.status = .idle ∨ s.status = .streamEnd) {dp ct : Byte} {arch : Option Byte}
    {e : CheckEngine} {n : Nat} (hrow : CheckRow ct e n) (ha : archSupported arch = true) (hp : dp.toNat ≤ 40)
    (hc : dictSizeOf dp ≤ s.cfg.dictCap.toNat) :
    exec (.hostConfig dp arch ct) s = .next
      { (s.configured dp arch ct).selectEngine e n with dict := s.dict.restart.resize (dictSizeOf dp) } := by
  rw [exec_hostConfig_legal hs, configChecks_row (s := s.configured dp arch ct) hrow, if_pos (by exact ha),
    dictCheck_passes (by exact hp) (by exact hc)]
  rfl

end Sys2Proof.Machine

open Sys2Proof Sys2Proof.Machine

/-- Settles O57: the checks pass one after the other, and what they leave is the block of RST_BLOCK with its engine and its
dictionary. -/
theorem hostConfigStartsABlock : Obligations.HostConfigStartsABlock := by
  unfold Obligations.HostConfigStartsABlock
  intro filters
  have hid : ∀ row ∈ filters, archId row.2 = row.1 ∧ archOfId row.1 = some row.2 := by decide
  refine ⟨fun row hrow => ⟨(hid row hrow).1, fun t b ht => outByte_arch ht (hid row hrow).2 b⟩, ?_⟩
  intro s dp ct arch e n size mem hs hct harch hp hc
  have ha : archSupported arch = true := by
    rcases harch with rfl | ⟨row, hrow, rfl⟩
    · rfl
    · simp [archSupported, (hid row hrow).2]
  have hsize : dictSizeOf dp = size := dictSizeOf_eq dp
  refine ⟨⟨s.freeNextSeq 0, ?_⟩, fun hw a h => Sparse.read_filter hw h⟩
  rw [hostConfig_passes hs hct ha hp (hsize ▸ hc), hsize]
  rfl

/-- Settles O58: HOST_CONFIG's checks, case by case in their order; none of them touches a stream. -/
theorem hostConfigErrorsInOrder : Obligations.HostConfigErrorsInOrder := by
  intro s dp ct arch known filterOk size
  refine ⟨fun hs => ?_, fun h1 h2 => exec_hostConfig_illegal (fun h => h.elim h1 h2) dp arch ct⟩
  have hfilter : archSupported arch = true ↔ filterOk := archSupported_iff arch
  have hsize : dictSizeOf dp = size := dictSizeOf_eq dp
  rw [exec_hostConfig_legal hs]
  rcases configChecks_cases (s.configured dp arch ct) with
    ⟨hunknown, he⟩ | ⟨e, n, hrow, hcases⟩
  · rw [he]
    refine ⟨_, rfl, rfl, fun _ hlt => ?_, fun _ hge => ?_, fun hk => absurd hk hunknown, fun hk => absurd hk hunknown,
      fun hk => absurd hk hunknown⟩
    · exact congrArg Status.error (if_pos hlt)
    · exact congrArg Status.error (if_neg (Nat.not_lt_of_le hge))
  · have hknown : known := hrow.known
    rcases hcases with ⟨ha, he⟩ | ⟨ha, hp, he⟩ | ⟨ha, hp, hc, he⟩ | ⟨ha, hp, hc, he⟩ <;> rw [he]
    · have hf : ¬ filterOk := fun hf => Bool.false_ne_true (ha.symm.trans (hfilter.mpr hf))
      exact ⟨_, rfl, rfl, absurd hknown, absurd hknown, fun _ _ => rfl, fun _ h => absurd h hf, fun _ h => absurd h hf⟩
    · exact ⟨_, rfl, rfl, absurd hknown, absurd hknown, fun _ _ => rfl, fun _ _ _ => rfl,
        fun _ _ hle => absurd hle (Nat.not_le_of_lt hp)⟩
    · exact ⟨_, rfl, rfl, absurd hknown, absurd hknown, fun _ h => absurd (hfilter.mp ha) h,
        fun _ _ hgt => absurd hp (Nat.not_le_of_lt hgt), fun _ _ _ _ => rfl⟩
    · exact ⟨_, rfl, rfl, absurd hknown, absurd hknown, fun _ h => absurd (hfilter.mp ha) h,
        fun _ _ hgt => absurd hp (Nat.not_le_of_lt hgt), fun _ _ _ hlt => absurd hc (Nat.not_le_of_lt (hsize ▸ hlt))⟩

end

section
/-! SUPPORT. The dictionary's window (20_memory.md R59, R60), and whole copies through stage 2 (R61, R62): what they make of
every register, and COPY with its bytes and its space at hand. -/

namespace Sys2Proof.Machine

/-! ## The window -/

/-- The index that a distance reads, without the modulus: the window wraps at most once (R59). -/
theorem Dict.index_eq {d : Dict} (hp : d.pos < d.size) {k : Word32} (hk : k.toNat < d.size) :
    d.index k = if k.toNat < d.pos then d.pos - 1 - k.toNat else d.pos + d.size - 1 - k.toNat := by
  unfold Dict.index
  split
  · rw [Int.emod_eq_of_lt (by omega) (by omega)]
    omega
  · rw [← Int.add_emod_right, Int.emod_eq_of_lt (by omega) (by omega)]
    omega

/-- After a byte is put a distance counts from that byte, which stands at the old `pos` (R59, R60). -/
theorem Dict.index_put {d : Dict} (hp : d.pos < d.size) (b : Byte) {k : Word32} (hk : k.toNat < d.size) :
    (d.put b).index k = if k.toNat ≤ d.pos then d.pos - k.toNat else d.pos + d.size - k.toNat := by
  have hput : (d.put b).index k = if k.toNat < (d.pos + 1) % d.size then (d.pos + 1) % d.size - 1 - k.toNat
      else (d.pos + 1) % d.size + d.size - 1 - k.toNat := Dict.index_eq (d := d.put b) (Nat.mod_lt _ (by omega)) hk
  rw [hput]
  by_cases hwrap : d.pos + 1 = d.size
  · rw [hwrap, Nat.mod_self, if_neg (by omega), if_pos (by omega)]
    omega
  · rw [Nat.mod_eq_of_lt (by omega)]
    split <;> split <;> omega

/-- Distance 0 is the byte that was put. -/
theorem Dict.index_put_zero {d : Dict} (hp : d.pos < d.size) (b : Byte) : (d.put b).index 0 = d.pos :=
  (Dict.index_put hp b (k := 0) (Nat.zero_lt_of_lt hp)).trans (if_pos (Nat.zero_le _))

/-- The byte at a distance stands one further from the front once a byte is put. -/
theorem Dict.index_put_succ {d : Dict} (hp : d.pos < d.size) (b : Byte) {k l : Word32} (hl : l.toNat = k.toNat + 1)
    (hk : k.toNat + 1 < d.size) : (d.put b).index l = d.index k := by
  rw [Dict.index_put hp b (hl ▸ hk), Dict.index_eq hp (by omega), hl]
  split <;> split <;> omega

/-- Only the largest distance of a full window reads the byte at `pos`. -/
theorem Dict.index_ne_pos {d : Dict} (hp : d.pos < d.size) {k : Word32} (hk : k.toNat + 1 < d.size) :
    d.index k ≠ d.pos := by
  rw [Dict.index_eq hp (by omega)]
  split <;> omega

/-- A put leaves something to read (R42). -/
theorem Dict.put_valid_ne_zero {d : Dict} (hp : d.pos < d.size) (b : Byte) : (d.put b).valid ≠ 0 := by
  rw [Dict.put_valid]
  omega

/-- The byte that was put is read back at distance 0. -/
theorem Dict.get_put_zero {d : Dict} (hw : d.mem.wf = true) (hp : d.pos < d.size) (b : Byte) : (d.put b).get 0 = b := by
  rw [Dict.get, if_neg (Dict.put_valid_ne_zero hp b), Dict.index_put_zero hp, Dict.put_mem, Memory.read_write_same hw]

/-- Every distance that stays in the window reads what it read, one further. -/
theorem Dict.get_put_succ {d : Dict} (hw : d.mem.wf = true) (hp : d.pos < d.size) (b : Byte) {k l : Word32}
    (hl : l.toNat = k.toNat + 1) (hk : k.toNat + 1 < d.size) (hv : d.valid ≠ 0) : (d.put b).get l = d.get k := by
  rw [Dict.get, Dict.get, if_neg hv, if_neg (Dict.put_valid_ne_zero hp b), Dict.index_put_succ hp b hl hk, Dict.put_mem,
    Memory.read_write_other hw b (Dict.index_ne_pos hp hk)]

/-! ## A match copy -/

/-- A match copy fills the dictionary with its own bytes, whatever stage 2 makes of them (R61, R65). -/
theorem copied_dict (dist : Word32) (n : Nat) (s : State) : (copied dist n s).dict = Dict.copied dist n s.dict := by
  induction n generalizing s with
  | zero => rfl
  | succ n ih =>
    rw [copied, ih, State.countCopy_dict, produce_dict]
    rfl

/-- A match copy takes its bytes from `len` and `unc_left` (R61). -/
theorem copied_counts (dist : Word32) (n : Nat) (s : State) :
    (copied dist n s).lz = { s.lz with len := s.lz.len - n } ∧
      (copied dist n s).sq = { s.sq with uncLeft := s.sq.uncLeft - n } := by
  induction n generalizing s with
  | zero => exact ⟨rfl, rfl⟩
  | succ n ih =>
    rw [copied, (ih _).1, (ih _).2]
    simp [Nat.sub_sub, Nat.add_comm]

/-- What a match copy leaves unchanged. -/
theorem copied_frame (dist : Word32) (n : Nat) (s : State) :
    (copied dist n s).rc = s.rc ∧ (copied dist n s).probs = s.probs ∧ (copied dist n s).cfg = s.cfg ∧
      (copied dist n s).io.input = s.io.input ∧ (copied dist n s).status = s.status := by
  induction n generalizing s with
  | zero => exact ⟨rfl, rfl, rfl, rfl, rfl⟩
  | succ n ih => simpa [copied] using ih (s.produce (s.dict.get dist)).countCopy

/-! ## An uncompressed chunk -/

/-- One byte of an uncompressed chunk, taken from the input (R62). -/
def State.copyByte (s : State) (b : Byte) (r : List Byte) : State :=
  (State.produce { s with io := { s.io with input := r } } b).countByte

theorem chunkCopied_cons {s : State} {b : Byte} {r : List Byte} (h : s.io.input = b :: r) (n : Nat) :
    chunkCopied (n + 1) s = chunkCopied n (s.copyByte b r) := by
  rw [chunkCopied, h]
  rfl

@[simp] theorem copyByte_lz (s : State) (b : Byte) (r : List Byte) : (s.copyByte b r).lz = s.lz := produce_lz _ b

@[simp] theorem copyByte_probs (s : State) (b : Byte) (r : List Byte) : (s.copyByte b r).probs = s.probs := produce_probs _ b

@[simp] theorem copyByte_cfg (s : State) (b : Byte) (r : List Byte) : (s.copyByte b r).cfg = s.cfg := produce_cfg _ b

@[simp] theorem copyByte_input (s : State) (b : Byte) (r : List Byte) : (s.copyByte b r).io.input = r := produce_input _ b

@[simp] theorem copyByte_sq (s : State) (b : Byte) (r : List Byte) :
    (s.copyByte b r).sq = { s.sq with compLeft := s.sq.compLeft - 1 } := by simp [State.copyByte]

/-- A byte of the chunk uses no more space than it needs, and stage 2 holds no more than it got. -/
theorem copyByte_room (s : State) (b : Byte) (r : List Byte) (h : s.bcj.carry.length < s.io.space) :
    (s.copyByte b r).bcj.carry.length + s.io.space ≤ s.bcj.carry.length + 1 + (s.copyByte b r).io.space :=
  produce_room { s with io := { s.io with input := r } } b h

/-- What the bytes of a chunk leave unchanged, and where they come from (R62, R100). -/
theorem chunkCopied_frame (n : Nat) (s : State) (h : n ≤ s.io.input.length) :
    (chunkCopied n s).lz = s.lz ∧ (chunkCopied n s).probs = s.probs ∧
      (chunkCopied n s).sq = { s.sq with compLeft := s.sq.compLeft - n } ∧
      (chunkCopied n s).io.input = s.io.input.drop n := by
  induction n generalizing s with
  | zero => exact ⟨rfl, rfl, rfl, rfl⟩
  | succ n ih =>
    obtain ⟨b, r, hbr⟩ := List.exists_cons_of_length_pos (by omega : 0 < s.io.input.length)
    have hr : n ≤ (s.copyByte b r).io.input.length := by
      rw [hbr, List.length_cons] at h
      rw [copyByte_input]
      omega
    rw [chunkCopied_cons hbr, hbr]
    simpa [Nat.sub_sub, Nat.add_comm] using ih _ hr

/-- With its bytes and its space at hand, the `while` of DictUncompressed does not wait (R62). -/
theorem copyLoop_space (n : Nat) (s : State) (hn : s.sq.compLeft = n) (hi : n ≤ s.io.input.length)
    (hs : s.bcj.carry.length + n ≤ s.io.space) (ha : archSupported s.cfg.bcjArch = true) :
    copyLoop n s = .done 0 (chunkCopied n s) := by
  induction n generalizing s with
  | zero => rfl
  | succ n ih =>
    obtain ⟨b, r, hbr⟩ := List.exists_cons_of_length_pos (by omega : 0 < s.io.input.length)
    have hput : dictPut b { s with io := { s.io with input := r } } =
        .done 0 (State.produce { s with io := { s.io with input := r } } b) :=
      dictPut_space b ha (by show s.bcj.carry.length < s.io.space; omega)
    rw [copyLoop, if_pos (by omega), inByte_cons hbr, Res.bind_done, BitVec.ofNat_toNat, BitVec.setWidth_eq, hput,
      Res.bind_done, chunkCopied_cons hbr]
    have hroom := copyByte_room s b r (by omega)
    refine ih (s.copyByte b r) ?_ ?_ (by omega) (by simpa using ha)
    · simp [hn]
    · simpa [hbr] using hi

end Sys2Proof.Machine

open Sys2Proof Sys2Proof.Machine

/-- Settles O36: a put is one write at `pos`, and the index of a distance moves with `pos`. -/
theorem dictPutMovesTheWindow : Obligations.DictPutMovesTheWindow := by
  intro d b hw hp hsize
  refine ⟨Dict.put_wf hw b, Memory.read_write_same hw _ b, fun a ha => Memory.read_write_other hw b ha, rfl, rfl,
    Dict.get_put_zero hw hp b, fun k hk hv => ?_⟩
  have hsucc : (k + 1).toNat = k.toNat + 1 := by
    rw [BitVec.toNat_add]
    exact Nat.mod_eq_of_lt (Nat.lt_of_lt_of_le hk hsize)
  exact Dict.get_put_succ hw hp b hsucc hk (by omega)

/-- Settles O38, by induction on the bytes of the copy; the counts need no bound, since they stop at 0. -/
theorem copyFillsTheDictionaryWithUnfilteredBytes : Obligations.CopyFillsTheDictionaryWithUnfilteredBytes := by
  intro s dist n _ _ t
  obtain ⟨hlz, hsq⟩ := copied_counts dist n s
  exact ⟨copied_dict dist n s, hlz, hsq, copied_frame dist n s⟩

/-- Settles O47: no byte of the chunk waits, and none of them touches the LZMA registers or `P`. -/
theorem copyCopiesTheChunk : Obligations.CopyCopiesTheChunk := by
  intro s hi hs ha t
  have hcopy : dictUncompressed s = .done 0 t := copyLoop_space _ s rfl hi hs ha
  obtain ⟨hlz, hprobs, hsq, hin⟩ := chunkCopied_frame s.sq.compLeft s hi
  refine ⟨?_, hlz, hprobs, hsq.trans (by rw [Nat.sub_self]), hin⟩
  show finish (copy s) = _
  rw [copy, hcopy]
  rfl

end

section
/-! SUPPORT. Fields and words of the encodings (30_encoding.md): each is found again in the word that it was put in, and a word
that passes a unit's test is the word of its fields. -/

namespace Sys2Proof

/-! ## Bit strings (R73) -/

theorem bitsMsb_putMsb (v n : Nat) : bitsMsb (putMsb v n) = v % 2 ^ n := by
  induction n with
  | zero => simp [putMsb, bitsMsb, Nat.mod_one]
  | succ n ih =>
    rw [putMsb, bitsMsb, ih, Laws.Encoding.putMsb_size, Nat.toNat_testBit, Nat.mod_pow_succ, Nat.mul_comm, Nat.add_comm]

theorem bitsLsb_putLsb (v n : Nat) : bitsLsb (putLsb v n) = v % 2 ^ n := by
  induction n generalizing v with
  | zero => simp [putLsb, bitsLsb, Nat.mod_one]
  | succ n ih => rw [putLsb, bitsLsb, ih, Nat.toNat_testBit, Nat.pow_succ', Nat.mod_mul, Nat.pow_zero, Nat.div_one]

/-- A field is the value of its bits, most significant first. -/
theorem ofNat_bitsMsb_putMsb {w n : Nat} (t : BitVec w) (h : t.toNat < 2 ^ n) :
    BitVec.ofNat w (bitsMsb (putMsb t.toNat n)) = t := by
  rw [bitsMsb_putMsb, Nat.mod_eq_of_lt h, BitVec.ofNat_toNat, BitVec.setWidth_eq]

/-- A field is the value of its bits, least significant first. -/
theorem ofNat_bitsLsb_putLsb {w n : Nat} (t : BitVec w) (h : t.toNat < 2 ^ n) :
    BitVec.ofNat w (bitsLsb (putLsb t.toNat n)) = t := by
  rw [bitsLsb_putLsb, Nat.mod_eq_of_lt h, BitVec.ofNat_toNat, BitVec.setWidth_eq]

/-! ## Control bytes (R67, R68) -/

theorem lzmaControl_toNat (r : BitVec 2) (u : BitVec 5) : (lzmaControl r u).toNat = 128 + 32 * r.toNat + u.toNat := by
  revert r u
  decide

theorem lzmaControl_r (r : BitVec 2) (u : BitVec 5) : (lzmaControl r u).extractLsb' 5 2 = r := by
  rw [lzmaControl, BitVec.extractLsb'_append_eq_of_le (by decide)]
  exact BitVec.extractLsb'_append_eq_right

theorem lzmaControl_u (r : BitVec 2) (u : BitVec 5) : (lzmaControl r u).extractLsb' 0 5 = u :=
  BitVec.extractLsb'_append_eq_right

/-- A byte from 0x80 on is the LZMA control byte of its fields. -/
theorem lzmaControl_fields {c : Byte} (h : 0x80 ≤ c.toNat) :
    lzmaControl (c.extractLsb' 5 2) (c.extractLsb' 0 5) = c := by
  apply BitVec.eq_of_toNat_eq
  have := c.isLt
  rw [lzmaControl_toNat, BitVec.extractLsb'_toNat, BitVec.extractLsb'_toNat, Nat.shiftRight_eq_div_pow, Nat.shiftRight_zero]
  omega

/-- The row of the table that an LZMA control byte is (R68). -/
def lzmaRow (r : BitVec 2) (u : BitVec 5) : Instr :=
  match r with
  | 0#2 => .lz0 u
  | 1#2 => .lz1 u
  | 2#2 => .lz2 u
  | _ => .lz3 u

theorem decodeControl_high {c : Byte} (h : 0x80 ≤ c.toNat) :
    decodeControl c = lzmaRow (c.extractLsb' 5 2) (c.extractLsb' 0 5) := by
  have hne : ∀ k : Byte, k.toNat < 0x80 → c ≠ k := fun k hk hc => by rw [hc] at h; omega
  rw [decodeControl, if_neg (hne _ (by decide)), if_neg (hne _ (by decide)), if_neg (hne _ (by decide)), if_neg (by omega)]
  rfl

theorem decodeControl_lzmaControl (r : BitVec 2) (u : BitVec 5) : decodeControl (lzmaControl r u) = lzmaRow r u := by
  rw [decodeControl_high (by rw [lzmaControl_toNat]; omega), lzmaControl_r, lzmaControl_u]

theorem decodeControl_reserved {c : Byte} (h3 : 0x03 ≤ c.toNat) (h : c.toNat < 0x80) :
    decodeControl c = .reservedCtrl c := by
  have hne : ∀ k : Byte, k.toNat < 0x03 → c ≠ k := fun k hk hc => by rw [hc] at h3; omega
  rw [decodeControl, if_neg (hne _ (by decide)), if_neg (hne _ (by decide)), if_neg (hne _ (by decide)), if_pos h]

theorem lzmaRow_encode (r : BitVec 2) (u : BitVec 5) :
    (lzmaRow r u).wellFormed = true ∧ encode (lzmaRow r u) = some (.control, .bytes [lzmaControl r u]) := by
  match r with
  | 0#2 | 1#2 | 2#2 | 3#2 => exact ⟨rfl, rfl⟩

/-- The control bytes below the reserved ones. -/
theorem byte_lt_three {c : Byte} (h : c.toNat < 3) : c = 0x00 ∨ c = 0x01 ∨ c = 0x02 := by
  revert c
  decide

/-! ## Bytes of a word (R54) -/

/-- A byte put below a word is the word's first byte. -/
theorem putLe_append_byte {w : Nat} (x : BitVec w) (b : Byte) (n : Nat) : putLe (x ++ b) (n + 1) = b :: putLe x n := by
  induction n with
  | zero => exact congrArg (fun a => [a]) BitVec.extractLsb'_append_eq_right
  | succ n ih =>
    rw [putLe, ih, putLe, byteAt, BitVec.extractLsb'_append_eq_of_le (by omega), List.cons_append, byteAt]
    congr 4

theorem putLe_byte (b : Byte) : putLe b 1 = [b] := congrArg (fun a => [a]) BitVec.extractLsb'_eq_self

theorem putBe_eq_reverse {w : Nat} (x : BitVec w) (n : Nat) : putBe x n = (putLe x n).reverse := by
  induction n with
  | zero => rfl
  | succ n ih => rw [putBe, putLe, List.reverse_append, ih]; rfl

theorem putLe_le24 (a b c : Byte) : putLe (le24 a b c) 3 = [a, b, c] := by
  rw [le24, putLe_append_byte, putLe_append_byte, putLe_byte]

theorem putLe_le32 (a b c d : Byte) : putLe (le32 a b c d) 4 = [a, b, c, d] := by
  rw [le32, putLe_append_byte, putLe_append_byte, putLe_append_byte, putLe_byte]

theorem putLe_le48 (a b c d e f : Byte) : putLe (le48 a b c d e f) 6 = [a, b, c, d, e, f] := by
  rw [le48, putLe_append_byte, putLe_append_byte, putLe_append_byte, putLe_append_byte, putLe_append_byte, putLe_byte]

theorem putBe_be32 (a b c d : Byte) : putBe (be32 a b c d) 4 = [a, b, c, d] := by
  rw [putBe_eq_reverse, show be32 a b c d = le32 d c b a from rfl, putLe_le32]
  rfl

theorem le24_bytes (x : BitVec 24) : le24 (byteAt x 0) (byteAt x 1) (byteAt x 2) = x := by
  rw [le24, byteAt, byteAt, byteAt]
  iterate 2 rw [BitVec.extractLsb'_append_extractLsb'_eq_extractLsb' (by decide)]
  exact BitVec.extractLsb'_eq_self

theorem le32_bytes (x : Word32) : le32 (byteAt x 0) (byteAt x 1) (byteAt x 2) (byteAt x 3) = x := by
  rw [le32, byteAt, byteAt, byteAt, byteAt]
  iterate 3 rw [BitVec.extractLsb'_append_extractLsb'_eq_extractLsb' (by decide)]
  exact BitVec.extractLsb'_eq_self

theorem le48_bytes (x : BitVec 48) :
    le48 (byteAt x 0) (byteAt x 1) (byteAt x 2) (byteAt x 3) (byteAt x 4) (byteAt x 5) = x := by
  rw [le48, byteAt, byteAt, byteAt, byteAt, byteAt, byteAt]
  iterate 5 rw [BitVec.extractLsb'_append_extractLsb'_eq_extractLsb' (by decide)]
  exact BitVec.extractLsb'_eq_self

theorem be32_bytes (x : Word32) : be32 (byteAt x 3) (byteAt x 2) (byteAt x 1) (byteAt x 0) = x := le32_bytes x

/-! ## Words of the branch patterns (R76) -/

/-- The opcode, field and link bits of a `bl`. -/
theorem ppcWord_parts (x : Word32) : x.extractLsb' 26 6 ++ x.extractLsb' 2 24 ++ x.extractLsb' 0 2 = x := by
  iterate 2 rw [BitVec.extractLsb'_append_extractLsb'_eq_extractLsb' (by decide)]
  exact BitVec.extractLsb'_eq_self

theorem isPpcBl_parts (hi : BitVec 6) (a : BitVec 24) (lo : BitVec 2) :
    isPpcBl (hi ++ a ++ lo) = true ↔ hi = 0b010010#6 ∧ lo = 0b01#2 := by
  have hmask : (hi ++ a ++ lo : Word32) &&& (0b111111#6 ++ 0#24 ++ 0b11#2 : Word32) = hi ++ 0#24 ++ lo := by
    rw [BitVec.and_append, BitVec.and_append, BitVec.and_zero]
    congr 2
    · exact BitVec.and_allOnes
    · exact BitVec.and_allOnes
  rw [isPpcBl, beq_iff_eq]
  constructor
  · intro h
    have h : (hi ++ 0#24 ++ lo : Word32) = 0b010010#6 ++ 0#24 ++ 0b01#2 := hmask.symm.trans h
    have hi := congrArg (BitVec.extractLsb' 26 6) h
    have hlo := congrArg (BitVec.extractLsb' 0 2) h
    rw [BitVec.extractLsb'_append_eq_of_le (by decide), BitVec.extractLsb'_append_eq_left] at hi
    rw [BitVec.extractLsb'_append_eq_right] at hlo
    exact ⟨hi, hlo⟩
  · rintro ⟨rfl, rfl⟩
    exact hmask

/-- The word of a `bl` field passes the test, and gives the field back. -/
theorem ppcWord_of_field (a : BitVec 24) :
    isPpcBl (0b010010#6 ++ a ++ 0b01#2) = true ∧ (0b010010#6 ++ a ++ 0b01#2 : Word32).extractLsb' 2 24 = a := by
  refine ⟨(isPpcBl_parts _ a _).mpr ⟨rfl, rfl⟩, ?_⟩
  rw [BitVec.extractLsb'_append_eq_of_le (by decide)]
  exact BitVec.extractLsb'_append_eq_right

theorem ppcWord_of_isPpcBl {x : Word32} (h : isPpcBl x = true) : (0b010010#6 ++ x.extractLsb' 2 24 ++ 0b01#2 : Word32) = x := by
  have hx := ppcWord_parts x
  rw [← hx] at h
  obtain ⟨hhi, hlo⟩ := (isPpcBl_parts _ _ _).mp h
  rwa [hhi, hlo] at hx

/-- The ten high bits of a CALL, as its shifted word is tested. -/
theorem sparcHigh_iff (x : Word32) (p : BitVec 10) : x >>> 22 = p.setWidth 32 ↔ x.extractLsb' 22 10 = p := by
  have hx := x.isLt
  have hp := p.isLt
  rw [← BitVec.toNat_inj, ← BitVec.toNat_inj, BitVec.toNat_ushiftRight, BitVec.extractLsb'_toNat, BitVec.toNat_setWidth,
    Nat.shiftRight_eq_div_pow]
  omega

/-- The word of a CALL's high bits and field gives both back. -/
theorem sparcWord_of_field (p : BitVec 10) (d : BitVec 22) :
    (p ++ d : Word32) >>> 22 = p.setWidth 32 ∧ (p ++ d : Word32).extractLsb' 0 22 = d :=
  ⟨(sparcHigh_iff _ p).mpr BitVec.extractLsb'_append_eq_left, BitVec.extractLsb'_append_eq_right⟩

theorem sparcWord_of_high {x : Word32} {p : BitVec 10} (h : x >>> 22 = p.setWidth 32) :
    (p ++ x.extractLsb' 0 22 : Word32) = x := by
  rw [← (sparcHigh_iff x p).mp h, BitVec.extractLsb'_append_extractLsb'_eq_extractLsb' (by decide)]
  exact BitVec.extractLsb'_eq_self

/-- The bytes of a Thumb pair that carry its fixed bits. -/
theorem thumbHigh_iff : ∀ b : Byte,
    ((b &&& 0xF8 == 0xF0) = true ↔ 0b11110#5 ++ b.extractLsb' 0 3 = b) ∧
    ((b &&& 0xF8 == 0xF8) = true ↔ 0b11111#5 ++ b.extractLsb' 0 3 = b) := by decide

theorem thumbPair_of_isThumbBl {b0 b1 b2 b3 : Byte} (h : isThumbBl b1 b3 = true) :
    thumbPair (thumbField b0 b1 b2 b3) = [b0, b1, b2, b3] := by
  obtain ⟨h1, h3⟩ := Bool.and_eq_true_iff.mp h
  have e0 : (thumbField b0 b1 b2 b3).extractLsb' 11 8 = b0 := by
    rw [thumbField, BitVec.extractLsb'_append_eq_of_le (by decide), BitVec.extractLsb'_append_eq_of_le (by decide)]
    exact BitVec.extractLsb'_append_eq_right
  have e1 : (thumbField b0 b1 b2 b3).extractLsb' 19 3 = b1.extractLsb' 0 3 := by
    rw [thumbField, BitVec.extractLsb'_append_eq_of_le (by decide), BitVec.extractLsb'_append_eq_of_le (by decide),
      BitVec.extractLsb'_append_eq_of_le (by decide)]
    exact BitVec.extractLsb'_eq_self
  have e2 : (thumbField b0 b1 b2 b3).extractLsb' 0 8 = b2 := BitVec.extractLsb'_append_eq_right
  have e3 : (thumbField b0 b1 b2 b3).extractLsb' 8 3 = b3.extractLsb' 0 3 := by
    rw [thumbField, BitVec.extractLsb'_append_eq_of_le (by decide)]
    exact BitVec.extractLsb'_append_eq_right
  rw [thumbPair, e0, e1, e2, e3, (thumbHigh_iff b1).1.mp h1, (thumbHigh_iff b3).2.mp h3]

/-- The fixed bits of a Thumb pair, whatever its field. -/
theorem thumbHigh_of_field (x : BitVec 3) :
    (0b11110#5 ++ x).extractLsb' 0 3 = x ∧ (0b11111#5 ++ x).extractLsb' 0 3 = x :=
  ⟨BitVec.extractLsb'_append_eq_right, BitVec.extractLsb'_append_eq_right⟩

theorem thumbField_parts (a : BitVec 22) :
    a.extractLsb' 19 3 ++ a.extractLsb' 11 8 ++ a.extractLsb' 8 3 ++ a.extractLsb' 0 8 = a := by
  iterate 3 rw [BitVec.extractLsb'_append_extractLsb'_eq_extractLsb' (by decide)]
  exact BitVec.extractLsb'_eq_self

theorem x86Opcode_of_isX86Branch : ∀ b : Byte, isX86Branch b = true → (if b == 0xE9 then 0xE9 else 0xE8) = b := by decide

/-! ## The front of a filter's window (R76) -/

theorem decodeBcj_x86 (jmp : Bool) (x : Word32) (r : List Byte) :
    decodeBcj .x86 (bcjBytes (.bcjX86CallJmp jmp x) ++ r) = .ok (.bcjX86CallJmp jmp x, r) := by
  show (if isX86Branch (if jmp then 0xE9 else 0xE8) then
    Except.ok (Instr.bcjX86CallJmp ((if jmp then 0xE9 else 0xE8 : Byte) == 0xE9) (le32 _ _ _ _), r) else _) = _
  rw [le32_bytes]
  cases jmp <;> rfl

theorem decodeBcj_powerpc (a : BitVec 24) (r : List Byte) :
    decodeBcj .powerpc (bcjBytes (.bcjPpcBl a) ++ r) = .ok (.bcjPpcBl a, r) := by
  obtain ⟨htest, hfield⟩ := ppcWord_of_field a
  show (if isPpcBl (be32 _ _ _ _) then _ else _) = _
  rw [be32_bytes, if_pos htest, hfield]
  rfl

theorem decodeBcj_arm (a : BitVec 24) (r : List Byte) :
    decodeBcj .arm (bcjBytes (.bcjArmBl a) ++ r) = .ok (.bcjArmBl a, r) := by
  show Except.ok (Instr.bcjArmBl (le24 _ _ _), r) = _
  rw [le24_bytes]

theorem decodeBcj_armthumb (a : BitVec 22) (r : List Byte) :
    decodeBcj .armthumb (bcjBytes (.bcjThumbBl a) ++ r) = .ok (.bcjThumbBl a, r) := by
  have hx := thumbHigh_of_field (a.extractLsb' 19 3)
  have hy := thumbHigh_of_field (a.extractLsb' 8 3)
  have htest : isThumbBl (0b11110#5 ++ a.extractLsb' 19 3) (0b11111#5 ++ a.extractLsb' 8 3) = true := by
    rw [isThumbBl, Bool.and_eq_true_iff]
    exact ⟨(thumbHigh_iff _).1.mpr (by rw [hx.1]), (thumbHigh_iff _).2.mpr (by rw [hy.2])⟩
  show (if isThumbBl _ _ then Except.ok (Instr.bcjThumbBl (thumbField _ _ _ _), r) else _) = _
  rw [if_pos htest, thumbField, hx.1, hy.2, thumbField_parts]

theorem decodeBcj_sparcPos (d : BitVec 22) (r : List Byte) :
    decodeBcj .sparc (bcjBytes (.bcjSparcCallPos d) ++ r) = .ok (.bcjSparcCallPos d, r) := by
  obtain ⟨hp, hfield⟩ := sparcWord_of_field 0x100#10 d
  have hhigh : (0x100#10 ++ d : Word32) >>> 22 = 0x100 := hp
  show (if be32 _ _ _ _ >>> 22 = 0x100 then _ else _) = _
  rw [be32_bytes, if_pos hhigh, hfield]
  rfl

theorem decodeBcj_sparcNeg (d : BitVec 22) (r : List Byte) :
    decodeBcj .sparc (bcjBytes (.bcjSparcCallNeg d) ++ r) = .ok (.bcjSparcCallNeg d, r) := by
  obtain ⟨hp, hfield⟩ := sparcWord_of_field 0x1FF#10 d
  have hhigh : (0x1FF#10 ++ d : Word32) >>> 22 = 0x1FF := hp
  show (if be32 _ _ _ _ >>> 22 = 0x100 then _ else if be32 _ _ _ _ >>> 22 = 0x1FF then _ else _) = _
  rw [be32_bytes, if_neg (by rw [hhigh]; decide), if_pos hhigh, hfield]
  rfl

/-- A window that decodes opens with the bytes of its unit, which has the size of its format, and the unit's instruction runs
the filter on them. -/
theorem decodeBcj_ok {arch : Arch} {l r : List Byte} {i : Instr} (h : decodeBcj arch l = .ok (i, r)) :
    l = bcjBytes i ++ r ∧ i.wellFormed = true ∧ (bcjBytes i).length = Laws.Encoding.unitBytes (.bcj arch) ∧
      ∀ s, Machine.exec i s = .next (Machine.bcjUnit arch (bcjBytes i) s) := by
  unfold decodeBcj at h
  dsimp only at h
  split at h
  · split_ifs at h with ht
    cases h
    exact ⟨by rw [bcjBytes, x86Opcode_of_isX86Branch _ ht, putLe_le32]; rfl, rfl, rfl, fun _ => rfl⟩
  · split_ifs at h with ht
    cases h
    exact ⟨by rw [bcjBytes, ppcWord_of_isPpcBl ht, putBe_be32]; rfl, rfl, rfl, fun _ => rfl⟩
  · split_ifs at h with ht
    cases h
    exact ⟨by rw [bcjBytes, putLe_le24, ht]; rfl, rfl, rfl, fun _ => rfl⟩
  · split_ifs at h with ht
    cases h
    exact ⟨by rw [bcjBytes, thumbPair_of_isThumbBl ht]; rfl, rfl, rfl, fun _ => rfl⟩
  · split_ifs at h with hpos hneg
    · cases h
      exact ⟨by rw [bcjBytes, sparcWord_of_high (p := 0x100#10) hpos, putBe_be32]; rfl, rfl, rfl, fun _ => rfl⟩
    · cases h
      exact ⟨by rw [bcjBytes, sparcWord_of_high (p := 0x1FF#10) hneg, putBe_be32]; rfl, rfl, rfl, fun _ => rfl⟩
  · cases h

/-! ## Slots of an IA-64 bundle (R76, R120) -/

/-- A word of 48 bits with the 41 bits of a slot from `res` on replaced. -/
def ia64Field (x : BitVec 48) (res : Nat) (norm : BitVec 41) : BitVec 48 :=
  (x &&& ~~~((BitVec.setWidth 48 (BitVec.allOnes 41)) <<< res)) ||| (norm.setWidth 48 <<< res)

theorem ia64PutSlot_eq (l : List Byte) (slot : Nat) (norm : BitVec 41) :
    ia64PutSlot l slot norm = ia64PutInstr l slot (ia64Field (ia64Instr l slot) (ia64BitRes slot) norm) := rfl

/-- The bits of the field are the slot's, and the others stay. -/
theorem getLsbD_ia64Field (x : BitVec 48) {res : Nat} (hr : res ≤ 7) (norm : BitVec 41) (k : Nat) :
    (ia64Field x res norm).getLsbD k = if res ≤ k ∧ k < res + 41 then norm.getLsbD (k - res) else x.getLsbD k := by
  have hmask : ∀ j, (BitVec.setWidth 48 (BitVec.allOnes 41)).getLsbD j = decide (j < 41) := by
    intro j
    rw [BitVec.getLsbD_setWidth, BitVec.getLsbD_allOnes, Bool.and_eq_right_iff_imp]
    intro h
    have := of_decide_eq_true h
    exact decide_eq_true (by omega)
  rw [ia64Field]
  generalize BitVec.setWidth 48 (BitVec.allOnes 41) = mask at hmask
  simp only [BitVec.getLsbD_or, BitVec.getLsbD_and, BitVec.getLsbD_not, BitVec.getLsbD_shiftLeft, BitVec.getLsbD_setWidth,
    hmask]
  by_cases hk : k < 48
  · by_cases h1 : k < res
    · rw [if_neg (by omega)]
      simp [hk, h1]
    · by_cases h2 : k - res < 41
      · rw [if_pos (by omega)]
        simp [hk, h1, h2]
        omega
      · rw [if_neg (by omega)]
        simp [hk, h1, h2, BitVec.getLsbD_of_ge norm _ (Nat.le_of_not_lt h2)]
  · rw [if_neg (by omega), BitVec.getLsbD_of_ge x k (by omega)]
    simp [hk]

theorem extract_ia64Field (x : BitVec 48) {res : Nat} (hr : res ≤ 7) (norm : BitVec 41) :
    (ia64Field x res norm).extractLsb' res 41 = norm := by
  apply BitVec.eq_of_getLsbD_eq
  intro k hk
  rw [BitVec.getLsbD_extractLsb', getLsbD_ia64Field x hr, if_pos (by omega), Nat.add_sub_cancel_left]
  simp [hk]

/-- A slot's own bits put back change nothing. -/
theorem ia64Field_extract (x : BitVec 48) {res : Nat} (hr : res ≤ 7) : ia64Field x res (x.extractLsb' res 41) = x := by
  apply BitVec.eq_of_getLsbD_eq
  intro k _
  rw [getLsbD_ia64Field x hr]
  split
  · next h =>
    rw [BitVec.getLsbD_extractLsb', decide_eq_true (by omega), Bool.true_and]
    congr 1
    omega
  · rfl

theorem ia64BytePos_le (slot : Fin 3) : ia64BytePos slot ≤ 10 := by
  have := slot.isLt
  unfold ia64BytePos
  omega

theorem ia64BitRes_le (slot : Nat) : ia64BitRes slot ≤ 7 := by
  unfold ia64BitRes
  omega

/-- The six bytes of a list from a place on. -/
theorem drop_eq_six {l : List Byte} {k : Nat} (h : k + 6 ≤ l.length) :
    l.drop k = [l.getD k 0, l.getD (k + 1) 0, l.getD (k + 2) 0, l.getD (k + 3) 0, l.getD (k + 4) 0, l.getD (k + 5) 0] ++
      l.drop (k + 6) := by
  have hget : ∀ j, j < l.length → l.drop j = l.getD j 0 :: l.drop (j + 1) := fun j hj => by
    rw [List.drop_eq_getElem_cons hj, List.getD_eq_getElem l 0 hj]
  rw [hget k (by omega), hget (k + 1) (by omega), hget (k + 2) (by omega), hget (k + 3) (by omega), hget (k + 4) (by omega),
    hget (k + 5) (by omega)]
  rfl

/-- A slot's 48 bits put back change nothing. -/
theorem ia64PutInstr_self {l : List Byte} (h : l.length = 16) (slot : Fin 3) :
    ia64PutInstr l slot (ia64Instr l slot) = l := by
  have hk := ia64BytePos_le slot
  rw [ia64PutInstr, ia64Instr, putLe_le48, List.append_assoc, ← drop_eq_six (by omega), List.take_append_drop]

/-- The 48 bits that were put are found again. -/
theorem ia64Instr_putInstr {l : List Byte} (h : l.length = 16) (slot : Fin 3) (x : BitVec 48) :
    ia64Instr (ia64PutInstr l slot x) slot = x := by
  have hk := ia64BytePos_le slot
  have hget : ∀ j, j < 6 → (ia64PutInstr l slot x).getD (ia64BytePos slot + j) 0 = (putLe x 6).getD j 0 := by
    intro j hj
    have hl : (l.take (ia64BytePos slot)).length = ia64BytePos slot := by
      rw [List.length_take]
      omega
    rw [ia64PutInstr, List.append_assoc, List.getD_append_right _ _ _ _ (by omega), hl, Nat.add_sub_cancel_left,
      List.getD_append _ _ _ _ (by simpa using hj)]
  have h0 := hget 0 (by omega)
  rw [Nat.add_zero] at h0
  rw [ia64Instr, h0, hget 1 (by omega), hget 2 (by omega), hget 3 (by omega), hget 4 (by omega), hget 5 (by omega)]
  exact le48_bytes x

theorem ia64PutSlot_length {l : List Byte} (h : l.length = 16) (slot : Fin 3) (norm : BitVec 41) :
    (ia64PutSlot l slot norm).length = 16 := Machine.ia64PutInstr_length h slot.isLt _

/-- A slot's bits put back change nothing. -/
theorem ia64PutSlot_self {l : List Byte} (h : l.length = 16) (slot : Fin 3) :
    ia64PutSlot l slot ((ia64Instr l slot).extractLsb' (ia64BitRes slot) 41) = l := by
  rw [ia64PutSlot_eq, ia64Field_extract _ (ia64BitRes_le _), ia64PutInstr_self h]

/-- The template is the low five bits of byte 0, and a slot's 48 bits leave it alone if they keep the bits below the slot. -/
theorem template_putInstr {l : List Byte} (h : l.length = 16) (slot : Fin 3) {x : BitVec 48}
    (hx : ∀ k, k < ia64BitRes slot → x.getLsbD k = (ia64Instr l slot).getLsbD k) :
    (ia64PutInstr l slot x).getD 0 0 &&& 0x1F = l.getD 0 0 &&& 0x1F := by
  obtain ⟨a, l, rfl⟩ := List.exists_cons_of_length_pos (l := l) (by omega)
  match slot with
  | 0 =>
    have hb : byteAt x 0 &&& 0x1F = byteAt (ia64Instr (a :: l) 0) 0 &&& 0x1F := by
      apply BitVec.eq_of_getLsbD_eq
      intro k hk
      have hmask : ∀ k < 8, (0x1F : Byte).getLsbD k = decide (k < 5) := by decide
      rw [BitVec.getLsbD_and, BitVec.getLsbD_and, hmask k hk, byteAt, byteAt, BitVec.getLsbD_extractLsb',
        BitVec.getLsbD_extractLsb']
      by_cases h5 : k < 5
      · rw [Nat.mul_zero, Nat.zero_add, hx k h5]
        rfl
      · rw [decide_eq_false h5, Bool.and_false, Bool.and_false]
    exact hb.trans (congrArg (· &&& 0x1F) BitVec.extractLsb'_append_eq_right)
  | 1 | 2 => rfl

theorem ia64Selects_putInstr {l : List Byte} (h : l.length = 16) (slot : Fin 3) {x : BitVec 48}
    (hx : ∀ k, k < ia64BitRes slot → x.getLsbD k = (ia64Instr l slot).getLsbD k) (j : Nat) :
    ia64Selects (ia64PutInstr l slot x) j = ia64Selects l j := by
  rw [ia64Selects, template_putInstr h slot hx, ia64Selects]

theorem ia64Selects_putSlot {l : List Byte} (h : l.length = 16) (slot : Fin 3) (norm : BitVec 41) (j : Nat) :
    ia64Selects (ia64PutSlot l slot norm) j = ia64Selects l j := by
  rw [ia64PutSlot_eq]
  refine ia64Selects_putInstr h slot (fun k hk => ?_) j
  rw [getLsbD_ia64Field _ (ia64BitRes_le _), if_neg (by omega)]

/-- A branch put in a slot that the template selects is the branch that the slot holds. -/
theorem decodeIa64Slot_putSlot {l : List Byte} (h : l.length = 16) {slot : Fin 3} (hs : ia64Selects l slot = true)
    {norm : BitVec 41} (hn : Instr.isIa64Branch norm = true) :
    decodeIa64Slot slot (ia64PutSlot l slot norm) = .ok (.bcjIa64BranchSlot slot norm, []) := by
  have hlen := ia64PutSlot_length h slot norm
  have hfield : (ia64Instr (ia64PutSlot l slot norm) slot).extractLsb' (ia64BitRes slot) 41 = norm := by
    rw [ia64PutSlot_eq, ia64Instr_putInstr h, extract_ia64Field _ (ia64BitRes_le _)]
  rw [decodeIa64Slot, if_neg (by omega), ia64Selects_putSlot h, hs, hfield]
  simp [hn, hlen]

/-! ## Lengths and distances (R74, R75) -/

theorem decodeLength_low (t : BitVec 3) : decodeLength (false :: putMsb t.toNat 3) = .ok (.lenLow t, []) := by
  have hl := Laws.Encoding.putMsb_size t.toNat 3
  rw [decodeLength, if_neg (by omega), List.take_of_length_le (by omega), List.drop_of_length_le (by omega),
    ofNat_bitsMsb_putMsb t t.isLt]

theorem decodeLength_mid (t : BitVec 3) : decodeLength (true :: false :: putMsb t.toNat 3) = .ok (.lenMid t, []) := by
  have hl := Laws.Encoding.putMsb_size t.toNat 3
  rw [decodeLength, if_neg (by omega), List.take_of_length_le (by omega), List.drop_of_length_le (by omega),
    ofNat_bitsMsb_putMsb t t.isLt]

theorem decodeLength_high (t : BitVec 8) : decodeLength (true :: true :: putMsb t.toNat 8) = .ok (.lenHigh t, []) := by
  have hl := Laws.Encoding.putMsb_size t.toNat 8
  rw [decodeLength, if_neg (by omega), List.take_of_length_le (by omega), List.drop_of_length_le (by omega),
    ofNat_bitsMsb_putMsb t t.isLt]

/-- After a slot's six bits come its extra bits. -/
theorem decodeDistance_slot (slot : BitVec 6) (r : List Bool) : decodeDistance (putMsb slot.toNat 6 ++ r) =
    let nb := Instr.slotExtraBits slot
    let d := r.drop (nb - 4)
    if slot.toNat < 4 then .ok (.distSlot0To3 slot, r)
    else if r.length < nb then .error .truncated
    else if slot.toNat < 14 then .ok (.distSlot4To13 slot (.ofNat 5 (bitsLsb (r.take nb))), r.drop nb)
    else .ok (.distSlot14To63 slot (.ofNat 26 (bitsMsb (r.take (nb - 4)))) (.ofNat 4 (bitsLsb (d.take 4))), d.drop 4) := by
  have hl := Laws.Encoding.putMsb_size slot.toNat 6
  rw [decodeDistance, if_neg (by rw [List.length_append]; omega), List.take_left' hl, List.drop_left' hl,
    ofNat_bitsMsb_putMsb slot slot.isLt]

theorem decodeDistance_low {slot : BitVec 6} (h : (Instr.distSlot0To3 slot).wellFormed = true) :
    decodeDistance (putMsb slot.toNat 6) = .ok (.distSlot0To3 slot, []) := by
  rw [← List.append_nil (putMsb _ _), decodeDistance_slot]
  exact if_pos (of_decide_eq_true h)

theorem decodeDistance_special {slot : BitVec 6} {t : BitVec 5} (h : (Instr.distSlot4To13 slot t).wellFormed = true) :
    decodeDistance (putMsb slot.toNat 6 ++ putLsb t.toNat (Instr.slotExtraBits slot)) = .ok (.distSlot4To13 slot t, []) := by
  simp only [Instr.wellFormed, Bool.and_eq_true, decide_eq_true_eq] at h
  obtain ⟨⟨h4, h13⟩, ht⟩ := h
  have hl := Laws.Encoding.putLsb_size t.toNat (Instr.slotExtraBits slot)
  rw [decodeDistance_slot]
  dsimp only
  rw [if_neg (by omega), if_neg (by omega), if_pos (by omega), List.take_of_length_le (by omega),
    List.drop_of_length_le (by omega), ofNat_bitsLsb_putLsb t ht]

theorem decodeDistance_direct {slot : BitVec 6} {x : BitVec 26} {a : BitVec 4}
    (h : (Instr.distSlot14To63 slot x a).wellFormed = true) :
    decodeDistance (putMsb slot.toNat 6 ++ putMsb x.toNat (Instr.slotExtraBits slot - 4) ++ putLsb a.toNat 4) =
      .ok (.distSlot14To63 slot x a, []) := by
  simp only [Instr.wellFormed, Bool.and_eq_true, decide_eq_true_eq] at h
  obtain ⟨h14, hx⟩ := h
  have hnb : 4 ≤ Instr.slotExtraBits slot := by unfold Instr.slotExtraBits; omega
  have hl := Laws.Encoding.putMsb_size x.toNat (Instr.slotExtraBits slot - 4)
  have ha := Laws.Encoding.putLsb_size a.toNat 4
  rw [List.append_assoc, decodeDistance_slot]
  dsimp only
  rw [if_neg (by omega), if_neg (by rw [List.length_append]; omega), if_neg (by omega), List.take_left' hl, List.drop_left' hl,
    List.take_of_length_le (by omega), List.drop_of_length_le (by omega), ofNat_bitsMsb_putMsb x hx,
    ofNat_bitsLsb_putLsb a a.isLt]

/-! ## The round trip -/

/-- Nothing left over, in the words of a format. -/
def Code.empty : Code → Code
  | .bytes _ => .bytes []
  | .bits _ => .bits []

/-- A BCJ unit that decodes in front of any bytes decodes alone. -/
theorem decode_bcj {arch : Arch} {i : Instr} (h : ∀ r, decodeBcj arch (bcjBytes i ++ r) = .ok (i, r)) :
    decode (.bcj arch) (.bytes (bcjBytes i)) = .ok (i, .bytes []) := by
  have h := h []
  rw [List.append_nil] at h
  rw [decode, h, restBytes]

theorem decodeCheckType_unsupported {b : Byte} (h : (Instr.checkUnsupported b).wellFormed = true) :
    decodeCheckType b = .checkUnsupported b := by
  simp only [Instr.wellFormed, Bool.not_eq_true', Bool.or_eq_false_iff, beq_eq_false_iff_ne] at h
  obtain ⟨⟨⟨h0, h1⟩, h4⟩, hA⟩ := h
  rw [decodeCheckType, if_neg h0, if_neg h1, if_neg h4, if_neg hA]

/-- The words of a well-formed instruction decode to it, family by family. -/
theorem decode_encode {i : Instr} (hwf : i.wellFormed = true) {f : Format} {c : Code} (h : encode i = some (f, c)) :
    decode f c = .ok (i, c.empty) := by
  cases i with
  | endMark | uncDr | unc | props _ | dictProp _ | checkNone | checkCrc32 | checkCrc64 | checkSha256 =>
    cases h
    rfl
  | lit | mlit | matchNew | shortRep | longRep0 | longRep1 | longRep2 | longRep3 =>
    cases h
    rfl
  | reservedCtrl c =>
    cases h
    simp only [Instr.wellFormed, Bool.and_eq_true, decide_eq_true_eq] at hwf
    rw [decode, decodeControl_reserved hwf.1 (by omega), Code.empty]
  | lz0 u | lz1 u | lz2 u | lz3 u =>
    cases h
    rw [decode, decodeControl_lzmaControl]
    rfl
  | checkUnsupported b =>
    cases h
    rw [decode, decodeCheckType_unsupported hwf, Code.empty]
  | lenLow t =>
    cases h
    rw [decode, decodeLength_low, restBits, Code.empty]
  | lenMid t =>
    cases h
    rw [decode, decodeLength_mid, restBits, Code.empty]
  | lenHigh t =>
    cases h
    rw [decode, decodeLength_high, restBits, Code.empty]
  | distSlot0To3 slot =>
    cases h
    rw [decode, decodeDistance_low hwf, restBits, Code.empty]
  | distSlot4To13 slot t =>
    cases h
    rw [decode, decodeDistance_special hwf, restBits, Code.empty]
  | distSlot14To63 slot x a =>
    cases h
    rw [decode, decodeDistance_direct hwf, restBits, Code.empty]
  | bcjX86CallJmp jmp x =>
    cases h
    exact decode_bcj (decodeBcj_x86 jmp x)
  | bcjPpcBl a =>
    cases h
    exact decode_bcj (decodeBcj_powerpc a)
  | bcjArmBl a =>
    cases h
    exact decode_bcj (decodeBcj_arm a)
  | bcjThumbBl a =>
    cases h
    exact decode_bcj (decodeBcj_armthumb a)
  | bcjSparcCallPos d =>
    cases h
    exact decode_bcj (decodeBcj_sparcPos d)
  | bcjSparcCallNeg d =>
    cases h
    exact decode_bcj (decodeBcj_sparcNeg d)
  | bcjIa64BranchSlot slot norm =>
    cases h
    have hs : ∀ slot : Fin 3, ia64Selects (0x16 :: List.replicate 15 0) slot = true := by decide
    rw [decode, bcjBytes, decodeIa64Slot_putSlot rfl (hs slot) hwf, restBytes, Code.empty]
  | _ => cases h

/-! ## Control bytes and chunk headers (R67, R69, R70) -/

theorem encode_decodeControl (c : Byte) :
    (decodeControl c).wellFormed = true ∧ encode (decodeControl c) = some (.control, .bytes [c]) := by
  by_cases h : 0x80 ≤ c.toNat
  · have hrow := lzmaRow_encode (c.extractLsb' 5 2) (c.extractLsb' 0 5)
    rwa [lzmaControl_fields h, ← decodeControl_high h] at hrow
  · by_cases h3 : 0x03 ≤ c.toNat
    · rw [decodeControl_reserved h3 (by omega)]
      exact ⟨by simp [Instr.wellFormed]; omega, rfl⟩
    · rcases byte_lt_three (Nat.lt_of_not_le h3) with rfl | rfl | rfl <;> exact ⟨rfl, rfl⟩

/-- The two size bytes of a chunk of up to 2^16 bytes. -/
theorem sizeBytes_value {n : Nat} (h1 : 1 ≤ n) (h : n ≤ 2 ^ 16) :
    (BitVec.ofNat 8 ((n - 1) / 256)).toNat * 256 + (BitVec.ofNat 8 (n - 1)).toNat + 1 = n := by
  rw [BitVec.toNat_ofNat, BitVec.toNat_ofNat]
  omega

/-- The five bits of the control byte and two size bytes of a chunk of up to 2^21 bytes. -/
theorem lzmaSize_value {n : Nat} (h1 : 1 ≤ n) (h : n ≤ 2 ^ 21) :
    (BitVec.ofNat 5 ((n - 1) / 65536)).toNat * 65536 + (BitVec.ofNat 8 ((n - 1) / 256)).toNat * 256 +
      (BitVec.ofNat 8 (n - 1)).toNat + 1 = n := by
  rw [BitVec.toNat_ofNat, BitVec.toNat_ofNat, BitVec.toNat_ofNat]
  omega

theorem chunkHeader_uncompressed (reset : Bool) {size : Nat} (h1 : 1 ≤ size) (h : size ≤ 2 ^ 16) (rest : List Byte) :
    ChunkHeader.decode ((ChunkHeader.uncompressed reset size).encode ++ rest) = some (.uncompressed reset size, rest) := by
  cases reset
  all_goals
    show some (ChunkHeader.uncompressed _ (BitVec.toNat _ * 256 + BitVec.toNat _ + 1), rest) = _
    rw [sizeBytes_value h1 h]
    rfl

theorem chunkHeader_lzma {r : BitVec 2} {uncSize compSize : Nat} {props : Option Byte}
    (h : (ChunkHeader.lzma r uncSize compSize props).wellFormed = true) (rest : List Byte) :
    ChunkHeader.decode ((ChunkHeader.lzma r uncSize compSize props).encode ++ rest) =
      some (.lzma r uncSize compSize props, rest) := by
  simp only [ChunkHeader.wellFormed, Bool.and_eq_true, decide_eq_true_eq, beq_iff_eq] at h
  obtain ⟨⟨⟨⟨hu1, hu⟩, hc1⟩, hc⟩, hp⟩ := h
  have hctl := lzmaControl_toNat r (.ofNat 5 ((uncSize - 1) / 65536))
  have hne : lzmaControl r (.ofNat 5 ((uncSize - 1) / 65536)) ≠ 0x00 := fun h0 => by
    rw [h0] at hctl
    have : (0x00 : Byte).toNat = 0 := rfl
    omega
  have hfive := (BitVec.ofNat 5 ((uncSize - 1) / 65536)).isLt
  simp only [ChunkHeader.encode, sizeBytes, List.cons_append, List.nil_append]
  rw [ChunkHeader.decode, if_neg hne, if_neg (by omega), if_neg (by omega)]
  dsimp only
  rw [lzmaControl_r, lzmaControl_u, lzmaSize_value hu1 hu, sizeBytes_value hc1 hc]
  cases props with
  | none =>
    have hr : ¬ 2 ≤ r.toNat := of_decide_eq_false hp.symm
    exact if_pos (by omega)
  | some v =>
    have hr : 2 ≤ r.toNat := of_decide_eq_true hp.symm
    exact if_neg (by omega)

theorem chunkHeader_decode_encode {h : ChunkHeader} (hwf : h.wellFormed = true) (rest : List Byte) :
    ChunkHeader.decode (h.encode ++ rest) = some (h, rest) := by
  cases h with
  | endMark => rfl
  | uncompressed reset size =>
    simp only [ChunkHeader.wellFormed, Bool.and_eq_true, decide_eq_true_eq] at hwf
    exact chunkHeader_uncompressed reset hwf.1 hwf.2 rest
  | lzma r uncSize compSize props => exact chunkHeader_lzma hwf rest

end Sys2Proof

open Sys2Proof

/-- Settles O2: an instruction's fields are found again in its words, family by family. -/
theorem decodeOfEncodeIsTheInstruction : Obligations.DecodeOfEncodeIsTheInstruction := fun _ _ hwf =>
  ⟨fun _ h => decode_encode hwf h, fun _ h => decode_encode hwf h⟩

/-- Settles O3: a control byte by its range, a word unit by the fields that its test fixes. -/
theorem encodeOfDecodeIsTheWords : Obligations.EncodeOfDecodeIsTheWords := by
  refine ⟨encode_decodeControl, fun arch l r i h => ?_⟩
  obtain ⟨hl, hwf, -, -⟩ := decodeBcj_ok h
  exact ⟨hl, hwf⟩

/-- Settles O4, by the kind of the chunk. -/
theorem chunkHeaderRoundTrip : Obligations.ChunkHeaderRoundTrip := fun _ rest hwf => chunkHeader_decode_encode hwf rest

/-- Settles O1: the decoder runs on each of the words. -/
theorem specWordsDecodeToTheirInstructions : Obligations.SpecWordsDecodeToTheirInstructions := by
  unfold Obligations.SpecWordsDecodeToTheirInstructions
  decide

end

section
/-! SUPPORT. Control and properties bytes once they are read (41_lzma2_chunks.md R92, R96): what each family does, by the fields
of the byte. -/

namespace Sys2Proof.Machine

/-! ## LZMA control bytes (R92) -/

theorem lzmaControl_size (r : BitVec 2) (u : BitVec 5) :
    (lzmaControl r u &&& 0x1F).toNat <<< 16 = u.toNat * 65536 := by
  have hr := lzmaControl_toNat r u
  have hmask : (lzmaControl r u &&& 0x1F).toNat = (lzmaControl r u).toNat % 2 ^ 5 :=
    (BitVec.toNat_and _ _).trans (Nat.and_two_pow_sub_one_eq_mod _ 5)
  have hu := u.isLt
  rw [Nat.shiftLeft_eq, hmask]
  omega

/-- The sequencer after an LZMA control byte's size bits. -/
def Sequencer.lzmaSize (q : Sequencer) (u : BitVec 5) : Sequencer :=
  { q with uncLeft := u.toNat * 65536, seq := .uncompressed1 }

/-- After the dictionary test an LZMA control byte announces new properties, or needs those of an earlier one, and then
resets the LZMA state or keeps it. -/
theorem lzmaControlByte_lzmaControl (r : BitVec 2) (u : BitVec 5) (s : State) :
    lzmaControlByte (lzmaControl r u) s =
      let q := s.sq.lzmaSize u
      let kept : State := { s with sq := { q with nextSeq := .lzmaPrepare } }
      if 2 ≤ r.toNat then .done 0 { s with sq := { q with needProps := false, nextSeq := .properties } }
      else if s.sq.needProps then raise .data { s with sq := q }
      else .done 0 (if 1 ≤ r.toNat then kept.lzmaStateReset else kept) := by
  have hr := lzmaControl_toNat r u
  have hu := u.isLt
  have h2 : 0xC0 ≤ (lzmaControl r u).toNat ↔ 2 ≤ r.toNat := by omega
  have h1 : 0xA0 ≤ (lzmaControl r u).toNat ↔ 1 ≤ r.toNat := by omega
  simp only [lzmaControlByte, lzmaControl_size, h2, h1]
  rfl

/-- The dictionary test of an LZMA control byte: the last family resets the dictionary, the others need it reset. -/
theorem controlByte_lzmaControl (r : BitVec 2) (u : BitVec 5) (s : State) :
    controlByte (lzmaControl r u) s =
      if r.toNat = 3 then lzmaControlByte (lzmaControl r u) { s with sq := s.sq.dictResetFlags, dict := s.dict.restart }
      else if s.sq.needDictReset then raise .data s
      else lzmaControlByte (lzmaControl r u) s := by
  have hr := lzmaControl_toNat r u
  have hu := u.isLt
  have hrlt := r.isLt
  have hne : ∀ k : Byte, k.toNat < 0x80 → lzmaControl r u ≠ k := fun k hk hc => by rw [hc] at hr; omega
  have hreset : resetsDict (lzmaControl r u) = true ↔ r.toNat = 3 := by
    rw [resetsDict, beq_eq_false_iff_ne.mpr (hne 0x01 (by decide)), Bool.or_false, decide_eq_true_iff]
    omega
  have hchunk : ∀ t, chunkControlByte (lzmaControl r u) t = lzmaControlByte (lzmaControl r u) t := fun t =>
    if_pos (by omega)
  rw [controlByte, if_neg (hne _ (by decide)), hchunk, hchunk]
  simp only [hreset]

end Sys2Proof.Machine

open Sys2Proof Sys2Proof.Machine

/-- Settles O42, by the family's `r` and then by the flags. -/
theorem lzmaControlBytes : Obligations.LzmaControlBytes := by
  intro s u q kept cleared
  have hexec : exec (.lz3 u) s = finish (controlByte (lzmaControl 3 u) s) ∧
      exec (.lz2 u) s = finish (controlByte (lzmaControl 2 u) s) ∧
      exec (.lz1 u) s = finish (controlByte (lzmaControl 1 u) s) ∧
      exec (.lz0 u) s = finish (controlByte (lzmaControl 0 u) s) := ⟨rfl, rfl, rfl, rfl⟩
  obtain ⟨h3, h2, h1, h0⟩ := hexec
  rw [h3, h2, h1, h0]
  simp only [controlByte_lzmaControl, lzmaControlByte_lzmaControl]
  refine ⟨rfl, ?_⟩
  by_cases hd : s.sq.needDictReset = true
  · simp only [if_pos hd]
    exact ⟨rfl, rfl, rfl⟩
  · simp only [if_neg hd]
    refine ⟨rfl, ?_⟩
    by_cases hp : s.sq.needProps = true
    · simp only [if_pos hp]
      exact ⟨rfl, rfl⟩
    · simp only [if_neg hp]
      exact ⟨rfl, rfl⟩

/-- Settles O41: 0x01 and 0x02 by the flag of the dictionary test, and a reserved byte ends at the same error whichever way
that test goes. -/
theorem uncompressedAndReservedControlBytes : Obligations.UncompressedAndReservedControlBytes := by
  intro s
  refine ⟨rfl, ?_, fun c hwf => ?_⟩
  · have hexec : exec .unc s =
        finish (if s.sq.needDictReset then raise .data s else chunkControlByte 0x02 s) := rfl
    rw [hexec]
    split
    · rfl
    · rfl
  · simp only [Instr.wellFormed, Bool.and_eq_true, decide_eq_true_eq] at hwf
    obtain ⟨h3, h7F⟩ := hwf
    have hne : ∀ k : Byte, k.toNat < 0x03 → c ≠ k := fun k hk hc => by rw [hc] at h3; omega
    have hreset : ¬ resetsDict c = true := by
      rw [resetsDict, beq_eq_false_iff_ne.mpr (hne 0x01 (by decide)), Bool.or_false, decide_eq_true_iff]
      omega
    have hchunk : chunkControlByte c s = raise .data s := (if_neg (by omega)).trans (if_pos (by omega))
    have hexec : exec (.reservedCtrl c) s = finish (controlByte c s) := rfl
    rw [hexec, controlByte, if_neg (hne _ (by decide)), if_neg hreset, hchunk, ite_self]
    rfl

/-- Settles O45: the two tests of the properties byte; the second error keeps the fields that were assigned before it. -/
theorem propertiesByteSetsLcLpPb : Obligations.PropertiesByteSetsLcLpPb := by
  intro s v
  have hexec : exec (.props v) s = finish (propsByte v s) := rfl
  rw [hexec]
  refine ⟨fun hv hl => ?_, fun hbad => ?_⟩
  · rw [propsByte, if_neg (by omega)]
    exact congrArg finish (if_neg (Nat.not_lt_of_le hl))
  · by_cases hv : 224 < v.toNat
    · rw [propsByte, if_pos hv]
      exact ⟨_, rfl, rfl⟩
    · have hl : 4 < v.toNat % 9 + v.toNat % 45 / 9 := by omega
      rw [propsByte, if_neg hv]
      exact ⟨_, congrArg finish (if_pos hl), rfl⟩

end

section
/-! SUPPORT. The tags of the check engines (44_checks.md R130, R131): what they depend on, and the value of a little-endian
one. -/

namespace Sys2Proof.Machine

/-- The value of a word's bytes, least significant first. -/
theorem foldr_putLe {w : Nat} (x : BitVec w) (n z : Nat) :
    (putLe x n).foldr (fun b v => b.toNat + 256 * v) z = x.toNat % 256 ^ n + 256 ^ n * z := by
  induction n generalizing z with
  | zero => simp [putLe, Nat.mod_one]
  | succ n ih =>
    have hbyte : (byteAt x n).toNat = x.toNat / 256 ^ n % 256 := by
      rw [byteAt, BitVec.extractLsb'_toNat, Nat.shiftRight_eq_div_pow, Nat.pow_mul]
    rw [putLe, List.foldr_append, ih, List.foldr_cons, List.foldr_nil, hbyte, Nat.mod_pow_succ]
    ring

/-- A SHA-256 tag depends on three of the check registers. -/
theorem shaFinal_congr {c d : Check} (hh : c.shaH = d.shaH) (hb : c.shaBuf = d.shaBuf) (hl : c.shaLen = d.shaLen) :
    shaFinal c = shaFinal d := by
  simp only [shaFinal, shaPadded, hh, hb, hl]

/-- The check registers with a short message in a SHA-256 engine that has just started. -/
def Check.shaMessage (l : List Byte) : Check := { State.reset.chk with shaBuf := l, shaLen := .ofNat 64 l.length }

/-- R130's example of no byte. -/
theorem shaFinal_empty : shaFinal (.shaMessage []) =
    putBe (0xe3b0c44298fc1c149afbf4c8996fb92427ae41e4649b934ca495991b7852b855#256) 32 := by decide +kernel

/-- R130's example of "abc". -/
theorem shaFinal_abc : shaFinal (.shaMessage [0x61, 0x62, 0x63]) =
    putBe (0xba7816bf8f01cfea414140de5dae2223b00361a396177a9cb410ff61f20015ad#256) 32 := by decide +kernel

end Sys2Proof.Machine

open Sys2Proof Sys2Proof.Machine

/-- Settles O54, engine by engine. -/
theorem finalizeReturnsTheTag : Obligations.FinalizeReturnsTheTag := by
  intro s
  have hsha : s.chk.engine = .sha256 → s.chk.finalize = shaFinal s.chk := fun h => by rw [Check.finalize, h]
  refine ⟨s.chk.finalize, rfl, ?_, fun h => ?_, fun h => ?_, fun h hh hb hl => ?_, fun h hh hb hl => ?_⟩
  · cases h : s.chk.engine <;> simp [Check.finalize, h, shaFinal]
  · exact ⟨_, _, _, _, by rw [Check.finalize, h]; rfl, (le32_bytes _).symm⟩
  · rw [Check.finalize, h]
    exact ((foldr_putLe _ 8 0).trans (Nat.mod_eq_of_lt s.chk.crc64.isLt)).symm
  · rw [hsha h, shaFinal_congr (d := .shaMessage []) hh hb hl, shaFinal_empty]
  · rw [hsha h, shaFinal_congr (d := .shaMessage [0x61, 0x62, 0x63]) hh hb hl, shaFinal_abc]

end

section
/-! SUPPORT. Strings of decoded bits as the block's operations read them (40_range_coder.md R86 to R88): decision bits, trees,
reverse trees and direct bits, and the length and distance forms that they are (30_encoding.md R73 to R75). -/

namespace Sys2Proof

theorem bitsMsb_lt (bits : List Bool) : bitsMsb bits < 2 ^ bits.length := by
  induction bits with
  | nil => simp [bitsMsb]
  | cons b r ih =>
    have hb : b.toNat * 2 ^ r.length ≤ 1 * 2 ^ r.length := Nat.mul_le_mul_right _ (Bool.toNat_le b)
    rw [bitsMsb, List.length_cons, Nat.pow_succ]
    omega

theorem bitsLsb_lt (bits : List Bool) : bitsLsb bits < 2 ^ bits.length := by
  induction bits with
  | nil => simp [bitsLsb]
  | cons b r ih =>
    have hb := Bool.toNat_le b
    rw [bitsLsb, List.length_cons, Nat.pow_succ]
    omega

end Sys2Proof

namespace Sys2Proof.Machine

/-! ## Decoded paths -/

theorem decodes_append {p q : List (BitSource × Bool)} {s u : State} :
    Decodes (p ++ q) s u ↔ ∃ v, Decodes p s v ∧ Decodes q v u := by
  induction p generalizing s with
  | nil => exact ⟨fun h => ⟨s, rfl, h⟩, fun ⟨v, hv, h⟩ => hv ▸ h⟩
  | cons c p ih =>
    constructor
    · rintro ⟨v, hv, h⟩
      obtain ⟨w, hw, h⟩ := ih.mp h
      exact ⟨w, ⟨v, hv, hw⟩, h⟩
    · rintro ⟨w, ⟨v, hv, hw⟩, h⟩
      exact ⟨v, hv, ih.mpr ⟨w, hw, h⟩⟩

/-- A decided bit goes on to the operation's next part, with the LZMA registers and the dictionary as they were. -/
theorem decodes_bit {c : Nat} {b : Bool} {r : List (BitSource × Bool)} {s u : State} (h : Decodes ((.cell c, b) :: r) s u) :
    ∃ v, rcBit c s = .done b.toNat v ∧ v.lz = s.lz ∧ v.dict = s.dict ∧ Decodes r v u := by
  obtain ⟨v, hv, hr⟩ := h
  obtain ⟨⟨hframe, -⟩, -⟩ := decodeOne_takes hv
  exact ⟨v, hv, hframe.lz, hframe.dict, hr⟩

/-- A tree returns its bits, most significant first, below the bits so far (R86). -/
theorem rcTreeFrom_of_decodes {base n sym : Nat} {bits : List Bool} {s u : State}
    (h : Decodes (treePath base sym bits) s u) :
    rcTreeFrom base n bits.length sym s = .done (sym * 2 ^ bits.length + bitsMsb bits - 2 ^ n) u := by
  induction bits generalizing sym s with
  | nil =>
    cases h
    simp [rcTreeFrom, bitsMsb]
  | cons b r ih =>
    obtain ⟨v, hv, hr⟩ := h
    have hv : rcBit (base + sym) s = .done b.toNat v := hv
    rw [List.length_cons, rcTreeFrom, hv, Res.bind_done, ih hr, bitsMsb]
    congr 2
    ring

theorem rcTree_of_decodes {base : Nat} {bits : List Bool} {s u : State} (h : Decodes (treePath base 1 bits) s u) :
    rcTree base bits.length s = .done (bitsMsb bits) u := by
  rw [rcTree, rcTreeFrom_of_decodes h, Nat.one_mul, Nat.add_sub_cancel_left]

/-- A reverse tree returns its bits, least significant first, above the `k` bits so far (R87). -/
theorem rcTreeRevFrom_of_decodes {base k sym v : Nat} (hv : v < 2 ^ k) {bits : List Bool} {s u : State}
    (h : Decodes (treePath base sym bits) s u) :
    rcTreeRevFrom base bits.length k sym v s = .done (v + 2 ^ k * bitsLsb bits) u := by
  induction bits generalizing k sym v s with
  | nil =>
    cases h
    simp [rcTreeRevFrom, bitsLsb]
  | cons b r ih =>
    obtain ⟨t, ht, hr⟩ := h
    have ht : rcBit (base + sym) s = .done b.toNat t := ht
    have hor : v ||| b.toNat <<< k = v + 2 ^ k * b.toNat := by
      rw [Nat.or_comm, ← Nat.shiftLeft_add_eq_or_of_lt hv, Nat.shiftLeft_eq, Nat.add_comm, Nat.mul_comm]
    have hlt : v + 2 ^ k * b.toNat < 2 ^ (k + 1) := by
      have hb : 2 ^ k * b.toNat ≤ 2 ^ k * 1 := Nat.mul_le_mul_left _ (Bool.toNat_le b)
      rw [Nat.pow_succ]
      omega
    rw [List.length_cons, rcTreeRevFrom, ht, Res.bind_done, hor, ih hlt hr, bitsLsb]
    congr 1
    ring

theorem rcTreeRev_of_decodes {base : Nat} {bits : List Bool} {s u : State} (h : Decodes (treePath base 1 bits) s u) :
    rcTreeRev base bits.length s = .done (bitsLsb bits) u := by
  rw [rcTreeRev, rcTreeRevFrom_of_decodes (Nat.one_pos) h, Nat.zero_add, Nat.pow_zero, Nat.one_mul]

/-- Direct bits come most significant first, below the bits so far (R88). -/
theorem rcDirectFrom_of_decodes {v : Nat} {bits : List Bool} {s u : State} (h : Decodes (directPath bits) s u) :
    rcDirectFrom bits.length v s = .done (v * 2 ^ bits.length + bitsMsb bits) u := by
  induction bits generalizing v s with
  | nil =>
    cases h
    simp [rcDirectFrom, bitsMsb]
  | cons b r ih =>
    obtain ⟨t, ht, hr⟩ := h
    obtain ⟨w, t', hn, hd⟩ := Res.bind_eq_done.mp (show rcDirectFrom 1 0 s = .done b.toNat t from ht)
    have hbit : s.decideDirect.1 = b.toNat ∧ t' = t := by simpa [rcDirectFrom] using hd
    obtain ⟨hbit, rfl⟩ := hbit
    rw [List.length_cons, rcDirectFrom, hn, Res.bind_done, hbit, ih hr, bitsMsb]
    congr 1
    ring

theorem rcDirect_of_decodes {bits : List Bool} {s u : State} (h : Decodes (directPath bits) s u) :
    rcDirect bits.length s = .done (bitsMsb bits) u := by
  rw [rcDirect, rcDirectFrom_of_decodes h, Nat.zero_mul, Nat.zero_add]

/-- A call whose callee returns goes on. -/
theorem Res.bind_of_done {r : Res} {v : Nat} {t : State} (h : r = .done v t) {fr : Frame} {f : Nat → State → Res} :
    r.bind fr f = f v t := by rw [h, Res.bind_done]

/-! ## Decision bits (R73, R103) -/

/-- A decided bit of a packet leaves `state` and `ps` as they were, so the cells of the next ones are found from there. -/
theorem decodes_packetPath {sofar r : List Bool} {b : Bool} {s u : State}
    (h : Decodes (packetPath s.st s.ps sofar (b :: r)) s u) :
    ∃ v, rcBit (packetCell s.st s.ps sofar) s = .done b.toNat v ∧ v.lz = s.lz ∧
      Decodes (packetPath v.st v.ps (sofar ++ [b]) r) v u := by
  obtain ⟨v, hv, hlz, hdict, hr⟩ := decodes_bit h
  have hst : v.st = s.st := by rw [State.st, hlz, State.st]
  have hps : v.ps = s.ps := by rw [State.ps, hlz, hdict, State.ps]
  exact ⟨v, hv, hlz, by rwa [hst, hps]⟩

/-- The four bits that every repeated match begins with. -/
theorem lzPacket_rep {b c : Bool} {r : List Bool} {s u : State}
    (h : Decodes (packetPath s.st s.ps [] (true :: true :: b :: c :: r)) s u) :
    ∃ v, lzPacket s = (if b then afterIsRep1 c.toNat v else afterIsRep0Long c.toNat v) ∧
      Decodes (packetPath v.st v.ps [true, true, b, c] r) v u := by
  obtain ⟨v1, e1, -, h⟩ := decodes_packetPath h
  obtain ⟨v2, e2, -, h⟩ := decodes_packetPath h
  obtain ⟨v3, e3, -, h⟩ := decodes_packetPath h
  obtain ⟨v4, e4, -, h⟩ := decodes_packetPath h
  have e : lzPacket s = afterIsRep0 b.toNat v3 :=
    (Res.bind_of_done e1).trans ((Res.bind_of_done e2).trans (Res.bind_of_done e3))
  refine ⟨v4, e.trans ?_, h⟩
  cases b
  · exact Res.bind_of_done e4
  · exact Res.bind_of_done e4

/-- The packet that a string of decision bits stands for runs in the state after them: the rows of R73 on the tree of R103. -/
theorem lzPacket_of_decodes {bits : List Bool} {i : Instr} {s u : State}
    (hd : decodePacket (isLitState s.lz.state) bits = .ok (i, [])) (h : Decodes (packetPath s.st s.ps [] bits) s u) :
    finish (lzPacket s) = exec i u := by
  unfold decodePacket at hd
  split at hd <;> cases hd
  · obtain ⟨v1, e1, hlz, rfl⟩ := decodes_packetPath h
    refine (congrArg finish (Res.bind_of_done e1)).trans ?_
    rw [← hlz]
    cases hl : isLitState v1.lz.state <;> simp [afterIsMatch, hl, exec, execLit, execMlit]
  · obtain ⟨v1, e1, -, h⟩ := decodes_packetPath h
    obtain ⟨v2, e2, -, rfl⟩ := decodes_packetPath h
    exact congrArg finish ((Res.bind_of_done e1).trans (Res.bind_of_done e2))
  · obtain ⟨v, e, rfl⟩ := lzPacket_rep h
    exact congrArg finish e
  · obtain ⟨v, e, rfl⟩ := lzPacket_rep h
    exact congrArg finish e
  · obtain ⟨v, e, rfl⟩ := lzPacket_rep h
    exact congrArg finish e
  · obtain ⟨v, e, h⟩ := lzPacket_rep h
    obtain ⟨w, e', -, rfl⟩ := decodes_packetPath h
    exact congrArg finish (e.trans (Res.bind_of_done e'))
  · obtain ⟨v, e, h⟩ := lzPacket_rep h
    obtain ⟨w, e', -, rfl⟩ := decodes_packetPath h
    exact congrArg finish (e.trans (Res.bind_of_done e'))

/-! ## Lengths (R74, R107) -/

/-- A field that leaves nothing over is all of the bits. -/
theorem all_taken {n : Nat} {r : List Bool} (hn : ¬ r.length < n) (hd : r.drop n = []) : r.length = n ∧ r.take n = r := by
  have hl : r.length = n := by
    have := List.drop_eq_nil_iff.mp hd
    omega
  exact ⟨hl, List.take_of_length_le (Nat.le_of_eq hl)⟩

/-- A decoded length form, in the state after its bits. -/
theorem lzLen_of_decodes {l : LenCoder} {bits : List Bool} {i : Instr} {s u : State}
    (hd : decodeLength bits = .ok (i, [])) (h : Decodes (lenPath l s.ps bits) s u) :
    ∃ t, lzLen l s = .done 0 t ∧ exec i u = .next t := by
  unfold decodeLength at hd
  split at hd
  · next r =>
    split_ifs at hd with hr
    obtain ⟨rfl, hdrop⟩ := Prod.mk.inj (Except.ok.inj hd)
    obtain ⟨hl, ht⟩ := all_taken hr hdrop
    obtain ⟨v1, e1, hlz, hdict, h⟩ := decodes_bit h
    have hps : v1.ps = s.ps := by rw [State.ps, hlz, hdict, State.ps]
    have e2 := rcTree_of_decodes h
    rw [← hps, hl] at e2
    rw [ht]
    exact ⟨_, (Res.bind_of_done e1).trans (Res.bind_of_done e2), rfl⟩
  · next r =>
    split_ifs at hd with hr
    obtain ⟨rfl, hdrop⟩ := Prod.mk.inj (Except.ok.inj hd)
    obtain ⟨hl, ht⟩ := all_taken hr hdrop
    obtain ⟨v1, e1, hlz1, hdict1, h⟩ := decodes_bit h
    obtain ⟨v2, e2, hlz, hdict, h⟩ := decodes_bit h
    have hps : v2.ps = s.ps := by rw [State.ps, hlz, hdict, hlz1, hdict1, State.ps]
    have e3 := rcTree_of_decodes h
    rw [← hps, hl] at e3
    rw [ht]
    exact ⟨_, (Res.bind_of_done e1).trans ((Res.bind_of_done e2).trans (Res.bind_of_done e3)), rfl⟩
  · next r =>
    split_ifs at hd with hr
    obtain ⟨rfl, hdrop⟩ := Prod.mk.inj (Except.ok.inj hd)
    obtain ⟨hl, ht⟩ := all_taken hr hdrop
    obtain ⟨v1, e1, -, -, h⟩ := decodes_bit h
    obtain ⟨v2, e2, -, -, h⟩ := decodes_bit h
    have e3 := rcTree_of_decodes h
    rw [hl] at e3
    rw [ht]
    exact ⟨_, (Res.bind_of_done e1).trans ((Res.bind_of_done e2).trans (Res.bind_of_done e3)), rfl⟩
  · cases hd

/-! ## Distances (R75, R108) -/

theorem slotBase_eq (slot : Nat) : slotBase slot = (2 + slot % 2) * 2 ^ (slot / 2 - 1) := by
  have h : 2 ||| (slot &&& 1) = 2 + slot % 2 := by
    rw [Nat.and_one_is_mod]
    rcases Nat.mod_two_eq_zero_or_one slot with h | h <;> simp [h]
  rw [slotBase, Nat.shiftLeft_eq, h, slotBits]

/-- The special bits of a slot 4 to 13. -/
theorem distSlot_special {slot : Nat} (h4 : ¬ slot < 4) (h14 : slot < 14) {r : List Bool} (hl : r.length = slotBits slot)
    {s u : State} (h : Decodes (treePath (distSpecialTree slot) 1 r) s u) :
    distSlot slot s = .done 0 (distSlot4To13 slot (bitsLsb r) u) := by
  have e := rcTreeRev_of_decodes h
  rw [hl] at e
  exact ((if_neg h4).trans (if_pos h14)).trans (Res.bind_of_done e)

/-- The direct bits and the align bits of a slot from 14 on. -/
theorem distSlot_direct {slot : Nat} (h14 : ¬ slot < 14) {x a : List Bool} (hx : x.length = slotBits slot - 4)
    (ha : a.length = 4) {s u : State} (h : Decodes (directPath x ++ treePath distAlignBase 1 a) s u) :
    distSlot slot s = .done 0 (distSlot14To63 slot (bitsMsb x) (bitsLsb a) u) := by
  obtain ⟨v, hv, h⟩ := decodes_append.mp h
  have e1 := rcDirect_of_decodes hv
  have e2 := rcTreeRev_of_decodes h
  rw [hx] at e1
  rw [ha] at e2
  exact ((if_neg (by omega)).trans (if_neg h14)).trans ((Res.bind_of_done e1).trans (Res.bind_of_done e2))

/-- A field of a distance form holds the value of its bits. -/
theorem toNat_ofNat_of_lt {w v n : Nat} (h : v < 2 ^ n) (hn : n ≤ w) : (BitVec.ofNat w v).toNat = v :=
  Nat.mod_eq_of_lt (Nat.lt_of_lt_of_le h (Nat.pow_le_pow_right (by decide) hn))

/-- A decoded distance form, in the state after its bits. -/
theorem lzDist_of_decodes {bits : List Bool} {i : Instr} {s u : State}
    (hd : decodeDistance bits = .ok (i, [])) (h : Decodes (distPath s.distState bits) s u) :
    ∃ t, lzDist s = .done 0 t ∧ exec i u = .next t := by
  unfold decodeDistance at hd
  split_ifs at hd with hlen
  unfold distPath at h
  have htake : (bits.take 6).length = 6 := by rw [List.length_take]; omega
  have hslot := bitsMsb_lt (bits.take 6)
  obtain ⟨v, hv, h⟩ := decodes_append.mp h
  have e := rcTree_of_decodes hv
  rw [htake] at e hslot
  generalize bitsMsb (bits.take 6) = slot at hslot hd h e
  generalize bits.drop 6 = r at hd h
  have hnat : (BitVec.ofNat 6 slot).toNat = slot := Nat.mod_eq_of_lt hslot
  have hbits : Instr.slotExtraBits (.ofNat 6 slot) = slotBits slot := by rw [Instr.slotExtraBits, hnat, slotBits]
  dsimp only at hd h
  rw [hnat, hbits] at hd
  split_ifs at hd with h4 hshort h14
  · cases hd
    rw [if_pos h4] at h
    cases h
    refine ⟨_, (Res.bind_of_done e).trans (if_pos h4), ?_⟩
    rw [exec, execDistSlot0To3, hnat]
  · obtain ⟨rfl, hdrop⟩ := Prod.mk.inj (Except.ok.inj hd)
    obtain ⟨hl, ht⟩ := all_taken hshort hdrop
    rw [if_neg h4, if_pos h14] at h
    refine ⟨_, (Res.bind_of_done e).trans (distSlot_special h4 h14 hl h), ?_⟩
    rw [exec, execDistSlot4To13, hnat, ht, toNat_ofNat_of_lt (bitsLsb_lt r) (by rw [hl, slotBits]; omega)]
  · obtain ⟨rfl, hdrop⟩ := Prod.mk.inj (Except.ok.inj hd)
    have hfour : 4 ≤ slotBits slot := by rw [slotBits]; omega
    have hx : (r.take (slotBits slot - 4)).length = slotBits slot - 4 := by rw [List.length_take]; omega
    obtain ⟨ha, hta⟩ := all_taken (by rw [List.length_drop]; omega) hdrop
    rw [if_neg h4, if_neg h14] at h
    refine ⟨_, (Res.bind_of_done e).trans (distSlot_direct h14 hx ha h), ?_⟩
    rw [exec, execDistSlot14To63, hnat, hta, toNat_ofNat_of_lt (bitsMsb_lt _) (by rw [hx, slotBits]; omega),
      toNat_ofNat_of_lt (bitsLsb_lt _) (by rw [ha])]

/-- The base of a slot with `nb` extra bits is at most 3 * 2^nb (R75). -/
theorem slotBase_le (slot : Nat) : slotBase slot ≤ 3 * 2 ^ (slot / 2 - 1) := by
  rw [slotBase_eq]
  exact Nat.mul_le_mul_right _ (by omega)

theorem pow_slotBits_le (slot : BitVec 6) : 2 ^ (slot.toNat / 2 - 1) ≤ 2 ^ 30 :=
  Nat.pow_le_pow_right (by decide) (by have := slot.isLt; omega)

end Sys2Proof.Machine

open Sys2Proof Sys2Proof.Machine

/-- Settles O7: each decision bit goes on to the next test of LZ_PACKET, which reads the cell that the path names. -/
theorem packetRunsTheDecodedBits : Obligations.PacketRunsTheDecodedBits := fun _ _ _ _ hd h => lzPacket_of_decodes hd h

/-- Settles O31: the trees and the direct bits return the values of the forms' fields. -/
theorem lengthAndDistanceAreTheFormsOfTheirBits : Obligations.LengthAndDistanceAreTheFormsOfTheirBits := fun _ _ _ _ =>
  ⟨fun _ hd h => lzLen_of_decodes hd h, fun hd h => lzDist_of_decodes hd h⟩

/-- Settles O32: with `nb` extra bits the base is at most 3 * 2^nb and what they add is below 2^nb, so no sum wraps. -/
theorem lengthAndDistanceFormsSetTheirRegister : Obligations.LengthAndDistanceFormsSetTheirRegister := by
  intro s
  refine ⟨fun _ => rfl, fun _ => rfl, fun _ => rfl, fun slot => ?_⟩
  have hbase := slotBase_eq slot.toNat
  have hle := slotBase_le slot.toNat
  have hpow := pow_slotBits_le slot
  refine ⟨⟨_, rfl, ?_⟩, fun t _ => ⟨_, rfl, ?_⟩, fun x a hwf => ⟨_, rfl, ?_⟩⟩
  · exact Nat.mod_eq_of_lt (Nat.lt_of_lt_of_le slot.isLt (by decide))
  · have hlt : slotBase slot.toNat + t.toNat < 2 ^ 32 := by
      have ht := t.isLt
      omega
    exact (Nat.mod_eq_of_lt hlt).trans (by rw [hbase])
  · simp only [Instr.wellFormed, Instr.slotExtraBits, Bool.and_eq_true, decide_eq_true_eq] at hwf
    obtain ⟨h14, hx⟩ := hwf
    have hfour : 2 ^ (slot.toNat / 2 - 1) = 2 ^ (slot.toNat / 2 - 1 - 4) * 2 ^ 4 := by
      rw [← Nat.pow_add, Nat.sub_add_cancel (by omega)]
    have hlt : slotBase slot.toNat + x.toNat <<< 4 + a.toNat < 2 ^ 32 := by
      have ha := a.isLt
      rw [Nat.shiftLeft_eq]
      omega
    refine (Nat.mod_eq_of_lt hlt).trans ?_
    rw [hbase, Nat.shiftLeft_eq, Nat.mul_comm x.toNat]

end

section
/-! SUPPORT. The filters on the windows that they see (43_bcj.md R115, R117 to R123): a window that opens with a unit, and one
that does not; and a bundle slot by slot (R120). -/

namespace Sys2Proof.Machine

/-! ## Windows of at most one word unit -/

/-- A filter of units of `size` bytes on one unit and less than another. -/
theorem unitFilter_one {size : Nat} {conv : Word32 → List Byte → List Byte} (pos mask : Word32) {l r : List Byte}
    (hl : l.length = size) (hr : r.length < size) :
    unitFilter size conv pos mask (l ++ r) = { buf := conv pos l ++ r, n := size, mask := mask } := by
  have hcount : (l ++ r).length / size = 1 := by
    rw [List.length_append, hl, Nat.add_div_left _ (by omega), Nat.div_eq_of_lt hr]
  rw [unitFilter, hcount, mapUnits, mapUnits, List.take_left' hl, List.drop_left' hl, Nat.one_mul]

/-- A window of less than a unit stays as received, and none of it is final. -/
theorem unitFilter_short {size : Nat} {conv : Word32 → List Byte → List Byte} (pos mask : Word32) {l : List Byte}
    (h : l.length < size) : unitFilter size conv pos mask l = { buf := l, n := 0, mask := mask } := by
  rw [unitFilter, Nat.div_eq_of_lt h, mapUnits, Nat.zero_mul]

theorem thumbScan_short (pos : Word32) {l : List Byte} (h : l.length < 4) : thumbScan pos l = (l, 0) := by
  match l with
  | [] | [_] | [_, _] | [_, _, _] => rfl

/-- A Thumb pair and less than another. -/
theorem thumbScan_pair (pos : Word32) {b0 b1 b2 b3 : Byte} (h : isThumbBl b1 b3 = true) {r : List Byte} (hr : r.length < 4) :
    thumbScan pos (b0 :: b1 :: b2 :: b3 :: r) = (thumbPair (thumbTarget pos (thumbField b0 b1 b2 b3)) ++ r, 4) := by
  rw [thumbScan, if_pos h, thumbScan_short _ hr]

/-- A window of up to five bytes without a Thumb pair in front. -/
theorem thumbScan_plain (pos : Word32) {b0 b1 b2 b3 : Byte} (h : ¬ isThumbBl b1 b3 = true) {r : List Byte} (hr : r.length ≤ 1) :
    (thumbScan pos (b0 :: b1 :: b2 :: b3 :: r)).1 = b0 :: b1 :: b2 :: b3 :: r := by
  rw [thumbScan, if_neg h, thumbScan_short _ (by simp only [List.length_cons]; omega)]

/-- The x86 filter on five bytes of which the first is no E8 or E9. -/
theorem filterX86_plain (pos mask : Word32) {b0 b1 b2 b3 b4 : Byte} (h : ¬ isX86Branch b0 = true) :
    (filterX86 pos mask [b0, b1, b2, b3, b4]).buf = [b0, b1, b2, b3, b4] := by
  have hb : (!isX86Branch b0) = true := by simpa using h
  simp [filterX86, x86Loop, x86Step, hb]

/-- A window of up to five bytes that opens with a unit is rewritten as the unit alone, and the bytes after it stay. -/
theorem filter_unit {arch : Arch} {l r : List Byte} {i : Instr} (h : decodeBcj arch l = .ok (i, r)) (hl : l.length ≤ 5)
    (pos mask : Word32) :
    filter arch pos mask l =
      { filter arch pos mask (bcjBytes i) with buf := (filter arch pos mask (bcjBytes i)).buf ++ r } := by
  obtain ⟨rfl, -, hlen, -⟩ := decodeBcj_ok h
  rw [List.length_append, hlen] at hl
  have word {conv : Word32 → List Byte → List Byte} (hlen : (bcjBytes i).length = 4) (hr : r.length < 4) :
      unitFilter 4 conv pos mask (bcjBytes i ++ r) = { unitFilter 4 conv pos mask (bcjBytes i) with
        buf := (unitFilter 4 conv pos mask (bcjBytes i)).buf ++ r } := by
    have hone := unitFilter_one (conv := conv) pos mask hlen (r := []) (by decide)
    rw [List.append_nil, List.append_nil] at hone
    rw [unitFilter_one pos mask hlen hr, hone]
  cases arch with
  | x86 =>
    have hr : r = [] := List.eq_nil_of_length_eq_zero (by change 5 + r.length ≤ 5 at hl; omega)
    rw [hr, List.append_nil, List.append_nil]
  | powerpc | arm | sparc => exact word hlen (by change 4 + r.length ≤ 5 at hl; omega)
  | armthumb =>
    change 4 + r.length ≤ 5 at hl
    generalize bcjBytes i = u at h hlen
    match u, hlen with
    | [b0, b1, b2, b3], _ =>
      have h : (if isThumbBl b1 b3 then Except.ok (Instr.bcjThumbBl (thumbField b0 b1 b2 b3), r)
        else .error DecodeError.notABranch) = .ok (i, r) := h
      split_ifs at h with ht
      simp only [filter, List.cons_append, List.nil_append, thumbScan_pair pos ht (show r.length < 4 by omega),
        thumbScan_pair pos ht (show ([] : List Byte).length < 4 by decide), List.append_nil]
  | ia64 => cases h

/-- A window of up to five bytes for a filter of words: too short, or a word and at most one byte. -/
theorem window_cases {l : List Byte} (h : l.length ≤ 5) :
    l.length < 4 ∨ ∃ b0 b1 b2 b3 r, l = b0 :: b1 :: b2 :: b3 :: r ∧ r.length ≤ 1 := by
  match l with
  | [] | [_] | [_, _] | [_, _, _] => exact .inl (by simp)
  | b0 :: b1 :: b2 :: b3 :: r => exact .inr ⟨b0, b1, b2, b3, r, rfl, by simp only [List.length_cons] at h; omega⟩

/-- A filter of words on a window whose first word it leaves alone. -/
theorem unitFilter_plain {conv : Word32 → List Byte → List Byte} (pos mask : Word32) {l : List Byte} (h : l.length ≤ 5)
    (hconv : ∀ b0 b1 b2 b3 r, l = b0 :: b1 :: b2 :: b3 :: r → conv pos [b0, b1, b2, b3] = [b0, b1, b2, b3]) :
    (unitFilter 4 conv pos mask l).buf = l := by
  rcases window_cases h with hl | ⟨b0, b1, b2, b3, r, rfl, hr⟩
  · rw [unitFilter_short pos mask hl]
  · rw [show b0 :: b1 :: b2 :: b3 :: r = [b0, b1, b2, b3] ++ r from rfl, unitFilter_one (size := 4) pos mask rfl (by omega),
      hconv b0 b1 b2 b3 r rfl]

/-- A window of up to five bytes that opens with no unit stays as received. -/
theorem filter_plain {arch : Arch} {l : List Byte} (hl : l.length ≤ 5) (h : ∀ i r, decodeBcj arch l ≠ .ok (i, r))
    (pos mask : Word32) : (filter arch pos mask l).buf = l := by
  cases arch with
  | x86 =>
    by_cases h4 : l.length ≤ 4
    · exact congrArg FilterOut.buf (if_pos h4)
    · match l, (show l.length = 5 by omega) with
      | [b0, b1, b2, b3, b4], _ => exact filterX86_plain pos mask fun ht => h _ _ (if_pos ht)
  | powerpc =>
    refine unitFilter_plain pos mask hl fun b0 b1 b2 b3 r he => if_neg fun ht => ?_
    subst he
    exact h _ _ (if_pos ht)
  | arm =>
    refine unitFilter_plain pos mask hl fun b0 b1 b2 b3 r he => if_neg fun ht => ?_
    subst he
    exact h _ _ (if_pos ht)
  | sparc =>
    refine unitFilter_plain pos mask hl fun b0 b1 b2 b3 r he => if_neg fun ht => ?_
    subst he
    rcases (Bool.or_eq_true _ _).mp ht with hpos | hneg
    · exact h _ _ (if_pos (eq_of_beq hpos))
    · have hne : ¬ be32 b0 b1 b2 b3 >>> 22 = 0x100 := by rw [eq_of_beq hneg]; decide
      exact h _ _ ((if_neg hne).trans (if_pos (eq_of_beq hneg)))
  | armthumb =>
    rcases window_cases hl with hl | ⟨b0, b1, b2, b3, r, rfl, hr⟩
    · exact congrArg Prod.fst (thumbScan_short pos hl)
    · exact thumbScan_plain pos (fun ht => h _ _ (if_pos ht)) hr
  | ia64 => exact congrArg FilterOut.buf (unitFilter_short pos mask (by omega))

/-! ## A bundle, slot by slot (R120) -/

/-- What the filter makes of one slot of a bundle. -/
def ia64SlotOf (pos : Word32) (bundle : List Byte) (slot : Fin 3) : List Byte :=
  if ia64Selects bundle slot then ia64Slot pos bundle slot else bundle

theorem ia64SlotOf_length {l : List Byte} (h : l.length = 16) (pos : Word32) (slot : Fin 3) :
    (ia64SlotOf pos l slot).length = 16 := by
  unfold ia64SlotOf
  split
  · exact ia64Slot_length h slot.isLt pos
  · exact h

/-- A slot that is rewritten keeps the bundle's template. -/
theorem ia64Selects_slotOf {l : List Byte} (h : l.length = 16) (pos : Word32) (slot : Fin 3) (j : Nat) :
    ia64Selects (ia64SlotOf pos l slot) j = ia64Selects l j := by
  unfold ia64SlotOf ia64Slot
  dsimp only
  split_ifs
  · refine ia64Selects_putInstr h slot (fun k hk => ?_) j
    have hlow : ∀ res ≤ 7, ∀ k < res, ((1#48 <<< res) - 1).getLsbD k = true := by decide
    rw [BitVec.getLsbD_or, BitVec.getLsbD_and, hlow _ (ia64BitRes_le slot) k hk, BitVec.getLsbD_shiftLeft]
    simp [hk]
  · rfl
  · rfl

/-- The filter on a bundle rewrites its slots one after the other. -/
theorem ia64Unit_eq (pos : Word32) {l : List Byte} (h : l.length = 16) :
    ia64Unit pos l = ia64SlotOf pos (ia64SlotOf pos (ia64SlotOf pos l 0) 1) 2 := by
  have h0 := ia64Selects_slotOf h pos 0
  have h1 := ia64Selects_slotOf (ia64SlotOf_length h pos 0) pos 1
  rw [ia64SlotOf, h1, h0, ia64SlotOf, h0]
  rfl

/-- The 41 bits of a slot, as the filter shifts them down and as the decoder cuts them out. -/
theorem ia64Slot_norm (x : BitVec 48) (res : Nat) : (x >>> res).setWidth 41 = x.extractLsb' res 41 := by
  apply BitVec.eq_of_toNat_eq
  rw [BitVec.toNat_setWidth, BitVec.toNat_ushiftRight, BitVec.extractLsb'_toNat]

theorem ia64Slot_plain {l : List Byte} {slot : Fin 3} (pos : Word32)
    (h : ¬ Instr.isIa64Branch ((ia64Instr l slot).extractLsb' (ia64BitRes slot) 41) = true) : ia64Slot pos l slot = l := by
  rw [← ia64Slot_norm] at h
  exact if_neg h

/-- Everything the decoder can say of a slot of a whole bundle. -/
theorem decodeIa64Slot_cases (slot : Fin 3) {l : List Byte} (h : 16 ≤ l.length) :
    let norm := (ia64Instr l slot).extractLsb' (ia64BitRes slot) 41
    (ia64Selects l slot = false ∧ decodeIa64Slot slot l = .error .slotNotSelected) ∨
    (ia64Selects l slot = true ∧ ¬ Instr.isIa64Branch norm = true ∧ decodeIa64Slot slot l = .error .notABranch) ∨
    (ia64Selects l slot = true ∧ decodeIa64Slot slot l = .ok (.bcjIa64BranchSlot slot norm, l.drop 16)) := by
  intro norm
  rw [decodeIa64Slot, if_neg (by omega)]
  cases hs : ia64Selects l slot
  · exact .inl ⟨rfl, rfl⟩
  · by_cases hb : Instr.isIa64Branch norm = true
    · exact .inr (.inr ⟨rfl, if_pos hb⟩)
    · exact .inr (.inl ⟨rfl, hb, if_neg hb⟩)

theorem slotNotSelected_iff (slot : Fin 3) {l : List Byte} (h : 16 ≤ l.length) :
    decodeIa64Slot slot l = .error .slotNotSelected ↔ ¬ ia64Selects l slot = true := by
  rcases decodeIa64Slot_cases slot h with ⟨hs, hd⟩ | ⟨hs, -, hd⟩ | ⟨hs, hd⟩ <;> simp [hs, hd]

/-- A slot without an instruction stays. -/
theorem slotRewritten_none {slot : Fin 3} {s : State} {e : DecodeError} (h : decodeIa64Slot slot s.bcj.carry = .error e) :
    SlotRewritten slot s s := by
  refine ⟨fun i r hi => ?_, fun _ => rfl⟩
  rw [h] at hi
  cases hi

/-- One slot of a bundle in `carry`, rewritten by the instruction that it holds. -/
theorem slotRewritten_slotOf {s : State} (h : s.bcj.carry.length = 16) (slot : Fin 3) :
    ∃ t, SlotRewritten slot s t ∧
      t = { s with bcj := { s.bcj with carry := ia64SlotOf s.bcj.pos s.bcj.carry slot }, ret := t.ret } := by
  rcases decodeIa64Slot_cases slot (Nat.le_of_eq h.symm) with ⟨hs, hd⟩ | ⟨hs, hb, hd⟩ | ⟨hs, hd⟩
  · exact ⟨s, slotRewritten_none hd, by rw [ia64SlotOf, hs]; rfl⟩
  · exact ⟨s, slotRewritten_none hd, by rw [ia64SlotOf, if_pos hs, ia64Slot_plain _ hb]⟩
  · refine ⟨{ s with bcj := { s.bcj with carry := ia64SlotOf s.bcj.pos s.bcj.carry slot }, ret := .num 16 },
      ⟨fun i r hi => ?_, fun hi => absurd hd (hi _ _)⟩, rfl⟩
    rw [hd] at hi
    cases hi
    rw [exec, execBcjIa64BranchSlot, List.take_of_length_le (Nat.le_of_eq h), List.drop_of_length_le (Nat.le_of_eq h),
      ia64PutSlot_self h, List.append_nil, ia64SlotOf, if_pos hs]

/-- The slots that a template selects, as R120's TABLE gives them. -/
theorem ia64Selects_iff (l : List Byte) (slot : Fin 3) :
    ia64Selects l slot = true ↔ (l.getD 0 0).toNat % 32 ∈ [[0x16, 0x17], [0x12, 0x13, 0x16, 0x17],
      [0x10, 0x11, 0x12, 0x13, 0x16, 0x17, 0x18, 0x19, 0x1C, 0x1D]].getD slot [] := by
  have htemplate : (l.getD 0 0 &&& 0x1F).toNat = (l.getD 0 0).toNat % 32 :=
    (BitVec.toNat_and _ _).trans (Nat.and_two_pow_sub_one_eq_mod _ 5)
  have htable : ∀ t < 32, ∀ slot : Fin 3, (ia64Table t).testBit slot = true ↔ t ∈ [[0x16, 0x17], [0x12, 0x13, 0x16, 0x17],
      [0x10, 0x11, 0x12, 0x13, 0x16, 0x17, 0x18, 0x19, 0x1C, 0x1D]].getD slot [] := by decide
  rw [ia64Selects, htemplate]
  exact htable _ (Nat.mod_lt _ (by decide)) slot

end Sys2Proof.Machine

open Sys2Proof Sys2Proof.Machine

/-- Settles O8: a word unit is rewritten as it would be alone, and a bundle one slot after the other, each of which leaves the
template as it was. -/
theorem filterRunsTheDecodedUnit : Obligations.FilterRunsTheDecodedUnit := by
  intro s arch b arrived
  have hlen : (s.bcj.carry ++ [b]).length = s.bcj.carry.length + 1 := by simp
  refine ⟨fun i r hc hd => ?_, fun hc hd => filter_plain (by omega) hd _ _, fun hc => ?_, fun hc => ?_,
    fun window slot hw => ?_⟩
  · obtain ⟨hl, -, -, hexec⟩ := decodeBcj_ok hd
    have hdrop : arrived.bcj.carry.drop (bcjBytes i).length = r := by
      show (s.bcj.carry ++ [b]).drop _ = r
      rw [hl, List.drop_left]
    rw [hexec, bcjUnit, hdrop, State.filtered, filter_unit hd (by omega)]
  · have hshort : filter .ia64 s.bcj.pos s.bcj.x86PrevMask (s.bcj.carry ++ [b]) = _ :=
      unitFilter_short _ _ (by omega)
    rw [State.filtered, hshort]
  · have h0 : arrived.bcj.carry.length = 16 := by show (s.bcj.carry ++ [b]).length = 16; omega
    obtain ⟨t1, hr1, e1⟩ := slotRewritten_slotOf h0 0
    have h1 : t1.bcj.carry.length = 16 := by rw [e1]; exact ia64SlotOf_length h0 _ 0
    obtain ⟨t2, hr2, e2⟩ := slotRewritten_slotOf h1 1
    have h2 : t2.bcj.carry.length = 16 := by rw [e2]; exact ia64SlotOf_length h1 _ 1
    obtain ⟨t3, hr3, e3⟩ := slotRewritten_slotOf h2 2
    have hwhole : filter .ia64 s.bcj.pos s.bcj.x86PrevMask (s.bcj.carry ++ [b] ++ []) = _ :=
      unitFilter_one _ _ h0 (by decide)
    rw [List.append_nil, List.append_nil, ia64Unit_eq _ h0] at hwhole
    refine ⟨t1, t2, t3, hr1, hr2, hr3, ?_⟩
    rw [State.filtered, hwhole, e3, e2, e1]
  · exact (slotNotSelected_iff slot hw).trans (not_congr (ia64Selects_iff window slot))

end

section
/-! SUPPORT. RC_NORM with its byte source, outcome by outcome (40_range_coder.md R82, R84), and RC_BIT as a decision
before it (R85). -/

namespace Sys2Proof.Machine

/-! ## The byte source and RC_NORM (R82, R84) -/

/-- `range <- range << 8`, which RC_NORM does before it reads its byte (R84). -/
def State.shiftRange (s : State) : State := { s with rc := { s.rc with range := s.rc.range <<< 8 } }

theorem rcNorm_below {s : State} (h : s.rc.range < 0x01000000) :
    rcNorm s = (rcByte s.shiftRange).bind .rcNorm fun v t => .done 0 (t.shiftIn v) := if_pos h

/-- RcByte with a byte at hand. -/
theorem rcByte_cons {s : State} {b : Byte} {r : List Byte} (hc : 0 < s.sq.compLeft) (hi : s.io.input = b :: r) :
    rcByte s = .done b.toNat
      { s with sq := { s.sq with compLeft := s.sq.compLeft - 1 }, io := { s.io with input := r } } := by
  rw [rcByte, if_neg (Nat.ne_of_gt hc), inByte_cons hi]
  rfl

/-- The error of a chunk that is used up comes whether or not the input has a byte. -/
theorem rcByte_used {s : State} (hc : s.sq.compLeft = 0) : rcByte s = .fail (s.raised .data) := if_pos hc

/-- RcByte without a byte at hand: `buf` once the input has ended, else a wait (R140). -/
theorem rcByte_nil {s : State} (hc : 0 < s.sq.compLeft) (hi : s.io.input = []) :
    rcByte s = if s.io.inputEnded then .fail (s.raised .buf) else .hold .inByte [.rcByte] s := by
  rw [rcByte, if_neg (Nat.ne_of_gt hc), inByte, hi]
  cases s.io.inputEnded
  · rfl
  · rfl

theorem rcNorm_used {s : State} (h : s.rc.range < 0x01000000) (hc : s.sq.compLeft = 0) :
    rcNorm s = .fail (s.shiftRange.raised .data) := by
  rw [rcNorm_below h, rcByte_used (s := s.shiftRange) hc]
  rfl

theorem rcNorm_nil {s : State} (h : s.rc.range < 0x01000000) (hc : 0 < s.sq.compLeft) (hi : s.io.input = []) :
    rcNorm s = if s.io.inputEnded then .fail (s.shiftRange.raised .buf)
      else .hold .inByte [.rcByte, .rcNorm] s.shiftRange := by
  rw [rcNorm_below h, rcByte_nil (s := s.shiftRange) hc hi, show s.shiftRange.io = s.io from rfl]
  cases s.io.inputEnded
  · rfl
  · rfl

/-! ## RC_BIT (R85) -/

/-- The bit below the bound. -/
theorem decideBit_zero {s : State} {i : Nat} (h : s.rc.code < rcBound s.rc (s.probs.read i)) :
    s.decideBit i = (0, { s with rc := ⟨rcBound s.rc (s.probs.read i), s.rc.code⟩
                                 probs := s.probs.write i (probAfter0 (s.probs.read i)) }) := if_pos h

/-- The bit from the bound on. -/
theorem decideBit_one {s : State} {i : Nat} (h : ¬ s.rc.code < rcBound s.rc (s.probs.read i)) :
    s.decideBit i =
      (1, { s with rc := ⟨s.rc.range - rcBound s.rc (s.probs.read i), s.rc.code - rcBound s.rc (s.probs.read i)⟩
                   probs := s.probs.write i (probAfter1 (s.probs.read i)) }) := if_neg h

/-- RC_BIT as an instruction: the decision, then RC_NORM, then the bit into `ret`. -/
theorem exec_rcBit {s d : State} {i bit : Nat} (hi : i < Config.probCells) (hd : s.decideBit i = (bit, d)) :
    exec (.rcBit i) s = finish (((rcNorm d).bind (.rcBit bit) fun _ t => .done bit t).bind .ret keep) := by
  show finish ((rcBit i s).bind .ret keep) = _
  rw [rcBit, if_pos hi, hd]

end Sys2Proof.Machine

open Sys2Proof Sys2Proof.Machine

/-- Settles O23: the outcomes of RC_NORM, one by one. -/
theorem rcNormShiftsOneByteIn : Obligations.RcNormShiftsOneByteIn := by
  intro s shifted
  have hexec : exec .rcNorm s = finish (rcNorm s) := rfl
  rw [hexec]
  refine ⟨fun hr => ?_, fun b r hr hc hin => ?_, fun hr hc => ?_, fun hr hc hin => ?_⟩
  · rw [rcNorm_high hr]
    rfl
  · rw [rcNorm_low hr hc hin, BitVec.ofNat_toNat]
    rfl
  · rw [rcNorm_used hr hc]
    rfl
  · rw [rcNorm_nil hr hc hin]
    split
    · rfl
    · rfl

/-- Settles O22: the registers after the decision, and then each outcome of RC_NORM. -/
theorem rcBitDecodesAgainstItsBound : Obligations.RcBitDecodesAgainstItsBound := by
  intro s i hi p bound bit rc q shifted
  let decided : State := { s with rc := rc, probs := s.probs.write i q }
  have hdecided : s.decideBit i = (bit, decided) := by
    by_cases h : s.rc.code < bound
    · simp only [bit, decided, rc, q, if_pos h]
      exact decideBit_zero h
    · simp only [bit, decided, rc, q, if_neg h]
      exact decideBit_one h
  have hexec := exec_rcBit hi hdecided
  refine ⟨fun hr => ?_, fun b r hr hc hin => ?_, fun hr hc => ?_, fun hr hc hin => ?_⟩
  · rw [hexec, rcNorm_high (s := decided) hr]
    rfl
  · rw [hexec, rcNorm_low (s := decided) hr hc hin, BitVec.ofNat_toNat]
    rfl
  · rw [hexec, rcNorm_used (s := decided) hr hc]
    rfl
  · rw [hexec, rcNorm_nil (s := decided) hr hc hin, show decided.io = s.io from rfl]
    cases s.io.inputEnded
    · rfl
    · rfl

end

section
/-! SUPPORT. The cells and `range` along any string of decoded bits (40_range_coder.md R81): one bit keeps State.Coding, so a
string does. -/

namespace Sys2Proof.Machine

theorem cell_lt_of_rcBit {i v : Nat} {s t : State} (h : rcBit i s = .done v t) : i < Config.probCells := by
  by_contra hi
  rw [rcBit, if_neg hi] at h
  cases h

/-- An operation that returned has kept the cells and `range` as R81 says. -/
theorem Codes.coding_of_done {R : State → State → Prop} {V : Nat → Prop} {C : List Frame → Prop} {r : Res} {v : Nat}
    {s t : State} (h : Codes R s V C r) (hr : r = .done v t) : t.Coding := by
  rw [hr] at h
  obtain ⟨-, -, ht⟩ := h
  exact ht

theorem State.Coding.of_decodeOne {s t : State} {c : BitSource} {v : Nat} (h : s.Coding)
    (hd : decodeOne c s = .done v t) : t.Coding := by
  cases c with
  | cell i => exact (rcBit_codes h (cell_lt_of_rcBit hd)).coding_of_done hd
  | direct => exact (rcDirect_codes 1 h).coding_of_done hd

theorem State.Coding.of_decodes {path : List (BitSource × Bool)} {s u : State} (h : s.Coding) (hd : Decodes path s u) :
    u.Coding := by
  induction path generalizing s with
  | nil => exact hd ▸ h
  | cons x path ih =>
    obtain ⟨v, hv, hr⟩ := hd
    exact ih (h.of_decodeOne hv) hr

theorem probAfter0_toNat {p : Prob} (h : p.toNat ≤ 2017) :
    (probAfter0 p).toNat = p.toNat + (2048 - p.toNat) / 32 := by
  rw [probAfter0, BitVec.toNat_ofNat, Nat.mod_eq_of_lt (by omega)]

theorem probAfter1_toNat (p : Prob) : (probAfter1 p).toNat = p.toNat - p.toNat / 32 := by
  have hs : (p >>> 5).toNat = p.toNat / 32 := by rw [BitVec.toNat_ushiftRight, Nat.shiftRight_eq_div_pow]
  rw [probAfter1, BitVec.toNat_sub_of_le (BitVec.le_def.mpr (by omega)), hs]

end Sys2Proof.Machine

open Sys2Proof Sys2Proof.Machine

/-- Settles O24: every decoded bit keeps the cells and `range` (State.Coding), by the arithmetic of the third clause. -/
theorem probabilitiesStayInRange : Obligations.ProbabilitiesStayInRange := by
  refine ⟨fun _ _ => rfl, fun path s u hw hr hc hd => ?_, fun p r h1 h2 hr => ?_⟩
  · have hu : u.Coding := State.Coding.of_decodes ⟨hw, hc, hr⟩ hd
    exact ⟨hu.rangeHigh, hu.cells⟩
  · have hp : Prob.InRange p := ⟨h1, h2⟩
    obtain ⟨low0, high0⟩ := probAfter0_inRange hp
    obtain ⟨low1, high1⟩ := probAfter1_inRange hp
    obtain ⟨hbound, hlt, hrest⟩ := rcBound_parts (r := r) hr hp
    exact ⟨probAfter0_toNat h2, probAfter1_toNat p, low0, high0, low1, high1, by omega, hlt, by omega, by omega⟩

end

section
/-! SUPPORT. RC_INIT on the bytes at hand (40_range_coder.md R83): `code` takes the last four big-endian. -/

namespace Sys2Proof.Machine

/-- One byte more at the low end of `code`. -/
def appendByte (c : Word32) (b : Byte) : Word32 := (c <<< 8) ||| b.setWidth 32

theorem appendByte_setWidth {w : Nat} (x : BitVec w) (b : Byte) :
    appendByte (x.setWidth 32) b = (x ++ b).setWidth 32 := by
  ext i
  by_cases hi : i < 8
  · simp [appendByte, BitVec.getLsbD_append, hi]
  · simp [appendByte, BitVec.getLsbD_append, hi, BitVec.getLsbD_of_ge b i (by omega)]

/-- Four bytes from 0 fill `code` whole. -/
theorem foldl_appendByte_eq_be32 (b1 b2 b3 b4 : Byte) : [b1, b2, b3, b4].foldl appendByte 0 = be32 b1 b2 b3 b4 := by
  have hfirst : appendByte 0 b1 = b1.setWidth 32 := by simp [appendByte]
  rw [List.foldl_cons, List.foldl_cons, List.foldl_cons, List.foldl_cons, List.foldl_nil, hfirst, appendByte_setWidth,
    appendByte_setWidth, appendByte_setWidth]
  exact BitVec.setWidth_eq _

/-- The bytes of RC_INIT after the first: `code` takes them in order. -/
theorem rcInitFrom_append {l r : List Byte} {c : Word32} {s : State} (hc : l.length ≤ s.sq.compLeft)
    (hi : s.io.input = l ++ r) :
    rcInitFrom l.length c s = .done 0
      { s with rc := ⟨0xFFFFFFFF, l.foldl appendByte c⟩, sq := { s.sq with compLeft := s.sq.compLeft - l.length },
               io := { s.io with input := r } } := by
  induction l generalizing c s with
  | nil =>
    rw [List.nil_append] at hi
    rw [← hi]
    rfl
  | cons b l ih =>
    rw [List.length_cons] at hc
    rw [List.length_cons, rcInitFrom, rcByte_cons (by omega) hi, Res.bind_done, ih (by show l.length ≤ _ - 1; omega) rfl,
      BitVec.ofNat_toNat, Nat.sub_sub, Nat.add_comm 1]
    rfl

/-- RC_INIT on five counted bytes. -/
theorem rcInit_five {s : State} {b0 b1 b2 b3 b4 : Byte} {r : List Byte} (hi : s.io.input = b0 :: b1 :: b2 :: b3 :: b4 :: r)
    (hc : 5 ≤ s.sq.compLeft) :
    rcInit s =
      if b0 = 0 then
        .done 0 { s with rc := ⟨0xFFFFFFFF, be32 b1 b2 b3 b4⟩, sq := { s.sq with compLeft := s.sq.compLeft - 5 },
                         io := { s.io with input := r } }
      else
        .fail (State.raised { s with sq := { s.sq with compLeft := s.sq.compLeft - 1 },
                                     io := { s.io with input := b1 :: b2 :: b3 :: b4 :: r } } .data) := by
  rw [rcInit, rcByte_cons (by omega) hi, Res.bind_done, rcInitFirst]
  by_cases hb : b0 = 0
  · rw [if_pos hb, if_neg (by simp [hb]), ← foldl_appendByte_eq_be32]
    exact rcInitFrom_append (l := [b1, b2, b3, b4]) (by show 4 ≤ _ - 1; omega) rfl
  · rw [if_neg hb, if_pos (by simpa [BitVec.toNat_eq] using hb)]
    rfl

end Sys2Proof.Machine

open Sys2Proof Sys2Proof.Machine

/-- Settles O25: RC_INIT on five bytes, which PREPARE runs once it has counted them. -/
theorem rcInitAndPrepareReadFiveBytes : Obligations.RcInitAndPrepareReadFiveBytes := by
  intro s
  refine ⟨fun b0 b1 b2 b3 b4 r hi hc => ?_, fun hc => congrArg finish (if_pos hc)⟩
  have hinit := rcInit_five hi hc
  refine ⟨?_, ?_⟩
  · show finish (rcInit s) = _
    rw [hinit]
    split
    · rfl
    · rfl
  · show finish (prepare s) = _
    rw [prepare, if_neg (Nat.not_lt_of_le hc), hinit]
    split
    · rfl
    · rfl

end

section
/-! SUPPORT. With a byte at hand for each, some string of bits is decoded from a tree, or from the range alone, to its end
(40_range_coder.md R86 to R88). -/

namespace Sys2Proof.Machine

/-! ## One bit -/

/-- A byte of the chunk is at hand for each of `n` bits. -/
def State.HasBytes (n : Nat) (s : State) : Prop := n ≤ s.sq.compLeft ∧ n ≤ s.io.input.length

/-- A bit takes at most one of the bytes at hand. -/
theorem State.HasBytes.of_decodeOne {n v : Nat} {s t : State} {c : BitSource} (h : s.HasBytes (n + 1))
    (hd : decodeOne c s = .done v t) : t.HasBytes n := by
  obtain ⟨hcount, hlen⟩ := h
  obtain ⟨⟨-, used, hin, hused, hleft⟩, -⟩ := decodeOne_takes hd
  rw [hin, List.length_append] at hlen
  exact ⟨by omega, by omega⟩

theorem exists_rcBit {n i : Nat} {s : State} (h : s.HasBytes (n + 1)) (hi : i < Config.probCells) :
    ∃ (b : Bool) (t : State), decodeOne (.cell i) s = .done b.toNat t := by
  obtain ⟨hcount, hlen⟩ := h
  obtain ⟨t, _, ht, -⟩ := rcBit_done hi (Nat.zero_lt_of_lt hcount) (List.ne_nil_of_length_pos (Nat.zero_lt_of_lt hlen))
  obtain hb | hb : (s.decideBit i).1 = 0 ∨ (s.decideBit i).1 = 1 := by
    have := decideBit_le s i
    omega
  · exact ⟨false, t, by rw [hb] at ht; exact ht⟩
  · exact ⟨true, t, by rw [hb] at ht; exact ht⟩

/-- A direct bit is a decision and then RC_NORM. -/
theorem rcDirect_one (s : State) :
    rcDirect 1 s = (rcNorm s.decideDirect.2).bind (.rcDirect 0 s.decideDirect.1) fun _ t => .done s.decideDirect.1 t := by
  rw [rcDirect, rcDirectFrom, Nat.mul_zero, Nat.zero_add]
  rfl

/-- `range` and `code` after the decision of a direct bit. -/
def State.halved (s : State) : State :=
  { s with rc := ⟨s.rc.range >>> 1,
      if s.rc.range >>> 1 ≤ s.rc.code then s.rc.code - s.rc.range >>> 1 else s.rc.code⟩ }

theorem decideDirect_eq (s : State) :
    s.decideDirect = ((decide (s.rc.range >>> 1 ≤ s.rc.code)).toNat, s.halved) := by
  by_cases h : s.rc.range >>> 1 ≤ s.rc.code
  · simp [State.decideDirect, State.halved, h]
  · simp [State.decideDirect, State.halved, h]

theorem exists_rcDirect {n : Nat} {s : State} (h : s.HasBytes (n + 1)) :
    ∃ (b : Bool) (t : State), decodeOne .direct s = .done b.toNat t := by
  obtain ⟨hcount, hlen⟩ := h
  obtain ⟨t, _, ht, -⟩ := rcNorm_done (s := s.halved) (Nat.zero_lt_of_lt hcount)
    (List.ne_nil_of_length_pos (Nat.zero_lt_of_lt hlen))
  refine ⟨decide (s.rc.range >>> 1 ≤ s.rc.code), t, ?_⟩
  show rcDirect 1 s = _
  rw [rcDirect_one, decideDirect_eq, ht, Res.bind_done]

/-! ## Strings of bits -/

/-- The value that an operation of the range coder returns, once it is an instruction of its own (log entry 13). -/
theorem finish_keep {r : Res} {v : Nat} {u : State} (h : r = .done v u) :
    finish (r.bind .ret keep) = .next { u with ret := .num v } := by
  rw [h]
  rfl

/-- `left` bits of a tree whose walk has come to `sym` after `k` bits. -/
theorem exists_decodes_treePath {base k left sym : Nat} (hb : base + 2 ^ (k + left) ≤ Config.probCells)
    (hs : sym < 2 ^ (k + 1)) {s : State} (h : s.HasBytes left) :
    ∃ bits u, bits.length = left ∧ Decodes (treePath base sym bits) s u := by
  induction left generalizing k sym s with
  | zero => exact ⟨[], s, rfl, rfl⟩
  | succ left ih =>
    rw [← Nat.add_assoc, Nat.add_right_comm] at hb
    have hp : 2 ^ (k + 1) ≤ 2 ^ (k + 1 + left) := Nat.pow_le_pow_right (by omega) (by omega)
    obtain ⟨b, t, ht⟩ := exists_rcBit h (i := base + sym) (by omega)
    have hnext : 2 * sym + b.toNat < 2 ^ (k + 1 + 1) := by
      have := Bool.toNat_le b
      rw [Nat.pow_succ]
      omega
    obtain ⟨bits, u, hl, hu⟩ := ih hb hnext (h.of_decodeOne ht)
    exact ⟨b :: bits, u, by rw [List.length_cons, hl], t, ht, hu⟩

theorem exists_decodes_tree {base n : Nat} (hb : base + 2 ^ n ≤ Config.probCells) {s : State} (h : s.HasBytes n) :
    ∃ bits u, bits.length = n ∧ Decodes (treePath base 1 bits) s u :=
  exists_decodes_treePath (k := 0) (by rwa [Nat.zero_add]) (by decide) h

theorem exists_decodes_directPath {n : Nat} {s : State} (h : s.HasBytes n) :
    ∃ bits u, bits.length = n ∧ Decodes (directPath bits) s u := by
  induction n generalizing s with
  | zero => exact ⟨[], s, rfl, rfl⟩
  | succ n ih =>
    obtain ⟨b, t, ht⟩ := exists_rcDirect h
    obtain ⟨bits, u, hl, hu⟩ := ih (h.of_decodeOne ht)
    exact ⟨b :: bits, u, by rw [List.length_cons, hl], t, ht, hu⟩

/-- Direct bits write no cell of `P`. -/
theorem decodes_directPath_probs {bits : List Bool} {s u : State} (h : Decodes (directPath bits) s u) :
    u.probs = s.probs := by
  induction bits generalizing s with
  | nil => exact congrArg State.probs h.symm
  | cons b bits ih =>
    obtain ⟨t, ht, hr⟩ := h
    obtain ⟨w, hw⟩ := rcNorm_of_rcDirect ht
    obtain ⟨-, hnorm⟩ := rcNorm_takes hw
    obtain ⟨-, hdecide⟩ := decideDirect_takes s
    rw [ih hr, hnorm, hdecide]

end Sys2Proof.Machine

open Sys2Proof Sys2Proof.Machine

/-- Settles O26: with a byte for each bit the walk of the tree ends, and its bits are what the tree returns. -/
theorem rcTreesReturnTheirBits : Obligations.RcTreesReturnTheirBits := by
  intro s base n hc hi
  have hwalk (hb : base + 2 ^ n ≤ Config.probCells) := exists_decodes_tree (s := s) hb ⟨hc, hi⟩
  refine ⟨fun hwf => ?_, fun hwf => ?_⟩
  · obtain ⟨bits, u, rfl, hu⟩ := hwalk (of_decide_eq_true (Bool.and_eq_true_iff.mp hwf).2)
    exact ⟨bits, u, rfl, hu, finish_keep (rcTree_of_decodes hu)⟩
  · obtain ⟨bits, u, rfl, hu⟩ := hwalk (of_decide_eq_true (Bool.and_eq_true_iff.mp hwf).2)
    exact ⟨bits, u, rfl, hu, finish_keep (rcTreeRev_of_decodes hu)⟩

/-- Settles O27: the bits of RC_DIRECT one by one, each a decision on half of `range` and then RC_NORM. -/
theorem rcDirectReturnsItsBitsForward : Obligations.RcDirectReturnsItsBitsForward := by
  refine ⟨fun s n _ hc hi => ?_, fun s b u h => ?_⟩
  · obtain ⟨bits, u, rfl, hu⟩ := exists_decodes_directPath (s := s) ⟨hc, hi⟩
    exact ⟨bits, u, rfl, hu, decodes_directPath_probs hu,
      finish_keep (rcDirect_of_decodes hu)⟩
  · obtain ⟨t, ht, rfl⟩ := h
    have ht : rcDirect 1 s = .done b.toNat t := ht
    rw [rcDirect_one, decideDirect_eq] at ht
    obtain ⟨w, t, hnorm, hdone⟩ := Res.bind_eq_done.mp ht
    obtain ⟨hb, rfl⟩ := Res.done.inj hdone
    have hbit : b = true ↔ s.rc.range >>> 1 ≤ s.rc.code := by
      rw [← Bool.toNat_eq_one, ← hb, Bool.toNat_eq_one, decide_eq_true_eq]
    exact ⟨s.halved, hbit, by simp only [State.halved, hbit], congrArg finish hnorm⟩

end

section
/-! SUPPORT. The end of a chunk (40_range_coder.md R89, 41_lzma2_chunks.md R99). -/

namespace Sys2Proof.Machine

theorem RangeCoder.finished_iff {r : RangeCoder} : r.finished = true ↔ r.code = 0 := beq_iff_eq

theorem chunkEnd_eq (s : State) :
    chunkEnd s =
      if s.sq.compLeft = 0 ∧ s.lz.len = 0 ∧ s.rc.code = 0 then
        .done 0 { s with rc := .idle, sq := { s.sq with seq := .control } }
      else .fail (s.raised .data) := by
  have hguard : (s.sq.compLeft ≠ 0 ∨ s.lz.len ≠ 0 ∨ (!s.rc.finished) = true) ↔
      ¬ (s.sq.compLeft = 0 ∧ s.lz.len = 0 ∧ s.rc.code = 0) := by
    rw [not_and_or, not_and_or, ← RangeCoder.finished_iff, Bool.not_eq_true', Bool.not_eq_true]
  rw [chunkEnd, if_congr hguard rfl rfl, ite_not, raise]

end Sys2Proof.Machine

open Sys2Proof Sys2Proof.Machine

/-- Settles O46: CHUNK_END's test, which RUN comes to at once when nothing is left to produce. -/
theorem chunkEndNeedsACleanEnd : Obligations.ChunkEndNeedsACleanEnd := by
  intro s t
  have hend : exec .chunkEnd s = .next t := by
    show finish (chunkEnd s) = .next (if s.sq.compLeft = 0 ∧ s.lz.len = 0 ∧ s.rc.code = 0 then _ else _)
    rw [chunkEnd_eq]
    split
    · rfl
    · rfl
  refine ⟨hend, fun hu => ?_, s.rc.finished, rfl, ?_⟩
  · rw [← hend]
    show finish (run s) = finish (chunkEnd s)
    rw [run, hu, runLoop, if_neg (by omega)]
  · rw [RangeCoder.finished_iff, BitVec.toNat_eq]
    rfl

end

section
/-! SUPPORT. The operations that begin with `InByte` (41_lzma2_chunks.md R92, R95, R96), with and without a byte at hand, and a
control byte as the row of the table that it decodes to. -/

namespace Sys2Proof.Machine

/-! ## With a byte at hand -/

/-- The row that a control byte decodes to does what CONTROL does once it has read the byte. -/
theorem exec_decodeControl (c : Byte) (s : State) : exec (decodeControl c) s = finish (controlByte c s) := by
  by_cases h3 : c.toNat < 3
  · rcases byte_lt_three h3 with rfl | rfl | rfl
    · rfl
    · rfl
    · rfl
  · by_cases h80 : c.toNat < 0x80
    · rw [decodeControl_reserved (by omega) h80]
      rfl
    · have hrow (r : BitVec 2) (u : BitVec 5) : exec (lzmaRow r u) s = finish (controlByte (lzmaControl r u) s) := by
        match r with
        | 0#2 | 1#2 | 2#2 | 3#2 => rfl
      rw [decodeControl_high (by omega), hrow, lzmaControl_fields (by omega)]

section

variable {s : State} {x : Byte} {r : List Byte} (hi : s.io.input = x :: r)

include hi

theorem exec_control_cons : exec .control s = exec (decodeControl x) { s with io := { s.io with input := r } } := by
  show finish (control s) = _
  rw [control, inByte_cons hi, Res.bind_done, BitVec.ofNat_toNat, BitVec.setWidth_eq, exec_decodeControl]

theorem exec_properties_cons : exec .properties s = exec (.props x) { s with io := { s.io with input := r } } := by
  show finish (properties s) = _
  rw [properties, inByte_cons hi, Res.bind_done, BitVec.ofNat_toNat, BitVec.setWidth_eq]
  rfl

theorem exec_header_cons (h : HeaderByte) :
    exec (.header h) s = .next { s with io := { s.io with input := r }, sq := s.sq.headerByte x.toNat h } := by
  show finish (header h s) = _
  rw [header, inByte_cons hi]
  rfl

end

/-! ## Without one -/

theorem finish_inByte_nil {s : State} (hi : s.io.input = []) (fr : Frame) (f : Nat → State → Res) :
    finish ((inByte s).bind fr f) = .next (if s.io.inputEnded then s.raised .buf else s.suspend .inByte [fr]) := by
  rw [inByte, hi]
  cases s.io.inputEnded
  · rfl
  · rfl

end Sys2Proof.Machine

open Sys2Proof Sys2Proof.Machine

/-- Settles O5: inside a HOST_RUN the step is the engine's operation, and R91's table is `seqInstr`. -/
theorem stepIsTheSequencersOperation : Obligations.StepIsTheSequencersOperation := by
  intro s hr
  have hstep : step s = settled (engineOp s) := step_of_engineRuns hr
  refine ⟨fun hs row hrow => ?_, fun w hw => ?_⟩
  · have hrow : row.2 = seqInstr row.1 := by
      revert row
      decide
    intro hq
    rw [hstep, engineOp, hs, hrow, hq]
  · rw [hstep, engineOp, hw]

/-- Settles O6: the operation that `seq` names takes the byte, and runs what it decodes to. -/
theorem stepRunsTheDecodedByte : Obligations.StepRunsTheDecodedByte := by
  intro s c r hr hs hi
  have hstep : step s = settled (exec (seqInstr s.sq.seq) s) := by rw [step_of_engineRuns hr, engineOp, hs]
  refine ⟨fun hq => ?_, fun hq => ?_⟩
  · rw [hstep, hq, ← exec_control_cons hi]
    rfl
  · rw [hstep, hq, ← exec_properties_cons hi]
    rfl

/-- Settles O44: each of the three begins with `InByte`, with one caller. -/
theorem missingInputWaitsOrRaisesBuf : Obligations.MissingInputWaitsOrRaisesBuf := by
  rintro s i fr hi (⟨rfl, rfl⟩ | ⟨rfl, rfl⟩ | ⟨h, rfl, rfl⟩)
  · exact finish_inByte_nil hi .control _
  · exact finish_inByte_nil hi .properties _
  · exact finish_inByte_nil hi (.header h) _

/-- Settles O40: with space for the held bytes the flush does not wait, and END then sets its status. -/
theorem endFlushesThenEndsTheStream : Obligations.EndFlushesThenEndsTheStream := by
  intro s hs t
  have hflush : bcjFlush s = .done 0 t := flushBytes_space s.bcj.carry s hs
  refine ⟨congrArg finish hflush, ?_⟩
  show finish (l2End s) = _
  rw [l2End, hflush]
  rfl

namespace Sys2Proof.Machine

/-- With space for the held bytes every control byte has a next state, family by family. -/
theorem decodeControl_answers (c : Byte) {s : State} (hs : s.bcj.carry.length ≤ s.io.space) :
    ∃ u, exec (decodeControl c) s = .next u := by
  obtain ⟨huncDr, hunc, hreserved⟩ := uncompressedAndReservedControlBytes s
  by_cases h3 : c.toNat < 3
  · rcases byte_lt_three h3 with rfl | rfl | rfl
    · exact ⟨_, (endFlushesThenEndsTheStream s hs).2⟩
    · exact ⟨_, huncDr⟩
    · exact ⟨_, hunc⟩
  · by_cases h80 : c.toNat < 0x80
    · rw [decodeControl_reserved (by omega) h80]
      exact ⟨_, hreserved c (by simp only [Instr.wellFormed, Bool.and_eq_true, decide_eq_true_eq]; omega)⟩
    · rw [decodeControl_high (by omega)]
      obtain ⟨hlz3, hlz2, hlz1, hlz0⟩ := lzmaControlBytes s (c.extractLsb' 0 5)
      match c.extractLsb' 5 2 with
      | 0#2 => exact ⟨_, hlz0⟩
      | 1#2 => exact ⟨_, hlz1⟩
      | 2#2 => exact ⟨_, hlz2⟩
      | 3#2 => exact ⟨_, hlz3⟩

theorem props_answers (v : Byte) (s : State) : ∃ u, exec (.props v) s = .next u := by
  obtain ⟨hlegal, hbad⟩ := propertiesByteSetsLcLpPb s v
  by_cases h : v.toNat ≤ 224 ∧ v.toNat % 9 + v.toNat % 45 / 9 ≤ 4
  · exact ⟨_, hlegal h.1 h.2⟩
  · obtain ⟨u, hu, -⟩ := hbad h
    exact ⟨u, hu⟩

end Sys2Proof.Machine

/-- Settles O43: CONTROL and PROPERTIES go on with the decoded row, which has a next state by O40 to O42 and O45; HEADER is
R95's table. -/
theorem byteOperationsTakeOneByte : Obligations.ByteOperationsTakeOneByte := by
  intro s x r hi hs t
  have hshift : x.toNat <<< 8 = 256 * x.toNat := by rw [Nat.shiftLeft_eq, Nat.mul_comm]
  obtain ⟨u, hu⟩ := decodeControl_answers x (s := t) hs
  obtain ⟨v, hv⟩ := props_answers x t
  refine ⟨⟨u, (exec_control_cons hi).trans hu, hu⟩, ⟨v, (exec_properties_cons hi).trans hv, hv⟩, ?_, ?_, ?_, ?_⟩
  · rw [exec_header_cons hi, Sequencer.headerByte, hshift]
  · rw [exec_header_cons hi]
    rfl
  · rw [exec_header_cons hi, Sequencer.headerByte, hshift]
  · rw [exec_header_cons hi]
    rfl

/-- Settles O51: the two tests of the dictionary property, and the cells that the size keeps. -/
theorem dictCheckSizesTheDictionary : Obligations.DictCheckSizesTheDictionary := by
  intro s b size w
  have hsize : dictSizeOf b = size := dictSizeOf_eq b
  refine ⟨rfl, fun hopt => congrArg finish (if_pos hopt), fun hb hcap => ?_, fun hb hcap => ?_⟩
  · rw [← hsize] at hcap
    exact congrArg finish ((if_neg (Nat.not_lt_of_le hb)).trans (if_pos hcap))
  · rw [← hsize] at hcap ⊢
    exact ⟨_, congrArg finish (dictCheck_passes (s := w) hb hcap), fun hwf a ha => Sparse.read_filter hwf ha⟩

end

section
/-! SUPPORT. A packet of RUN from any state (42_lzma_symbols.md R103 to R112, 41_lzma2_chunks.md R98): one that returns lowers
`unc_left`, and with the rest of the chunk at hand it returns, or raises `data`.
The two are one walk over the packet: each lemma has a premise `fed`, under which the state is supplied. With `fed` false the
lemma says what a return leaves, with `fed` true that no wait comes before it. -/

namespace Sys2Proof.Machine

/-! ## The rest of a chunk at hand -/

/-- The bytes of the rest of the chunk and the space for what it produces are at hand, and the contexts name cells that `P`
has. -/
structure State.Supplied (s : State) : Prop where
  bytes : s.sq.compLeft ≤ s.io.input.length
  room : s.bcj.carry.length + s.sq.uncLeft ≤ s.io.space
  arch : archSupported s.cfg.bcjArch = true
  context : s.lz.lc + s.lz.lp ≤ 4
  pb : s.lz.pb ≤ 4

/-- `unc_left` is `u`, `len` is `n`, and if `fed` holds, the rest of the chunk is at hand. -/
structure State.InChunk (fed : Prop) (u n : Nat) (s : State) : Prop where
  unc : s.sq.uncLeft = u
  len : s.lz.len = n
  supplied : fed → s.Supplied

/-- How an operation ends: where it returns, `D` holds; and if `fed` holds, it neither waits nor stops, and its error is
`data`. -/
def Res.Goes (fed : Prop) (D : Nat → State → Prop) : Res → Prop
  | .done v t => D v t
  | .fail t => fed → t.status = .error .data
  | .hold _ _ _ | .stop _ => ¬ fed

/-- An operation inside a packet: it leaves `unc_left` and `len` alone. -/
def Res.InChunk (fed : Prop) (u n : Nat) (r : Res) : Prop := r.Goes fed fun _ t => t.InChunk fed u n

/-- A length is decoded, and it is not 0. -/
def Res.SetsLen (fed : Prop) (u : Nat) (r : Res) : Prop := r.Goes fed fun _ t => ∃ n, 0 < n ∧ t.InChunk fed u n

/-- The end of a packet: less than `u` is left to produce. -/
def Res.EndsPacket (fed : Prop) (u : Nat) (r : Res) : Prop :=
  r.Goes fed fun _ t => t.sq.uncLeft < u ∧ (fed → t.Supplied)

section

variable {fed : Prop} {u n : Nat} {s t : State}

theorem Res.Goes.bind {D D' : Nat → State → Prop} {r : Res} {fr : Frame} {f : Nat → State → Res} (h : r.Goes fed D)
    (hf : ∀ v t, D v t → (f v t).Goes fed D') : (r.bind fr f).Goes fed D' := by
  cases r with
  | done v t => exact hf v t h
  | hold p k t => exact h
  | fail t => exact h
  | stop x => exact h

theorem Res.Goes.mono {D D' : Nat → State → Prop} {r : Res} (h : r.Goes fed D) (hd : ∀ v t, D v t → D' v t) :
    r.Goes fed D' := by
  cases r with
  | done v t => exact hd v t h
  | hold p k t => exact h
  | fail t => exact h
  | stop x => exact h

theorem Res.Goes.of_all {P : State → Prop} {r : Res} (h : r.All P) (hn : ¬ fed) : r.Goes fed fun _ t => P t := by
  cases r with
  | done v t => exact h
  | hold p k t => exact hn
  | fail t => exact fun hfed => absurd hfed hn
  | stop x => exact hn

/-- The LZMA registers may change beside the properties. -/
theorem State.InChunk.withLz (h : s.InChunk fed u n) {z : LzmaRegs} (hc : z.lc = s.lz.lc) (hp : z.lp = s.lz.lp)
    (hb : z.pb = s.lz.pb) : State.InChunk fed u z.len { s with lz := z } where
  unc := h.unc
  len := rfl
  supplied hfed := by
    obtain ⟨hbytes, hroom, harch, hcontext, hpb⟩ := h.supplied hfed
    exact ⟨hbytes, hroom, harch, by rw [hc, hp]; exact hcontext, by rw [hb]; exact hpb⟩

/-! ## The range coder -/

/-- Decoding counts every byte that it takes. -/
theorem State.Supplied.of_takes {k : Nat} (h : s.Supplied) (ht : Takes k s t) : t.Supplied := by
  obtain ⟨hframe, used, hin, -, hcount⟩ := ht
  obtain ⟨hbytes, hroom, harch, hcontext, hpb⟩ := h
  rw [hin, List.length_append] at hbytes
  have hspace : t.io.space = s.io.space := by rw [hframe]
  exact ⟨by omega, by rw [hframe.bcj, hframe.uncLeft, hspace]; exact hroom, by rw [hframe.cfg]; exact harch,
    by rw [hframe.lz]; exact hcontext, by rw [hframe.lz]; exact hpb⟩

theorem State.InChunk.of_takes {k : Nat} (h : s.InChunk fed u n) (ht : Takes k s t) : t.InChunk fed u n :=
  ⟨ht.1.uncLeft.trans h.unc, (congrArg LzmaRegs.len ht.1.lz).trans h.len, fun hfed => (h.supplied hfed).of_takes ht⟩

theorem rcNorm_inChunk (h : s.InChunk fed u n) : (rcNorm s).InChunk fed u n := by
  by_cases hr : s.rc.range < 0x01000000
  · by_cases hc : s.sq.compLeft = 0
    · rw [rcNorm_used hr hc]
      exact fun _ => rfl
    · cases hi : s.io.input with
      | cons b r =>
        have hnorm := rcNorm_low hr (Nat.pos_of_ne_zero hc) hi
        rw [hnorm]
        exact h.of_takes (rcNorm_takes hnorm).1
      | nil =>
        have hn : ¬ fed := fun hfed => hc (by simpa [hi] using (h.supplied hfed).bytes)
        rw [rcNorm_nil hr (Nat.pos_of_ne_zero hc) hi]
        split
        · exact fun hfed => absurd hfed hn
        · exact hn
  · rw [rcNorm_high (BitVec.not_lt.mp hr)]
    exact h

theorem rcBit_inChunk (h : s.InChunk fed u n) {i : Nat} (hi : fed → i < Config.probCells) :
    (rcBit i s).Goes fed fun b t => b < 2 ∧ t.InChunk fed u n := by
  unfold rcBit
  split
  · exact (rcNorm_inChunk (h.of_takes (decideBit_takes s i).1)).bind fun _ t ht =>
      ⟨Nat.lt_succ_of_le (decideBit_le s i), ht⟩
  · next hge => exact fun hfed => hge (hi hfed)

theorem rcTreeFrom_inChunk {base m : Nat} (hb : fed → base + 2 ^ m ≤ Config.probCells) {left : Nat} (hl : left ≤ m)
    {sym : Nat} (hs : sym < 2 ^ (m - left + 1)) (h : s.InChunk fed u n) : (rcTreeFrom base m left sym s).InChunk fed u n := by
  induction left generalizing sym s with
  | zero => exact h
  | succ left ih =>
    have hp : 2 ^ (m - left) ≤ 2 ^ m := Nat.pow_le_pow_right (by omega) (by omega)
    rw [show m - (left + 1) + 1 = m - left by omega] at hs
    refine (rcBit_inChunk h (i := base + sym) fun hfed => ?_).bind fun b t ⟨hb2, ht⟩ => ih (by omega) ?_ ht
    · have := hb hfed
      omega
    · rw [Nat.pow_succ]
      omega

theorem rcTree_inChunk {base m : Nat} (hb : fed → base + 2 ^ m ≤ Config.probCells) (h : s.InChunk fed u n) :
    (rcTree base m s).InChunk fed u n := rcTreeFrom_inChunk hb (Nat.le_refl m) (by simp) h

theorem rcTreeRevFrom_inChunk {base left k : Nat} (hb : base + 2 ^ (k + left) ≤ Config.probCells) {sym : Nat}
    (hs : sym < 2 ^ (k + 1)) (v : Nat) (h : s.InChunk fed u n) :
    (rcTreeRevFrom base left k sym v s).InChunk fed u n := by
  induction left generalizing k sym v s with
  | zero => exact h
  | succ left ih =>
    rw [show k + (left + 1) = k + 1 + left by omega] at hb
    have hp : 2 ^ (k + 1) ≤ 2 ^ (k + 1 + left) := Nat.pow_le_pow_right (by omega) (by omega)
    refine (rcBit_inChunk h (i := base + sym) fun _ => by omega).bind fun b t ⟨hb2, ht⟩ => ih hb ?_ _ ht
    rw [Nat.pow_succ]
    omega

theorem rcTreeRev_inChunk {base m : Nat} (hb : base + 2 ^ m ≤ Config.probCells) (h : s.InChunk fed u n) :
    (rcTreeRev base m s).InChunk fed u n := rcTreeRevFrom_inChunk (by rwa [Nat.zero_add]) (by decide) 0 h

theorem rcDirectFrom_inChunk (left v : Nat) (h : s.InChunk fed u n) : (rcDirectFrom left v s).InChunk fed u n := by
  induction left generalizing v s with
  | zero => exact h
  | succ left ih => exact (rcNorm_inChunk (h.of_takes (decideDirect_takes s).1)).bind fun _ t ht => ih _ ht

/-! ## Lengths and distances -/

theorem State.Supplied.ps_lt (h : s.Supplied) : s.ps < 16 := Machine.ps_lt h.pb

theorem lenBase_le (l : LenCoder) : lenBase l ≤ 1332 := by
  cases l with
  | matchLen => decide
  | repLen => decide

/-- A tree of a length, and the length that it gives. -/
theorem lenTree_setsLen (h : s.InChunk fed u n) {base m : Nat} (hb : fed → base + 2 ^ m ≤ Config.probCells) {fr : Frame}
    {f : Nat → Nat} (hf : ∀ v, 0 < f v) : ((rcTree base m s).bind fr fun v t => .done 0 (t.setLen (f v))).SetsLen fed u :=
  (rcTree_inChunk hb h).bind fun v t ht => ⟨f v, hf v, ht.withLz (z := { t.lz with len := f v }) rfl rfl rfl⟩

theorem lenChoice2_setsLen (l : LenCoder) (b : Nat) (h : s.InChunk fed u n) : (lenChoice2 l b s).SetsLen fed u := by
  have hl := lenBase_le l
  unfold lenChoice2
  split
  · exact lenTree_setsLen h
      (fun hfed => by
        have := (h.supplied hfed).ps_lt
        simp only [midTree, Config.probCells]
        omega)
      fun v => Nat.add_pos_left (by decide) (BitVec.ofNat 3 v).toNat
  · exact lenTree_setsLen h
      (fun _ => by
        simp only [highTree, Config.probCells]
        omega)
      fun v => Nat.add_pos_left (by decide) (BitVec.ofNat 8 v).toNat

theorem lenChoice_setsLen (l : LenCoder) (b : Nat) (h : s.InChunk fed u n) : (lenChoice l b s).SetsLen fed u := by
  have hl := lenBase_le l
  unfold lenChoice
  split
  · exact lenTree_setsLen h
      (fun hfed => by
        have := (h.supplied hfed).ps_lt
        simp only [lowTree, Config.probCells]
        omega)
      fun v => Nat.add_pos_left (by decide) (BitVec.ofNat 3 v).toNat
  · refine (rcBit_inChunk h fun _ => ?_).bind fun b t ⟨_, ht⟩ => lenChoice2_setsLen l b ht
    simp only [choice2Cell, Config.probCells]
    omega

/-- LZ_LEN. -/
theorem lzLen_setsLen (l : LenCoder) (h : s.InChunk fed u n) : (lzLen l s).SetsLen fed u := by
  have hl := lenBase_le l
  refine (rcBit_inChunk h fun _ => ?_).bind fun b t ⟨_, ht⟩ => lenChoice_setsLen l b ht
  simp only [choiceCell, Config.probCells]
  omega

theorem State.InChunk.setRep0 (h : s.InChunk fed u n) (d : Word32) : (s.setRep0 d).InChunk fed u n := by
  rw [← h.len]
  exact h.withLz (z := { s.lz with rep0 := d }) rfl rfl rfl

theorem distDirect_inChunk (slot x : Nat) (h : s.InChunk fed u n) : (distDirect slot x s).InChunk fed u n :=
  (rcTreeRev_inChunk (by decide) h).bind fun _ _ ht => ht.setRep0 _

theorem distSlot_inChunk (slot : Nat) (h : s.InChunk fed u n) : (distSlot slot s).InChunk fed u n := by
  unfold distSlot
  split
  · exact h.setRep0 _
  · split
    · exact (rcTreeRev_inChunk (slotBase_special (by omega) (by omega)) h).bind fun _ _ ht => ht.setRep0 _
    · exact (rcDirectFrom_inChunk _ 0 h).bind fun x _ ht => distDirect_inChunk slot x ht

/-- LZ_DIST. -/
theorem lzDist_inChunk (h : s.InChunk fed u n) : (lzDist s).InChunk fed u n := by
  have hd : s.distState ≤ 3 := Nat.min_le_right _ _
  refine (rcTree_inChunk (fun _ => ?_) h).bind fun slot _ ht => distSlot_inChunk slot ht
  simp only [distSlotTree, distSlotBase, Config.probCells]
  omega

/-! ## A produced byte -/

theorem outBytes_putFrame (left k m : Nat) (s : State) : (outBytes left k m s).All (PutFrame s) := by
  induction left generalizing k s with
  | zero => exact rfl
  | succ left ih =>
    rw [outBytes]
    rcases deliver_cases (s.bcj.carry.getD k 0) s with ⟨-, he⟩ | ⟨-, he⟩
    · rw [he]
      exact putFraming.refl s
    · rw [he]
      have hput : PutFrame s (s.deliver (s.bcj.carry.getD k 0)) := rfl
      exact (ih (k + 1) _).mono fun t => putFraming.trans hput

theorem outByte_putFrame (b : Byte) (s : State) : (outByte b s).All (PutFrame s) := by
  unfold outByte
  split
  · rcases deliver_cases b s with ⟨-, he⟩ | ⟨-, he⟩
    · rw [he]
      exact putFraming.refl s
    · rw [he]
      exact rfl
  · split
    · exact trivial
    · next arch _ =>
      have hput : PutFrame s (s.filtered arch b).1 := rfl
      exact (outBytes_putFrame _ _ _ _).mono fun t => putFraming.trans hput

/-- A produced byte is counted (R61, R105). -/
def State.countPut (s : State) : State := { s with sq := { s.sq with uncLeft := s.sq.uncLeft - 1 } }

theorem dictPut_inChunk (b : Byte) (h : s.InChunk fed u n) (hu : 0 < u) :
    (dictPut b s).Goes fed fun _ t => t.countPut.InChunk fed (u - 1) n := by
  by_cases hfed : fed
  · obtain ⟨hbytes, hroom, harch, hcontext, hpb⟩ := h.supplied hfed
    have hlt : s.bcj.carry.length < s.io.space := by rw [h.unc] at hroom; omega
    have hput := produce_room s b hlt
    rw [dictPut_space b harch hlt]
    refine ⟨by rw [← h.unc, State.countPut, produce_sq], by rw [← h.len, State.countPut, produce_lz],
      fun _ => ⟨?_, ?_, ?_, ?_, ?_⟩⟩
    · simpa [State.countPut] using hbytes
    · have := h.unc
      simp only [State.countPut, produce_sq]
      omega
    · simpa [State.countPut] using harch
    · simpa [State.countPut] using hcontext
    · simpa [State.countPut] using hpb
  · refine .of_all ((outByte_putFrame b { s with dict := s.dict.put b }).mono fun t ht => ?_) hfed
    unfold PutFrame at ht
    rw [ht]
    exact ⟨congrArg (· - 1) h.unc, h.len, fun h => absurd h hfed⟩

/-! ## The ends of a packet -/

/-- The end of a literal. -/
theorem litByte_endsPacket (v : Nat) (h : s.InChunk fed u n) (hu : 0 < u) : (litByte v s).EndsPacket fed u := by
  refine (dictPut_inChunk _ h hu).bind fun _ t ht => ?_
  have hdone : t.literalDone.InChunk fed (u - 1) t.lz.len :=
    ht.withLz (z := { t.lz with state := litNext t.lz.state }) rfl rfl rfl
  exact ⟨by rw [hdone.unc]; omega, hdone.supplied⟩

/-- The cell of a bit of a matched literal is one of its context's. -/
theorem mlitCell_lt {offset m sym : Word32} (ho : MlitOffset offset) (hm : m = 0 ∨ m = offset) (hs : sym.toNat < 2 ^ 8) :
    (offset + m + sym).toNat < 0x300 := by
  have hsum : (offset + m).toNat ≤ 0x200 := by
    rcases hm with rfl | rfl
    · rcases ho with rfl | rfl <;> decide
    · rcases ho with rfl | rfl <;> decide
  rw [BitVec.toNat_add]
  omega

/-- The `while` of LZ_MLIT (R106). -/
theorem mlitFrom_endsPacket {c left : Nat} (hc : fed → c < 16) (hl : left ≤ 8) {mbyte offset sym : Word32}
    (ho : MlitOffset offset) (hs : sym.toNat < 2 ^ (9 - left)) (h : s.InChunk fed u n) (hu : 0 < u) :
    (mlitFrom c left mbyte offset sym s).EndsPacket fed u := by
  induction left generalizing mbyte offset sym s with
  | zero => exact litByte_endsPacket _ h hu
  | succ left ih =>
    rw [show 9 - (left + 1) = 8 - left by omega] at hs
    have h8 : 2 ^ (8 - left) ≤ 2 ^ 8 := Nat.pow_le_pow_right (by omega) (by omega)
    have hm := mlitOffset_and ho mbyte
    have hcell := mlitCell_lt ho hm (Nat.lt_of_lt_of_le hs h8)
    obtain ⟨hsame, hdiffer⟩ := mlitOffset_next ho hm
    obtain ⟨h0, h1⟩ := mlitSym_next (by omega) hs
    rw [show 8 - left + 1 = 9 - left by omega] at h0 h1
    refine (rcBit_inChunk h fun hfed => ?_).bind fun b t ⟨_, ht⟩ => ?_
    · have := hc hfed
      simp only [literalTree, literalBase, Config.probCells]
      omega
    · split
      · exact ih (by omega) hsame h1 ht
      · exact ih (by omega) hdiffer h0 ht

/-- A match copy whose distance has been tested: `len` bytes, or what is left of the chunk. -/
theorem repeatLoop_goes (dist : Word32) (h : s.InChunk fed u n) :
    (repeatLoop dist n s).Goes fed fun _ t => t.sq.uncLeft = u - n ∧ (fed → t.Supplied) := by
  induction n generalizing u s with
  | zero => exact ⟨h.unc, h.supplied⟩
  | succ n ih =>
    rw [repeatLoop, h.len, h.unc]
    split
    · next hpos =>
      refine (dictPut_inChunk _ h hpos.2).bind fun _ t ht => ?_
      have hcount : t.countCopy.InChunk fed (u - 1) (t.lz.len - 1) :=
        ht.withLz (z := { t.lz with len := t.lz.len - 1 }) rfl rfl rfl
      rw [show t.lz.len = n + 1 from ht.len] at hcount
      rw [show u - (n + 1) = u - 1 - n by omega]
      exact ih hcount
    · exact ⟨by rw [h.unc]; omega, h.supplied⟩

/-- The copy of a copy packet, whose distance is tested first. -/
theorem copyMatch_endsPacket (h : s.InChunk fed u n) (hn : 0 < n) (hu : 0 < u) : (copyMatch s).EndsPacket fed u := by
  unfold copyMatch dictRepeat
  split
  · exact fun _ => rfl
  · rw [h.len]
    exact (repeatLoop_goes s.lz.rep0 h).mono fun _ t ⟨hleft, ht⟩ => ⟨by omega, ht⟩

end

/-! ## Packets -/

section

variable {fed : Prop} {u n : Nat} {s : State} (h : s.InChunk fed u n) (hu : 0 < u)

include h hu

theorem lzLit_endsPacket : (lzLit s).EndsPacket fed u := by
  refine (rcTree_inChunk (fun hfed => ?_) h).bind fun v _ ht => litByte_endsPacket v ht hu
  have := litCtx_lt (h.supplied hfed).context
  simp only [literalTree, literalBase, Config.probCells]
  omega

theorem lzMlit_endsPacket : (lzMlit s).EndsPacket fed u :=
  mlitFrom_endsPacket (fun hfed => litCtx_lt (h.supplied hfed).context) (Nat.le_refl 8) (.inr rfl) (by decide) h hu

theorem lzMatch_endsPacket : (lzMatch s).EndsPacket fed u := by
  have hstart : s.matchStart.InChunk fed u s.lz.len := h.withLz (z := s.matchStart.lz) rfl rfl rfl
  exact (lzLen_setsLen .matchLen hstart).bind fun _ _ ⟨_, hm, ht⟩ =>
    (lzDist_inChunk ht).bind fun _ _ hd => copyMatch_endsPacket hd hm hu

theorem lzShortRep_endsPacket : (lzShortRep s).EndsPacket fed u := by
  have hstart : s.shortRepStart.InChunk fed u 1 := h.withLz (z := s.shortRepStart.lz) rfl rfl rfl
  exact copyMatch_endsPacket hstart (by decide) hu

theorem lzLongRep_endsPacket (k : Nat) : (lzLongRep k s).EndsPacket fed u := by
  obtain ⟨hlc, hlp, hpb⟩ := rotate_props s.lz k
  have hstart : (s.longRepStart k).InChunk fed u (s.lz.rotate k).len :=
    h.withLz (z := (s.longRepStart k).lz) hlc hlp hpb
  exact (lzLen_setsLen .repLen hstart).bind fun _ _ ⟨_, hm, ht⟩ => copyMatch_endsPacket ht hm hu

theorem afterIsRep2_endsPacket (b : Nat) : (afterIsRep2 b s).EndsPacket fed u := by
  unfold afterIsRep2
  split
  · exact lzLongRep_endsPacket h hu 2
  · exact lzLongRep_endsPacket h hu 3

theorem afterIsRep1_endsPacket (b : Nat) : (afterIsRep1 b s).EndsPacket fed u := by
  have := st_lt s
  unfold afterIsRep1
  split
  · exact lzLongRep_endsPacket h hu 1
  · exact (rcBit_inChunk h fun _ => by simp only [isRep2Cell, isRep2Base, Config.probCells]; omega).bind
      fun b _ ⟨_, ht⟩ => afterIsRep2_endsPacket ht hu b

theorem afterIsRep0Long_endsPacket (b : Nat) : (afterIsRep0Long b s).EndsPacket fed u := by
  unfold afterIsRep0Long
  split
  · exact lzShortRep_endsPacket h hu
  · exact lzLongRep_endsPacket h hu 0

theorem afterIsRep0_endsPacket (b : Nat) : (afterIsRep0 b s).EndsPacket fed u := by
  have := st_lt s
  unfold afterIsRep0
  split
  · refine (rcBit_inChunk h fun hfed => ?_).bind fun b _ ⟨_, ht⟩ => afterIsRep0Long_endsPacket ht hu b
    have := (h.supplied hfed).ps_lt
    simp only [isRep0LongCell, isRep0LongBase, Config.probCells]
    omega
  · exact (rcBit_inChunk h fun _ => by simp only [isRep1Cell, isRep1Base, Config.probCells]; omega).bind
      fun b _ ⟨_, ht⟩ => afterIsRep1_endsPacket ht hu b

theorem afterIsRep_endsPacket (b : Nat) : (afterIsRep b s).EndsPacket fed u := by
  have := st_lt s
  unfold afterIsRep
  split
  · exact lzMatch_endsPacket h hu
  · exact (rcBit_inChunk h fun _ => by simp only [isRep0Cell, isRep0Base, Config.probCells]; omega).bind
      fun b _ ⟨_, ht⟩ => afterIsRep0_endsPacket ht hu b

theorem afterIsMatch_endsPacket (b : Nat) : (afterIsMatch b s).EndsPacket fed u := by
  have := st_lt s
  unfold afterIsMatch
  split
  · split
    · exact lzLit_endsPacket h hu
    · exact lzMlit_endsPacket h hu
  · exact (rcBit_inChunk h fun _ => by simp only [isRepCell, isRepBase, Config.probCells]; omega).bind
      fun b _ ⟨_, ht⟩ => afterIsRep_endsPacket ht hu b

/-- LZ_PACKET. -/
theorem lzPacket_endsPacket : (lzPacket s).EndsPacket fed u := by
  have := st_lt s
  refine (rcBit_inChunk h fun hfed => ?_).bind fun b _ ⟨_, ht⟩ => afterIsMatch_endsPacket ht hu b
  have := (h.supplied hfed).ps_lt
  simp only [isMatchCell, isMatchBase, Config.probCells]
  omega

end

/-! ## RUN (R98) -/

/-- A packet that returns has produced something, whatever the state. -/
theorem lzPacket_lowers {s v : State} {x : Nat} (hu : 0 < s.sq.uncLeft) (hp : lzPacket s = .done x v) :
    v.sq.uncLeft < s.sq.uncLeft := by
  have hends := lzPacket_endsPacket (fed := False) ⟨rfl, rfl, False.elim⟩ hu
  rw [hp] at hends
  exact hends.1

/-- With the rest of the chunk at hand a packet returns, and the rest is at hand again, or it raises `data`. -/
theorem lzPacket_supplied {s : State} (h : s.Supplied) (hu : 0 < s.sq.uncLeft) :
    (∃ x v, lzPacket s = .done x v ∧ v.sq.uncLeft < s.sq.uncLeft ∧ v.Supplied) ∨
      ∃ t, lzPacket s = .fail t ∧ t.status = .error .data := by
  have hends := lzPacket_endsPacket (fed := True) ⟨rfl, rfl, fun _ => h⟩ hu
  cases hp : lzPacket s with
  | done x v =>
    rw [hp] at hends
    exact .inl ⟨x, v, rfl, hends.1, hends.2 trivial⟩
  | fail t =>
    rw [hp] at hends
    exact .inr ⟨t, rfl, hends trivial⟩
  | hold p k t => rw [hp] at hends; exact absurd trivial hends
  | stop f => rw [hp] at hends; exact absurd trivial hends

theorem runLoop_zero {s : State} (hu : s.sq.uncLeft = 0) (fuel : Nat) : runLoop (fuel + 1) s = chunkEnd s := by
  rw [runLoop, if_neg (by omega)]

theorem runLoop_pos {s : State} (hu : 0 < s.sq.uncLeft) (fuel : Nat) :
    runLoop (fuel + 1) s = (lzPacket s).bind (.run fuel) fun _ t => runLoop fuel t := by
  rw [runLoop, if_pos hu]

/-- Completed packets up to the end of the chunk: then comes CHUNK_END, and the passes are enough. -/
theorem runLoop_of_packetsTo {s u : State} (h : PacketsTo s u) {fuel : Nat} (hf : s.sq.uncLeft < fuel) :
    runLoop fuel s = chunkEnd u := by
  induction h generalizing fuel with
  | here hu =>
    obtain ⟨fuel, rfl⟩ := Nat.exists_eq_succ_of_ne_zero (Nat.ne_zero_of_lt hf)
    exact runLoop_zero hu fuel
  | packet hu hp _ ih =>
    have hlt := lzPacket_lowers hu hp
    obtain ⟨fuel, rfl⟩ := Nat.exists_eq_succ_of_ne_zero (Nat.ne_zero_of_lt hf)
    rw [runLoop_pos hu, hp, Res.bind_done]
    exact ih (by omega)

/-- With the rest of the chunk at hand the packets come to its end, or one of them raises `data`. -/
theorem runLoop_supplied {fuel : Nat} {s : State} (hf : s.sq.uncLeft < fuel) (h : s.Supplied) :
    (∃ u, PacketsTo s u ∧ runLoop fuel s = chunkEnd u) ∨
      ∃ v t, PacketsReach s v ∧ 0 < v.sq.uncLeft ∧ lzPacket v = .fail t ∧ t.status = .error .data ∧
        runLoop fuel s = .fail t := by
  induction fuel generalizing s with
  | zero => omega
  | succ fuel ih =>
    by_cases hu : s.sq.uncLeft = 0
    · exact .inl ⟨s, .here hu, runLoop_zero hu fuel⟩
    · have hpos := Nat.pos_of_ne_zero hu
      rw [runLoop_pos hpos]
      rcases lzPacket_supplied h hpos with ⟨x, v, hp, hlt, hv⟩ | ⟨t, hp, ht⟩
      · rw [hp, Res.bind_done]
        rcases ih (by omega) hv with ⟨u, hto, hrun⟩ | ⟨w, t, hreach, hw, hrest⟩
        · exact .inl ⟨u, .packet hpos hp hto, hrun⟩
        · exact .inr ⟨w, t, .packet hpos hp hreach, hw, hrest⟩
      · exact .inr ⟨s, t, .here s, hpos, hp, ht, by rw [hp, Res.bind_fail]⟩

end Sys2Proof.Machine

open Sys2Proof Sys2Proof.Machine

/-- Settles O20: RUN's passes, one packet each, and CHUNK_END, which always has a next state (O46). -/
theorem runIsPacketsThenChunkEnd : Obligations.RunIsPacketsThenChunkEnd := by
  refine ⟨fun s u h => ?_, fun s hbytes hroom harch hcontext hpb => ?_⟩
  · obtain ⟨hend, -⟩ := chunkEndNeedsACleanEnd u
    exact ⟨_, (congrArg finish (runLoop_of_packetsTo h (Nat.lt_succ_self _))).trans hend, hend⟩
  · rcases runLoop_supplied (Nat.lt_succ_self _) ⟨hbytes, hroom, harch, hcontext, hpb⟩ with
      ⟨u, hto, hrun⟩ | ⟨v, t, hreach, hv, hp, ht, hrun⟩
    · obtain ⟨hend, -⟩ := chunkEndNeedsACleanEnd u
      exact ⟨_, (congrArg finish hrun).trans hend, .inl ⟨u, hto, hend⟩⟩
    · exact ⟨t, congrArg finish hrun, .inr ⟨v, hreach, hv, hp, ht⟩⟩

end

section
/-! SUPPORT. Literals with their bytes and their space at hand (42_lzma_symbols.md R104 to R106): the context as arithmetic, and
the walk of a matched literal, bit by bit along the path that its corner cases name. -/

namespace Sys2Proof.Machine

/-! ## Bytes and space at hand -/

theorem State.HasBytes.mono {m n : Nat} {s : State} (h : s.HasBytes m) (hn : n ≤ m) : s.HasBytes n :=
  ⟨Nat.le_trans hn h.1, Nat.le_trans hn h.2⟩

/-- `BCJ_ARCH` has its filter, and there is space for what stage 2 holds and `n` bytes more. -/
def State.Room (n : Nat) (s : State) : Prop :=
  archSupported s.cfg.bcjArch = true ∧ s.bcj.carry.length + n ≤ s.io.space

/-- Decoding does not touch stage 2. -/
theorem State.Room.of_decodes {n : Nat} {path : List (BitSource × Bool)} {s u : State} (h : s.Room n)
    (hd : Decodes path s u) : u.Room n := by
  obtain ⟨⟨hframe, -⟩, -⟩ := decodes_takes hd
  unfold CodeFrame at hframe
  rw [hframe]
  exact h

/-! ## The literal context -/

/-- The masks and shifts of R104 as remainders and quotients. -/
theorem litCtx_eq (s : State) : s.litCtx =
    (s.dict.pos % 2 ^ s.lz.lp) * 2 ^ s.lz.lc + (s.dict.get 0).toNat / 2 ^ (8 - s.lz.lc) := by
  rw [State.litCtx, LzmaRegs.lpMask, Nat.and_two_pow_sub_one_eq_mod, Nat.shiftLeft_eq, Nat.shiftRight_eq_div_pow]

/-- The 0x300 cells of a literal context are cells of `P`. -/
theorem literalTree_cells {s : State} (h : s.lz.lc + s.lz.lp ≤ 4) :
    literalTree s.litCtx + 0x300 ≤ Config.probCells := by
  have := litCtx_lt h
  simp only [literalTree, literalBase, Config.probCells]
  omega

/-- The end of a literal, with space for its byte. -/
theorem litByte_room {s : State} (v : Nat) (h : s.Room 1) :
    finish (litByte v s) = .next (s.produce (.ofNat 8 v)).literalDone := by
  obtain ⟨harch, hspace⟩ := h
  rw [litByte, dictPut_space _ harch hspace, Res.bind_done, finish_done]

/-! ## A matched literal -/

/-- `offset`: 0x100 while the bits agree with the match byte (R106). -/
def agreeOffset (agree : Bool) : Word32 := if agree then 0x100 else 0

/-- The match byte with `left` bits of the walk still to come: bit `left - 1` stands at bit 8 once it is tested (R106). -/
def mlitByte (m : Byte) (left : Nat) : Word32 := m.setWidth 32 <<< (9 - left)

theorem mlitByte_and_agreeOffset (m : Byte) {left : Nat} (hl : left < 8) (agree : Bool) :
    mlitByte m (left + 1) &&& agreeOffset agree = agreeOffset (agree && m.getLsbD left) := by
  cases agree with
  | false => exact BitVec.and_zero
  | true =>
    have htop : (mlitByte m (left + 1)).getLsbD 8 = m.getLsbD left := by
      rw [mlitByte, Nat.add_sub_add_right 8 1 left, BitVec.getLsbD_shiftLeft, Nat.sub_sub_self (Nat.le_of_lt hl)]
      simp [show ¬ 8 < 8 - left by omega, show left < 32 by omega]
    have htwo : agreeOffset true = BitVec.twoPow 32 8 := rfl
    rw [htwo, BitVec.and_twoPow, htop, Bool.true_and]
    rfl

/-- `offset + match_bit + sym` is the cell that the corner cases name. -/
theorem mlitCell_toNat (agree mb : Bool) {sym : Nat} (hs : sym < 2 ^ 8) :
    (agreeOffset agree + agreeOffset (agree && mb) + .ofNat 32 sym).toNat =
      if agree then 0x100 + mb.toNat * 0x100 + sym else sym := by
  have hmod (n : Nat) (hn : n ≤ 0x200) : (n + sym) % 2 ^ 32 = n + sym := Nat.mod_eq_of_lt (by omega)
  cases agree with
  | false => simpa [agreeOffset] using hmod 0 (by decide)
  | true =>
    cases mb with
    | false => simpa [agreeOffset, BitVec.toNat_add] using hmod 0x100 (by decide)
    | true => simpa [agreeOffset, BitVec.toNat_add] using hmod 0x200 (by decide)

/-- `offset` after a bit: 0x100 as long as every bit agreed. -/
theorem agreeOffset_step (agree mb : Bool) :
    agreeOffset (agree && mb) = agreeOffset (agree && mb == true) ∧
      agreeOffset agree &&& ~~~agreeOffset (agree && mb) = agreeOffset (agree && mb == false) := by
  revert agree mb
  decide

/-- One bit of the `while` of LZ_MLIT. -/
theorem mlitFrom_bit {c left sym : Nat} {m : Byte} {agree b : Bool} {s v : State} (hl : left < 8) (hs : sym < 2 ^ 8)
    (hbit : rcBit (literalTree c + if agree then 0x100 + (m.getLsbD left).toNat * 0x100 + sym else sym) s =
      .done b.toNat v) :
    mlitFrom c (left + 1) (mlitByte m (left + 1)) (agreeOffset agree) (.ofNat 32 sym) s =
      mlitFrom c left (mlitByte m left) (agreeOffset (agree && m.getLsbD left == b)) (.ofNat 32 (2 * sym + b.toNat)) v := by
  have hshift : mlitByte m (left + 1) <<< 1 = mlitByte m left := by
    rw [mlitByte, mlitByte, ← BitVec.shiftLeft_add, show 9 - (left + 1) + 1 = 9 - left by omega]
  have hdouble : BitVec.ofNat 32 sym <<< 1 = .ofNat 32 (2 * sym) := by
    apply BitVec.eq_of_toNat_eq
    simp [Nat.shiftLeft_eq]
    omega
  obtain ⟨hone, hzero⟩ := agreeOffset_step agree (m.getLsbD left)
  rw [mlitFrom, mlitByte_and_agreeOffset m hl, mlitCell_toNat _ _ hs, hbit, Res.bind_done, hshift, hdouble]
  cases b with
  | true => rw [hone, BitVec.ofNat_add]; rfl
  | false => rw [hzero]; rfl

/-- The walk along the decoded bits. -/
theorem mlitFrom_of_decodes {c sym : Nat} {m : Byte} {agree : Bool} {bits : List Bool} {s u : State}
    (hl : bits.length ≤ 8) (hs : sym < 2 ^ (9 - bits.length))
    (h : Decodes (mlitPath (literalTree c) m sym agree bits) s u) :
    mlitFrom c bits.length (mlitByte m bits.length) (agreeOffset agree) (.ofNat 32 sym) s =
      litByte (sym * 2 ^ bits.length + bitsMsb bits - 0x100) u := by
  induction bits generalizing sym agree s with
  | nil =>
    cases h
    have hsym : (BitVec.ofNat 32 sym).toNat = sym := toNat_ofNat_of_lt hs (by decide)
    simp [mlitFrom, bitsMsb, hsym]
  | cons b r ih =>
    obtain ⟨v, hv, hr⟩ := h
    rw [List.length_cons] at hl hs ⊢
    have h8 : 2 ^ (9 - (r.length + 1)) ≤ 2 ^ 8 := Nat.pow_le_pow_right (by decide) (by omega)
    have hnext : 2 * sym + b.toNat < 2 ^ (9 - r.length) := by
      have hb := Bool.toNat_le b
      rw [show 9 - r.length = 9 - (r.length + 1) + 1 by omega, Nat.pow_succ]
      omega
    rw [mlitFrom_bit hl (by omega) hv, ih (by omega) hnext hr, bitsMsb]
    congr 2
    ring

/-- With a byte for each bit the walk ends. -/
theorem exists_decodes_mlitPath {base left sym : Nat} (hb : base + 0x300 ≤ Config.probCells) (m : Byte) (agree : Bool)
    (hl : left ≤ 8) (hs : sym < 2 ^ (9 - left)) {s : State} (h : s.HasBytes left) :
    ∃ bits u, bits.length = left ∧ Decodes (mlitPath base m sym agree bits) s u := by
  induction left generalizing sym agree s with
  | zero => exact ⟨[], s, rfl, rfl⟩
  | succ left ih =>
    have h8 : 2 ^ (9 - (left + 1)) ≤ 2 ^ 8 := Nat.pow_le_pow_right (by decide) (by omega)
    have hmb := Bool.toNat_le (m.getLsbD left)
    obtain ⟨b, t, ht⟩ := exists_rcBit h
      (i := base + if agree then 0x100 + (m.getLsbD left).toNat * 0x100 + sym else sym) (by split <;> omega)
    have hnext : 2 * sym + b.toNat < 2 ^ (9 - left) := by
      have hbit := Bool.toNat_le b
      rw [show 9 - left = 9 - (left + 1) + 1 by omega, Nat.pow_succ]
      omega
    obtain ⟨bits, u, rfl, hu⟩ := ih (agree && m.getLsbD left == b) (by omega) hnext (h.of_decodeOne ht)
    exact ⟨b :: bits, u, rfl, t, ht, hu⟩

theorem litNext_val (k : Fin 12) :
    (litNext k).val = if k.val < 4 then 0 else if k.val < 10 then k.val - 3 else k.val - 6 := by
  revert k
  decide

end Sys2Proof.Machine

open Sys2Proof Sys2Proof.Machine

/-- Settles O29: the tree of the literal context returns the byte, and there is space for it. -/
theorem litProducesItsTreeByte : Obligations.LitProducesItsTreeByte := by
  refine ⟨litNext_val, fun s hcontext hc hi hspace harch => ?_⟩
  have hcells := literalTree_cells hcontext
  obtain ⟨bits, u, hl, hu⟩ := exists_decodes_tree (s := s) (base := literalTree s.litCtx) (n := 8) (by omega) ⟨hc, hi⟩
  have hroom : u.Room 1 := State.Room.of_decodes ⟨harch, hspace⟩ hu
  have htree := rcTree_of_decodes hu
  rw [hl] at htree
  exact ⟨bits, u, hl, litCtx_eq s ▸ hu, (congrArg finish (Res.bind_of_done htree)).trans (litByte_room _ hroom)⟩

/-- Settles O30: LZ_MLIT's `offset` and match bit name the cells of the path, bit by bit. -/
theorem mlitFollowsTheMatchByte : Obligations.MlitFollowsTheMatchByte := by
  refine ⟨litNext_val, fun s hcontext hc hi hspace harch => ?_⟩
  obtain ⟨bits, u, hl, hu⟩ := exists_decodes_mlitPath (s := s) (left := 8) (sym := 1) (literalTree_cells hcontext)
    (s.dict.get s.lz.rep0) true (Nat.le_refl 8) (by decide) ⟨hc, hi⟩
  have hroom : u.Room 1 := State.Room.of_decodes ⟨harch, hspace⟩ hu
  have hwalk := mlitFrom_of_decodes (Nat.le_of_eq hl) (by rw [hl]; decide) hu
  have hvalue : 1 * 2 ^ 8 + bitsMsb bits - 0x100 = bitsMsb bits := by omega
  rw [hl, hvalue] at hwalk
  exact ⟨bits, u, hl, hu, (congrArg finish hwalk).trans (litByte_room _ hroom)⟩

end

section
/-! SUPPORT. Copy packets with their bytes and their space at hand (42_lzma_symbols.md R107 to R112): some length form and some
distance form is decoded (30_encoding.md R74, R75), and the copy does not wait. -/

namespace Sys2Proof.Machine

/-! ## Bits are the field of their value -/

theorem bit_toNat_injective {b c : Bool} (h : b.toNat = c.toNat) : b = c := by
  revert b c
  decide

theorem bitsMsb_injective {l r : List Bool} (hl : l.length = r.length) (h : bitsMsb l = bitsMsb r) : l = r := by
  induction l generalizing r with
  | nil => exact (List.length_eq_zero_iff.mp hl.symm).symm
  | cons b l ih =>
    obtain ⟨c, r, rfl⟩ := List.exists_cons_of_length_eq_add_one hl.symm
    have hlen : l.length = r.length := Nat.succ.inj hl
    have hfirst (b : Bool) (r : List Bool) : bitsMsb (b :: r) / 2 ^ r.length = b.toNat := by
      rw [bitsMsb, Nat.add_comm, Nat.add_mul_div_right _ _ (Nat.two_pow_pos _), Nat.div_eq_of_lt (bitsMsb_lt r),
        Nat.zero_add]
    have hbc : b.toNat = c.toNat := by rw [← hfirst b l, ← hfirst c r, h, hlen]
    rw [bitsMsb, bitsMsb, hbc, hlen] at h
    rw [bit_toNat_injective hbc, ih hlen (by omega)]

theorem bitsLsb_injective {l r : List Bool} (hl : l.length = r.length) (h : bitsLsb l = bitsLsb r) : l = r := by
  induction l generalizing r with
  | nil => exact (List.length_eq_zero_iff.mp hl.symm).symm
  | cons b l ih =>
    obtain ⟨c, r, rfl⟩ := List.exists_cons_of_length_eq_add_one hl.symm
    have hb := Bool.toNat_le b
    have hc := Bool.toNat_le c
    rw [bitsLsb, bitsLsb] at h
    rw [bit_toNat_injective (b := b) (c := c) (by omega), ih (Nat.succ.inj hl) (by omega)]

theorem exists_putMsb {w n : Nat} {bits : List Bool} (hl : bits.length = n) (hn : n ≤ w) :
    ∃ t : BitVec w, t.toNat < 2 ^ n ∧ putMsb t.toNat n = bits := by
  have hlt := bitsMsb_lt bits
  rw [hl] at hlt
  refine ⟨.ofNat w (bitsMsb bits), ?_⟩
  rw [toNat_ofNat_of_lt hlt hn]
  exact ⟨hlt, bitsMsb_injective ((Laws.Encoding.putMsb_size _ _).trans hl.symm)
    ((bitsMsb_putMsb _ _).trans (Nat.mod_eq_of_lt hlt))⟩

theorem exists_putLsb {w n : Nat} {bits : List Bool} (hl : bits.length = n) (hn : n ≤ w) :
    ∃ t : BitVec w, t.toNat < 2 ^ n ∧ putLsb t.toNat n = bits := by
  have hlt := bitsLsb_lt bits
  rw [hl] at hlt
  refine ⟨.ofNat w (bitsLsb bits), ?_⟩
  rw [toNat_ofNat_of_lt hlt hn]
  exact ⟨hlt, bitsLsb_injective ((Laws.Encoding.putLsb_size _ _).trans hl.symm)
    ((bitsLsb_putLsb _ _).trans (Nat.mod_eq_of_lt hlt))⟩

/-! ## Bytes left over -/

@[simp] theorem treePath_length (base sym : Nat) (bits : List Bool) : (treePath base sym bits).length = bits.length := by
  induction bits generalizing sym with
  | nil => rfl
  | cons b r ih => rw [treePath, List.length_cons, ih, List.length_cons]

@[simp] theorem directPath_length (bits : List Bool) : (directPath bits).length = bits.length := List.length_map _

/-- A string of bits takes at most one of the bytes at hand for each. -/
theorem State.HasBytes.of_decodes {m n : Nat} {path : List (BitSource × Bool)} {s u : State} (h : s.HasBytes m)
    (hd : Decodes path s u) (hm : n + path.length ≤ m) : u.HasBytes n := by
  obtain ⟨hcount, hlen⟩ := h
  obtain ⟨⟨-, used, hin, hused, hleft⟩, -⟩ := decodes_takes hd
  rw [hin, List.length_append] at hlen
  exact ⟨by omega, by omega⟩

/-- A tree of `w` bits gives a field of `w` bits (R86). -/
theorem exists_decodes_field {base w : Nat} (hb : base + 2 ^ w ≤ Config.probCells) {s : State} (h : s.HasBytes w) :
    ∃ (f : BitVec w) (u : State), Decodes (treePath base 1 (putMsb f.toNat w)) s u := by
  obtain ⟨bits, u, hl, hu⟩ := exists_decodes_tree hb h
  obtain ⟨f, -, rfl⟩ := exists_putMsb hl (Nat.le_refl w)
  exact ⟨f, u, hu⟩

/-! ## Lengths -/

/-- With ten bytes at hand some length form is decoded, and `n` further bytes stay. -/
theorem exists_decodes_lenPath (l : LenCoder) {n : Nat} {s : State} (hpb : s.lz.pb ≤ 4) (h : s.HasBytes (n + 10)) :
    ∃ bits i u len, decodeLength bits = .ok (i, []) ∧ Decodes (lenPath l s.ps bits) s u ∧ u.HasBytes n ∧ len ≤ 273 ∧
      exec i u = .next (u.setLen len) := by
  have hl := lenBase_le l
  have hps := ps_lt hpb
  obtain ⟨b, t, ht⟩ := exists_rcBit h (i := choiceCell l) (by simp only [choiceCell, Config.probCells]; omega)
  have htb := h.of_decodeOne ht
  cases b with
  | false =>
    obtain ⟨f, u, hu⟩ := exists_decodes_field (base := lowTree l s.ps) (w := 3)
      (by simp only [lowTree, Config.probCells]; omega) (htb.mono (by omega))
    have hf := f.isLt
    have hdec : Decodes (lenPath l s.ps (false :: putMsb f.toNat 3)) s u := ⟨t, ht, hu⟩
    exact ⟨_, _, u, lowLength f, decodeLength_low f, hdec, h.of_decodes hdec (by simp [lenPath]),
      by rw [lowLength]; omega, rfl⟩
  | true =>
    obtain ⟨b, v, hv⟩ := exists_rcBit htb (i := choice2Cell l) (by simp only [choice2Cell, Config.probCells]; omega)
    have hvb := htb.of_decodeOne hv
    cases b with
    | false =>
      obtain ⟨f, u, hu⟩ := exists_decodes_field (base := midTree l s.ps) (w := 3)
        (by simp only [midTree, Config.probCells]; omega) (hvb.mono (by omega))
      have hf := f.isLt
      have hdec : Decodes (lenPath l s.ps (true :: false :: putMsb f.toNat 3)) s u := ⟨t, ht, v, hv, hu⟩
      exact ⟨_, _, u, midLength f, decodeLength_mid f, hdec, h.of_decodes hdec (by simp [lenPath]),
        by rw [midLength]; omega, rfl⟩
    | true =>
      obtain ⟨f, u, hu⟩ := exists_decodes_field (base := highTree l) (w := 8)
        (by simp only [highTree, Config.probCells]; omega) (hvb.mono (by omega))
      have hf := f.isLt
      have hdec : Decodes (lenPath l s.ps (true :: true :: putMsb f.toNat 8)) s u := ⟨t, ht, v, hv, hu⟩
      exact ⟨_, _, u, highLength f, decodeLength_high f, hdec, h.of_decodes hdec (by simp [lenPath]),
        by rw [highLength]; omega, rfl⟩

/-! ## Distances -/

/-- The sources of a distance's bits, after those of its slot. -/
theorem distPath_slot (ds : Nat) (slot : BitVec 6) (r : List Bool) : distPath ds (putMsb slot.toNat 6 ++ r) =
    treePath (distSlotTree ds) 1 (putMsb slot.toNat 6) ++
      if slot.toNat < 4 then []
      else if slot.toNat < 14 then treePath (distSpecialTree slot.toNat) 1 r
      else directPath (r.take (slotBits slot.toNat - 4)) ++
        treePath distAlignBase 1 (r.drop (slotBits slot.toNat - 4)) := by
  have hl := Laws.Encoding.putMsb_size slot.toNat 6
  rw [distPath, List.take_left' hl, List.drop_left' hl, bitsMsb_putMsb, Nat.mod_eq_of_lt slot.isLt]

/-- With a byte at hand for each of 36 bits some distance form is decoded. -/
theorem exists_decodes_distPath {s : State} (h : s.HasBytes 36) :
    ∃ bits i u d, decodeDistance bits = .ok (i, []) ∧ Decodes (distPath s.distState bits) s u ∧
      exec i u = .next (u.setRep0 d) := by
  have hds : s.distState ≤ 3 := Nat.min_le_right _ _
  obtain ⟨slot, t, ht⟩ := exists_decodes_field (base := distSlotTree s.distState) (w := 6)
    (by simp only [distSlotTree, distSlotBase, Config.probCells]; omega) (h.mono (by omega))
  have htb : t.HasBytes 30 := h.of_decodes ht (by rw [treePath_length, Laws.Encoding.putMsb_size])
  have hlt := slot.isLt
  have hnb : slotBits slot.toNat = slot.toNat / 2 - 1 := rfl
  by_cases h4 : slot.toNat < 4
  · have hpath := distPath_slot s.distState slot []
    rw [if_pos h4, List.append_nil, List.append_nil] at hpath
    exact ⟨_, _, t, _, decodeDistance_low (decide_eq_true h4), hpath ▸ ht, rfl⟩
  by_cases h14 : slot.toNat < 14
  · obtain ⟨r, u, hr, hu⟩ := exists_decodes_tree (slotBase_special (Nat.not_lt.mp h4) h14) (htb.mono (by omega))
    obtain ⟨f, hf, rfl⟩ := exists_putLsb (w := 5) hr (by omega)
    have hwf : (Instr.distSlot4To13 slot f).wellFormed = true := by
      simp only [Instr.wellFormed, Bool.and_eq_true, decide_eq_true_eq]
      exact ⟨⟨by omega, by omega⟩, hf⟩
    refine ⟨_, _, u, _, decodeDistance_special hwf, ?_, rfl⟩
    rw [distPath_slot, if_neg h4, if_pos h14]
    exact decodes_append.mpr ⟨t, ht, hu⟩
  · obtain ⟨xb, v, hxb, hv⟩ := exists_decodes_directPath (htb.mono (n := slotBits slot.toNat - 4) (by omega))
    obtain ⟨ab, u, hab, hu⟩ := exists_decodes_tree (base := distAlignBase) (n := 4) (by decide)
      (htb.of_decodes hv (by rw [directPath_length]; omega))
    obtain ⟨x, hx, rfl⟩ := exists_putMsb (w := 26) hxb (by omega)
    obtain ⟨a, -, rfl⟩ := exists_putLsb (w := 4) hab (Nat.le_refl 4)
    have hwf : (Instr.distSlot14To63 slot x a).wellFormed = true := by
      simp only [Instr.wellFormed, Bool.and_eq_true, decide_eq_true_eq]
      exact ⟨by omega, hx⟩
    refine ⟨_, _, u, _, decodeDistance_direct hwf, ?_, rfl⟩
    have hsize := Laws.Encoding.putMsb_size x.toNat (slotBits slot.toNat - 4)
    have hextra : Instr.slotExtraBits slot = slotBits slot.toNat := rfl
    rw [hextra, List.append_assoc, distPath_slot, if_neg h4, if_neg h14, List.take_left' hsize, List.drop_left' hsize]
    exact decodes_append.mpr ⟨t, ht, decodes_append.mpr ⟨v, hv, hu⟩⟩

/-! ## The copy -/

/-- The state after a copy packet's copy, with its space at hand, or after the `data` of its distance (R110). -/
def State.copiedOrData (s : State) : State :=
  if s.lz.rep0.toNat < s.dict.valid then copied s.lz.rep0 (min s.lz.len s.sq.uncLeft) s else s.raised .data

theorem copyMatch_room {n : Nat} {s : State} (h : s.Room n) (hn : min s.lz.len s.sq.uncLeft ≤ n) :
    finish (copyMatch s) = .next s.copiedOrData := by
  obtain ⟨harch, hspace⟩ := h
  rw [copyMatch, dictRepeat_space _ _ harch (by omega), State.copiedOrData]
  split
  · rfl
  · rfl

/-- LZ_LEN returns in the state of the form that is decoded, with the space and `n` bytes still at hand. -/
theorem exists_lzLen (l : LenCoder) {n : Nat} {s : State} (hpb : s.lz.pb ≤ 4) (h : s.HasBytes (n + 10))
    (hroom : s.Room 273) :
    ∃ bits i u v, decodeLength bits = .ok (i, []) ∧ Decodes (lenPath l s.ps bits) s u ∧ exec i u = .next v ∧
      lzLen l s = .done 0 v ∧ v.HasBytes n ∧ v.Room 273 ∧ v.lz.len ≤ 273 := by
  obtain ⟨bits, i, u, len, hd, hu, hbytes, hlen, hi⟩ := exists_decodes_lenPath l hpb h
  obtain ⟨v, hv, hiv⟩ := lzLen_of_decodes hd hu
  obtain rfl : u.setLen len = v := Host.Outcome.next.inj (hi.symm.trans hiv)
  have huroom := hroom.of_decodes hu
  exact ⟨bits, i, u, _, hd, hu, hi, hv, hbytes, huroom, hlen⟩

/-- LZ_DIST returns in the state of the form that is decoded, with the length and the space as they were. -/
theorem exists_lzDist {s : State} (h : s.HasBytes 36) (hroom : s.Room 273) :
    ∃ bits i u v, decodeDistance bits = .ok (i, []) ∧ Decodes (distPath s.distState bits) s u ∧ exec i u = .next v ∧
      lzDist s = .done 0 v ∧ v.Room 273 ∧ v.lz.len = s.lz.len := by
  obtain ⟨bits, i, u, d, hd, hu, hi⟩ := exists_decodes_distPath h
  obtain ⟨v, hv, hiv⟩ := lzDist_of_decodes hd hu
  obtain rfl : u.setRep0 d = v := Host.Outcome.next.inj (hi.symm.trans hiv)
  obtain ⟨⟨hframe, -⟩, -⟩ := decodes_takes hu
  have huroom := hroom.of_decodes hu
  have hulen : u.lz.len = s.lz.len := congrArg LzmaRegs.len hframe.lz
  exact ⟨bits, i, u, _, hd, hu, hi, hv, huroom, hulen⟩

/-- Every LONGREP: the rotation of R112, a length, and the copy. -/
theorem lzLongRep_room (n : Nat) {s : State} (hpb : s.lz.pb ≤ 4) (h : s.HasBytes 10) (hroom : s.Room 273) :
    ∃ bits i u v, decodeLength bits = .ok (i, []) ∧ Decodes (lenPath .repLen s.ps bits) (s.longRepStart n) u ∧
      exec i u = .next v ∧ finish (lzLongRep n s) = .next v.copiedOrData := by
  obtain ⟨-, -, hrot⟩ := rotate_props s.lz n
  have hps : (s.longRepStart n).ps = s.ps := by
    rw [State.ps, State.ps, State.longRepStart_lz, LzmaRegs.pbMask, LzmaRegs.pbMask, hrot, State.longRepStart_dict]
  obtain ⟨bits, i, u, v, hd, hu, hi, hlen, -, hvr, hle⟩ :=
    exists_lzLen .repLen (n := 0) (s := s.longRepStart n) (hrot.trans_le hpb) h hroom
  rw [hps] at hu
  exact ⟨bits, i, u, v, hd, hu, hi, (congrArg finish (Res.bind_of_done hlen)).trans (copyMatch_room hvr (by omega))⟩

end Sys2Proof.Machine

open Sys2Proof Sys2Proof.Machine

/-- Settles O33: 10 bytes are enough for any length and 36 for any distance, and 273 of space for any copy. -/
theorem matchDecodesLengthAndDistanceThenCopies : Obligations.MatchDecodesLengthAndDistanceThenCopies := by
  refine ⟨by decide, fun s hpb hc hi hspace harch => ?_⟩
  obtain ⟨lb, li, u1, u2, hlb, hu1, hli, hlen, hbytes, hroom, hle⟩ :=
    exists_lzLen .matchLen (n := 36) (s := s.matchStart) hpb ⟨hc, hi⟩ ⟨harch, hspace⟩
  obtain ⟨db, di, u3, u4, hdb, hu3, hdi, hdist, hroom4, hle4⟩ := exists_lzDist hbytes hroom
  refine ⟨lb, li, u1, u2, db, di, u3, u4, hlb, hu1, hli, hdb, hu3, hdi, ?_⟩
  have hrun : lzMatch s = copyMatch u4 := (Res.bind_of_done hlen).trans (Res.bind_of_done hdist)
  exact (congrArg finish hrun).trans (copyMatch_room hroom4 (by omega))

/-- Settles O34: the one byte has its space, and something is left to produce. -/
theorem shortRepCopiesOneByte : Obligations.ShortRepCopiesOneByte := by
  refine ⟨by decide, fun s hspace harch hu => ?_⟩
  have hone : min s.shortRepStart.lz.len s.shortRepStart.sq.uncLeft = 1 := by
    rw [State.shortRepStart_lz, State.shortRepStart_sq]
    exact Nat.min_eq_left hu
  have hcopy := copyMatch_room (s := s.shortRepStart) (n := 1) ⟨harch, hspace⟩ (Nat.le_of_eq hone)
  rw [State.copiedOrData, hone] at hcopy
  exact hcopy

/-- Settles O35: the list of the moved distances is the rotation of each LONGREP. -/
theorem longRepRotatesThenCopies : Obligations.LongRepRotatesThenCopies := by
  refine ⟨by decide, fun s n hpb hc hi hspace harch => ?_⟩
  match n with
  | 0 => exact lzLongRep_room 0 hpb ⟨hc, hi⟩ ⟨harch, hspace⟩
  | 1 => exact lzLongRep_room 1 hpb ⟨hc, hi⟩ ⟨harch, hspace⟩
  | 2 => exact lzLongRep_room 2 hpb ⟨hc, hi⟩ ⟨harch, hspace⟩
  | 3 => exact lzLongRep_room 3 hpb ⟨hc, hi⟩ ⟨harch, hspace⟩

end

section
/-! SUPPORT. A copy packet from any state (42_lzma_symbols.md R101, R102, R110): while its length and its distance are decoded
`state` stays at 7 or more, and once its distance has been tested the copy keeps it reachable. -/

namespace Sys2Proof.Machine

/-- Inside a copy packet. -/
def State.Copying (s : State) : Prop := 7 ≤ s.lz.state.val ∧ s.dict.valid ≤ s.dict.size

/-- Inside a copy packet, once its distance is tested: `state >= 7` and `rep0 < valid` (R102). -/
def State.Reached (s : State) : Prop := s.Copying ∧ s.lz.rep0.toNat < s.dict.valid

/-- Where the operation returns, `D` holds; it fails only with an error in `status`, or with `rep0` reachable. -/
def Res.Leaves (D : State → Prop) : Res → Prop
  | .done _ t => D t
  | .fail t => t.status = .running → t.Reached
  | .hold _ _ _ | .stop _ => True

/-- A part of a copy packet before its distance is tested. -/
def CopyingOp (f : State → Res) : Prop := ∀ s, s.Copying → (f s).Leaves State.Copying

section

variable {D E : State → Prop} {r : Res} {s t : State}

theorem Res.Leaves.bind {fr : Frame} {f : Nat → State → Res} (h : r.Leaves D) (hf : ∀ v t, D t → (f v t).Leaves E) :
    (r.bind fr f).Leaves E := by
  cases r with
  | done v t => exact hf v t h
  | hold p k t => exact trivial
  | fail t => exact h
  | stop x => exact trivial

theorem Res.Leaves.of_all (h : r.All State.Reached) : r.Leaves State.Reached := by
  cases r with
  | done v t => exact h
  | hold p k t => exact trivial
  | fail t => exact fun _ => h
  | stop x => exact trivial

/-- A packet that answers a next state without a wait and without an error. -/
theorem Res.Leaves.finish (h : r.Leaves State.Reached) (ht : Machine.finish r = .next t) (hr : t.status = .running)
    (hs : t.susp = none) : 7 ≤ t.lz.state.val ∧ t.lz.rep0.toNat < t.dict.valid := by
  have hreached : t.Reached := by
    rcases finish_eq_next.mp ht with ⟨v, rfl⟩ | rfl | ⟨p, k, u, rfl, rfl⟩
    · exact h
    · exact h hr
    · cases hs
  obtain ⟨⟨hstate, -⟩, hrep⟩ := hreached
  exact ⟨hstate, hrep⟩

theorem State.Copying.of_frame (h : s.Copying) (hf : CodeFrame s t) : t.Copying := by
  unfold State.Copying
  rw [hf.lz, hf.dict]
  exact h

/-! ## Symbols -/

theorem copying_rcByte : CopyingOp rcByte := by
  intro s h
  rcases rcByte_cases s with ⟨-, he⟩ | ⟨-, b, r, -, he⟩ | ⟨-, -, -, he⟩ | ⟨-, -, -, he⟩
  · rw [he]
    exact nofun
  · rw [he]
    exact h
  · rw [he]
    exact nofun
  · rw [he]
    exact trivial

theorem copying_rcNorm : CopyingOp rcNorm := by
  intro s h
  unfold rcNorm
  split
  · exact (copying_rcByte { s with rc := { s.rc with range := s.rc.range <<< 8 } } h).bind fun _ _ ht => ht
  · exact h

theorem copying_rcBit (i : Nat) : CopyingOp (rcBit i) := by
  intro s h
  unfold rcBit
  split
  · obtain ⟨⟨hframe, -⟩, -⟩ := decideBit_takes s i
    exact (copying_rcNorm _ (h.of_frame hframe)).bind fun _ _ ht => ht
  · exact trivial

theorem copying_rcTreeFrom (base n left sym : Nat) : CopyingOp (rcTreeFrom base n left sym) := by
  induction left generalizing sym with
  | zero => exact fun _ h => h
  | succ left ih => exact fun s h => (copying_rcBit _ s h).bind fun _ => ih _

theorem copying_rcTreeRevFrom (base left k sym v : Nat) : CopyingOp (rcTreeRevFrom base left k sym v) := by
  induction left generalizing k sym v with
  | zero => exact fun _ h => h
  | succ left ih => exact fun s h => (copying_rcBit _ s h).bind fun _ => ih _ _ _

theorem copying_rcDirectFrom (left v : Nat) : CopyingOp (rcDirectFrom left v) := by
  induction left generalizing v with
  | zero => exact fun _ h => h
  | succ left ih =>
    intro s h
    obtain ⟨⟨hframe, -⟩, -⟩ := decideDirect_takes s
    exact (copying_rcNorm _ (h.of_frame hframe)).bind fun _ => ih _

theorem copying_lenChoice2 (l : LenCoder) (b : Nat) : CopyingOp (lenChoice2 l b) := by
  intro s h
  unfold lenChoice2
  split
  · exact (copying_rcTreeFrom _ 3 3 1 s h).bind fun _ _ ht => ht
  · exact (copying_rcTreeFrom _ 8 8 1 s h).bind fun _ _ ht => ht

theorem copying_lenChoice (l : LenCoder) (b : Nat) : CopyingOp (lenChoice l b) := by
  intro s h
  unfold lenChoice
  split
  · exact (copying_rcTreeFrom _ 3 3 1 s h).bind fun _ _ ht => ht
  · exact (copying_rcBit _ s h).bind (copying_lenChoice2 l)

theorem copying_lzLen (l : LenCoder) : CopyingOp (lzLen l) := fun s h =>
  (copying_rcBit _ s h).bind (copying_lenChoice l)

theorem copying_distDirect (slot x : Nat) : CopyingOp (distDirect slot x) := fun s h =>
  (copying_rcTreeRevFrom _ 4 0 1 0 s h).bind fun _ _ ht => ht

theorem copying_distSlot (slot : Nat) : CopyingOp (distSlot slot) := by
  intro s h
  unfold distSlot
  split
  · exact h
  · split
    · exact (copying_rcTreeRevFrom _ _ 0 1 0 s h).bind fun _ _ ht => ht
    · exact (copying_rcDirectFrom _ 0 s h).bind (copying_distDirect slot)

theorem copying_lzDist : CopyingOp lzDist := fun s h => (copying_rcTreeFrom _ 6 6 1 s h).bind copying_distSlot

/-! ## The copy -/

/-- A put keeps every reachable distance reachable (R42), and stage 2 touches neither. -/
theorem dictPut_reached (b : Byte) (h : s.Reached) : (dictPut b s).All State.Reached := by
  obtain ⟨⟨hstate, hvalid⟩, hrep⟩ := h
  have hput : State.Reached { s with dict := s.dict.put b } := by
    refine ⟨⟨hstate, ?_⟩, ?_⟩
    · simp only [Dict.put_valid, Dict.put_size]
      omega
    · simp only [Dict.put_valid]
      omega
  refine (outByte_putFrame b _).mono fun t ht => ?_
  unfold PutFrame at ht
  rw [ht]
  exact hput

theorem repeatLoop_reached (dist : Word32) (fuel : Nat) (h : s.Reached) :
    (repeatLoop dist fuel s).All State.Reached := by
  induction fuel generalizing s with
  | zero => exact h
  | succ fuel ih =>
    rw [repeatLoop]
    split
    · exact (dictPut_reached _ h).bind fun _ t ht => ih (s := t.countCopy) ht
    · exact h

/-- The distance is tested before any byte is written. -/
theorem copyMatch_leaves (h : s.Copying) : (copyMatch s).Leaves State.Reached := by
  unfold copyMatch dictRepeat
  split
  · exact nofun
  · next hlt => exact .of_all (repeatLoop_reached _ _ ⟨h, Nat.not_le.mp hlt⟩)

end

/-! ## Copy packets -/

theorem matchNext_ge (k : Fin 12) : 7 ≤ (matchNext k).val := by revert k; decide

theorem shortRepNext_ge (k : Fin 12) : 7 ≤ (shortRepNext k).val := by revert k; decide

theorem longRepNext_ge (k : Fin 12) : 7 ≤ (longRepNext k).val := by revert k; decide

section

variable {s : State} (hv : s.dict.valid ≤ s.dict.size)

include hv

theorem lzMatch_leaves : (lzMatch s).Leaves State.Reached :=
  (copying_lzLen .matchLen s.matchStart ⟨matchNext_ge _, hv⟩).bind fun _ t ht =>
    (copying_lzDist t ht).bind fun _ _ => copyMatch_leaves

theorem lzShortRep_leaves : (lzShortRep s).Leaves State.Reached := copyMatch_leaves ⟨shortRepNext_ge _, hv⟩

theorem lzLongRep_leaves (n : Nat) : (lzLongRep n s).Leaves State.Reached :=
  (copying_lzLen .repLen (s.longRepStart n) ⟨longRepNext_ge _, hv⟩).bind fun _ _ => copyMatch_leaves

end

end Sys2Proof.Machine

open Sys2Proof Sys2Proof.Machine

/-- Settles O19: `state` takes its value at the start of the packet, and the copy that does not fail has tested `rep0`. -/
theorem copyPacketLeavesAReachableDistance : Obligations.CopyPacketLeavesAReachableDistance := by
  intro s t i hi _ _ hv ht hr hs
  rcases hi with rfl | rfl | rfl | rfl | rfl | rfl
  · exact (lzMatch_leaves hv).finish ht hr hs
  · exact (lzShortRep_leaves hv).finish ht hr hs
  · exact (lzLongRep_leaves hv 0).finish ht hr hs
  · exact (lzLongRep_leaves hv 1).finish ht hr hs
  · exact (lzLongRep_leaves hv 2).finish ht hr hs
  · exact (lzLongRep_leaves hv 3).finish ht hr hs

end

section
/-! SUPPORT. What stage 2 holds back (43_bcj.md R117). -/

namespace Sys2Proof.Machine

theorem archOfId_archId (arch : Arch) : archOfId (archId arch) = some arch := by cases arch <;> rfl

/-- A byte through the filter that `BCJ_ARCH` names (R115). -/
theorem emit_arch {s : State} {arch : Arch} (h : s.cfg.bcjArch = some (archId arch)) (b : Byte) :
    s.emit b = (((s.filtered arch b).1.bcj.carry.take (s.filtered arch b).2).foldl State.deliver
      (s.filtered arch b).1).outDone (s.filtered arch b).2 := by
  rw [State.emit, h, Option.bind_some, archOfId_archId]

/-- What a byte through stage 2 makes of the held bytes, and what it delivers. -/
theorem emit_streams {s : State} {arch : Arch} (h : s.cfg.bcjArch = some (archId arch)) (b : Byte) :
    let o := filter arch s.bcj.pos s.bcj.x86PrevMask (s.bcj.carry ++ [b])
    (s.emit b).bcj = ⟨s.bcj.pos + .ofNat 32 o.n, o.buf.drop o.n, o.mask⟩ ∧
      (s.emit b).io.output = s.io.output ++ o.buf.take o.n := by
  rw [emit_arch h, foldl_deliver]
  exact ⟨rfl, rfl⟩

end Sys2Proof.Machine

open Sys2Proof Sys2Proof.Machine

/-- Settles O39: a byte makes the window one longer, and the filter leaves at most its bound unfinished. -/
theorem heldBytesStayWithinTheBound : Obligations.HeldBytesStayWithinTheBound := by
  intro s arch b hs bound hheld
  have hbound : carryBound (some (archId arch)) = bound := by cases arch <;> rfl
  have hholds := filter_holds (archOfId_archId arch) s.bcj.pos s.bcj.x86PrevMask (s.bcj.carry ++ [b])
  obtain ⟨hfits, -⟩ := filter_fits arch s.bcj.pos s.bcj.x86PrevMask (s.bcj.carry ++ [b])
  obtain ⟨hbcj, -⟩ := emit_streams hs b
  rw [hbound, List.length_append, List.length_singleton] at hholds
  rw [List.length_append, List.length_singleton] at hfits
  refine ⟨?_, ?_, by cases arch <;> decide⟩
  · rw [hbcj, List.length_drop]
    omega
  · rw [filtered_carry_length]
    omega

end

section
/-! SUPPORT. The word units at the front of `carry` (43_bcj.md R119, R121, R122, R123): the unit of the relative field. -/

namespace Sys2Proof.Machine

/-- A unit of four bytes that its filter rewrites whole. -/
theorem bcjUnit_word {arch : Arch} {s : State} {u v : List Byte} (hu : u.length = 4)
    (h : filter arch s.bcj.pos s.bcj.x86PrevMask u = ⟨v, 4, s.bcj.x86PrevMask⟩) :
    bcjUnit arch u s = { s with bcj := { s.bcj with carry := v ++ s.bcj.carry.drop 4 }, ret := .num 4 } := by
  rw [bcjUnit, h, hu]

/-- A filter of words on one word. -/
theorem unitFilter_word {conv : Word32 → List Byte → List Byte} (pos mask : Word32) {u : List Byte} (hu : u.length = 4) :
    unitFilter 4 conv pos mask u = ⟨conv pos u, 4, mask⟩ := by
  have h := unitFilter_one (conv := conv) pos mask (r := []) hu (by decide)
  rwa [List.append_nil, List.append_nil] at h

/-! ## FILTER[powerpc] -/

/-- The mask of R119 clears all but the field. -/
theorem ppcMask_parts (hi : BitVec 6) (a : BitVec 24) (lo : BitVec 2) :
    (hi ++ a ++ lo : Word32) &&& 0x03FFFFFC = 0#6 ++ a ++ 0#2 := by
  show (hi ++ a ++ lo : Word32) &&& (0#6 ++ BitVec.allOnes 24 ++ 0#2 : Word32) = _
  rw [BitVec.and_append, BitVec.and_append, BitVec.and_zero, BitVec.and_zero, BitVec.and_allOnes]

/-- The opcode and the link bit are put back around a field. -/
theorem ppcOpcode_parts (a : BitVec 24) : (0#6 ++ a ++ 0#2 : Word32) ||| 0x48000001 = 0b010010#6 ++ a ++ 0b01#2 := by
  show (0#6 ++ a ++ 0#2 : Word32) ||| (0b010010#6 ++ 0#24 ++ 0b01#2 : Word32) = _
  rw [BitVec.or_append, BitVec.or_append, BitVec.zero_or, BitVec.zero_or, BitVec.or_zero]

theorem ppcField_toNat (a : BitVec 24) : (0#6 ++ a ++ 0#2 : Word32).toNat = 4 * a.toNat := by
  have := a.isLt
  rw [BitVec.toNat_append, BitVec.toNat_append, ← Nat.shiftLeft_add_eq_or_of_lt (by decide)]
  simp [Nat.shiftLeft_eq]
  omega

/-- The word of a `bl` stays one, and its new field plus the position is the old field (R119). -/
theorem ppcTarget_word {pos : Word32} (hpos : pos.toNat % 4 = 0) (a : BitVec 24) :
    ∃ a' : BitVec 24, ppcTarget pos (0b010010#6 ++ a ++ 0b01#2) = 0b010010#6 ++ a' ++ 0b01#2 ∧
      (4 * a'.toNat + pos.toNat) % 2 ^ 26 = 4 * a.toNat := by
  refine ⟨((0#6 ++ a ++ 0#2 : Word32) - pos).extractLsb' 2 24, ?_, ?_⟩
  · rw [ppcTarget, ppcMask_parts, ← ppcWord_parts ((0#6 ++ a ++ 0#2 : Word32) - pos), ppcMask_parts, ppcOpcode_parts,
      ppcWord_parts]
  · have ha := a.isLt
    have hp := pos.isLt
    rw [BitVec.extractLsb'_toNat, BitVec.toNat_sub, ppcField_toNat, Nat.shiftRight_eq_div_pow]
    omega

theorem ppcUnit_bytes (pos : Word32) (a : BitVec 24) :
    ppcUnit pos (bcjBytes (.bcjPpcBl a)) = putBe (ppcTarget pos (0b010010#6 ++ a ++ 0b01#2)) 4 := by
  show (if isPpcBl (be32 _ _ _ _) then putBe (ppcTarget pos (be32 _ _ _ _)) 4 else _) = _
  rw [be32_bytes, if_pos (ppcWord_of_field a).1]

/-! ## FILTER[arm] and FILTER[armthumb] -/

/-- The new field plus the position and 8 is the old field (R121). -/
theorem armTarget_field {pos : Word32} (hpos : pos.toNat % 4 = 0) (a : BitVec 24) :
    (4 * (armTarget pos a).toNat + pos.toNat + 8) % 2 ^ 26 = 4 * a.toNat := by
  have ha := a.isLt
  have hp := pos.isLt
  simp only [armTarget, BitVec.toNat_setWidth, BitVec.toNat_ushiftRight, BitVec.toNat_sub, BitVec.toNat_shiftLeft,
    BitVec.toNat_add, show (8 : Word32).toNat = 8 from rfl, Nat.shiftLeft_eq, Nat.shiftRight_eq_div_pow]
  omega

theorem armUnit_bytes (pos : Word32) (a : BitVec 24) :
    armUnit pos (bcjBytes (.bcjArmBl a)) = bcjBytes (.bcjArmBl (armTarget pos a)) := by
  show putLe (armTarget pos (le24 _ _ _)) 3 ++ [0xEB] = _
  rw [le24_bytes]
  rfl

/-- The new field plus the position and 4 is the old field (R122). -/
theorem thumbTarget_field {pos : Word32} (hpos : pos.toNat % 2 = 0) (a : BitVec 22) :
    (2 * (thumbTarget pos a).toNat + pos.toNat + 4) % 2 ^ 23 = 2 * a.toNat := by
  have ha := a.isLt
  have hp := pos.isLt
  simp only [thumbTarget, BitVec.toNat_setWidth, BitVec.toNat_ushiftRight, BitVec.toNat_sub, BitVec.toNat_shiftLeft,
    BitVec.toNat_add, show (4 : Word32).toNat = 4 from rfl, Nat.shiftLeft_eq, Nat.shiftRight_eq_div_pow]
  omega

theorem thumbScan_bytes (pos : Word32) (a : BitVec 22) :
    thumbScan pos (bcjBytes (.bcjThumbBl a)) = (bcjBytes (.bcjThumbBl (thumbTarget pos a)), 4) := by
  have hd := decodeBcj_armthumb a []
  rw [List.append_nil] at hd
  have hlen : (bcjBytes (.bcjThumbBl a)).length = 4 := rfl
  generalize bcjBytes (.bcjThumbBl a) = u at hd hlen
  match u, hlen with
  | [b0, b1, b2, b3], _ =>
    have hd : (if isThumbBl b1 b3 then Except.ok (Instr.bcjThumbBl (thumbField b0 b1 b2 b3), [])
      else .error DecodeError.notABranch) = .ok (.bcjThumbBl a, []) := hd
    split_ifs at hd with ht
    injection hd with hd
    injection hd with hfield
    injection hfield with hfield
    rw [thumbScan_pair pos ht (r := []) (by decide), List.append_nil, hfield]
    rfl

/-! ## FILTER[sparc] -/

/-- The displacement field of a CALL and its bits 29..22, which are all equal to `neg`. -/
def sparcWord (neg : Bool) (d : BitVec 22) : Word32 := (if neg then 0x1FF#10 else 0x100#10) ++ d

theorem sparcWord_toNat (neg : Bool) (d : BitVec 22) :
    (sparcWord neg d).toNat = (if neg then 0x1FF else 0x100) * 2 ^ 22 + d.toNat := by
  rw [sparcWord, BitVec.toNat_append, ← Nat.shiftLeft_add_eq_or_of_lt d.isLt, Nat.shiftLeft_eq]
  cases neg <;> rfl

theorem isSparcCall_sparcWord (neg : Bool) (d : BitVec 22) : isSparcCall (sparcWord neg d) = true := by
  cases neg
  · exact Bool.or_eq_true_iff.mpr (.inl (beq_iff_eq.mpr (sparcWord_of_field 0x100#10 d).1))
  · exact Bool.or_eq_true_iff.mpr (.inr (beq_iff_eq.mpr (sparcWord_of_field 0x1FF#10 d).1))

/-- R123 rebuilds a CALL from the low 23 bits of a displacement. -/
theorem sparcRebuild (x : Word32) :
    (0x40000000 - (x &&& 0x400000)) ||| 0x40000000 ||| (x &&& 0x3FFFFF) =
      sparcWord (x.getLsbD 22) (x.extractLsb' 0 22) := by
  have hsign : x &&& 0x400000 = if x.getLsbD 22 then 0x400000 else 0 := BitVec.and_twoPow x 22
  have hlow : x &&& 0x3FFFFF = 0#10 ++ x.extractLsb' 0 22 := by
    have hx : x.extractLsb' 22 10 ++ x.extractLsb' 0 22 = x := by
      rw [BitVec.extractLsb'_append_extractLsb'_eq_extractLsb' (by decide)]
      exact BitVec.extractLsb'_eq_self
    show x &&& (0#10 ++ BitVec.allOnes 22 : Word32) = _
    rw [← hx, BitVec.and_append, BitVec.and_zero, BitVec.and_allOnes, hx]
  have hhigh : (0x40000000 - if x.getLsbD 22 then 0x400000 else 0 : Word32) ||| 0x40000000 =
      (if x.getLsbD 22 then 0x1FF#10 else 0x100#10) ++ 0#22 := by
    cases x.getLsbD 22 <;> rfl
  rw [hsign, hlow, hhigh, BitVec.or_append, BitVec.or_zero, BitVec.zero_or, sparcWord]

/-- A CALL stays one, and its new displacement plus the position is the old one (R123). -/
theorem sparcTarget_word {pos : Word32} (hpos : pos.toNat % 4 = 0) (neg : Bool) (d : BitVec 22) :
    ∃ neg' d', sparcTarget pos (sparcWord neg d) = sparcWord neg' d' ∧
      (4 * (neg'.toNat * 2 ^ 22 + d'.toNat) + pos.toNat) % 2 ^ 25 = 4 * (neg.toNat * 2 ^ 22 + d.toNat) := by
  refine ⟨_, _, sparcRebuild _, ?_⟩
  have hd := d.isLt
  have hp := pos.isLt
  have hword := sparcWord_toNat neg d
  have hneg : (if neg then 0x1FF else 0x100 : Nat) = 0x100 + 0xFF * neg.toNat := by cases neg <;> rfl
  have hle := neg.toNat_le
  rw [BitVec.getLsbD, Nat.toNat_testBit, BitVec.extractLsb'_toNat, BitVec.toNat_ushiftRight, BitVec.toNat_sub,
    BitVec.toNat_shiftLeft, hword, hneg]
  simp only [Nat.shiftLeft_eq, Nat.shiftRight_eq_div_pow]
  omega

theorem sparcUnit_bytes (pos : Word32) (neg : Bool) (d : BitVec 22) :
    sparcUnit pos (putBe (sparcWord neg d) 4) = putBe (sparcTarget pos (sparcWord neg d)) 4 := by
  show (if isSparcCall (be32 _ _ _ _) then putBe (sparcTarget pos (be32 _ _ _ _)) 4 else _) = _
  rw [be32_bytes, if_pos (isSparcCall_sparcWord neg d)]

end Sys2Proof.Machine

open Sys2Proof Sys2Proof.Machine

/-- Settles O48, architecture by architecture: the filter rewrites the one word of the window, and the new field is the
old one less the position. -/
theorem wordBranchesBecomeRelative : Obligations.WordBranchesBecomeRelative := by
  intro s
  refine ⟨fun a hpos => ?_, fun a hpos => ?_, fun a hpos => ?_, fun d neg hpos => ?_⟩
  · obtain ⟨a', hword, hfield⟩ := ppcTarget_word hpos a
    have hfilter : filter .powerpc s.bcj.pos s.bcj.x86PrevMask (bcjBytes (.bcjPpcBl a)) = _ := unitFilter_word _ _ rfl
    rw [ppcUnit_bytes, hword] at hfilter
    exact ⟨a', congrArg Host.Outcome.next (bcjUnit_word rfl hfilter), hfield⟩
  · have hfilter : filter .arm s.bcj.pos s.bcj.x86PrevMask (bcjBytes (.bcjArmBl a)) = _ := unitFilter_word _ _ rfl
    rw [armUnit_bytes] at hfilter
    exact ⟨_, congrArg Host.Outcome.next (bcjUnit_word rfl hfilter), armTarget_field hpos a⟩
  · have hfilter : filter .armthumb s.bcj.pos s.bcj.x86PrevMask (bcjBytes (.bcjThumbBl a)) =
        ⟨bcjBytes (.bcjThumbBl (thumbTarget s.bcj.pos a)), 4, s.bcj.x86PrevMask⟩ := by
      rw [filter, thumbScan_bytes]
    exact ⟨_, congrArg Host.Outcome.next (bcjUnit_word rfl hfilter), thumbTarget_field hpos a⟩
  · intro call
    obtain ⟨neg', d', hword, hfield⟩ := sparcTarget_word hpos neg d
    have hcall : ∀ n x, bcjBytes (call n x) = putBe (sparcWord n x) 4 := fun n x => by cases n <;> rfl
    have hexec : exec (call neg d) s = .next (bcjUnit .sparc (bcjBytes (call neg d)) s) := by cases neg <;> rfl
    have hfilter : filter .sparc s.bcj.pos s.bcj.x86PrevMask (putBe (sparcWord neg d) 4) = _ := unitFilter_word _ _ rfl
    rw [sparcUnit_bytes, hword] at hfilter
    refine ⟨neg', d', ?_, hfield⟩
    rw [hexec, hcall, hcall, bcjUnit_word rfl hfilter]

end

section
/-! SUPPORT. A branch in one slot of a bundle (43_bcj.md R120): the bits of the slot after FILTER[ia64]. -/

namespace Sys2Proof.Machine

/-! ## The rewritten slot word -/

/-- The 21-bit target of a slot word: bits 13..32, and bit 36 above them. -/
def ia64Imm {w : Nat} (x : BitVec w) : Nat := (x.extractLsb' 13 20).toNat + 2 ^ 20 * (x.extractLsb' 36 1).toNat

/-- `rel` of R120: the target in units of 16 bytes, less the position. -/
def ia64Rel (pos : Word32) (norm : BitVec 48) : BitVec 48 :=
  (((((norm.extractLsb' 13 20).setWidth 32 ||| ((norm.extractLsb' 36 1).setWidth 32 <<< 20)) <<< 4) - pos) >>> 4).setWidth 48

theorem ia64Target_eq (pos : Word32) (norm : BitVec 48) :
    ia64Target pos norm = (norm &&& ~~~(0x8FFFFF#48 <<< 13)) ||| ((ia64Rel pos norm &&& 0xFFFFF) <<< 13) |||
      ((ia64Rel pos norm &&& 0x100000) <<< 16) := rfl

/-- Bits 13..32 and 36 are those of `rel`, and the others stay. -/
theorem getLsbD_ia64Target (pos : Word32) (norm : BitVec 48) {k : Nat} (hk : k < 48) :
    (ia64Target pos norm).getLsbD k =
      if 13 ≤ k ∧ k ≤ 32 then (ia64Rel pos norm).getLsbD (k - 13)
      else if k = 36 then (ia64Rel pos norm).getLsbD 20 else norm.getLsbD k := by
  have hkept : ∀ k < 48, (~~~(0x8FFFFF#48 <<< 13)).getLsbD k = !decide (13 ≤ k ∧ k ≤ 32 ∨ k = 36) := by decide
  have hlow : ∀ k < 48, (0xFFFFF : BitVec 48).getLsbD k = decide (k < 20) := by decide
  have hhigh : ∀ k < 48, (0x100000 : BitVec 48).getLsbD k = decide (k = 20) := by decide
  rw [ia64Target_eq]
  simp only [BitVec.getLsbD_or, BitVec.getLsbD_and, BitVec.getLsbD_shiftLeft, hkept k hk, hlow (k - 13) (by omega),
    hhigh (k - 16) (by omega), hk, decide_true, Bool.true_and]
  by_cases h1 : 13 ≤ k ∧ k ≤ 32
  · have h13 : ¬ k < 13 := by omega
    have h20 : k - 13 < 20 := by omega
    have h36 : ¬ k - 16 = 20 := by omega
    simp [h1, h13, h20, h36]
  · by_cases h2 : k = 36
    · simp [h2]
    · have h20 : k < 13 ∨ ¬ k - 13 < 20 := by omega
      have h36 : ¬ k - 16 = 20 := by omega
      simp [h1, h2, h36]
      omega

theorem ia64Imm_lt {w : Nat} (x : BitVec w) : ia64Imm x < 2 ^ 21 := by
  have hlow := (x.extractLsb' 13 20).isLt
  have hhigh := (x.extractLsb' 36 1).isLt
  unfold ia64Imm
  omega

theorem ia64Rel_toNat (pos : Word32) (norm : BitVec 48) :
    (ia64Rel pos norm).toNat = (2 ^ 32 - pos.toNat + 16 * ia64Imm norm) % 2 ^ 32 / 16 := by
  have himm := ia64Imm_lt norm
  unfold ia64Imm at *
  have hlow := (norm.extractLsb' 13 20).isLt
  have hhigh := (norm.extractLsb' 36 1).isLt
  have hor : ((norm.extractLsb' 13 20).setWidth 32 ||| ((norm.extractLsb' 36 1).setWidth 32 <<< 20)).toNat =
      (norm.extractLsb' 13 20).toNat + 2 ^ 20 * (norm.extractLsb' 36 1).toNat := by
    rw [BitVec.toNat_or, BitVec.toNat_shiftLeft, BitVec.toNat_setWidth, BitVec.toNat_setWidth, Nat.or_comm,
      Nat.mod_eq_of_lt (a := (norm.extractLsb' 36 1).toNat) (by omega),
      Nat.mod_eq_of_lt (a := _ <<< 20) (by rw [Nat.shiftLeft_eq]; omega),
      Nat.mod_eq_of_lt (a := (norm.extractLsb' 13 20).toNat) (by omega),
      ← Nat.shiftLeft_add_eq_or_of_lt hlow, Nat.shiftLeft_eq]
    omega
  rw [ia64Rel, BitVec.toNat_setWidth, BitVec.toNat_ushiftRight, BitVec.toNat_sub, BitVec.toNat_shiftLeft, hor,
    Nat.shiftLeft_eq, Nat.shiftRight_eq_div_pow]
  omega

/-- The target of the rewritten word. -/
theorem ia64Imm_target (pos : Word32) (norm : BitVec 48) :
    ia64Imm (ia64Target pos norm) = (ia64Rel pos norm).toNat % 2 ^ 21 := by
  have hlow : (ia64Target pos norm).extractLsb' 13 20 = (ia64Rel pos norm).extractLsb' 0 20 := by
    apply BitVec.eq_of_getLsbD_eq
    intro k hk
    rw [BitVec.getLsbD_extractLsb', BitVec.getLsbD_extractLsb', getLsbD_ia64Target _ _ (by omega), if_pos (by omega),
      Nat.add_sub_cancel_left, Nat.zero_add]
  have hhigh : (ia64Target pos norm).extractLsb' 36 1 = (ia64Rel pos norm).extractLsb' 20 1 := by
    apply BitVec.eq_of_getLsbD_eq
    intro k hk
    obtain rfl : k = 0 := by omega
    rw [BitVec.getLsbD_extractLsb', BitVec.getLsbD_extractLsb', getLsbD_ia64Target _ _ (by omega), if_neg (by omega),
      if_pos rfl]
  rw [ia64Imm, hlow, hhigh, BitVec.extractLsb'_toNat, BitVec.extractLsb'_toNat, Nat.shiftRight_eq_div_pow,
    Nat.shiftRight_eq_div_pow]
  omega

/-- The new target plus the position is the old target (R120). -/
theorem ia64Target_imm {pos : Word32} (hpos : pos.toNat % 16 = 0) (norm : BitVec 48) :
    (16 * ia64Imm (ia64Target pos norm) + pos.toNat) % 2 ^ 25 = 16 * ia64Imm norm := by
  have himm := ia64Imm_lt norm
  have hp := pos.isLt
  rw [ia64Imm_target, ia64Rel_toNat]
  omega

/-- The target lies within the 41 bits of a slot. -/
theorem ia64Imm_setWidth (x : BitVec 48) : ia64Imm (x.setWidth 41) = ia64Imm x := by
  have h (start len : Nat) (hb : start + len ≤ 41) : (x.setWidth 41).extractLsb' start len = x.extractLsb' start len := by
    apply BitVec.eq_of_getLsbD_eq
    intro k hk
    rw [BitVec.getLsbD_extractLsb', BitVec.getLsbD_extractLsb', BitVec.getLsbD_setWidth, decide_eq_true (p := start + k < 41)
      (by omega), Bool.true_and]
  rw [ia64Imm, ia64Imm, h 13 20 (by decide), h 36 1 (by decide)]

/-! ## The rewritten bundle -/

theorem ia64PutInstr_putInstr {l : List Byte} (h : l.length = 16) (slot : Fin 3) (x y : BitVec 48) :
    ia64PutInstr (ia64PutInstr l slot x) slot y = ia64PutInstr l slot y := by
  have hk := ia64BytePos_le slot
  have htake : (ia64PutInstr l slot x).take (ia64BytePos slot) = l.take (ia64BytePos slot) := by
    rw [ia64PutInstr, List.append_assoc]
    exact List.take_left' (by rw [List.length_take]; omega)
  have hdrop : (ia64PutInstr l slot x).drop (ia64BytePos slot + 6) = l.drop (ia64BytePos slot + 6) := by
    rw [ia64PutInstr]
    exact List.drop_left' (by rw [List.length_append, List.length_take, putLe_length]; omega)
  rw [ia64PutInstr, htake, hdrop]
  rfl

/-- The bits below a slot stay, and a word that keeps the bits beyond the slot changes the slot alone. -/
theorem ia64Field_rewritten {x t : BitVec 48} {res : Nat} (hr : res ≤ 7) {norm : BitVec 41}
    (ht : ∀ k, 41 ≤ k → k < 48 → t.getLsbD k = (ia64Field x res norm >>> res).getLsbD k) :
    (ia64Field x res norm &&& ((1#48 <<< res) - 1)) ||| (t <<< res) = ia64Field x res (t.setWidth 41) := by
  have hlow : ∀ res ≤ 7, ∀ k < 48, ((1#48 <<< res) - 1).getLsbD k = decide (k < res) := by decide
  apply BitVec.eq_of_getLsbD_eq
  intro k hk
  rw [BitVec.getLsbD_or, BitVec.getLsbD_and, hlow res hr k hk, BitVec.getLsbD_shiftLeft, getLsbD_ia64Field x hr,
    getLsbD_ia64Field x hr]
  by_cases h1 : k < res
  · rw [if_neg (by omega), if_neg (by omega)]
    simp [h1]
  · by_cases h2 : k < res + 41
    · rw [if_pos (by omega), if_pos (by omega), BitVec.getLsbD_setWidth]
      simp [hk, h1]
      omega
    · have hbeyond := ht (k - res) (by omega) (by omega)
      rw [BitVec.getLsbD_ushiftRight, getLsbD_ia64Field x hr, if_neg (by omega)] at hbeyond
      rw [if_neg (by omega), if_neg (by omega), hbeyond, Nat.add_sub_cancel' (by omega)]
      simp [hk, h1]

/-- A branch put in a slot is rewritten there: its target plus the position is the old one, and no other bit changes. -/
theorem ia64Slot_putSlot {pos : Word32} (hpos : pos.toNat % 16 = 0) {l : List Byte} (h : l.length = 16) (slot : Fin 3)
    {norm : BitVec 41} (hn : Instr.isIa64Branch norm = true) :
    ∃ norm' : BitVec 41, ia64Slot pos (ia64PutSlot l slot norm) slot = ia64PutSlot l slot norm' ∧
      (16 * ia64Imm norm' + pos.toNat) % 2 ^ 25 = 16 * ia64Imm norm ∧
      ∀ k, ¬ (13 ≤ k ∧ k ≤ 32) → k ≠ 36 → norm'.getLsbD k = norm.getLsbD k := by
  have hr := ia64BitRes_le slot
  have hinstr : ia64Instr (ia64PutSlot l slot norm) slot = ia64Field (ia64Instr l slot) (ia64BitRes slot) norm := by
    rw [ia64PutSlot_eq, ia64Instr_putInstr h]
  have hwide : (ia64Field (ia64Instr l slot) (ia64BitRes slot) norm >>> ia64BitRes slot).setWidth 41 = norm := by
    rw [ia64Slot_norm, extract_ia64Field _ hr]
  refine ⟨(ia64Target pos (ia64Field (ia64Instr l slot) (ia64BitRes slot) norm >>> ia64BitRes slot)).setWidth 41,
    ?_, ?_, ?_⟩
  · unfold ia64Slot
    dsimp only
    rw [hinstr, hwide, if_pos hn, ia64Field_rewritten hr fun k h41 h48 => ?_]
    · rw [ia64PutSlot_eq, ia64PutInstr_putInstr h, ia64PutSlot_eq]
    · rw [getLsbD_ia64Target _ _ h48, if_neg (by omega), if_neg (by omega)]
  · rw [ia64Imm_setWidth, ia64Target_imm hpos, ← ia64Imm_setWidth, hwide]
  · intro k hout h36
    by_cases hk : k < 41
    · rw [BitVec.getLsbD_setWidth, getLsbD_ia64Target _ _ (by omega), if_neg hout, if_neg h36,
        ← BitVec.getLsbD_setWidth, hwide]
    · rw [BitVec.getLsbD_of_ge _ k (by omega), BitVec.getLsbD_of_ge _ k (by omega)]

end Sys2Proof.Machine

open Sys2Proof Sys2Proof.Machine

/-- Settles O50: the bundle of `carry` with the branch in its slot, rewritten there. -/
theorem ia64BranchesBecomeRelative : Obligations.Ia64BranchesBecomeRelative := by
  intro s slot norm hn hpos hlen imm window
  have hbundle : (s.bcj.carry.take 16).length = 16 := by rw [List.length_take]; omega
  obtain ⟨norm', hslot, himm, hbits⟩ := ia64Slot_putSlot hpos hbundle slot hn
  refine ⟨norm', ?_, himm, hbits⟩
  rw [exec, execBcjIa64BranchSlot, hslot]

end

section
/-! SUPPORT. FILTER[x86] (43_bcj.md R118): what one pass of its scan does, and a CALL or JMP alone in the window. -/

namespace Sys2Proof.Machine

/-! ## One pass of the scan -/

/-- The bits `keep` of the mask `gap` bytes after the last E8 or E9: none beyond 3 bytes. With `keep` = 7 they are the mask
that counts at the scan's byte. -/
def x86Aged (keep : Word32) (gap : Int) (mask : Word32) : Word32 :=
  if gap > 3 then 0 else (mask <<< (gap - 1).toNat) &&& keep

theorem and7_toNat (x : Word32) : (x &&& 7).toNat = x.toNat % 8 :=
  (BitVec.toNat_and _ _).trans (Nat.and_two_pow_sub_one_eq_mod _ 3)

theorem x86Aged_near {keep : Word32} {gap : Int} {mask : Word32} (h : x86Aged keep gap mask ≠ 0) : gap ≤ 3 := by
  by_contra hfar
  exact h (if_pos (by omega))

theorem x86Aged_one (keep mask : Word32) : x86Aged keep 1 mask = mask &&& keep := by
  rw [x86Aged, if_neg (by decide)]
  exact congrArg (· &&& keep) (BitVec.shiftLeft_zero mask)

/-- The mask does not let the CALL or JMP of the five bytes `w` be converted. -/
def x86Skips (m : Word32) (w : List Byte) : Bool :=
  m != 0 && (!x86Allowed m.toNat || x86Test (w.getD (4 - x86BitNum m.toNat) 0))

/-- The CALL or JMP of the five bytes `w` is converted: the mask lets it be, and its top byte is 00 or FF. -/
def x86Converts (m : Word32) (w : List Byte) : Bool := !x86Skips m w && x86Test (w.getD 4 0)

/-- The operand of a converted CALL or JMP at position `pos`. -/
def x86Operand (pos m op : Word32) : Word32 := x86SignExtend (x86Dest (pos + 5) m.toNat 3 op)

theorem x86BitNum_le (m : Nat) : x86BitNum m ≤ 3 := by
  by_cases h : m < 8
  · revert m; decide
  · rw [x86BitNum, List.getD_eq_default _ _ (by simpa using h)]
    decide

section

variable {pos : Word32} {p : List Byte} {b0 b1 b2 b3 b4 : Byte} {r : List Byte} {prev : Int} {mask : Word32}

/-- The byte at the scan is no E8 or E9. -/
theorem x86Step_plain (h : ¬ isX86Branch b0 = true) :
    x86Step pos ⟨p.length, prev, mask, p ++ b0 :: r⟩ = ⟨(p ++ [b0]).length, prev, mask, p ++ [b0] ++ r⟩ := by
  simp [x86Step, h]

/-- A CALL or JMP at the scan, converted or noted in the mask. -/
theorem x86Step_branch (h : isX86Branch b0 = true) {m : Word32} (hm : x86Aged 7 (p.length - prev) mask = m) :
    x86Step pos ⟨p.length, prev, mask, p ++ b0 :: b1 :: b2 :: b3 :: b4 :: r⟩ =
      if x86Converts m [b0, b1, b2, b3, b4] then
        let u := b0 :: putLe (x86Operand (pos + .ofNat 32 p.length) m (le32 b1 b2 b3 b4)) 4
        ⟨(p ++ u).length, p.length, m, p ++ u ++ r⟩
      else ⟨(p ++ [b0]).length, p.length, (m <<< 1) ||| 1, p ++ [b0] ++ b1 :: b2 :: b3 :: b4 :: r⟩ := by
  have hget (j : Nat) (hj : j < 5) : (p ++ b0 :: b1 :: b2 :: b3 :: b4 :: r).getD (p.length + j) 0 =
      [b0, b1, b2, b3, b4].getD j 0 := by
    rw [List.getD_append_right _ _ _ _ (by omega), Nat.add_sub_cancel_left]
    exact List.getD_append [b0, b1, b2, b3, b4] r 0 j hj
  have hput (v : Word32) : putLe32At (p ++ b0 :: b1 :: b2 :: b3 :: b4 :: r) (p.length + 1) v = p ++ b0 :: putLe v 4 ++ r := by
    rw [putLe32At, List.take_length_add_append, Nat.add_assoc, List.drop_length_add_append]
    simp
  have hbranch : (!isX86Branch ((p ++ b0 :: b1 :: b2 :: b3 :: b4 :: r).getD p.length 0)) = false := by
    rw [← Nat.add_zero p.length, hget 0 (by decide)]
    simpa using h
  have hskips : ((p.length : Int) - prev ≤ 3 ∧ m ≠ 0 ∧ (!x86Allowed m.toNat ||
      x86Test ((p ++ b0 :: b1 :: b2 :: b3 :: b4 :: r).getD (p.length + 4 - x86BitNum m.toNat) 0)) = true) ↔
      x86Skips m [b0, b1, b2, b3, b4] = true := by
    have hbit := x86BitNum_le m.toNat
    rw [Nat.add_sub_assoc (by omega), hget _ (by omega), x86Skips, Bool.and_eq_true, bne_iff_ne]
    exact and_iff_right_of_imp fun hc => x86Aged_near (hm ▸ hc.1)
  unfold x86Step
  dsimp only
  rw [x86Aged] at hm
  rw [hm, hget 4 (by decide), hget 1 (by decide), hget 2 (by decide), hget 3 (by decide), hput, hbranch,
    if_neg (by decide), x86Converts]
  simp only [hskips, List.append_assoc, List.length_append]
  cases x86Skips m [b0, b1, b2, b3, b4] <;> rfl

end

/-! ## A CALL or JMP alone in the window -/

/-- FILTER[x86] on one CALL or JMP. -/
theorem filterX86_unit {b0 : Byte} (h : isX86Branch b0 = true) (pos mask op : Word32) :
    filterX86 pos mask (b0 :: putLe op 4) =
      if x86Converts (mask &&& 7) (b0 :: putLe op 4) then ⟨b0 :: putLe (x86Operand pos (mask &&& 7) op) 4, 5, 0⟩
      else ⟨b0 :: putLe op 4, 1, (((mask &&& 7) <<< 1) ||| 1) &&& 0x3F⟩ := by
  have hstep : x86Step pos ⟨0, -1, mask, b0 :: putLe op 4⟩ = _ :=
    x86Step_branch (p := []) (r := []) (prev := -1) h (x86Aged_one 7 mask)
  have hop : x86Operand (pos + .ofNat 32 ([] : List Byte).length) (mask &&& 7)
      (le32 (byteAt op 0) (byteAt op 1) (byteAt op 2) (byteAt op 3)) = x86Operand pos (mask &&& 7) op := by
    rw [le32_bytes]
    exact congrArg (x86Operand · _ op) (BitVec.add_zero pos)
  rw [hop] at hstep
  have hloop : filterX86 pos mask (b0 :: putLe op 4) =
      let st := x86Step pos ⟨0, -1, mask, b0 :: putLe op 4⟩
      let gap : Int := st.i - st.prevPos
      ⟨st.buf, st.i, x86Aged 0x3F gap st.mask⟩ := rfl
  rw [hloop, hstep]
  change _ = if x86Converts (mask &&& 7) [b0, _, _, _, _] = true then _ else _
  split_ifs
  · rfl
  · exact congrArg (FilterOut.mk _ 1) (x86Aged_one 0x3F _)

/-! ## The mask and the operand's bytes -/

/-- `TEST` on the value of a byte. -/
def plainByte (n : Nat) : Bool := n == 0 || n == 255

theorem x86Test_eq : ∀ b : Byte, x86Test b = plainByte b.toNat := by decide

/-- The lowest bit of the operand byte that a mask points at. -/
def x86Low (m : Nat) : Nat := if m = 1 then 16 else if m = 2 then 8 else 0

theorem x86Low_cases (m : Nat) : x86Low m = 16 ∨ x86Low m = 8 ∨ x86Low m = 0 := by
  unfold x86Low
  split_ifs <;> simp

/-- Byte `k` of a word, as a number. -/
theorem byteAt_toNat (x : Word32) (k : Nat) : (byteAt x k).toNat = x.toNat / 2 ^ (8 * k) % 256 := by
  rw [byteAt, BitVec.extractLsb'_toNat, Nat.shiftRight_eq_div_pow]

/-- The masks that let a CALL or JMP be converted, and the operand byte that each points at. -/
theorem x86Skips_eq_false_iff {m : Word32} (hm : m.toNat < 8) (b0 : Byte) (op : Word32) :
    x86Skips m (b0 :: putLe op 4) = false ↔
      m.toNat = 0 ∨ ((m.toNat = 1 ∨ m.toNat = 2 ∨ m.toNat = 4) ∧
        plainByte (op.toNat / 2 ^ x86Low m.toNat % 256) = false) := by
  have hallowed : ∀ n < 8, x86Allowed n = true ↔ n = 0 ∨ n = 1 ∨ n = 2 ∨ n = 4 := by decide
  have hbyte : ∀ n, n = 1 ∨ n = 2 ∨ n = 4 →
      x86Test ((b0 :: putLe op 4).getD (4 - x86BitNum n) 0) = plainByte (op.toNat / 2 ^ x86Low n % 256) := by
    rintro n (rfl | rfl | rfl)
    · exact (x86Test_eq _).trans (congrArg plainByte (byteAt_toNat op 2))
    · exact (x86Test_eq _).trans (congrArg plainByte (byteAt_toNat op 1))
    · exact (x86Test_eq _).trans (congrArg plainByte (byteAt_toNat op 0))
  have hzero : m = 0 ↔ m.toNat = 0 := by rw [← BitVec.toNat_inj]; rfl
  rw [x86Skips, Bool.and_eq_false_iff, bne_eq_false_iff_eq, hzero, Bool.or_eq_false_iff, Bool.not_eq_false', hallowed _ hm]
  refine or_congr_right' fun h0 => ?_
  rw [or_iff_right h0]
  exact and_congr_right fun h => by rw [hbyte _ h]

/-! ## The operand -/

/-- The complement of the `n` low bits of a word. -/
theorem flipLow_toNat (x : Word32) {n : Nat} (hn : n ≤ 32) :
    (x ^^^ .ofNat 32 (2 ^ n - 1)).toNat % 2 ^ n = 2 ^ n - 1 - x.toNat % 2 ^ n := by
  have hones : (BitVec.ofNat 32 (2 ^ n - 1)).setWidth n = BitVec.allOnes n := by
    rw [BitVec.setWidth_ofNat_of_le hn]
    apply BitVec.eq_of_toNat_eq
    rw [BitVec.toNat_ofNat, BitVec.toNat_allOnes, Nat.mod_eq_of_lt (Nat.sub_lt (Nat.two_pow_pos n) Nat.one_pos)]
  rw [← BitVec.toNat_setWidth, BitVec.setWidth_xor, hones, BitVec.xor_allOnes, BitVec.toNat_not, BitVec.toNat_setWidth]

/-- One pass of the inner loop with an allowed mask. -/
theorem x86Dest_pass {m : Nat} (hm : m = 1 ∨ m = 2 ∨ m = 4) (ip : Word32) (fuel : Nat) (src : Word32) :
    x86Dest ip m (fuel + 1) src =
      if plainByte ((src - ip).toNat / 2 ^ x86Low m % 256) then
        x86Dest ip m fuel ((src - ip) ^^^ .ofNat 32 (2 ^ (x86Low m + 8) - 1))
      else src - ip := by
  have hbyte (k : Nat) : x86Test (((src - ip) >>> k).setWidth 8) = plainByte ((src - ip).toNat / 2 ^ k % 256) := by
    rw [x86Test_eq, BitVec.toNat_setWidth, BitVec.toNat_ushiftRight, Nat.shiftRight_eq_div_pow]
  rw [x86Dest]
  dsimp only
  rw [hbyte]
  rcases hm with rfl | rfl | rfl <;> rfl

/-- A second pass gives the complement of the operand in the low bits, whose tested byte is again neither 00 nor FF: it is
the last pass (log entry 8). -/
theorem x86Dest_allowed {m : Nat} (hm : m = 1 ∨ m = 2 ∨ m = 4) (ip src : Word32)
    (hsrc : plainByte (src.toNat / 2 ^ x86Low m % 256) = false) :
    x86Dest ip m 3 src =
      if plainByte ((src - ip).toNat / 2 ^ x86Low m % 256) then ((src - ip) ^^^ .ofNat 32 (2 ^ (x86Low m + 8) - 1)) - ip
      else src - ip := by
  rw [x86Dest_pass hm, x86Dest_pass hm]
  have hlast : plainByte ((((src - ip) ^^^ .ofNat 32 (2 ^ (x86Low m + 8) - 1)) - ip).toNat / 2 ^ x86Low m % 256) =
      false := by
    have hlow := x86Low_cases m
    have hflip := flipLow_toNat (src - ip) (n := x86Low m + 8) (by omega)
    rw [plainByte, Bool.or_eq_false_iff, beq_eq_false_iff_ne, beq_eq_false_iff_ne] at hsrc ⊢
    generalize (src - ip) ^^^ .ofNat 32 (2 ^ (x86Low m + 8) - 1) = y at hflip ⊢
    have hs := src.isLt
    have hi := ip.isLt
    have hy := y.isLt
    rw [BitVec.toNat_sub] at hflip ⊢
    generalize x86Low m = low at hlow hflip hsrc ⊢
    rcases hlow with rfl | rfl | rfl <;> omega
  rw [hlast, if_neg Bool.false_ne_true]

/-- One pass is enough without a mask, or where the byte pointed at comes out neither 00 nor FF. -/
theorem x86Dest_once {m : Nat} {ip src : Word32}
    (hm : m = 0 ∨ ((m = 1 ∨ m = 2 ∨ m = 4) ∧ plainByte (src.toNat / 2 ^ x86Low m % 256) = false))
    (hdest : m = 0 ∨ plainByte ((src - ip).toNat / 2 ^ x86Low m % 256) = false) : x86Dest ip m 3 src = src - ip := by
  rcases hm with rfl | ⟨hm, hsrc⟩
  · rfl
  · rw [x86Dest_allowed hm ip src hsrc, hdest.resolve_left (by omega), if_neg Bool.false_ne_true]

theorem x86SignExtend_low (x : Word32) : (x86SignExtend x).toNat % 2 ^ 25 = x.toNat % 2 ^ 25 := by
  rw [x86SignExtend, BitVec.toNat_signExtend, BitVec.toNat_setWidth, BitVec.toNat_setWidth]
  split_ifs <;> omega

/-- The low 25 bits of a converted operand are those that the inner loop leaves. -/
theorem x86Operand_low {pos m op dest : Word32} (h : x86Dest (pos + 5) m.toNat 3 op = dest) :
    (x86Operand pos m op).toNat % 2 ^ 25 = dest.toNat % 2 ^ 25 := by
  rw [x86Operand, h, x86SignExtend_low]

/-- The top byte of a converted operand is 00 or FF. -/
theorem x86SignExtend_top (x : Word32) : plainByte ((x86SignExtend x).toNat / 2 ^ 24) = true := by
  rw [plainByte, Bool.or_eq_true, beq_iff_eq, beq_iff_eq, x86SignExtend, BitVec.toNat_signExtend, BitVec.msb_eq_decide,
    BitVec.toNat_setWidth, BitVec.toNat_setWidth]
  have := x.isLt
  by_cases h : 2 ^ (25 - 1) ≤ x.toNat % 2 ^ 25
  · rw [decide_eq_true h, if_pos rfl]
    omega
  · rw [decide_eq_false h, if_neg Bool.false_ne_true]
    omega

end Sys2Proof.Machine

open Sys2Proof Sys2Proof.Machine

/-- Settles O49, by FILTER[x86] on the five bytes of the unit: whether the mask and the top byte let it be converted, and what
the passes of the inner loop make of its operand. -/
theorem x86CallsBecomeRelative : Obligations.X86CallsBecomeRelative := by
  intro s jmp op plain m low byteAtLow top converts ip
  have hmask : (s.bcj.x86PrevMask &&& 7).toNat = m := and7_toNat _
  have hm : m < 8 := Nat.mod_lt _ (by decide)
  have hbranch : isX86Branch (if jmp then 0xE9 else 0xE8) = true := by cases jmp <;> rfl
  have hconv : x86Converts (s.bcj.x86PrevMask &&& 7) ((if jmp then 0xE9 else 0xE8) :: putLe op 4) = true ↔ converts := by
    have htop : x86Test (byteAt op 3) = plain top := by
      rw [x86Test_eq, byteAt_toNat, Nat.mod_eq_of_lt (by have := op.isLt; omega)]
      rfl
    rw [x86Converts, Bool.and_eq_true, Bool.not_eq_true', x86Skips_eq_false_iff (by omega), hmask]
    exact and_congr_right fun _ => iff_of_eq (congrArg (· = true) htop)
  have hexec : exec (.bcjX86CallJmp jmp op) s = .next (bcjUnit .x86 (bcjBytes (.bcjX86CallJmp jmp op)) s) := rfl
  rw [hexec, bcjUnit]
  have hfilter : filter .x86 s.bcj.pos s.bcj.x86PrevMask (bcjBytes (.bcjX86CallJmp jmp op)) = _ :=
    filterX86_unit hbranch s.bcj.pos s.bcj.x86PrevMask op
  rw [hfilter]
  refine ⟨fun hc => ⟨x86Operand s.bcj.pos (s.bcj.x86PrevMask &&& 7) op, ?_, x86SignExtend_top _, fun hfirst => ?_,
    fun h0 hsecond => ?_⟩, fun hc => ?_⟩
  · rw [if_pos (hconv.mpr hc)]
    rfl
  · have hop := x86Operand_low (hmask ▸ x86Dest_once hc.1 hfirst)
    have hip : ip.toNat = (s.bcj.pos.toNat + 5) % 2 ^ 32 := BitVec.toNat_add _ _
    have hp := s.bcj.pos.isLt
    rw [BitVec.toNat_sub, hip] at hop
    omega
  · obtain ⟨hallowed, hbyte⟩ := hc.1.resolve_left h0
    exact x86Operand_low (hmask ▸ (x86Dest_allowed hallowed ip op hbyte).trans (if_pos hsecond))
  · have hnoted : ∀ m < 8, ((BitVec.ofNat 32 m <<< 1) ||| 1) &&& 0x3F = .ofNat 32 (2 * m + 1) := by decide
    have hlive : s.bcj.x86PrevMask &&& 7 = .ofNat 32 m := by rw [← hmask, BitVec.ofNat_toNat, BitVec.setWidth_eq]
    rw [if_neg (mt hconv.mp hc), hlive, hnoted m hm]
    rfl

end

section
/-! SUPPORT. Filters piece by piece (43_bcj.md R115): a filter goes on with what it held and the bytes after it as if it had
seen them at once. -/

namespace Sys2Proof.Machine

/-! ## Going on with a filter -/

/-- The final bytes `u`, and then what a filter makes of the rest. -/
def FilterOut.after (o : FilterOut) (u : List Byte) : FilterOut := { o with buf := u ++ o.buf, n := u.length + o.n }

/-- A filter from where it stopped: the final bytes of `o`, and then the filter on the others and `c`. -/
def FilterOut.goOn (o : FilterOut) (f : Word32 → Word32 → List Byte → FilterOut) (pos : Word32)
    (c : List Byte) : FilterOut :=
  (f (pos + .ofNat 32 o.n) o.mask (o.buf.drop o.n ++ c)).after (o.buf.take o.n)

/-- The filter gives on a longer window what it gives when it goes on after this one. -/
def Resumes (f : Word32 → Word32 → List Byte → FilterOut) (pos mask : Word32) (l : List Byte) : Prop :=
  ∀ c, f pos mask (l ++ c) = (f pos mask l).goOn f pos c

/-- Going on after final bytes `u` and more. -/
theorem FilterOut.after_goOn (o : FilterOut) (u : List Byte) (f : Word32 → Word32 → List Byte → FilterOut)
    (pos : Word32) (c : List Byte) : (o.after u).goOn f pos c = (o.goOn f (pos + .ofNat 32 u.length) c).after u := by
  simp only [goOn, after, List.take_length_add_append, List.drop_length_add_append, BitVec.ofNat_add, BitVec.add_assoc,
    List.append_assoc, List.length_append, Nat.add_assoc]

section

variable {f : Word32 → Word32 → List Byte → FilterOut} {pos mask : Word32}

/-- A window that stays as received, none of it final. -/
theorem resumes_short {l : List Byte} (h : f pos mask l = ⟨l, 0, mask⟩) : Resumes f pos mask l := by
  intro c
  simp [h, FilterOut.goOn, FilterOut.after]

/-- A window whose front `u` becomes the final bytes `v`, whatever follows. -/
theorem resumes_front {u v r : List Byte} {mask' : Word32}
    (hf : ∀ c, f pos mask (u ++ (r ++ c)) = (f (pos + .ofNat 32 v.length) mask' (r ++ c)).after v)
    (hr : Resumes f (pos + .ofNat 32 v.length) mask' r) : Resumes f pos mask (u ++ r) := by
  intro c
  have hnil := hf []
  rw [List.append_nil] at hnil
  rw [List.append_assoc, hf, hr c, hnil, FilterOut.after_goOn]

end

/-! ## Filters of units -/

theorem unitFilter_cons {size : Nat} (hs : 0 < size) {conv : Word32 → List Byte → List Byte}
    (hc : ∀ p l, l.length = size → (conv p l).length = size) (pos mask : Word32) {u : List Byte} (hu : u.length = size)
    (r : List Byte) :
    unitFilter size conv pos mask (u ++ r) =
      (unitFilter size conv (pos + .ofNat 32 (conv pos u).length) mask r).after (conv pos u) := by
  have hcount : (u ++ r).length / size = r.length / size + 1 := by
    rw [List.length_append, hu, Nat.add_div_left _ hs]
  rw [unitFilter, hcount, mapUnits, List.take_left' hu, List.drop_left' hu, FilterOut.after, hc pos u hu, Nat.succ_mul,
    Nat.add_comm]
  rfl

theorem unitFilter_resumes {size : Nat} (hs : 0 < size) {conv : Word32 → List Byte → List Byte}
    (hc : ∀ p l, l.length = size → (conv p l).length = size) (pos mask : Word32) (l : List Byte) :
    Resumes (unitFilter size conv) pos mask l := by
  induction hn : l.length using Nat.strong_induction_on generalizing pos l with
  | _ n ih =>
    by_cases hl : l.length < size
    · exact resumes_short (unitFilter_short pos mask hl)
    · have hu : (l.take size).length = size := by rw [List.length_take]; omega
      rw [← List.take_append_drop size l]
      exact resumes_front (fun c => unitFilter_cons hs hc pos mask hu _)
        (ih _ (by rw [List.length_drop]; omega) _ _ rfl)

/-! ## FILTER[armthumb] -/

theorem thumbFilter_pair {b0 b1 b2 b3 : Byte} (h : isThumbBl b1 b3 = true) (pos mask : Word32) (r : List Byte) :
    filter .armthumb pos mask (b0 :: b1 :: b2 :: b3 :: r) =
      (filter .armthumb (pos + 4) mask r).after (thumbPair (thumbTarget pos (thumbField b0 b1 b2 b3))) := by
  rw [filter, thumbScan, if_pos h]
  exact congrArg (FilterOut.mk _ · mask) (Nat.add_comm _ 4)

theorem thumbFilter_step {b0 b1 b2 b3 : Byte} (h : ¬ isThumbBl b1 b3 = true) (pos mask : Word32) (r : List Byte) :
    filter .armthumb pos mask (b0 :: b1 :: b2 :: b3 :: r) =
      (filter .armthumb (pos + 2) mask (b2 :: b3 :: r)).after [b0, b1] := by
  rw [filter, thumbScan, if_neg h]
  exact congrArg (FilterOut.mk _ · mask) (Nat.add_comm _ 2)

theorem thumbFilter_short {pos mask : Word32} {l : List Byte} (h : l.length ≤ 3) :
    filter .armthumb pos mask l = ⟨l, 0, mask⟩ := by
  rw [filter, thumbScan_short pos (Nat.lt_succ_of_le h)]

theorem thumbFilter_resumes (pos mask : Word32) (l : List Byte) : Resumes (filter .armthumb) pos mask l := by
  induction pos, l using thumbScan.induct with
  | case1 pos b0 b1 b2 b3 r h _ _ _ ih =>
    exact resumes_front (u := [b0, b1, b2, b3]) (fun c => thumbFilter_pair h pos mask (r ++ c)) ih
  | case2 pos b0 b1 b2 b3 r h _ _ _ ih =>
    exact resumes_front (u := [b0, b1]) (fun c => thumbFilter_step h pos mask (r ++ c)) ih
  | case3 _ _ h => exact resumes_short (thumbFilter_short (length_le_three h))

/-! ## FILTER[x86] -/

/-- FILTER[x86] as a recursion over the window, with the mask that counts at its front. -/
def x86Fold (pos m : Word32) : List Byte → FilterOut
  | b0 :: b1 :: b2 :: b3 :: b4 :: r =>
    if isX86Branch b0 then
      if x86Converts m [b0, b1, b2, b3, b4] then
        (x86Fold (pos + 5) 0 r).after (b0 :: putLe (x86Operand pos m (le32 b1 b2 b3 b4)) 4)
      else (x86Fold (pos + 1) (((m <<< 1) ||| 1) &&& 7) (b1 :: b2 :: b3 :: b4 :: r)).after [b0]
    else (x86Fold (pos + 1) ((m <<< 1) &&& 7) (b1 :: b2 :: b3 :: b4 :: r)).after [b0]
  | l => ⟨l, 0, m⟩

theorem x86Fold_short (pos m : Word32) {l : List Byte} (h : l.length ≤ 4) : x86Fold pos m l = ⟨l, 0, m⟩ := by
  match l with
  | [] | [_] | [_, _] | [_, _, _] | [_, _, _, _] => rfl

theorem length_le_four {l : List Byte} (h : ∀ b0 b1 b2 b3 b4 r, l = b0 :: b1 :: b2 :: b3 :: b4 :: r → False) :
    l.length ≤ 4 := by
  match l with
  | [] | [_] | [_, _] | [_, _, _] | [_, _, _, _] => simp
  | b0 :: b1 :: b2 :: b3 :: b4 :: r => exact (h b0 b1 b2 b3 b4 r rfl).elim

theorem x86Fold_resumes (pos m : Word32) (l : List Byte) : Resumes x86Fold pos m l := by
  induction pos, m, l using x86Fold.induct with
  | case1 pos m b0 b1 b2 b3 b4 r hb hc ih =>
    exact resumes_front (u := [b0, b1, b2, b3, b4])
      (fun c => (if_pos hb).trans (if_pos hc)) ih
  | case2 pos m b0 b1 b2 b3 b4 r hb hc ih =>
    exact resumes_front (u := [b0]) (fun c => (if_pos hb).trans (if_neg hc)) ih
  | case3 pos m b0 b1 b2 b3 b4 r hb ih =>
    exact resumes_front (u := [b0]) (fun c => if_neg hb) ih
  | case4 _ _ _ h => exact resumes_short (x86Fold_short _ _ (length_le_four h))

theorem and7_shiftLeft (x : Word32) : ((x &&& 7) <<< 1) &&& (7 : Word32) = (x <<< 1) &&& (7 : Word32) := by
  apply BitVec.eq_of_toNat_eq
  rw [and7_toNat, and7_toNat, BitVec.toNat_shiftLeft, BitVec.toNat_shiftLeft, and7_toNat, Nat.shiftLeft_eq, Nat.shiftLeft_eq]
  omega

/-- A bit that leaves the low three no longer counts. -/
theorem shiftLeft_three_and7 (x : Word32) : (x <<< 3) &&& (7 : Word32) = 0 := by
  apply BitVec.eq_of_toNat_eq
  rw [and7_toNat, BitVec.toNat_shiftLeft, Nat.shiftLeft_eq]
  show _ = 0
  omega

/-- A byte further on, the mask that counts has moved by one bit. -/
theorem x86Aged_succ {gap : Int} (hgap : 1 ≤ gap) (mask : Word32) :
    x86Aged 7 (gap + 1) mask = (x86Aged 7 gap mask <<< 1) &&& 7 := by
  rcases (by omega : gap = 1 ∨ gap = 2 ∨ gap = 3 ∨ gap > 3) with rfl | rfl | rfl | hfar
  · rw [x86Aged_one, and7_shiftLeft]
    rfl
  · have h : x86Aged 7 2 mask = (mask <<< 1) &&& 7 := rfl
    rw [h, and7_shiftLeft, ← BitVec.shiftLeft_add]
    rfl
  · have h : x86Aged 7 3 mask = (mask <<< 2) &&& 7 := rfl
    rw [h, and7_shiftLeft, ← BitVec.shiftLeft_add, shiftLeft_three_and7]
    rfl
  · rw [x86Aged, if_pos (by omega), x86Aged, if_pos hfar]
    rfl

theorem x86Aged_and (gap : Int) (mask : Word32) : x86Aged 0x3F gap mask &&& 7 = x86Aged 7 gap mask := by
  unfold x86Aged
  split_ifs
  · rfl
  · rw [BitVec.and_assoc]
    rfl

/-- The bytes `p`, and then a scan that gives `o`. -/
def X86Scan.Gives (st : X86Scan) (p : List Byte) (o : FilterOut) : Prop :=
  st.buf = p ++ o.buf ∧ st.i = p.length + o.n ∧ x86Aged 7 (st.i - st.prevPos) st.mask = o.mask

theorem X86Scan.Gives.after {st : X86Scan} {p u r : List Byte} {pos m : Word32}
    (h : st.Gives (p ++ u) (x86Fold (pos + .ofNat 32 (p ++ u).length) m r)) :
    st.Gives p ((x86Fold (pos + .ofNat 32 p.length + .ofNat 32 u.length) m r).after u) := by
  rw [BitVec.add_assoc, ← BitVec.ofNat_add, ← List.length_append]
  obtain ⟨hbuf, hi, hmask⟩ := h
  refine ⟨?_, ?_, hmask⟩
  · rw [hbuf, List.append_assoc, FilterOut.after]
  · rw [hi, FilterOut.after, List.length_append, Nat.add_assoc]

/-- The scan of R118 from the byte after `p` on, `gap` bytes after the last E8 or E9. -/
theorem x86Loop_gives (pos : Word32) {lim : Nat} (fuel : Nat) (p w : List Byte) {prev gap : Int} {mask m : Word32}
    (hlim : p.length + w.length = lim + 4) (hfuel : w.length ≤ fuel + 4) (hgap : (p.length : Int) - prev = gap)
    (hlast : 1 ≤ gap) (hm : x86Aged 7 gap mask = m) :
    (x86Loop pos lim fuel ⟨p.length, prev, mask, p ++ w⟩).Gives p (x86Fold (pos + .ofNat 32 p.length) m w) := by
  induction fuel generalizing p w prev gap mask m with
  | zero =>
    subst hgap
    rw [x86Loop, x86Fold_short _ _ (by omega)]
    exact ⟨rfl, rfl, hm⟩
  | succ fuel ih =>
    rw [x86Loop]
    split_ifs with hlt
    · match w, (show 5 ≤ w.length by dsimp only at hlt; omega) with
      | b0 :: b1 :: b2 :: b3 :: b4 :: r, _ =>
        have hlength (u v : List Byte) (hu : u.length + v.length = r.length + 5) :
            (p ++ u).length + v.length = lim + 4 := by
          simp only [List.length_cons] at hlim
          rw [List.length_append]
          omega
        have hpassed (u : List Byte) : ((p ++ u).length : Int) - p.length = u.length := by
          rw [List.length_append, Int.natCast_add]
          omega
        have hrest : (b1 :: b2 :: b3 :: b4 :: r).length ≤ fuel + 4 := Nat.le_of_succ_le_succ hfuel
        by_cases hb : isX86Branch b0 = true
        · rw [x86Step_branch hb (by rw [hgap, hm]), x86Fold, if_pos hb]
          split_ifs
          · have hr : r.length ≤ fuel + 4 := (Nat.le_add_right _ 4).trans hrest
            exact (ih _ r (gap := 5) (hlength _ r (Nat.add_comm 5 _)) hr (hpassed _) (by decide) rfl).after
          · exact (ih _ _ (hlength [b0] _ (Nat.add_comm 1 _)) hrest (hpassed [b0]) (Int.le_refl 1)
              (x86Aged_one 7 _)).after
        · have hnext : ((p ++ [b0]).length : Int) - prev = gap + 1 := by
            have := hpassed [b0]
            rw [List.length_singleton] at this
            omega
          rw [x86Step_plain hb, x86Fold, if_neg hb]
          exact (ih _ _ (hlength [b0] _ (Nat.add_comm 1 _)) hrest hnext (by omega)
            ((x86Aged_succ hlast mask).trans (by rw [hm]))).after
    · subst hgap
      rw [x86Fold_short _ _ (by dsimp only at hlt; omega)]
      exact ⟨rfl, rfl, hm⟩

/-! ## Every filter -/

/-- The filters with the three bits of the mask that count (R118). -/
def filterLow (arch : Arch) (pos m : Word32) (l : List Byte) : FilterOut :=
  match arch with
  | .x86 => x86Fold pos m l
  | _ => filter arch pos m l

theorem filterX86_eq_fold (pos mask : Word32) (l : List Byte) :
    { filterX86 pos mask l with mask := (filterX86 pos mask l).mask &&& 7 } = x86Fold pos (mask &&& 7) l := by
  unfold filterX86
  split_ifs with hl
  · rw [x86Fold_short _ _ hl]
  · have hgives := x86Loop_gives pos (l.length - 4) [] l (lim := l.length - 4) (prev := -1) (gap := 1)
      (by rw [List.length_nil]; omega) (by omega) rfl (by decide) (x86Aged_one 7 mask)
    have hpos : pos + .ofNat 32 ([] : List Byte).length = pos := BitVec.add_zero pos
    rw [hpos] at hgives
    obtain ⟨hbuf, hi, hmask⟩ := hgives
    rw [List.length_nil, Nat.zero_add] at hi
    exact (FilterOut.mk.injEq ..).mpr ⟨hbuf, hi, (x86Aged_and _ _).trans hmask⟩

/-- Of the mask a filter uses and passes on the three bits that count. -/
theorem filter_low (arch : Arch) (pos mask : Word32) (l : List Byte) :
    { filter arch pos mask l with mask := (filter arch pos mask l).mask &&& 7 } = filterLow arch pos (mask &&& 7) l := by
  cases arch with
  | x86 => exact filterX86_eq_fold pos mask l
  | powerpc | ia64 | arm | armthumb | sparc => rfl

theorem filterLow_resumes (arch : Arch) (pos m : Word32) (l : List Byte) : Resumes (filterLow arch) pos m l := by
  cases arch with
  | x86 => exact x86Fold_resumes pos m l
  | powerpc => exact unitFilter_resumes (by decide) (fun p u h => (ppcUnit_length p u).trans h) pos m l
  | ia64 => exact unitFilter_resumes (by decide) ia64Unit_length pos m l
  | arm => exact unitFilter_resumes (by decide) (fun p u h => (armUnit_length p u).trans h) pos m l
  | armthumb => exact thumbFilter_resumes pos m l
  | sparc => exact unitFilter_resumes (by decide) (fun p u h => (sparcUnit_length p u).trans h) pos m l

theorem filterLow_n_le (arch : Arch) (pos mask : Word32) (l : List Byte) :
    (filterLow arch pos (mask &&& 7) l).n ≤ (filterLow arch pos (mask &&& 7) l).buf.length := by
  obtain ⟨hlen, hn⟩ := filter_fits arch pos mask l
  rw [← filter_low]
  exact hn.trans (Nat.le_of_eq hlen.symm)

/-- From `s` to `t`, stage 2 took bytes of which a filter has made `o`: the final ones are delivered, and the others held. -/
structure Filtered (o : FilterOut) (s t : State) : Prop where
  arch : t.cfg.bcjArch = s.cfg.bcjArch
  delivered : t.io.output = s.io.output ++ o.buf.take o.n
  held : t.bcj.carry = o.buf.drop o.n
  pos : t.bcj.pos = s.bcj.pos + .ofNat 32 o.n
  mask : t.bcj.x86PrevMask &&& 7 = o.mask

theorem foldl_emit_filtered {arch : Arch} {s : State} (hs : s.cfg.bcjArch = some (archId arch)) (hc : s.bcj.carry = [])
    (l : List Byte) : Filtered (filterLow arch s.bcj.pos (s.bcj.x86PrevMask &&& 7) l) s (l.foldl State.emit s) := by
  induction l using List.reverseRecOn with
  | nil =>
    have hnil : filterLow arch s.bcj.pos (s.bcj.x86PrevMask &&& 7) [] = ⟨[], 0, s.bcj.x86PrevMask &&& 7⟩ := by
      cases arch <;> rfl
    rw [hnil]
    exact ⟨rfl, (List.append_nil _).symm, hc, (BitVec.add_zero _).symm, rfl⟩
  | append_singleton l b ih =>
    have hn := filterLow_n_le arch s.bcj.pos s.bcj.x86PrevMask l
    rw [filterLow_resumes arch s.bcj.pos _ l [b], FilterOut.goOn, List.foldl_append, List.foldl_cons, List.foldl_nil]
    generalize filterLow arch s.bcj.pos (s.bcj.x86PrevMask &&& 7) l = o at ih hn
    generalize l.foldl State.emit s = t at ih
    obtain ⟨harch, hdelivered, hheld, hpos, hmask⟩ := ih
    rw [← hheld, ← hpos, ← hmask, ← filter_low]
    obtain ⟨hbcj, hout⟩ := emit_streams (harch.trans hs) b
    generalize filter arch t.bcj.pos t.bcj.x86PrevMask (t.bcj.carry ++ [b]) = f at hbcj hout
    refine ⟨?_, ?_, ?_, ?_, ?_⟩
    · rw [emit_frame]
      exact harch
    · rw [hout, hdelivered, FilterOut.after, List.take_length_add_append, List.append_assoc]
    · rw [hbcj, FilterOut.after, List.drop_length_add_append]
    · rw [hbcj, FilterOut.after, List.length_take_of_le hn, BitVec.ofNat_add, ← BitVec.add_assoc, ← hpos]
    · rw [hbcj, FilterOut.after]

end Sys2Proof.Machine

open Sys2Proof Sys2Proof.Machine

/-- Settles O21: whatever the bytes before, a filter goes on from what it held as on the whole. -/
theorem filterPerByteIsFilterOfTheWhole : Obligations.FilterPerByteIsFilterOfTheWhole := by
  intro arch s bs hs hc ho
  obtain ⟨-, hdelivered, hheld, -, -⟩ := foldl_emit_filtered hs hc bs
  rw [hdelivered, hheld, ho, List.nil_append, List.take_append_drop, ← filter_low]

end

section
/-! SUPPORT. The check engines (44_checks.md R124, R126 to R129, R132): a step of a CRC table against its rounds, a check type
as an instruction, and the comparison of the tag. -/

namespace Sys2Proof.Machine

/-! ## CRC (R127 to R129) -/

/-- A round is linear, and the polynomial comes in only where bit 0 is set. -/
theorem crcRound_xor {w : Nat} (poly a b : BitVec w) (hb : b.getLsbD 0 = false) :
    crcRound poly (a ^^^ b) = crcRound poly a ^^^ (b >>> 1) := by
  simp only [crcRound, BitVec.getLsbD_xor, hb, Bool.xor_false, BitVec.ushiftRight_xor_distrib]
  ac_rfl

/-- Bits that `n` rounds do not bring down to bit 0 are only shifted by them. -/
theorem crcRounds_xor {w : Nat} (poly a b : BitVec w) (n : Nat) (hb : ∀ i < n, b.getLsbD i = false) :
    crcRounds poly n (a ^^^ b) = crcRounds poly n a ^^^ (b >>> n) := by
  induction n generalizing a b with
  | zero => simp [crcRounds]
  | succ n ih =>
    have hshift : ∀ i < n, (b >>> 1).getLsbD i = false := fun i hi => by
      rw [BitVec.getLsbD_ushiftRight]
      exact hb _ (by omega)
    rw [crcRounds, crcRound_xor poly a b (hb 0 n.succ_pos), ih _ _ hshift, crcRounds, ← BitVec.shiftRight_add,
      Nat.add_comm 1 n]

/-- The rounds of a byte's entry in the table, with the rest of the register shifted, are the rounds of the whole register. -/
theorem crcRounds_table {w : Nat} (poly x : BitVec w) (b : Byte) :
    crcRounds poly 8 (((x ^^^ b.setWidth w).setWidth 8).setWidth w) ^^^ (x >>> 8) =
      crcRounds poly 8 (x ^^^ b.setWidth w) := by
  generalize hy : x ^^^ b.setWidth w = y
  have hhigh : x >>> 8 = (y ^^^ (y.setWidth 8).setWidth w) >>> 8 := by
    subst hy
    ext i hi
    simp
  have hlow : ∀ i < 8, (y ^^^ (y.setWidth 8).setWidth w).getLsbD i = false := fun i hi => by
    by_cases hw : i < w
    · simp [hw, hi]
    · exact BitVec.getLsbD_of_ge _ _ (Nat.le_of_not_lt hw)
  have hsplit : (y.setWidth 8).setWidth w ^^^ (y ^^^ (y.setWidth 8).setWidth w) = y := by
    rw [BitVec.xor_comm y, ← BitVec.xor_assoc, BitVec.xor_self, BitVec.zero_xor]
  rw [hhigh, ← crcRounds_xor _ _ _ _ hlow, hsplit]

theorem crc32Step_eq_rounds (c : Word32) (b : Byte) :
    crc32Step c b = ~~~ crcRounds crc32Poly 8 (~~~ c ^^^ b.setWidth 32) := by
  have hnot (x : Word32) : x ^^^ 0xFFFFFFFF = ~~~ x := BitVec.xor_allOnes
  simp only [crc32Step, t32, hnot, crcRounds_table]

theorem crc64Step_eq_rounds (c : Word64) (b : Byte) :
    crc64Step c b = ~~~ crcRounds crc64Poly 8 (~~~ c ^^^ b.setWidth 64) := by
  have hnot (x : Word64) : x ^^^ 0xFFFFFFFFFFFFFFFF = ~~~ x := BitVec.xor_allOnes
  simp only [crc64Step, t64, hnot, crcRounds_table]

/-! ## The engine's registers (R126, R130) -/

theorem exec_chkUpdate (b : Byte) (s : State) : exec (.chkUpdate b) s = .next { s with chk := s.chk.update b } := rfl

theorem update_none {c : Check} (h : c.engine = .none) (b : Byte) : c.update b = c := by rw [Check.update, h]

theorem update_crc32 {c : Check} (h : c.engine = .crc32) (b : Byte) :
    c.update b = { c with crc32 := ~~~ crcRounds crc32Poly 8 (~~~ c.crc32 ^^^ b.setWidth 32) } := by
  rw [Check.update, h, ← crc32Step_eq_rounds]

theorem update_crc64 {c : Check} (h : c.engine = .crc64) (b : Byte) :
    c.update b = { c with crc64 := ~~~ crcRounds crc64Poly 8 (~~~ c.crc64 ^^^ b.setWidth 64) } := by
  rw [Check.update, h, ← crc64Step_eq_rounds]

theorem update_sha256 {c : Check} (h : c.engine = .sha256) (b : Byte) : c.update b = shaByte c b := by
  rw [Check.update, h]

/-- A byte that does not fill the block is held. -/
theorem update_sha256_held {c : Check} (h : c.engine = .sha256) (hlen : c.shaBuf.length ≠ 63) (b : Byte) :
    c.update b = { c with shaBuf := c.shaBuf ++ [b], shaLen := c.shaLen + 1 } := by
  have hfull : (c.shaBuf ++ [b]).length ≠ 64 := by simpa using hlen
  rw [update_sha256 h, shaByte, if_neg hfull]

/-- The byte that fills the block sends it through COMPRESS. -/
theorem update_sha256_full {c : Check} (h : c.engine = .sha256) (hlen : c.shaBuf.length = 63) (b : Byte) :
    c.update b =
      { c with shaH := shaCompress c.shaH (c.shaBuf ++ [b]), shaBuf := [], shaLen := c.shaLen + 1 } := by
  have hfull : (c.shaBuf ++ [b]).length = 64 := by simp [hlen]
  rw [update_sha256 h, shaByte, if_pos hfull]

/-! ## A check type (R124) -/

/-- An operand of CHECK_UNSUPPORTED picks no engine. -/
theorem checkUnsupported_wellFormed_iff {b : Byte} :
    (Instr.checkUnsupported b).wellFormed = true ↔ ¬ CheckKnown b := by
  simp [Instr.wellFormed, CheckKnown, and_assoc]

/-! ## The comparison (R132) -/

theorem compareLegal_iff {st : Status} : compareLegal st = true ↔ st = .streamEnd := by simp [compareLegal]

theorem exec_hostCompare_illegal {s : State} (h : s.status ≠ .streamEnd) (tag : List Byte) :
    exec (.hostCompare tag) s = .next s :=
  if_neg (mt compareLegal_iff.mp h)

theorem exec_hostCompare_legal {s : State} (h : s.status = .streamEnd) (tag : List Byte) :
    exec (.hostCompare tag) s = finish (chkCompare tag s) :=
  if_pos (compareLegal_iff.mpr h)

theorem chkCompare_same {s : State} {tag : List Byte} (h : tag.take s.chk.tagLen = s.chk.finalize) :
    chkCompare tag s =
      .done 0 { s with cfg := { s.cfg with expectedTag := tag.take s.chk.tagLen }, checkOk := true } :=
  if_neg (not_not_intro h.symm)

theorem chkCompare_other {s : State} {tag : List Byte} (h : tag.take s.chk.tagLen ≠ s.chk.finalize) :
    chkCompare tag s = raise .data { s with cfg := { s.cfg with expectedTag := tag.take s.chk.tagLen } } :=
  if_pos h.symm

end Sys2Proof.Machine

open Sys2Proof Sys2Proof.Machine

/-- Settles O53, engine by engine: the table's entry of the low byte stands for the eight rounds of the register. -/
theorem checkUpdateIsTheBitwiseCrc : Obligations.CheckUpdateIsTheBitwiseCrc := by
  intro s b
  rw [exec_chkUpdate]
  refine ⟨fun h => ?_, fun h => ?_, fun h => ?_, fun h hlen => ?_, fun h hlen => ?_⟩
  · rw [update_none h]
  · rw [update_crc32 h, crc32Poly]
  · rw [update_crc64 h, crc64Poly]
  · rw [update_sha256_held h hlen]
  · rw [update_sha256_full h hlen]

/-- Settles O60: the tag is the engine's or it is not, and without a check both are empty. -/
theorem compareSetsCheckOkOrRaisesData : Obligations.CompareSetsCheckOkOrRaisesData := by
  intro s tag w
  have hsame (hst : s.status = .streamEnd) (htag : tag.take s.chk.tagLen = s.chk.finalize) :
      exec (.hostCompare tag) s = .next { w with checkOk := true } := by
    rw [exec_hostCompare_legal hst, chkCompare_same htag]
    rfl
  refine ⟨fun hst => exec_hostCompare_illegal hst tag, hsame, fun hst htag => ?_, fun hst he hlen => ?_⟩
  · rw [exec_hostCompare_legal hst, chkCompare_other htag]
    rfl
  · have hempty : tag.take s.chk.tagLen = s.chk.finalize := by rw [hlen, Check.finalize, he, List.take_zero]
    exact ⟨_, hsame hst hempty, rfl⟩

/-- Settles O52: each engine's row of R124, and the error of a check type that has none. -/
theorem checkTypesSelectTheEngine : Obligations.CheckTypesSelectTheEngine := by
  intro s sel
  have hrow (b : Byte) (e : CheckEngine) (n : Nat) (h : CheckRow b e n) :
      finish (chkSelect (s.setCheckType b)) = .next (sel b e n) :=
    congrArg finish (chkSelect_row (s := s.setCheckType b) h)
  refine ⟨hrow _ _ _ (.inl ⟨rfl, rfl, rfl⟩), hrow _ _ _ (.inr (.inl ⟨rfl, rfl, rfl⟩)),
    hrow _ _ _ (.inr (.inr (.inl ⟨rfl, rfl, rfl⟩))), hrow _ _ _ (.inr (.inr (.inr ⟨rfl, rfl, rfl⟩))), fun b hb => ?_⟩
  exact congrArg finish (chkSelect_unknown (s := s.setCheckType b) (checkUnsupported_wellFormed_iff.mp hb))

end

section
/-! SUPPORT. The host's turn and the return of HOST_RUN (60_exceptions.md R133, R135, R138). -/

namespace Sys2Proof.Machine

/-! ## The host's turn -/

theorem step_of_hostTurn {s : State} (h : s.host.inRun = false) : step s = hostStep s := by
  simp [step, blockStep, h]

theorem hostStep_nil {s : State} (h : s.host.queue = []) : hostStep s = .next s := by rw [hostStep, h]

theorem hostStep_cons {s : State} {op : HostOp} {rest : List HostOp} (h : s.host.queue = op :: rest) :
    hostStep s = exec op.toInstr { s with host := { s.host with queue := rest } } := by rw [hostStep, h]

/-! ## HOST_RESET, HOST_FEED, HOST_END_INPUT, HOST_SPACE and HOST_RUN -/

theorem exec_hostReset (cap : Word32) (s : State) : exec (.hostReset cap) s = .next (s.rstHost cap) := rfl

@[simp] theorem rstHost_status (s : State) (cap : Word32) : (s.rstHost cap).status = .idle := rfl

theorem exec_hostFeed (bs : List Byte) (s : State) :
    exec (.hostFeed bs) s = .next { s with io := { s.io with input := s.io.input ++ bs } } := rfl

theorem exec_hostEndInput (s : State) :
    exec .hostEndInput s = .next { s with io := { s.io with inputEnded := true } } := rfl

theorem exec_hostSpace (n : Nat) (s : State) :
    exec (.hostSpace n) s = .next { s with io := { s.io with space := s.io.space + n } } := rfl

theorem exec_hostRun_starts {s : State} (h : s.status = .running) :
    exec .hostRun s = .next { s with host := { s.host with inRun := true, runReturn := none } } := if_pos h

theorem exec_hostRun_returns {s : State} (h : s.status ≠ .running) :
    exec .hostRun s = .next { s with host := { s.host with runReturn := some { status := s.status, wait := none } } } :=
  if_neg h

/-! ## The return of HOST_RUN, case by case -/

theorem settle_terminal {s : State} (h : s.status ≠ .running) :
    settle s = { s with host := { s.host with inRun := false, runReturn := some { status := s.status, wait := none } } } :=
  if_neg h

theorem settle_waits {s : State} {w : Suspension} (h : s.status = .running) (hw : s.susp = some w) :
    settle s = { s with host :=
      { s.host with inRun := false, runReturn := some { status := s.status, wait := some (waitOf w) } } } := by
  rw [settle, if_pos h, hw]

theorem settle_goesOn {s : State} (h : s.status = .running) (hw : s.susp = none) : settle s = s := by
  rw [settle, if_pos h, hw]

end Sys2Proof.Machine

open Sys2Proof Sys2Proof.Machine

/-- Settles O10, by the three cases of the return: `status` is terminal, an operation waits, or the run goes on. -/
theorem runReturnsOnWaitOrTerminalStatus : Obligations.RunReturnsOnWaitOrTerminalStatus := by
  intro s t hr h
  obtain ⟨v, hv, rfl⟩ := nextOp_of_step hr h
  obtain ⟨hrun, -, -⟩ := hr
  by_cases hst : v.status = .running
  · cases hw : v.susp with
    | some w => simp [settle_waits hst hw, hst, hw]
    | none =>
      have hin : v.host.inRun = true := by rw [(moves_of_nextOp hv).host, hrun]
      simp [settle_goesOn hst hw, hst, hw, hin]
  · simp [settle_terminal hst, hst]

/-- Settles O18, operation by operation: the streams and the host's side are all that any but HOST_RESET reaches. -/
theorem errorIsSticky : Obligations.ErrorIsSticky := by
  intro s k hk
  have hconfig := exec_hostConfig_illegal (s := s) (by simp [hk])
  have hcompare := exec_hostCompare_illegal (s := s) (by simp [hk])
  have hrun := exec_hostRun_returns (s := s) (by simp [hk])
  refine ⟨hconfig, hcompare, hk ▸ hrun, fun op hop => ?_, fun cap => ⟨_, exec_hostReset cap s, rstHost_status s cap⟩⟩
  cases op with
  | reset cap => exact absurd rfl (hop cap)
  | config dp arch ct => exact ⟨_, hconfig dp arch ct, rfl, rfl, rfl⟩
  | feed bs => exact ⟨_, exec_hostFeed bs s, rfl, rfl, rfl⟩
  | endInput => exact ⟨_, exec_hostEndInput s, rfl, rfl, rfl⟩
  | space n => exact ⟨_, exec_hostSpace n s, rfl, rfl, rfl⟩
  | run => exact ⟨_, hrun, rfl, rfl, rfl⟩
  | compare tag => exact ⟨_, hcompare tag, rfl, rfl, rfl⟩

/-- Settles O9, by the host's queue. -/
theorem hostOperationsRunInOrder : Obligations.HostOperationsRunInOrder := by
  intro s h
  rw [step_of_hostTurn h]
  exact ⟨fun _ _ => hostStep_cons, hostStep_nil⟩

/-- Settles O59, from what each of the four operations does. -/
theorem feedEndInputSpaceAndRun : Obligations.FeedEndInputSpaceAndRun := fun s bs n =>
  ⟨exec_hostFeed bs s, exec_hostEndInput s, exec_hostSpace n s, exec_hostRun_starts, exec_hostRun_returns⟩

end

section
/-! SUPPORT. The resets (70_reset_and_hazards.md R145, R147 to R149) and what a match copy leaves in the window (R151). -/

namespace Sys2Proof.Machine

/-! ## The repeated bytes of a match copy -/

/-- The byte that a copy puts is the next one of the period: the last `dist + 1` bytes, which stand at the distances
`dist`, ..., 0, have moved on by one place, and the first of them has come round to the end (R61, R151). -/
theorem Dict.get_put_period {d : Dict} (hw : d.mem.wf = true) (hp : d.pos < d.size) (hv : d.valid ≤ d.size) {dist : Word32}
    (hd : dist.toNat < d.valid) {r : Nat} (hr : r ≤ dist.toNat) :
    (d.put (d.get dist)).get (dist - .ofNat 32 r) = d.get (dist - .ofNat 32 ((r + 1) % (dist.toNat + 1))) := by
  rcases Nat.lt_or_eq_of_le hr with hlt | rfl
  · have hsucc : (dist - .ofNat 32 r).toNat = (dist - .ofNat 32 (r + 1)).toNat + 1 := by bv_omega
    have hin : (dist - .ofNat 32 (r + 1)).toNat + 1 < d.size := by bv_omega
    rw [Nat.mod_eq_of_lt (by omega), Dict.get_put_succ hw hp _ hsucc hin (by omega)]
  · rw [Nat.mod_self, BitVec.ofNat_toNat, BitVec.setWidth_eq, sub_self, BitVec.sub_zero, Dict.get_put_zero hw hp]

/-- The bytes from before a copy of `n` stand `n` further from the front, as far as the window reaches. -/
theorem Dict.get_copied_old {d : Dict} (hw : d.mem.wf = true) (hp : d.pos < d.size) (hv : d.valid ≠ 0) (dist : Word32)
    {n : Nat} {k l : Word32} (hl : l.toNat = k.toNat + n) (hs : l.toNat < d.size) :
    (Dict.copied dist n d).get l = d.get k := by
  induction n generalizing d k with
  | zero => rw [Dict.copied, BitVec.eq_of_toNat_eq hl]
  | succ n ih =>
    have hk : (k + 1).toNat = k.toNat + 1 := by bv_omega
    rw [Dict.copied, ih (Dict.put_wf hw _) (Nat.mod_lt _ (by omega)) (Dict.put_valid_ne_zero hp _) (k := k + 1) (by omega) hs,
      Dict.get_put_succ hw hp _ hk (by omega) hv]

/-- The bytes of a copy, from the first, at distance `n - 1`, to the last: the period over and over (R151). -/
theorem Dict.get_copied_new {d : Dict} (hw : d.mem.wf = true) (hp : d.pos < d.size) (hv : d.valid ≤ d.size) {dist : Word32}
    (hd : dist.toNat < d.valid) {n : Nat} {k : Word32} (hk : k.toNat < n) (hs : k.toNat < d.size) :
    (Dict.copied dist n d).get k = d.get (dist - .ofNat 32 ((n - 1 - k.toNat) % (dist.toNat + 1))) := by
  induction n generalizing d with
  | zero => exact absurd hk (Nat.not_lt_zero _)
  | succ n ih =>
    have hw' := Dict.put_wf hw (d.get dist)
    have hp' : (d.put (d.get dist)).pos < (d.put (d.get dist)).size := Nat.mod_lt _ (by omega)
    rw [Dict.copied]
    rcases Nat.lt_succ_iff_lt_or_eq.mp hk with hlt | heq
    · have hv' : (d.put (d.get dist)).valid ≤ d.size := Nat.min_le_right _ _
      have hd' : dist.toNat < (d.put (d.get dist)).valid := by
        rw [Dict.put_valid]
        omega
      rw [ih hw' hp' hv' hd' hlt hs, Dict.get_put_period hw hp hv hd (Nat.le_of_lt_succ (Nat.mod_lt _ (Nat.succ_pos _))),
        Nat.mod_add_mod]
      congr 4
      omega
    · rw [Dict.get_copied_old hw' hp' (Dict.put_valid_ne_zero hp _) dist (k := 0) (by simpa using heq) hs,
        Dict.get_put_zero hw hp]
      simp [heq]

/-! ## The resets of the dictionary and the coder -/

theorem exec_dictReset (s : State) : exec .dictReset s = .next { s with dict := s.dict.restart } := rfl

theorem exec_lzmaStateReset (s : State) : exec .lzmaStateReset s = .next s.lzmaStateReset := rfl

theorem exec_rcReset (s : State) : exec .rcReset s = .next { s with rc := .idle } := rfl

/-- A cell that is not listed is 1024, and the LZMA state reset leaves none listed (R148). -/
theorem lzmaStateReset_probs_read (s : State) (i : Nat) : s.lzmaStateReset.probs.read i = 1024 := by
  rw [State.lzmaStateReset_probs]
  rfl

/-! ## HOST_RESET -/

/-- `DICT_CAP` after HOST_RESET: 0 stands for the default (R145). -/
theorem rstHost_dictCap (s : State) (cap : Word32) :
    (s.rstHost cap).cfg.dictCap = if cap = 0 then 0x04000000 else cap := rfl

@[simp] theorem rstHost_checkOk (s : State) (cap : Word32) : (s.rstHost cap).checkOk = false := rfl

@[simp] theorem rstHost_io (s : State) (cap : Word32) :
    (s.rstHost cap).io = { s.io with input := [], inputEnded := false, space := 0 } := rfl

@[simp] theorem rstHost_bcj (s : State) (cap : Word32) :
    (s.rstHost cap).bcj = { pos := 0, carry := [], x86PrevMask := 0 } := rfl

end Sys2Proof.Machine

open Sys2Proof Sys2Proof.Machine

/-- Settles O37, by induction on the bytes of the copy: each put moves the period on by one place, and the first byte of the
copy moves back with the old ones. -/
theorem overlappingCopyRepeats : Obligations.OverlappingCopyRepeats := fun _ _ _ _ hw hp hv hd hk hs =>
  Dict.get_copied_new hw hp hv hd hk hs

/-- Settles O11: nothing runs or waits at reset, so the ranges of its registers and the bound on `carry` are all there is. -/
theorem resetMeetsTheInvariant : Obligations.ResetMeetsTheInvariant := ⟨reset_inv, reset_coderInv⟩

/-- Settles O55, reset by reset. -/
theorem stateResetsLeaveTheirValues : Obligations.StateResetsLeaveTheirValues := fun s =>
  ⟨exec_dictReset s, ⟨_, exec_lzmaStateReset s, lzmaStateReset_probs_read s⟩, exec_rcReset s⟩

/-- Settles O56, register by register; HOST_RESET does not look at `status`. -/
theorem hostResetLeavesIdle : Obligations.HostResetLeavesIdle := by
  intro s cap
  refine ⟨_, exec_hostReset cap s, rstHost_dictCap s cap, rstHost_status s cap, rstHost_checkOk s cap, ?_, ?_, ?_,
    rstHost_bcj s cap⟩
  all_goals rw [rstHost_io]

end
